-- ==== Sys2Proof/Word.lean ====
section
/-! DEFINITION. The word types of bilinear_scaler: what the spec itself treats as bits (00_scope.md R8, R12, R13). -/

namespace Sys2Proof

/-- A register of the window, a command word, a word of a table read-out: `u32` (00_scope.md R8; `REG_BITS` of R6). -/
abbrev Word := BitVec 32

/-- A sample, one byte of data memory: `u8` (00_scope.md R8, R11). -/
abbrev Byte := BitVec 8

/-- The interchange encoding of a *double*, an IEEE 754 binary64 number (00_scope.md R12). -/
abbrev F64 := BitVec 64

/-- The interchange encoding of a *float*, an IEEE 754 binary32 number: `bits32` of 00_scope.md R13. -/
abbrev F32 := BitVec 32

end Sys2Proof
end

