-- ==== Sys2Proof/Config.lean ====
section
/-! DEFINITION. The parameters an implementation fixes (00_scope.md R6, 92_eei_decisions.md open list), the defaults
the model instantiates, and the constants that are not parameters. -/

namespace Sys2Proof

/-- The implementation parameters of 00_scope.md R6 and the platform's predicate `MEM_ADMIT` of 20_memory.md R71.
`REG_BITS` is the width of `Word`; `REG_BASE` is no field, since no rule depends on it (92_eei_decisions.md D2). -/
structure Config where
  /-- `ADDR_BITS`: width of a data-memory address. -/
  addrBits : Nat
  /-- `DIM_BITS`: number of bits of a legal dimension. -/
  dimBits : Nat
  /-- `MAX_CH`: largest legal channel count. -/
  maxCh : Nat
  /-- `TAB_CAP`: capacity of `XTAB`, `YTAB` and `YGRP`, in entries. -/
  tabCap : Nat
  /-- `ROW_CAP`: capacity of `SCRATCH` and `ACC`, in binary32 elements. -/
  rowCap : Nat
  /-- `FP_CAP`: capacity of `FPX` and `FPY`, in entries. -/
  fpCap : Nat
  /-- `ID_VALUE`: what the register `ID` reads. -/
  idValue : Word
  /-- `MEM_ADMIT(addr)`: the byte at `addr` is ordinary memory (20_memory.md R71). -/
  memAdmit : Nat → Bool

/-- `MAX_DIM = 2^DIM_BITS - 1` (00_scope.md R6). -/
def Config.maxDim (c : Config) : Nat := 2 ^ c.dimBits - 1

/-- The defaults of 00_scope.md R6, which the model instantiates. DESIGN CHOICE (log entry 5): the spec lets a model
take any legal instance; unsafe for a block built with other parameters. -/
def Config.default : Config where
  addrBits := 32
  dimBits := 16
  maxCh := 4
  tabCap := 16386
  rowCap := 32768
  fpCap := 8192
  idValue := 0x42534331#32
  memAdmit := fun _ => true

/-- The instances the spec allows: `DIM_BITS` from 1 to 19 (00_scope.md R7), `ADDR_BITS` at most 32
(92_eei_decisions.md D2), and fields of `CAP_DIM` and the capacity registers that hold their values (10_state.md R43). -/
def Config.legal (c : Config) : Bool :=
  1 ≤ c.dimBits && c.dimBits ≤ 19 && 1 ≤ c.addrBits && c.addrBits ≤ 32 && 1 ≤ c.maxCh && c.maxCh < 256 &&
    c.tabCap < 2 ^ 32 && c.rowCap < 2 ^ 32 && c.fpCap < 2 ^ 32

/-- `COEF_BITS` of 00_scope.md R6: fixed-point precision of the linear path. -/
def coefBits : Nat := 11

/-- `ONE = 2^COEF_BITS` of 00_scope.md R6. -/
def fixedOne : Nat := 2048

/-- `EPS_PART`: the double of 00_scope.md R16 for the literal `1e-3`. -/
def epsPart : F64 := 0x3F50624DD2F1A9FC#64

/-- `EPS_INT`: the double of 00_scope.md R16 for the literal `1e-6`. -/
def epsInt : F64 := 0x3EB0C6F7A0B5ED8D#64

/-- The double `1.0`, exact (00_scope.md R16). -/
def oneF64 : F64 := 0x3FF0000000000000#64

/-- The double `2048.0`, exact, of 44_linear.md R176. -/
def fixedOneF64 : F64 := 0x40A0000000000000#64

end Sys2Proof
end

