-- ==== Sys2Proof/Syntax.lean ====
section
/-! DEFINITION. The whole syntax: the eight commands of the opcode table (30_encoding.md R81), the fields of the
command word (R80), the registers of the window (10_state.md R22), the host's bus accesses (00_scope.md R19) and the
host notation (30_encoding.md R90, R91). -/

namespace Sys2Proof

/-- The commands of 30_encoding.md R81, one constructor per row of the opcode table. A command word carries no operand
(R80), so no constructor has an argument. -/
inductive Instr where
  /-- `RESIZE`: 45_dispatch.md R190. -/
  | resize
  /-- `AREA_INT`: 42_area_integer.md R140. -/
  | areaInt
  /-- `AREA_GEN`: 43_area_general.md R150. -/
  | areaGen
  /-- `LINEAR`: 44_linear.md R177. -/
  | linear
  /-- `WTAB_X`: 41_weight_table.md R129. -/
  | wtabX
  /-- `WTAB_Y`: 41_weight_table.md R130. -/
  | wtabY
  /-- `FPTAB_X`: 44_linear.md R173. -/
  | fptabX
  /-- `FPTAB_Y`: 44_linear.md R174. -/
  | fptabY
  deriving DecidableEq, Repr

/-- The two fields of a command word (30_encoding.md R80): `ZERO` in bits 31:4, `OP` in bits 3:0. -/
structure CommandFields where
  zero : BitVec 28
  op : BitVec 4
  deriving DecidableEq, Repr

/-- The registers of the window, in the order of the table of 10_state.md R22. -/
inductive Reg where
  | cmd | status
  | srcBase | srcWidth | srcHeight | srcStride
  | dstBase | dstWidth | dstHeight | dstStride
  | channels
  | xtabCount | ytabCount | ygrpCount | fpxCount | fpyCount
  | iscaleX | iscaleY
  | tabSel | tabIdx | tabD0 | tabD1 | tabD2
  | id | capDim | capTab | capRow | capFp
  deriving DecidableEq, Repr

/-- The access rights of 10_state.md R22. -/
inductive AccessRight where
  | readWrite | readOnly | writeOnly
  deriving DecidableEq, Repr

/-- Widths a host may try on the register window (20_memory.md R68): only `bits32` is legal. -/
inductive AccessWidth where
  | bits8 | bits16 | bits32 | bits64
  deriving DecidableEq, Repr

/-- One event at the block's boundary: an access of the host (00_scope.md R19, the encoding of 30_encoding.md R92 with
`W <offset> <data>` and `R <offset>`), or the platform's reset (70_reset_and_hazards.md R220). -/
inductive BusAccess where
  /-- A read of the register window at a byte offset. -/
  | windowRead (width : AccessWidth) (offset : Nat)
  /-- A write to the register window at a byte offset; only the 32-bit one is legal, so the data is a word. -/
  | windowWrite (width : AccessWidth) (offset : Nat) (data : Word)
  /-- A host read of one byte of data memory. -/
  | memRead (addr : Nat)
  /-- A host write of one byte of data memory. -/
  | memWrite (addr : Nat) (data : Byte)
  /-- The platform applies the reset. DEDUCED (log entry 9): it lands between two accesses. -/
  | reset
  deriving DecidableEq, Repr

/-- One line of a host script (30_encoding.md R90) or one of its pseudo-instructions (R91). -/
inductive ScriptLine where
  | wr (r : Reg) (value : Word)
  | rd (r : Reg)
  | cmd (i : Instr)
  | memw (addr : Nat) (data : Byte)
  | memr (addr : Nat)
  /-- `SRC b, w, h, s`. -/
  | src (b w h s : Word)
  /-- `DST b, w, h, s`. -/
  | dst (b w h s : Word)
  /-- `CH n`. -/
  | ch (n : Word)
  /-- `TABRD sel, idx`. -/
  | tabrd (sel idx : Word)
  /-- `resize_area(src_view, dst_view)`: the source view, the destination view and the shared channel count. -/
  | resizeArea (sb sw sh ss db dw dh ds n : Word)
  deriving DecidableEq, Repr

end Sys2Proof
end

