-- ==== Sys2Proof/WellFormed.lean ====
section
/-! DEFINITION. Well-formedness: which command fields are a command, which bus accesses the spec gives a meaning. -/

namespace Sys2Proof

/-- Every command is well formed: a command word has no operand field (30_encoding.md R80, R84). -/
def Instr.wf (i : Instr) : Bool :=
  match i with
  | .resize => true
  | .areaInt => true
  | .areaGen => true
  | .linear => true
  | .wtabX => true
  | .wtabY => true
  | .fptabX => true
  | .fptabY => true

/-- The fields of a legal command word (30_encoding.md R83): `ZERO` is 0 and `OP` is 1 to 8. -/
def CommandFields.wf (f : CommandFields) : Bool :=
  f.zero == 0#28 && (1 ≤ f.op.toNat && f.op.toNat ≤ 8)

/-- A legal access to the register window (20_memory.md R68): 32 bits, at a multiple of 4 below 4096. -/
def windowAccessOk (width : AccessWidth) (offset : Nat) : Bool :=
  width == .bits32 && offset % 4 == 0 && offset < 4096

/-- An address of the data memory (00_scope.md R11, 20_memory.md R60): below `2^ADDR_BITS`. -/
def Config.addressOk (c : Config) (addr : Nat) : Bool := addr < 2 ^ c.addrBits

/-- The bus accesses to which the spec gives a meaning. -/
def BusAccess.wf (c : Config) (a : BusAccess) : Bool :=
  match a with
  | .windowRead w o => windowAccessOk w o
  | .windowWrite w o _ => windowAccessOk w o
  | .memRead addr => c.addressOk addr
  | .memWrite addr _ => c.addressOk addr
  | .reset => true

end Sys2Proof
end

