-- ==== Sys2Proof/Decode.lean ====
section
/-! DEFINITION. The decoder of command words, total and rejecting by name (30_encoding.md R83, R89), and after it the
encoder, written from the opcode map (R81). -/

namespace Sys2Proof

/-- Why a word is illegal (30_encoding.md R83). -/
inductive IllegalWord where
  /-- `w[31:4] != 0`. -/
  | zeroFieldSet
  /-- `OP = 0`, or `OP` is 9 to 15. -/
  | reservedOp (op : BitVec 4)
  deriving DecidableEq, Repr

/-- The fields of a word (30_encoding.md R80). -/
def fieldsOf (w : Word) : CommandFields :=
  ⟨w.extractLsb' 4 28, w.extractLsb' 0 4⟩

/-- The word with given fields: `ZERO ++ OP` (30_encoding.md R80). -/
def CommandFields.word (f : CommandFields) : Word := f.zero ++ f.op

/-- The opcode map (30_encoding.md R81), from `OP` to the command. -/
def instrOfOp (op : BitVec 4) : Option Instr :=
  match op.toNat with
  | 1 => some .resize
  | 2 => some .areaInt
  | 3 => some .areaGen
  | 4 => some .linear
  | 5 => some .wtabX
  | 6 => some .wtabY
  | 7 => some .fptabX
  | 8 => some .fptabY
  | _ => none

/-- `decode` of 30_encoding.md R89, a total function of the 32-bit word. -/
def decode (w : Word) : Except IllegalWord Instr :=
  let f := fieldsOf w
  if f.zero = 0#28 then
    match instrOfOp f.op with
    | some i => .ok i
    | none => .error (.reservedOp f.op)
  else .error .zeroFieldSet

/-- The value of `OP` of each command (30_encoding.md R81). -/
def Instr.op (i : Instr) : BitVec 4 :=
  match i with
  | .resize => 1#4
  | .areaInt => 2#4
  | .areaGen => 3#4
  | .linear => 4#4
  | .wtabX => 5#4
  | .wtabY => 6#4
  | .fptabX => 7#4
  | .fptabY => 8#4

/-- The command word of an instruction (30_encoding.md R80, R81). -/
def encode (i : Instr) : Word := CommandFields.word ⟨0#28, i.op⟩

/-- The command word whose low `nbits` bits are `w`, every higher bit 0 (the opcode table's numbering, bit 0 first). -/
def tableWord (nbits w : Nat) : Word := BitVec.ofNat 32 (w % 2 ^ nbits)

/-- What the decoder reads from a row of the opcode table. The host writes the word to `CMD` whole, as one 32-bit
register value, so no byte order arises (20_memory.md R65). -/
def decodeTableWord (nbits w : Nat) : Option Instr :=
  match decode (tableWord nbits w) with
  | .ok i => some i
  | .error _ => none

end Sys2Proof
end

