-- ==== Sys2Proof/Machine/State.lean ====
section
/-! DEFINITION. The state of the block and of what stands beside it, as plain data (10_state.md R20 to R52), the
reasons a step can stop, and the state after reset (70_reset_and_hazards.md R220). -/

namespace Sys2Proof.Machine

/-- The outcomes of a command: the codes of `STATUS.ERR` (60_exceptions.md R200, 10_state.md R26). -/
inductive ErrCode where
  | ok | invalidArgument | dimensionOverflow | invalidStride | emptyBuffer | allocationFailure
  deriving DecidableEq, Repr

/-- The values of `STATUS.PATH` (10_state.md R26). -/
inductive PixelPath where
  /-- `NONE`: a table-only command, or an error. -/
  | noPath
  /-- `INT`: integer area. -/
  | int
  /-- `GEN`: general area. -/
  | gen
  /-- `LIN`: linear. -/
  | lin
  deriving DecidableEq, Repr

/-- An entry of `XTAB` or `YTAB`, a DecimateEntry (10_state.md R44, R45). The offsets are unsigned integers, kept as
numbers (log entry 18); the weight is a float. -/
structure WeightEntry where
  si : Nat
  di : Nat
  alpha : F32
  deriving DecidableEq, Repr

/-- An entry of `YGRP` (10_state.md R46): the run `YTAB[start]` to `YTAB[stop - 1]` (the spec's field `end`). -/
structure RunEntry where
  start : Nat
  stop : Nat
  deriving DecidableEq, Repr

/-- An entry of `FPX` or `FPY`, a FixedPointTable entry (10_state.md R47, R48). -/
structure FixedEntry where
  ofs0 : Nat
  ofs1 : Nat
  w0 : Nat
  w1 : Nat
  deriving DecidableEq, Repr

/-- Data memory (20_memory.md R60): the bytes that differ from `Memory.unlisted`, by rising address. -/
abbrev Memory := List Host.Cell

/-- What a read of the host returned (30_encoding.md R90, the value after "=>"). -/
inductive ReadValue where
  | register (v : Word)
  | byte (v : Byte)
  deriving DecidableEq, Repr

/-- The whole state: the block's (10_state.md R21), the data memory (20_memory.md R60) and the host's pending accesses
(00_scope.md R19). -/
structure State where
  -- the nine descriptor registers (10_state.md R27 to R35) and the table selector (R41)
  srcBase : Word
  srcWidth : Word
  srcHeight : Word
  srcStride : Word
  dstBase : Word
  dstWidth : Word
  dstHeight : Word
  dstStride : Word
  channels : Word
  tabSel : Word
  tabIdx : Word
  -- the fields of `STATUS` (10_state.md R26)
  done : Bool
  err : ErrCode
  path : PixelPath
  -- the integer scales (10_state.md R40)
  iscaleX : Word
  iscaleY : Word
  -- the five counts (10_state.md R36 to R39)
  xtabCount : Word
  ytabCount : Word
  ygrpCount : Word
  fpxCount : Word
  fpyCount : Word
  -- the five tables (10_state.md R44 to R48): the entries ever written, from entry 0 on, stale ones included
  xtab : List WeightEntry
  ytab : List WeightEntry
  ygrp : List RunEntry
  fpx : List FixedEntry
  fpy : List FixedEntry
  -- the two row buffers (10_state.md R49): the elements ever written, from element 0 on
  scratch : List F32
  acc : List F32
  -- beside the block: data memory, the host's pending accesses, the values its reads returned (newest first)
  mem : Memory
  script : List BusAccess
  listing : List ReadValue
  deriving DecidableEq, Repr

/-- The faults. The block itself has none (93_implementation_defined.md part 1). -/
inductive Fault where
  /-- Raised by a host access to data memory at an address that is not below `2^ADDR_BITS`, which the spec says does
  not exist (00_scope.md R11, 20_memory.md R60). Safe: the model stops. DESIGN CHOICE (log entry 8). -/
  | outsideDataMemory
  deriving DecidableEq, Repr

/-- The refusals, each one the spec asks a model for. -/
inductive Refusal where
  /-- Raised by an arm of `exec` whose instruction has no meaning yet; no arm raises it now. Safe. -/
  | notModelled (mnemonic : String)
  /-- Raised by a host access to the register window that is not an aligned 32-bit access below 4096: "a model refuses
  it" (20_memory.md R68). Safe: the hardware changes no state. -/
  | windowAccess
  /-- Raised by the pixel pass when a byte of a footprint is not admitted by `MEM_ADMIT`: "a model refuses it"
  (20_memory.md R71, 60_exceptions.md R208). Safe: the model stops. -/
  | memoryNotAdmitted
  /-- Raised by the pixel pass when the two footprints share a byte: "the command has no meaning in this spec and a
  model refuses it" (20_memory.md R72). Safe: the model stops. -/
  | overlappingFootprints
  deriving DecidableEq, Repr

/-- The machine right after reset (70_reset_and_hazards.md R220, 10_state.md R52). The contents of the tables and
buffers are unspecified there: none is written yet (log entry 2). Data memory lists nothing (log entry 1). -/
def State.reset : State where
  srcBase := 0
  srcWidth := 0
  srcHeight := 0
  srcStride := 0
  dstBase := 0
  dstWidth := 0
  dstHeight := 0
  dstStride := 0
  channels := 0
  tabSel := 0
  tabIdx := 0
  done := false
  err := .ok
  path := .noPath
  iscaleX := 0
  iscaleY := 0
  xtabCount := 0
  ytabCount := 0
  ygrpCount := 0
  fpxCount := 0
  fpyCount := 0
  xtab := []
  ytab := []
  ygrp := []
  fpx := []
  fpy := []
  scratch := []
  acc := []
  mem := []
  script := []
  listing := []

end Sys2Proof.Machine
end

