-- ==== Sys2Proof/Machine/Flags.lean ====
section
/-! DEFINITION. The fields of `STATUS`, the block's only flags (10_state.md R23, R26; 60_exceptions.md R200). -/

namespace Sys2Proof.Machine

/-- The number of an error (60_exceptions.md R200). -/
def ErrCode.code (e : ErrCode) : Nat :=
  match e with
  | .ok => 0
  | .invalidArgument => 1
  | .dimensionOverflow => 2
  | .invalidStride => 3
  | .emptyBuffer => 4
  | .allocationFailure => 5

/-- The number of a path (10_state.md R26). -/
def PixelPath.code (p : PixelPath) : Nat :=
  match p with
  | .noPath => 0
  | .int => 1
  | .gen => 2
  | .lin => 3

/-- The word of `STATUS` (10_state.md R26): `DONE` in bit 1, `ERR` in bits 7:4, `PATH` in bits 9:8, the rest 0. -/
def statusOf (done : Bool) (err : ErrCode) (path : PixelPath) : Word :=
  BitVec.ofNat 32 ((if done then 2 else 0) + 16 * err.code + 256 * path.code)

/-- What a read of `STATUS` returns. -/
def State.statusWord (s : State) : Word := statusOf s.done s.err s.path

end Sys2Proof.Machine
end

