-- ==== Sys2Proof/Machine/Floats.lean ====
section
/-! DEFINITION. The floating-point primitives of 00_scope.md R12, R13, R14: IEEE 754 binary64 and binary32, every
operation the exact result rounded once to nearest, ties to even. Written over the encodings as numbers, so that the
kernel can evaluate them; total on every encoding, NaN and infinity included (log entry 10). -/

namespace Sys2Proof.Machine

/-- A binary interchange format: the widths of its exponent and fraction fields. -/
structure FloatFormat where
  expBits : Nat
  fracBits : Nat
  deriving DecidableEq, Repr

/-- IEEE 754 binary64: 1 sign, 11 exponent and 52 fraction bits (00_scope.md R12). -/
def binary64 : FloatFormat := ⟨11, 52⟩

/-- IEEE 754 binary32: sign in bit 31, exponent in bits 30:23, fraction in bits 22:0 (00_scope.md R13). -/
def binary32 : FloatFormat := ⟨8, 23⟩

/-- What an encoding stands for; a finite value is `(-1)^neg * mant * 2^exp`. -/
inductive FloatVal where
  | nan
  | infinite (neg : Bool)
  | finite (neg : Bool) (mant : Nat) (exp : Int)
  deriving DecidableEq, Repr

/-- The exponent bias. -/
def FloatFormat.bias (f : FloatFormat) : Nat := 2 ^ (f.expBits - 1) - 1

/-- The magnitude bits of infinity: exponent field all ones, fraction 0. -/
def FloatFormat.infMag (f : FloatFormat) : Nat := (2 ^ f.expBits - 1) * 2 ^ f.fracBits

/-- The quiet NaN the model answers with. PRESUMED (log entry 10): no command ever produces a NaN. -/
def FloatFormat.nanBits (f : FloatFormat) : Nat := f.infMag + 2 ^ (f.fracBits - 1)

/-- The value of an encoding. -/
def FloatFormat.unpack (f : FloatFormat) (bits : Nat) : FloatVal :=
  let frac := bits % 2 ^ f.fracBits
  let e := bits / 2 ^ f.fracBits % 2 ^ f.expBits
  let neg := bits / 2 ^ (f.fracBits + f.expBits) % 2 == 1
  if e = 2 ^ f.expBits - 1 then
    if frac = 0 then .infinite neg else .nan
  else if e = 0 then .finite neg frac (1 - f.bias - f.fracBits)
  else .finite neg (2 ^ f.fracBits + frac) (e - f.bias - f.fracBits)

/-- An encoding from its sign and its magnitude bits. -/
def FloatFormat.pack (f : FloatFormat) (neg : Bool) (mag : Nat) : Nat :=
  if neg then 2 ^ (f.fracBits + f.expBits) + mag else mag

/-- `n / d` rounded to the nearest natural number, ties to the even one (00_scope.md R14), for `d > 0`. -/
def rneDiv (n d : Nat) : Nat :=
  let q := n / d
  let r := n % d
  if 2 * r < d then q else if d < 2 * r then q + 1 else q + q % 2

/-- The numerator of `m * 2^e` as a fraction. -/
def scaleNum (m : Nat) (e : Int) : Nat := m * 2 ^ e.toNat

/-- The denominator of `m * 2^e` as a fraction. -/
def scaleDen (e : Int) : Nat := 2 ^ (-e).toNat

/-- The exponent of the leading binary digit of `n / d`, for `n > 0` and `d > 0`. -/
def log2Ratio (n d : Nat) : Int :=
  let e : Int := (n.log2 : Int) - d.log2
  if scaleNum n (-e) < scaleNum d e then e - 1 else e

/-- The exponent of the last digit kept when `n / d` is rounded to the format: below the least normal exponent the
digits stop at the least subnormal one. -/
def FloatFormat.quantum (f : FloatFormat) (n d : Nat) : Int :=
  max (log2Ratio n d) (1 - f.bias) - f.fracBits

/-- The magnitude bits of `n / d` rounded once to nearest, ties to even (00_scope.md R12, R13). A significand that
rounds up to the next power of two carries into the exponent field by the addition. -/
def FloatFormat.roundMag (f : FloatFormat) (n d : Nat) : Nat :=
  if n = 0 then 0
  else
    let k := f.quantum n d
    let m := rneDiv (scaleNum n (-k)) (scaleNum d k)
    min ((k + f.fracBits + f.bias - 1).toNat * 2 ^ f.fracBits + m) f.infMag

/-- The encoding of `(-1)^neg * m * 2^e` rounded once. -/
def FloatFormat.roundScaled (f : FloatFormat) (neg : Bool) (m : Nat) (e : Int) : Nat :=
  f.pack neg (f.roundMag (scaleNum m e) (scaleDen e))

/-- The signed significand of a finite value brought to the exponent `e`, for `e` at most its own. -/
def alignTo (neg : Bool) (m : Nat) (exp e : Int) : Int :=
  let a : Int := m * 2 ^ (exp - e).toNat
  if neg then -a else a

/-- IEEE 754 multiplication, rounded once. -/
def FloatFormat.mul (f : FloatFormat) (a b : Nat) : Nat :=
  match f.unpack a, f.unpack b with
  | .nan, _ => f.nanBits
  | .infinite _, .nan => f.nanBits
  | .finite _ _ _, .nan => f.nanBits
  | .infinite s, .infinite t => f.pack (s ^^ t) f.infMag
  | .infinite s, .finite t m _ => if m = 0 then f.nanBits else f.pack (s ^^ t) f.infMag
  | .finite s m _, .infinite t => if m = 0 then f.nanBits else f.pack (s ^^ t) f.infMag
  | .finite s m e, .finite t n g => f.roundScaled (s ^^ t) (m * n) (e + g)

/-- IEEE 754 addition, rounded once; an exact zero is `-0` only when both operands are negative. -/
def FloatFormat.add (f : FloatFormat) (a b : Nat) : Nat :=
  match f.unpack a, f.unpack b with
  | .nan, _ => f.nanBits
  | .infinite _, .nan => f.nanBits
  | .finite _ _ _, .nan => f.nanBits
  | .infinite s, .infinite t => if s = t then f.pack s f.infMag else f.nanBits
  | .infinite s, .finite _ _ _ => f.pack s f.infMag
  | .finite _ _ _, .infinite t => f.pack t f.infMag
  | .finite s m e, .finite t n g =>
    let h := min e g
    let sum := alignTo s m e h + alignTo t n g h
    if sum = 0 then f.pack (s && t) 0
    else f.roundScaled (sum < 0) sum.natAbs h

/-- The encoding with the sign changed. -/
def FloatFormat.neg (f : FloatFormat) (a : Nat) : Nat :=
  if a / 2 ^ (f.fracBits + f.expBits) % 2 == 1 then a - 2 ^ (f.fracBits + f.expBits)
  else a + 2 ^ (f.fracBits + f.expBits)

/-- IEEE 754 subtraction, rounded once. -/
def FloatFormat.sub (f : FloatFormat) (a b : Nat) : Nat := f.add a (f.neg b)

/-- IEEE 754 division, rounded once. -/
def FloatFormat.div (f : FloatFormat) (a b : Nat) : Nat :=
  match f.unpack a, f.unpack b with
  | .nan, _ => f.nanBits
  | .infinite _, .nan => f.nanBits
  | .finite _ _ _, .nan => f.nanBits
  | .infinite _, .infinite _ => f.nanBits
  | .infinite s, .finite t _ _ => f.pack (s ^^ t) f.infMag
  | .finite s _ _, .infinite t => f.pack (s ^^ t) 0
  | .finite s m e, .finite t n g =>
    if n = 0 then (if m = 0 then f.nanBits else f.pack (s ^^ t) f.infMag)
    else f.pack (s ^^ t) (f.roundMag (scaleNum m (e - g)) (scaleNum n (g - e)))

/-- The magnitude: the sign bit cleared. -/
def FloatFormat.abs (f : FloatFormat) (a : Nat) : Nat := a % 2 ^ (f.fracBits + f.expBits)

/-- IEEE 754 `<`: false when an operand is a NaN. -/
def FloatFormat.lt (f : FloatFormat) (a b : Nat) : Bool :=
  match f.unpack a, f.unpack b with
  | .nan, _ => false
  | .infinite _, .nan => false
  | .finite _ _ _, .nan => false
  | .infinite s, .infinite t => s && !t
  | .infinite s, .finite _ _ _ => s
  | .finite _ _ _, .infinite t => !t
  | .finite s m e, .finite t n g => alignTo s m e (min e g) < alignTo t n g (min e g)

/-- IEEE 754 `<=`: false when an operand is a NaN. -/
def FloatFormat.le (f : FloatFormat) (a b : Nat) : Bool :=
  match f.unpack a, f.unpack b with
  | .nan, _ => false
  | .infinite _, .nan => false
  | .finite _ _ _, .nan => false
  | .infinite s, .infinite t => s || !t
  | .infinite s, .finite _ _ _ => s
  | .finite _ _ _, .infinite t => !t
  | .finite s m e, .finite t n g => alignTo s m e (min e g) ≤ alignTo t n g (min e g)

/-- `floor(x)` of a finite value, an exact integer (00_scope.md R10); 0 for NaN and infinity, which never occur. -/
def FloatFormat.floor (f : FloatFormat) (a : Nat) : Int :=
  match f.unpack a with
  | .finite s m e => (if s then -(scaleNum m e : Int) else scaleNum m e) / (scaleDen e : Int)
  | .infinite _ => 0
  | .nan => 0

/-- `ceil(x)` of a finite value (00_scope.md R10): the negated floor of the negated value. -/
def FloatFormat.ceil (f : FloatFormat) (a : Nat) : Int := -(f.floor (f.neg a))

/-- `rne(x)`: the nearest integer, ties to the even one (00_scope.md R14). -/
def FloatFormat.rne (f : FloatFormat) (a : Nat) : Int :=
  match f.unpack a with
  | .finite s m e =>
    let r : Int := rneDiv (scaleNum m e) (scaleDen e)
    if s then -r else r
  | .infinite _ => 0
  | .nan => 0

/-- An integer converted to the format, rounded once; exact when its magnitude is below `2^(fracBits+1)`. -/
def FloatFormat.ofInt (f : FloatFormat) (n : Int) : Nat := f.roundScaled (n < 0) n.natAbs 0

/-- A value of one format rounded once to another. -/
def FloatFormat.convert (f g : FloatFormat) (a : Nat) : Nat :=
  match f.unpack a with
  | .finite s m e => g.roundScaled s m e
  | .infinite s => g.pack s g.infMag
  | .nan => g.nanBits

/-- `a *d b` of 00_scope.md R12. -/
def f64Mul (a b : F64) : F64 := BitVec.ofNat 64 (binary64.mul a.toNat b.toNat)

/-- `a +d b` of 00_scope.md R12. -/
def f64Add (a b : F64) : F64 := BitVec.ofNat 64 (binary64.add a.toNat b.toNat)

/-- `a -d b` of 00_scope.md R12. -/
def f64Sub (a b : F64) : F64 := BitVec.ofNat 64 (binary64.sub a.toNat b.toNat)

/-- `a /d b` of 00_scope.md R12. -/
def f64Div (a b : F64) : F64 := BitVec.ofNat 64 (binary64.div a.toNat b.toNat)

/-- `a < b` on doubles (00_scope.md R12). -/
def f64Lt (a b : F64) : Bool := binary64.lt a.toNat b.toNat

/-- `a <= b` on doubles (00_scope.md R12). -/
def f64Le (a b : F64) : Bool := binary64.le a.toNat b.toNat

/-- `mind(a, b)` of 00_scope.md R12: `b` if `b < a`, else `a`. -/
def f64Min (a b : F64) : F64 := if f64Lt b a then b else a

/-- `|a|` on doubles. -/
def f64Abs (a : F64) : F64 := BitVec.ofNat 64 (binary64.abs a.toNat)

/-- `f64(n)` of 00_scope.md R12, exact for `|n| < 2^53`. -/
def f64OfInt (n : Int) : F64 := BitVec.ofNat 64 (binary64.ofInt n)

/-- `floor(x)` of a double (00_scope.md R10). -/
def f64Floor (a : F64) : Int := binary64.floor a.toNat

/-- `ceil(x)` of a double (00_scope.md R10). -/
def f64Ceil (a : F64) : Int := binary64.ceil a.toNat

/-- `rne(x)` of a double (00_scope.md R14). -/
def f64Rne (a : F64) : Int := binary64.rne a.toNat

/-- `f32_of_f64(x)` of 00_scope.md R13: one rounding to the nearest float, ties to even. -/
def f32OfF64 (a : F64) : F32 := BitVec.ofNat 32 (binary64.convert binary32 a.toNat)

/-- `f32_of_u8(v)` of 00_scope.md R13, exact. -/
def f32OfU8 (v : Byte) : F32 := BitVec.ofNat 32 (binary32.ofInt v.toNat)

/-- `a *f b` of 00_scope.md R13. -/
def f32Mul (a b : F32) : F32 := BitVec.ofNat 32 (binary32.mul a.toNat b.toNat)

/-- `a +f b` of 00_scope.md R13. -/
def f32Add (a b : F32) : F32 := BitVec.ofNat 32 (binary32.add a.toNat b.toNat)

/-- `rne(x)` of a float (00_scope.md R14). -/
def f32Rne (a : F32) : Int := binary32.rne a.toNat

/-- `+0.0` as a float (43_area_general.md R153). -/
def f32Zero : F32 := 0#32

/-- `sat_u8(i)` of 00_scope.md R15. -/
def satU8 (i : Int) : Byte := BitVec.ofNat 8 (min i.toNat 255)

end Sys2Proof.Machine
end

