-- ==== Sys2Proof/Machine/Operands.lean ====
section
/-! DEFINITION. The operands of a command (40_command_common.md R101), the two raster views and their addresses
(20_memory.md R62, R63), and the scale factors (R108, R109). -/

namespace Sys2Proof.Machine

/-- `s32(w)` of 00_scope.md R8. -/
def s32 (w : Word) : Int := w.toInt

/-- The operands under the names of 40_command_common.md R101. -/
structure Operands where
  sb : Nat
  sw : Int
  sh : Int
  ss : Int
  db : Nat
  dw : Int
  dh : Int
  ds : Int
  cn : Int
  deriving DecidableEq, Repr

/-- A base register, read as an unsigned `ADDR_BITS`-bit address (30_encoding.md R82; log entry 14). -/
def readBase (c : Config) (w : Word) : Nat := w.toNat % 2 ^ c.addrBits

/-- The operands assembled from the descriptor registers (30_encoding.md R82, 40_command_common.md R101). -/
def operands (c : Config) (s : State) : Operands where
  sb := readBase c s.srcBase
  sw := s32 s.srcWidth
  sh := s32 s.srcHeight
  ss := s32 s.srcStride
  db := readBase c s.dstBase
  dw := s32 s.dstWidth
  dh := s32 s.dstHeight
  ds := s32 s.dstStride
  cn := s32 s.channels

/-- Which operands a command reads and validates: a row of the table of 40_command_common.md R101. -/
structure OperandUse where
  bases : Bool
  widths : Bool
  heights : Bool
  strides : Bool
  channels : Bool
  deriving DecidableEq, Repr

/-- The pixel commands read all nine descriptor registers. -/
def pixelUse : OperandUse := ⟨true, true, true, true, true⟩

/-- `WTAB_X` and `FPTAB_X` read the widths and `CHANNELS`. -/
def horizontalUse : OperandUse := ⟨false, true, false, false, true⟩

/-- `WTAB_Y` and `FPTAB_Y` read the heights. -/
def verticalUse : OperandUse := ⟨false, false, true, false, false⟩

/-- The rows of the table of 40_command_common.md R101. -/
def operandUse (i : Instr) : OperandUse :=
  match i with
  | .resize => pixelUse
  | .areaInt => pixelUse
  | .areaGen => pixelUse
  | .linear => pixelUse
  | .wtabX => horizontalUse
  | .wtabY => verticalUse
  | .fptabX => horizontalUse
  | .fptabY => verticalUse

/-- A raster view (20_memory.md R62): base, row stride, number of rows, and the sample bytes of a row (`W*cn`). -/
structure View where
  base : Nat
  stride : Nat
  height : Nat
  rowBytes : Nat
  deriving DecidableEq, Repr

/-- The source view of validated operands. -/
def Operands.srcView (o : Operands) : View :=
  ⟨o.sb, o.ss.toNat, o.sh.toNat, o.sw.toNat * o.cn.toNat⟩

/-- The destination view of validated operands. -/
def Operands.dstView (o : Operands) : View :=
  ⟨o.db, o.ds.toNat, o.dh.toNat, o.dw.toNat * o.cn.toNat⟩

/-- The address of the sample with sample offset `i` of row `y` (20_memory.md R62): `B + y*S + i`. -/
def View.addr (v : View) (y i : Nat) : Nat := v.base + y * v.stride + i

/-- The footprint as a test (20_memory.md R63): `a` is the address of a sample of the view. -/
def View.covers (v : View) (a : Nat) : Bool :=
  (List.range v.height).any fun y => v.addr y 0 ≤ a && a < v.addr y 0 + v.rowBytes

/-- Two footprints share no byte (20_memory.md R72): no row of one meets a row of the other. -/
def View.disjoint (v w : View) : Bool :=
  (List.range v.height).all fun y => (List.range w.height).all fun z =>
    v.addr y 0 + v.rowBytes ≤ w.addr z 0 || w.addr z 0 + w.rowBytes ≤ v.addr y 0

/-- Every byte of the footprint is ordinary memory (20_memory.md R71). -/
def View.admitted (c : Config) (v : View) : Bool :=
  (List.range v.height).all fun y => (List.range v.rowBytes).all fun i => c.memAdmit (v.addr y i)

/-- A scale factor (40_command_common.md R108): one binary64 division, source dimension over destination dimension. -/
def scaleOf (src dst : Int) : F64 := f64Div (f64OfInt src) (f64OfInt dst)

/-- `scale >= 1.0` (40_command_common.md R106). -/
def scaleAtLeastOne (scale : F64) : Bool := f64Le oneF64 scale

/-- `isint(scale)` of 40_command_common.md R109. -/
def isInt (scale : F64) : Bool :=
  f64Le (f64Abs (f64Sub scale (f64OfInt (f64Rne scale)))) epsInt

/-- `iscale = rne(scale)` of 40_command_common.md R109, 42_area_integer.md R141. -/
def intScale (scale : F64) : Nat := (f64Rne scale).toNat

/-- `scale_x` of the operands. -/
def Operands.scaleX (o : Operands) : F64 := scaleOf o.sw o.dw

/-- `scale_y` of the operands. -/
def Operands.scaleY (o : Operands) : F64 := scaleOf o.sh o.dh

end Sys2Proof.Machine
end

