-- ==== Sys2Proof/Machine/Ops.lean ====
section
/-! DEFINITION. The shared operations: data memory (20_memory.md R60, R66), writing a table memory, the checks and the
template of every command (40_command_common.md R100 to R107, R110), and the pixel pass (20_memory.md R64). -/

namespace Sys2Proof.Machine

/-- The outcome of a step. -/
abbrev Out := Host.Outcome State Fault Refusal

/-! ### Data memory -/

/-- What a byte of data memory that nothing has written reads as. DESIGN CHOICE (log entry 1), unsafe: the spec gives
data memory no initial content. -/
def Memory.unlisted : Byte := 0#8

/-- `MemRead(addr, 1)` of 00_scope.md R11. -/
def Memory.read (m : Memory) (a : Nat) : Byte :=
  match m with
  | [] => Memory.unlisted
  | (k, v) :: rest => if k = a then v else Memory.read rest a

/-- A listed byte put at its place, in address order. -/
def Memory.insert (m : Memory) (a : Nat) (b : Byte) : Memory :=
  match m with
  | [] => [(a, b)]
  | (k, v) :: rest =>
    if a < k then (a, b) :: (k, v) :: rest
    else if a = k then (a, b) :: rest
    else (k, v) :: Memory.insert rest a b

/-- `MemWrite(addr, 1, v)` of 00_scope.md R11; a byte that reads as an unlisted one is not listed. -/
def Memory.write (m : Memory) (a : Nat) (b : Byte) : Memory :=
  if b = Memory.unlisted then m.filter fun cell => cell.1 != a else Memory.insert m a b

/-- The canonical form: addresses strictly rising, and no entry equal to what an unlisted address reads as. -/
def Memory.wf (m : Memory) : Bool :=
  match m with
  | [] => true
  | cell :: rest => cell.2 != Memory.unlisted && rest.all (fun d => cell.1 < d.1) && Memory.wf rest

/-- Every listed address is below `2^ADDR_BITS` (20_memory.md R60). -/
def Memory.inSpace (c : Config) (m : Memory) : Bool := m.all fun cell => cell.1 < 2 ^ c.addrBits

/-- The bytes of a list written at rising addresses. -/
def Memory.writeBytes (m : Memory) (a : Nat) (bs : List Byte) : Memory :=
  match bs with
  | [] => m
  | b :: rest => Memory.writeBytes (Memory.write m a b) (a + 1) rest

/-- The rows of an image written to the rows `0` to `n - 1` of a view, padding untouched (20_memory.md R64). -/
def Memory.writeRows (m : Memory) (v : View) (rows : Nat → List Byte) (n : Nat) : Memory :=
  match n with
  | 0 => m
  | k + 1 => Memory.writeBytes (Memory.writeRows m v rows k) (v.addr k 0) (rows k)

/-! ### Table and buffer memories -/

/-- A table or buffer memory after its elements from 0 on are written; the later elements stay as they were. -/
def overlay {α : Type} (new old : List α) : List α := new ++ old.drop new.length

/-! ### What every command does first and last -/

/-- Step 1 of every command (40_command_common.md R100, 10_state.md R50): the five counts, both integer scales,
`STATUS.ERR` and `STATUS.PATH` become 0. -/
def clearResults (s : State) : State :=
  { s with
    xtabCount := 0, ytabCount := 0, ygrpCount := 0, fpxCount := 0, fpyCount := 0,
    iscaleX := 0, iscaleY := 0, err := .ok, path := .noPath }

/-- Completion with an error (60_exceptions.md R205), on a state whose results step 1 has cleared. This is all an
error does: the block has no trap entry and no return (R211, R212). -/
def raiseError (e : ErrCode) (s : State) : State :=
  { s with err := e, path := .noPath, done := true }

/-- Completion with success (40_command_common.md R111). -/
def complete (p : PixelPath) (s : State) : State :=
  { s with err := .ok, path := p, done := true }

/-! ### Checks -/

/-- A check: whether it passes, and the error it raises when it does not. -/
abbrev Check := Bool × ErrCode

/-- The first check that fails (60_exceptions.md R202): "the first that fails is reported". -/
def firstFailure (checks : List Check) : Option ErrCode :=
  match checks with
  | [] => none
  | (ok, e) :: rest => if ok then firstFailure rest else some e

/-- Check V1 (40_command_common.md R102), over the registers the command reads. -/
def checkV1 (c : Config) (u : OperandUse) (o : Operands) : Bool :=
  (!u.bases || (o.sb != 0 && o.db != 0)) &&
  (!u.widths || (0 < o.sw && 0 < o.dw)) &&
  (!u.heights || (0 < o.sh && 0 < o.dh)) &&
  (!u.channels || (0 < o.cn && o.cn ≤ c.maxCh))

/-- Check V2 (40_command_common.md R103). -/
def checkV2 (c : Config) (u : OperandUse) (o : Operands) : Bool :=
  (!u.widths || (o.sw ≤ c.maxDim && o.dw ≤ c.maxDim)) &&
  (!u.heights || (o.sh ≤ c.maxDim && o.dh ≤ c.maxDim))

/-- Check V3 (40_command_common.md R104), made by the commands that read the strides. -/
def checkV3 (u : OperandUse) (o : Operands) : Bool :=
  !u.strides || (o.sw * o.cn ≤ o.ss && o.dw * o.cn ≤ o.ds)

/-- Check V4 (40_command_common.md R105), in unbounded integers. -/
def checkV4 (c : Config) (u : OperandUse) (o : Operands) : Bool :=
  !u.strides ||
    (o.sb + (o.sh - 1) * o.ss + o.sw * o.cn ≤ (2 ^ c.addrBits : Nat) &&
     o.db + (o.dh - 1) * o.ds + o.dw * o.cn ≤ (2 ^ c.addrBits : Nat))

/-- The checks V1 to V4 in the order of 40_command_common.md R100, steps 4 to 6. -/
def operandChecks (c : Config) (u : OperandUse) (o : Operands) : List Check :=
  [(checkV1 c u o, .invalidArgument), (checkV2 c u o, .dimensionOverflow),
   (checkV3 u o, .invalidStride), (checkV4 c u o, .dimensionOverflow)]

/-- A table or buffer a command needs: the size the document allocates and the capacity it has
(40_command_common.md R107). -/
structure Need where
  size : Int
  cap : Nat
  deriving DecidableEq, Repr

/-- `XTAB` (40_command_common.md R107). -/
def needXtab (c : Config) (o : Operands) : Need := ⟨2 * o.sw + 2, c.tabCap⟩

/-- `YTAB` (40_command_common.md R107). -/
def needYtab (c : Config) (o : Operands) : Need := ⟨2 * o.sh + 2, c.tabCap⟩

/-- `SCRATCH` and `ACC` (40_command_common.md R107). -/
def needRows (c : Config) (o : Operands) : Need := ⟨o.dw * o.cn, c.rowCap⟩

/-- `FPX` (40_command_common.md R107). -/
def needFpx (c : Config) (o : Operands) : Need := ⟨o.dw, c.fpCap⟩

/-- `FPY` (40_command_common.md R107). -/
def needFpy (c : Config) (o : Operands) : Need := ⟨o.dh, c.fpCap⟩

/-- Checks V6 and V7 (40_command_common.md R110, R107), steps 9 and 10 of R100: no size is zero, none exceeds its
capacity. -/
def needChecks (needs : List Need) : List Check :=
  [(needs.all fun n => n.size != 0, .emptyBuffer), (needs.all fun n => n.size ≤ n.cap, .allocationFailure)]

/-! ### The template -/

/-- The template of every command (40_command_common.md R100): clear the results, make the checks in order, then
either complete with the first error or run the rest of the command on the cleared state. -/
def command (checks : List Check) (body : State → Out) (s : State) : Out :=
  match firstFailure checks with
  | some e => .next (raiseError e (clearResults s))
  | none => body (clearResults s)

/-- An illegal command word (30_encoding.md R83, 40_command_common.md R100 step 2): a command that fails at once. -/
def execIllegal (s : State) : Out := .next (raiseError .invalidArgument (clearResults s))

/-- The pixel pass, step 12 of 40_command_common.md R100: every byte of the destination footprint is written once
with the row bytes the path gives, nothing else is (20_memory.md R64). Footprint bytes that are not admitted and
footprints that share a byte are refused (R71, R72; log entry 7). -/
def pixelPass (c : Config) (o : Operands) (rows : Nat → List Byte) (s : State) : Out :=
  if !(o.srcView.admitted c && o.dstView.admitted c) then .refused .memoryNotAdmitted
  else if !(o.srcView.disjoint o.dstView) then .refused .overlappingFootprints
  else .next { s with mem := s.mem.writeRows o.dstView rows o.dstView.height }

/-- The bytes of one row of an image from its samples: pixel `dx`, channel `ch`, at sample offset `dx*cn + ch`. -/
def rowOf (width cn : Nat) (sample : Nat → Nat → Byte) : List Byte :=
  (List.range width).flatMap fun dx => (List.range cn).map fun ch => sample dx ch

end Sys2Proof.Machine
end

