-- ==== Sys2Proof/Machine/WeightTable.lean ====
section
/-! DEFINITION. The weight table engine (41_weight_table.md): the builder (R120 to R126), the grouping index (R128),
and the commands `WTAB_X` (R129) and `WTAB_Y` (R130). -/

namespace Sys2Proof.Machine

/-- The interval of a destination index (41_weight_table.md R121). -/
structure Interval where
  fsx1 : F64
  fsx2 : F64
  cw : F64
  sx1 : Int
  sx2 : Int
  deriving DecidableEq, Repr

/-- The interval of destination index `dx` (41_weight_table.md R121), the two clamps in the order written. -/
def interval (srcLen : Nat) (scale : F64) (dx : Nat) : Interval :=
  let fsx1 := f64Mul (f64OfInt dx) scale
  let fsx2 := f64Add fsx1 scale
  let cw := f64Min scale (f64Sub (f64OfInt srcLen) fsx1)
  let sx2 := min (f64Floor fsx2) ((srcLen : Int) - 1)
  let sx1 := min (f64Ceil fsx1) sx2
  { fsx1, fsx2, cw, sx1, sx2 }

/-- The left partial entry (41_weight_table.md R122). -/
def leftEntry (cn dx : Nat) (v : Interval) : List WeightEntry :=
  let lp := f64Sub (f64OfInt v.sx1) v.fsx1
  if f64Lt epsPart lp then
    [{ si := (v.sx1 - 1).toNat * cn, di := dx * cn, alpha := f32OfF64 (f64Div lp v.cw) }]
  else []

/-- The full entries (41_weight_table.md R123): every `sx` from `sx1` to `sx2 - 1`, ascending. -/
def fullEntries (cn dx : Nat) (v : Interval) : List WeightEntry :=
  (List.range (v.sx2 - v.sx1).toNat).map fun (j : Nat) =>
    { si := (v.sx1 + j).toNat * cn, di := dx * cn, alpha := f32OfF64 (f64Div oneF64 v.cw) }

/-- The right partial entry (41_weight_table.md R124). -/
def rightEntry (cn dx : Nat) (v : Interval) : List WeightEntry :=
  let rp := f64Sub v.fsx2 (f64OfInt v.sx2)
  if f64Lt epsPart rp then
    [{ si := v.sx2.toNat * cn, di := dx * cn,
       alpha := f32OfF64 (f64Div (f64Min (f64Min rp oneF64) v.cw) v.cw) }]
  else []

/-- The entries of one destination index, in the order of emission (41_weight_table.md R120, R125). -/
def cellEntries (srcLen cn : Nat) (scale : F64) (dx : Nat) : List WeightEntry :=
  let v := interval srcLen scale dx
  leftEntry cn dx v ++ fullEntries cn dx v ++ rightEntry cn dx v

/-- Everything the loop of 41_weight_table.md R120 emits. -/
def emittedEntries (srcLen dstLen cn : Nat) (scale : F64) : List WeightEntry :=
  (List.range dstLen).flatMap (cellEntries srcLen cn scale)

/-- `build_wtab` (41_weight_table.md R120), with the defence of R126: nothing when an `emit` would be the one at
position `2*src_len + 2` (log entry 13). -/
def buildWtab (srcLen dstLen cn : Nat) (scale : F64) : Option (List WeightEntry) :=
  let entries := emittedEntries srcLen dstLen cn scale
  if entries.length ≤ 2 * srcLen + 2 then some entries else none

/-- The scan of 41_weight_table.md R128 from destination row `dy` on, for `n` more rows, at position `k` of `YTAB`;
`rest` is `YTAB` from `k` on. -/
def groupScan (n dy k : Nat) (rest : List WeightEntry) : List RunEntry :=
  match n with
  | 0 => []
  | m + 1 =>
    let len := (rest.takeWhile fun e => e.di == dy).length
    { start := k, stop := k + len } :: groupScan m (dy + 1) (k + len) (rest.drop len)

/-- The grouping index `YGRP` of a vertical table (41_weight_table.md R128). -/
def groupIndex (ytab : List WeightEntry) (dh : Nat) : List RunEntry := groupScan dh 0 0 ytab

/-- `XTAB` written and its count set (10_state.md R36). -/
def setXtab (t : List WeightEntry) (s : State) : State :=
  { s with xtab := overlay t s.xtab, xtabCount := BitVec.ofNat 32 t.length }

/-- `YTAB` and `YGRP` written and their counts set (10_state.md R37, R38). -/
def setYtab (t : List WeightEntry) (g : List RunEntry) (s : State) : State :=
  { s with
    ytab := overlay t s.ytab, ytabCount := BitVec.ofNat 32 t.length,
    ygrp := overlay g s.ygrp, ygrpCount := BitVec.ofNat 32 g.length }

/-- The requirement of `WTAB_X` and `WTAB_Y`, and what every build needs (40_command_common.md R106, R107). -/
def wtabChecks (scale : F64) (need : Need) : List Check :=
  (scaleAtLeastOne scale, .invalidArgument) :: needChecks [need]

/-- `WTAB_X` (41_weight_table.md R129) on an instance `c`. -/
def wtabX (c : Config) (s : State) : Out :=
  let o := operands c s
  command (operandChecks c (operandUse .wtabX) o ++ wtabChecks o.scaleX (needXtab c o))
    (fun s0 =>
      match buildWtab o.sw.toNat o.dw.toNat o.cn.toNat o.scaleX with
      | some t => .next (complete .noPath (setXtab t s0))
      | none => .next (raiseError .allocationFailure s0)) s

/-- `WTAB_Y` (41_weight_table.md R130) on an instance `c`: the channel count of the vertical table is 1. -/
def wtabY (c : Config) (s : State) : Out :=
  let o := operands c s
  command (operandChecks c (operandUse .wtabY) o ++ wtabChecks o.scaleY (needYtab c o))
    (fun s0 =>
      match buildWtab o.sh.toNat o.dh.toNat 1 o.scaleY with
      | some t => .next (complete .noPath (setYtab t (groupIndex t o.dh.toNat) s0))
      | none => .next (raiseError .allocationFailure s0)) s

/-- The meaning of `WTAB_X`. -/
def execWtabX (s : State) : Out := wtabX Config.default s

/-- The meaning of `WTAB_Y`. -/
def execWtabY (s : State) : Out := wtabY Config.default s

end Sys2Proof.Machine
end

