-- ==== Sys2Proof/Machine/AreaGeneral.lean ====
section
/-! DEFINITION. The general area path (43_area_general.md): the horizontal pass (R153, R154), the vertical
accumulation (R155), the row written (R156), and the command `AREA_GEN` (R150). -/

namespace Sys2Proof.Machine

/-- The two row buffers after a destination row (10_state.md R49), elements `0` to `n - 1`. -/
structure RowBuffers where
  scratch : List F32
  acc : List F32
  deriving DecidableEq, Repr

/-- `SCRATCH[di + ch] <- SCRATCH[di + ch] +f (f32_of_u8(s) *f alpha)`, for one entry and one channel
(43_area_general.md R154): two roundings, never fused. -/
def addTerm (m : Memory) (src : View) (sy : Nat) (e : WeightEntry) (scratch : List F32) (ch : Nat) : List F32 :=
  scratch.modify (e.di + ch) fun x => f32Add x (f32Mul (f32OfU8 (m.read (src.addr sy (e.si + ch)))) e.alpha)

/-- The horizontal pass of source row `sy` (43_area_general.md R153, R154): from a cleared buffer of `n` elements, the
entries in table order, and for each entry the channels. -/
def horizontalPass (m : Memory) (src : View) (xtab : List WeightEntry) (cn n sy : Nat) : List F32 :=
  xtab.foldl (fun scratch e => (List.range cn).foldl (addTerm m src sy e) scratch) (List.replicate n f32Zero)

/-- The vertical accumulation (43_area_general.md R155): the first contribution assigns, later ones add. -/
def accumulate (beta : F32) (scratch : List F32) (acc : Option (List F32)) : List F32 :=
  match acc with
  | none => scratch.map (f32Mul beta)
  | some a => List.zipWith (fun x p => f32Add x (f32Mul beta p)) a scratch

/-- The contribution of one vertical entry to a destination row (43_area_general.md R150). -/
def rowStep (m : Memory) (src : View) (xtab : List WeightEntry) (cn n : Nat) (b : Option RowBuffers)
    (e : WeightEntry) : Option RowBuffers :=
  let scratch := horizontalPass m src xtab cn n e.si
  some { scratch, acc := accumulate e.alpha scratch (b.map RowBuffers.acc) }

/-- The run of vertical entries of a destination row (10_state.md R46, 43_area_general.md R152). -/
def runOf (ytab : List WeightEntry) (g : RunEntry) : List WeightEntry :=
  (ytab.drop g.start).take (g.stop - g.start)

/-- The buffers after the vertical loop of one destination row (43_area_general.md R152); an empty run, which cannot
occur, leaves zeros (R152; log entry 16). -/
def rowBuffers (m : Memory) (src : View) (xtab run : List WeightEntry) (cn n : Nat) : RowBuffers :=
  match run.foldl (rowStep m src xtab cn n) none with
  | some b => b
  | none => { scratch := List.replicate n f32Zero, acc := List.replicate n f32Zero }

/-- An accumulated float as an output byte (43_area_general.md R156): `sat_u8(rne(ACC[i]))`. -/
def accByte (x : F32) : Byte := satU8 (f32Rne x)

/-- The buffers of destination row `dy` (43_area_general.md R150). -/
def areaGenRow (m : Memory) (o : Operands) (xt yt : List WeightEntry) (grp : List RunEntry) (dy : Nat) : RowBuffers :=
  rowBuffers m o.srcView xt (runOf yt (grp.getD dy ⟨0, 0⟩)) o.cn.toNat (o.dw.toNat * o.cn.toNat)

/-- `SCRATCH` and `ACC` written from element 0 on (10_state.md R49). -/
def setBuffers (b : RowBuffers) (s : State) : State :=
  { s with scratch := overlay b.scratch s.scratch, acc := overlay b.acc s.acc }

/-- The general path once its tables are built (43_area_general.md R150 to R156). The buffers keep what the last
destination row left. -/
def areaGenPixels (c : Config) (o : Operands) (xt yt : List WeightEntry) (s0 : State) : Out :=
  let grp := groupIndex yt o.dh.toNat
  let row := areaGenRow s0.mem o xt yt grp
  pixelPass c o (fun dy => (row dy).acc.map accByte)
    (complete .gen (setBuffers (row (o.dh.toNat - 1)) (setYtab yt grp (setXtab xt s0))))

/-- The general path, from the capacity line of 43_area_general.md R150 on. -/
def areaGenBody (c : Config) (o : Operands) (s0 : State) : Out :=
  match buildWtab o.sw.toNat o.dw.toNat o.cn.toNat o.scaleX with
  | none => .next (raiseError .allocationFailure s0)
  | some xt =>
    match buildWtab o.sh.toNat o.dh.toNat 1 o.scaleY with
    | none => .next (raiseError .allocationFailure s0)
    | some yt => areaGenPixels c o xt yt s0

/-- The requirement of `AREA_GEN` (40_command_common.md R106): integer scales are accepted. -/
def areaGenAllowed (o : Operands) : Bool := scaleAtLeastOne o.scaleX && scaleAtLeastOne o.scaleY

/-- What the general path needs (40_command_common.md R107). -/
def genNeeds (c : Config) (o : Operands) : List Need := [needXtab c o, needYtab c o, needRows c o]

/-- `AREA_GEN` (43_area_general.md R150) on an instance `c`. -/
def areaGen (c : Config) (s : State) : Out :=
  let o := operands c s
  command
    (operandChecks c (operandUse .areaGen) o ++ (areaGenAllowed o, .invalidArgument) :: needChecks (genNeeds c o))
    (areaGenBody c o) s

/-- The meaning of `AREA_GEN`. -/
def execAreaGen (s : State) : Out := areaGen Config.default s

end Sys2Proof.Machine
end

