-- ==== Sys2Proof/Machine/AreaInteger.lean ====
section
/-! DEFINITION. The integer area path (42_area_integer.md): the box average (R142) and the command `AREA_INT` (R140). -/

namespace Sys2Proof.Machine

/-- The sum of the source samples of the block of destination pixel `(dx, dy)`, channel `ch` (42_area_integer.md
R142), an exact integer. -/
def boxSum (m : Memory) (src : View) (cn ix iy dy dx ch : Nat) : Nat :=
  (List.range iy).foldl (fun sum j =>
    (List.range ix).foldl (fun sum i =>
      sum + (m.read (src.addr (dy * iy + j) ((dx * ix + i) * cn + ch))).toNat) sum) 0

/-- The rounded average (42_area_integer.md R142): `(sum + (area div 2)) div area`. -/
def boxAverage (sum area : Nat) : Nat := (sum + area / 2) / area

/-- The value of a destination sample (42_area_integer.md R142). -/
def areaIntSample (m : Memory) (src : View) (cn ix iy dy dx ch : Nat) : Byte :=
  BitVec.ofNat 8 (boxAverage (boxSum m src cn ix iy dy dx ch) (ix * iy))

/-- The integer path, from the line "(ix, iy) = ..." of 42_area_integer.md R140 on. -/
def areaIntBody (c : Config) (o : Operands) (s0 : State) : Out :=
  let ix := intScale o.scaleX
  let iy := intScale o.scaleY
  pixelPass c o (fun dy => rowOf o.dw.toNat o.cn.toNat (areaIntSample s0.mem o.srcView o.cn.toNat ix iy dy))
    (complete .int { s0 with iscaleX := BitVec.ofNat 32 ix, iscaleY := BitVec.ofNat 32 iy })

/-- The requirement of `AREA_INT` (40_command_common.md R106). -/
def areaIntAllowed (o : Operands) : Bool :=
  scaleAtLeastOne o.scaleX && scaleAtLeastOne o.scaleY && isInt o.scaleX && isInt o.scaleY

/-- The integer path needs no table and no buffer (40_command_common.md R107). -/
def intNeeds : List Need := []

/-- `AREA_INT` (42_area_integer.md R140) on an instance `c`. -/
def areaInt (c : Config) (s : State) : Out :=
  let o := operands c s
  command (operandChecks c (operandUse .areaInt) o ++ (areaIntAllowed o, .invalidArgument) :: needChecks intNeeds)
    (areaIntBody c o) s

/-- The meaning of `AREA_INT`. -/
def execAreaInt (s : State) : Out := areaInt Config.default s

end Sys2Proof.Machine
end

