-- ==== Sys2Proof/Machine/Linear.lean ====
section
/-! DEFINITION. The linear path and its fixed-point pipeline (44_linear.md): the table builder (R170 to R176), the
blend (R179), and the commands `FPTAB_X` (R173), `FPTAB_Y` (R174) and `LINEAR` (R177). -/

namespace Sys2Proof.Machine

/-- A source position and a fraction (44_linear.md R171). -/
structure FixedPos where
  s : Int
  fx : F64
  deriving DecidableEq, Repr

/-- `position(d)` of 44_linear.md R171, every operation a binary64 operation rounded once. -/
def fixedPosition (scale inv : F64) (d : Nat) : FixedPos :=
  let s := f64Floor (f64Mul (f64OfInt d) scale)
  let t := f64Mul (f64OfInt (s + 1)) inv
  let fx := f64Sub (f64OfInt ((d : Int) + 1)) t
  if f64Le fx 0#64 then { s, fx := 0#64 }
  else { s, fx := f64Sub fx (f64OfInt (f64Floor fx)) }

/-- `clamp(s, fx)` of 44_linear.md R172, the two tests in their order. -/
def fixedClamp (srcLen : Nat) (p : FixedPos) : FixedPos :=
  let p1 : FixedPos := if p.s < 0 then { s := 0, fx := 0#64 } else p
  if (srcLen : Int) - 1 ≤ p1.s then { s := (srcLen : Int) - 2, fx := oneF64 } else p1

/-- The position of destination index `d` (44_linear.md R170); an axis of extent 1 is fixed (R175). -/
def fixedPos (srcLen : Nat) (scale inv : F64) (d : Nat) : FixedPos :=
  if srcLen = 1 then { s := 0, fx := 0#64 } else fixedClamp srcLen (fixedPosition scale inv d)

/-- `w1 = rne(fx *d 2048.0)` (44_linear.md R176). -/
def fixedWeight (fx : F64) : Int := f64Rne (f64Mul fx fixedOneF64)

/-- One entry of a fixed-point table (44_linear.md R170, R175, R176). -/
def fixedEntry (srcLen step : Nat) (scale inv : F64) (d : Nat) : FixedEntry :=
  let p := fixedPos srcLen scale inv d
  let w1 := fixedWeight p.fx
  let s1 := if srcLen = 1 then p.s else p.s + 1
  { ofs0 := p.s.toNat * step, ofs1 := s1.toNat * step, w0 := ((fixedOne : Int) - w1).toNat, w1 := w1.toNat }

/-- `build_fptab` (44_linear.md R170): `inv` is computed once per table. -/
def buildFptab (srcLen dstLen step : Nat) (scale : F64) : List FixedEntry :=
  let inv := f64Div oneF64 scale
  (List.range dstLen).map (fixedEntry srcLen step scale inv)

/-- The horizontal blend of one row (44_linear.md R179): `S0*w0 + S1*w1`, 11 fraction bits. -/
def blendRow (s0 s1 : Byte) (e : FixedEntry) : Nat := s0.toNat * e.w0 + s1.toNat * e.w1

/-- The two truncating shifts (44_linear.md R179): `(wy * (h >> 4)) >> 16`. -/
def foldWeight (wy h : Nat) : Nat := (wy * (h >>> 4)) >>> 16

/-- The final rounding shift (44_linear.md R179): `sat_u8((v0 + v1 + 2) >> 2)`. -/
def blendOut (v0 v1 : Nat) : Byte := satU8 (((v0 + v1 + 2) >>> 2 : Nat) : Int)

/-- The value of a destination sample from its two table entries and its channel (44_linear.md R178, R179). -/
def linearSample (m : Memory) (src : View) (fy fx : FixedEntry) (ch : Nat) : Byte :=
  let a := m.read (src.addr fy.ofs0 (fx.ofs0 + ch))
  let b := m.read (src.addr fy.ofs0 (fx.ofs1 + ch))
  let c := m.read (src.addr fy.ofs1 (fx.ofs0 + ch))
  let d := m.read (src.addr fy.ofs1 (fx.ofs1 + ch))
  blendOut (foldWeight fy.w0 (blendRow a b fx)) (foldWeight fy.w1 (blendRow c d fx))

/-- `FPX` written and its count set (10_state.md R39). -/
def setFpx (t : List FixedEntry) (s : State) : State :=
  { s with fpx := overlay t s.fpx, fpxCount := BitVec.ofNat 32 t.length }

/-- `FPY` written and its count set (10_state.md R39). -/
def setFpy (t : List FixedEntry) (s : State) : State :=
  { s with fpy := overlay t s.fpy, fpyCount := BitVec.ofNat 32 t.length }

/-- The entry a destination index selects. -/
def fixedAt (t : List FixedEntry) (d : Nat) : FixedEntry := t.getD d ⟨0, 0, 0, 0⟩

/-- The linear path, from the capacity line of 44_linear.md R177 on. -/
def linearBody (c : Config) (o : Operands) (s0 : State) : Out :=
  let fpx := buildFptab o.sw.toNat o.dw.toNat o.cn.toNat o.scaleX
  let fpy := buildFptab o.sh.toNat o.dh.toNat 1 o.scaleY
  pixelPass c o
    (fun dy => rowOf o.dw.toNat o.cn.toNat fun dx ch =>
      linearSample s0.mem o.srcView (fixedAt fpy dy) (fixedAt fpx dx) ch)
    (complete .lin (setFpy fpy (setFpx fpx s0)))

/-- What the linear path needs (40_command_common.md R107). -/
def linNeeds (c : Config) (o : Operands) : List Need := [needFpx c o, needFpy c o]

/-- `FPTAB_X` (44_linear.md R173) on an instance `c`. -/
def fptabX (c : Config) (s : State) : Out :=
  let o := operands c s
  command (operandChecks c (operandUse .fptabX) o ++ needChecks [needFpx c o])
    (fun s0 => .next (complete .noPath (setFpx (buildFptab o.sw.toNat o.dw.toNat o.cn.toNat o.scaleX) s0))) s

/-- `FPTAB_Y` (44_linear.md R174) on an instance `c`: the step of the vertical table is 1. -/
def fptabY (c : Config) (s : State) : Out :=
  let o := operands c s
  command (operandChecks c (operandUse .fptabY) o ++ needChecks [needFpy c o])
    (fun s0 => .next (complete .noPath (setFpy (buildFptab o.sh.toNat o.dh.toNat 1 o.scaleY) s0))) s

/-- `LINEAR` (44_linear.md R177) on an instance `c`: any scale is accepted. -/
def linear (c : Config) (s : State) : Out :=
  let o := operands c s
  command (operandChecks c (operandUse .linear) o ++ needChecks (linNeeds c o)) (linearBody c o) s

/-- The meaning of `FPTAB_X`. -/
def execFptabX (s : State) : Out := fptabX Config.default s

/-- The meaning of `FPTAB_Y`. -/
def execFptabY (s : State) : Out := fptabY Config.default s

/-- The meaning of `LINEAR`. -/
def execLinear (s : State) : Out := linear Config.default s

end Sys2Proof.Machine
end

