-- ==== Sys2Proof/Machine/Resize.lean ====
section
/-! DEFINITION. The dispatcher (45_dispatch.md): the selection of the path (R190, 40_command_common.md R106) and the
command `RESIZE`. -/

namespace Sys2Proof.Machine

/-- The path `RESIZE` selects (45_dispatch.md R190, 40_command_common.md R106). -/
def selectPath (o : Operands) : PixelPath :=
  if scaleAtLeastOne o.scaleX && scaleAtLeastOne o.scaleY then
    if isInt o.scaleX && isInt o.scaleY then .int else .gen
  else .lin

/-- What a path needs (40_command_common.md R107): for `RESIZE` only the checks of the selected path apply. -/
def pathNeeds (c : Config) (o : Operands) (p : PixelPath) : List Need :=
  match p with
  | .noPath => []
  | .int => intNeeds
  | .gen => genNeeds c o
  | .lin => linNeeds c o

/-- The rest of a path: its tables, its pixel pass, its completion (45_dispatch.md R190). -/
def pathBody (c : Config) (o : Operands) (p : PixelPath) (s0 : State) : Out :=
  match p with
  | .noPath => .next (complete .noPath s0)
  | .int => areaIntBody c o s0
  | .gen => areaGenBody c o s0
  | .lin => linearBody c o s0

/-- `RESIZE` (45_dispatch.md R190) on an instance `c`. -/
def resize (c : Config) (s : State) : Out :=
  let o := operands c s
  let p := selectPath o
  command (operandChecks c (operandUse .resize) o ++ needChecks (pathNeeds c o p)) (pathBody c o p) s

/-- The meaning of `RESIZE`. -/
def execResize (s : State) : Out := resize Config.default s

end Sys2Proof.Machine
end

