-- ==== Sys2Proof/Machine/Dispatch.lean ====
section
/-! DEFINITION. One arm per command of the opcode map (30_encoding.md R81). -/

namespace Sys2Proof.Machine

/-- Executes a decoded command, as one step (40_command_common.md R100). -/
def exec (i : Instr) (s : State) : Host.Outcome State Fault Refusal :=
  match i with
  | .resize => Sys2Proof.Machine.execResize s
  | .areaInt => Sys2Proof.Machine.execAreaInt s
  | .areaGen => Sys2Proof.Machine.execAreaGen s
  | .linear => Sys2Proof.Machine.execLinear s
  | .wtabX => Sys2Proof.Machine.execWtabX s
  | .wtabY => Sys2Proof.Machine.execWtabY s
  | .fptabX => Sys2Proof.Machine.execFptabX s
  | .fptabY => Sys2Proof.Machine.execFptabY s

end Sys2Proof.Machine
end

