-- ==== Sys2Proof/Machine/Registers.lean ====
section
/-! DEFINITION. The register window (10_state.md R22 to R43): offsets, access rights, what a read returns and what a
write stores. -/

namespace Sys2Proof.Machine

/-- Every register, in the order of the table of 10_state.md R22. -/
def allRegs : List Reg :=
  [.cmd, .status, .srcBase, .srcWidth, .srcHeight, .srcStride, .dstBase, .dstWidth, .dstHeight, .dstStride, .channels,
   .xtabCount, .ytabCount, .ygrpCount, .fpxCount, .fpyCount, .iscaleX, .iscaleY, .tabSel, .tabIdx, .tabD0, .tabD1,
   .tabD2, .id, .capDim, .capTab, .capRow, .capFp]

/-- The byte offset of a register (10_state.md R22). -/
def regOffset (r : Reg) : Nat :=
  match r with
  | .cmd => 0x00
  | .status => 0x04
  | .srcBase => 0x08
  | .srcWidth => 0x0C
  | .srcHeight => 0x10
  | .srcStride => 0x14
  | .dstBase => 0x18
  | .dstWidth => 0x1C
  | .dstHeight => 0x20
  | .dstStride => 0x24
  | .channels => 0x28
  | .xtabCount => 0x2C
  | .ytabCount => 0x30
  | .ygrpCount => 0x34
  | .fpxCount => 0x38
  | .fpyCount => 0x3C
  | .iscaleX => 0x40
  | .iscaleY => 0x44
  | .tabSel => 0x48
  | .tabIdx => 0x4C
  | .tabD0 => 0x50
  | .tabD1 => 0x54
  | .tabD2 => 0x58
  | .id => 0x5C
  | .capDim => 0x60
  | .capTab => 0x64
  | .capRow => 0x68
  | .capFp => 0x6C

/-- The register at an offset; none at a reserved offset (10_state.md R22). -/
def regAt (offset : Nat) : Option Reg := allRegs.find? fun r => regOffset r == offset

/-- The access right of a register (10_state.md R22). -/
def regRight (r : Reg) : AccessRight :=
  match r with
  | .cmd => .writeOnly
  | .srcBase => .readWrite
  | .srcWidth => .readWrite
  | .srcHeight => .readWrite
  | .srcStride => .readWrite
  | .dstBase => .readWrite
  | .dstWidth => .readWrite
  | .dstHeight => .readWrite
  | .dstStride => .readWrite
  | .channels => .readWrite
  | .tabSel => .readWrite
  | .tabIdx => .readWrite
  | .status => .readOnly
  | .xtabCount => .readOnly
  | .ytabCount => .readOnly
  | .ygrpCount => .readOnly
  | .fpxCount => .readOnly
  | .fpyCount => .readOnly
  | .iscaleX => .readOnly
  | .iscaleY => .readOnly
  | .tabD0 => .readOnly
  | .tabD1 => .readOnly
  | .tabD2 => .readOnly
  | .id => .readOnly
  | .capDim => .readOnly
  | .capTab => .readOnly
  | .capRow => .readOnly
  | .capFp => .readOnly

/-- The three words of a DecimateEntry (30_encoding.md R85). -/
def WeightEntry.words (e : WeightEntry) : List Word := [BitVec.ofNat 32 e.si, BitVec.ofNat 32 e.di, e.alpha]

/-- The three words of an entry of `YGRP` (30_encoding.md R86). -/
def RunEntry.words (e : RunEntry) : List Word := [BitVec.ofNat 32 e.start, BitVec.ofNat 32 e.stop, 0#32]

/-- The packed weights of a fixed-point entry (30_encoding.md R87): `w0` in bits 11:0, `w1` in bits 27:16. -/
def packWeights (w0 w1 : Nat) : Word := 0#4 ++ BitVec.ofNat 12 w1 ++ 0#4 ++ BitVec.ofNat 12 w0

/-- The three words of a fixed-point entry (30_encoding.md R87). -/
def FixedEntry.words (e : FixedEntry) : List Word :=
  [BitVec.ofNat 32 e.ofs0, BitVec.ofNat 32 e.ofs1, packWeights e.w0 e.w1]

/-- Word `n` of entry `idx` of a table with `count` valid entries (10_state.md R41): 0 at or beyond the count. -/
def tableWordAt {α : Type} (words : α → List Word) (table : List α) (count : Word) (idx : Word) (n : Nat) : Word :=
  if idx < count then
    match table[idx.toNat]? with
    | some e => (words e).getD n 0#32
    | none => 0#32
  else 0#32

/-- A read of `TAB_Dn` (10_state.md R41). -/
def readTab (s : State) (n : Nat) : Word :=
  match s.tabSel.toNat with
  | 0 => tableWordAt WeightEntry.words s.xtab s.xtabCount s.tabIdx n
  | 1 => tableWordAt WeightEntry.words s.ytab s.ytabCount s.tabIdx n
  | 2 => tableWordAt RunEntry.words s.ygrp s.ygrpCount s.tabIdx n
  | 3 => tableWordAt FixedEntry.words s.fpx s.fpxCount s.tabIdx n
  | 4 => tableWordAt FixedEntry.words s.fpy s.fpyCount s.tabIdx n
  | _ => 0#32

/-- The word of `CAP_DIM` (10_state.md R43): `DIM_BITS`, `MAX_CH`, `ADDR_BITS` from bit 0 up, a byte each. -/
def capDimWord (c : Config) : Word :=
  0#8 ++ BitVec.ofNat 8 c.addrBits ++ BitVec.ofNat 8 c.maxCh ++ BitVec.ofNat 8 c.dimBits

/-- What a read of a register returns (10_state.md R22 to R43); `CMD` reads 0 (R25). No read has a side effect
(20_memory.md R79). -/
def readReg (c : Config) (s : State) (r : Reg) : Word :=
  match r with
  | .cmd => 0#32
  | .status => s.statusWord
  | .srcBase => s.srcBase
  | .srcWidth => s.srcWidth
  | .srcHeight => s.srcHeight
  | .srcStride => s.srcStride
  | .dstBase => s.dstBase
  | .dstWidth => s.dstWidth
  | .dstHeight => s.dstHeight
  | .dstStride => s.dstStride
  | .channels => s.channels
  | .xtabCount => s.xtabCount
  | .ytabCount => s.ytabCount
  | .ygrpCount => s.ygrpCount
  | .fpxCount => s.fpxCount
  | .fpyCount => s.fpyCount
  | .iscaleX => s.iscaleX
  | .iscaleY => s.iscaleY
  | .tabSel => s.tabSel
  | .tabIdx => s.tabIdx
  | .tabD0 => readTab s 0
  | .tabD1 => readTab s 1
  | .tabD2 => readTab s 2
  | .id => c.idValue
  | .capDim => capDimWord c
  | .capTab => BitVec.ofNat 32 c.tabCap
  | .capRow => BitVec.ofNat 32 c.rowCap
  | .capFp => BitVec.ofNat 32 c.fpCap

/-- What a write to a register other than `CMD` stores (10_state.md R22): all 32 bits, with no check, in a `RW`
register; nothing in a `RO` one. A write of `CMD` stores no word (R25): it executes a command (Machine/Bus.lean). -/
def writeReg (r : Reg) (v : Word) (s : State) : State :=
  match r with
  | .srcBase => { s with srcBase := v }
  | .srcWidth => { s with srcWidth := v }
  | .srcHeight => { s with srcHeight := v }
  | .srcStride => { s with srcStride := v }
  | .dstBase => { s with dstBase := v }
  | .dstWidth => { s with dstWidth := v }
  | .dstHeight => { s with dstHeight := v }
  | .dstStride => { s with dstStride := v }
  | .channels => { s with channels := v }
  | .tabSel => { s with tabSel := v }
  | .tabIdx => { s with tabIdx := v }
  | .cmd => s
  | .status => s
  | .xtabCount => s
  | .ytabCount => s
  | .ygrpCount => s
  | .fpxCount => s
  | .fpyCount => s
  | .iscaleX => s
  | .iscaleY => s
  | .tabD0 => s
  | .tabD1 => s
  | .tabD2 => s
  | .id => s
  | .capDim => s
  | .capTab => s
  | .capRow => s
  | .capFp => s

/-- What a read at an offset of the window returns: 0 at a reserved offset (10_state.md R22). -/
def readOffset (c : Config) (s : State) (offset : Nat) : Word :=
  match regAt offset with
  | some r => readReg c s r
  | none => 0#32

/-- What a write at an offset of the window stores: nothing at a reserved offset (10_state.md R22). -/
def writeOffset (offset : Nat) (v : Word) (s : State) : State :=
  match regAt offset with
  | some r => writeReg r v s
  | none => s

end Sys2Proof.Machine
end

