-- ==== Sys2Proof/Machine/Bus.lean ====
section
/-! DEFINITION. What one access at the block's boundary does (00_scope.md R19): reads and writes of the register window
and of data memory, the write of `CMD`, which executes a command (10_state.md R25), and the platform's reset
(70_reset_and_hazards.md R220). -/

namespace Sys2Proof.Machine

/-- A write of `CMD` (10_state.md R25, 40_command_common.md R100): the command the word encodes, or the failing command
that an illegal word is (30_encoding.md R83). -/
def writeCmd (w : Word) (s : State) : Out :=
  match decode w with
  | .ok i => exec i s
  | .error _ => execIllegal s

/-- The value a host read returned, put on the listing (30_encoding.md R90). -/
def record (v : ReadValue) (s : State) : State := { s with listing := v :: s.listing }

/-- The platform's reset (70_reset_and_hazards.md R220): every register as after reset; data memory is not changed.
The unspecified contents of tables and buffers stay, and so does the host's side (log entry 9). -/
def platformReset (s : State) : State :=
  { State.reset with
    xtab := s.xtab, ytab := s.ytab, ygrp := s.ygrp, fpx := s.fpx, fpy := s.fpy, scratch := s.scratch, acc := s.acc,
    mem := s.mem, script := s.script, listing := s.listing }

/-- One access, on an instance `c`. A window access that is not an aligned 32-bit one is refused (20_memory.md R68);
a data-memory address that does not exist faults (log entry 8). -/
def accessOn (c : Config) (a : BusAccess) (s : State) : Out :=
  match a with
  | .windowRead w o =>
    if windowAccessOk w o then .next (record (.register (readOffset c s o)) s) else .refused .windowAccess
  | .windowWrite w o v =>
    if windowAccessOk w o then
      if o = regOffset .cmd then writeCmd v s else .next (writeOffset o v s)
    else .refused .windowAccess
  | .memRead addr =>
    if c.addressOk addr then .next (record (.byte (s.mem.read addr)) s) else .fault .outsideDataMemory
  | .memWrite addr v =>
    if c.addressOk addr then .next { s with mem := s.mem.write addr v } else .fault .outsideDataMemory
  | .reset => .next (platformReset s)

/-- One access on the default instance. -/
def access (a : BusAccess) (s : State) : Out := accessOn Config.default a s

end Sys2Proof.Machine
end

