-- ==== Sys2Proof/Machine/HostScript.lean ====
section
/-! DEFINITION. The host notation (30_encoding.md R90 to R92): the bus accesses a script line encodes. -/

namespace Sys2Proof.Machine

/-- `WR r, v` as a bus access (30_encoding.md R90, R92): `W <offset> <data>`. -/
def wrAccess (r : Reg) (v : Word) : BusAccess := .windowWrite .bits32 (regOffset r) v

/-- `RD r` as a bus access (30_encoding.md R90, R92): `R <offset>`. -/
def rdAccess (r : Reg) : BusAccess := .windowRead .bits32 (regOffset r)

/-- `SRC b, w, h, s` (30_encoding.md R91). -/
def srcAccesses (b w h s : Word) : List BusAccess :=
  [wrAccess .srcBase b, wrAccess .srcWidth w, wrAccess .srcHeight h, wrAccess .srcStride s]

/-- `DST b, w, h, s` (30_encoding.md R91). -/
def dstAccesses (b w h s : Word) : List BusAccess :=
  [wrAccess .dstBase b, wrAccess .dstWidth w, wrAccess .dstHeight h, wrAccess .dstStride s]

/-- `TABRD sel, idx` (30_encoding.md R91). -/
def tabrdAccesses (sel idx : Word) : List BusAccess :=
  [wrAccess .tabSel sel, wrAccess .tabIdx idx, rdAccess .tabD0, rdAccess .tabD1, rdAccess .tabD2]

/-- The bus accesses of one line of a script (30_encoding.md R90, R91, R92). -/
def lineAccesses (l : ScriptLine) : List BusAccess :=
  match l with
  | .wr r v => [wrAccess r v]
  | .rd r => [rdAccess r]
  | .cmd i => [wrAccess .cmd (encode i)]
  | .memw a b => [.memWrite a b]
  | .memr a => [.memRead a]
  | .src b w h s => srcAccesses b w h s
  | .dst b w h s => dstAccesses b w h s
  | .ch n => [wrAccess .channels n]
  | .tabrd sel idx => tabrdAccesses sel idx
  | .resizeArea sb sw sh ss db dw dh ds n =>
    srcAccesses sb sw sh ss ++ dstAccesses db dw dh ds ++ [wrAccess .channels n] ++
      [wrAccess .cmd (encode .resize)] ++ [rdAccess .status]

/-- The encoding of a host script (30_encoding.md R92): the list of its bus accesses, in order. -/
def scriptAccesses (lines : List ScriptLine) : List BusAccess := lines.flatMap lineAccesses

end Sys2Proof.Machine
end

