-- ==== Sys2Proof/Machine/Step.lean ====
section
/-! DEFINITION. One step of the whole system (00_scope.md R19): the host's next access. -/

namespace Sys2Proof.Machine

/-- One step: the first pending access, taken off the script. With nothing pending the block holds its state unchanged
(60_exceptions.md R219; log entry 4). -/
def step (s : State) : Host.Outcome State Fault Refusal :=
  match s.script with
  | [] => .next s
  | a :: rest => access a { s with script := rest }

/-- The state whose next access is the host's write of a table row's word to `CMD` (10_state.md R25, 30_encoding.md
R80): the block fetches nothing, a command comes from the host's script (log entry 3). -/
def State.withFetchWord (s : State) (nbits w : Nat) : State :=
  { s with script := .windowWrite .bits32 (regOffset .cmd) (tableWord nbits w) :: s.script }

end Sys2Proof.Machine
end

