-- ==== Sys2Proof/Safety.lean ====
section
/-! DEFINITION. The words the claims use: the conditions under which a command fails, in integers on the registers
alone (60_exceptions.md R202), the path the four dimensions select (45_dispatch.md R191), what a run must respect
(70_reset_and_hazards.md R226), and the invariant of the reachable states. The limits are the defaults of
00_scope.md R6. -/

namespace Sys2Proof.Machine

/-! ### Which commands read what (40_command_common.md R100, R101) -/

/-- The pixel commands. -/
def pixelCommands : List Instr := [.resize, .areaInt, .areaGen, .linear]

/-- The commands that read the widths and `CHANNELS`. -/
def widthCommands : List Instr := [.resize, .areaInt, .areaGen, .linear, .wtabX, .fptabX]

/-- The commands that read the heights. -/
def heightCommands : List Instr := [.resize, .areaInt, .areaGen, .linear, .wtabY, .fptabY]

/-! ### The eight lines of the priority list (60_exceptions.md R202), each as a condition on the registers -/

/-- V1 fails (40_command_common.md R102). -/
abbrev failsV1 (i : Instr) (s : State) : Prop :=
  (i ∈ pixelCommands ∧ (s.srcBase.toNat = 0 ∨ s.dstBase.toNat = 0)) ∨
  (i ∈ widthCommands ∧ (s32 s.srcWidth ≤ 0 ∨ s32 s.dstWidth ≤ 0)) ∨
  (i ∈ heightCommands ∧ (s32 s.srcHeight ≤ 0 ∨ s32 s.dstHeight ≤ 0)) ∨
  (i ∈ widthCommands ∧ (s32 s.channels ≤ 0 ∨ 4 < s32 s.channels))

/-- V2 fails (40_command_common.md R103). -/
abbrev failsV2 (i : Instr) (s : State) : Prop :=
  (i ∈ widthCommands ∧ (65535 < s32 s.srcWidth ∨ 65535 < s32 s.dstWidth)) ∨
  (i ∈ heightCommands ∧ (65535 < s32 s.srcHeight ∨ 65535 < s32 s.dstHeight))

/-- V3 fails (40_command_common.md R104). -/
abbrev failsV3 (i : Instr) (s : State) : Prop :=
  i ∈ pixelCommands ∧
    (s32 s.srcStride < s32 s.srcWidth * s32 s.channels ∨ s32 s.dstStride < s32 s.dstWidth * s32 s.channels)

/-- V4 fails (40_command_common.md R105). -/
abbrev failsV4 (i : Instr) (s : State) : Prop :=
  i ∈ pixelCommands ∧
    (4294967296 < s.srcBase.toNat + (s32 s.srcHeight - 1) * s32 s.srcStride + s32 s.srcWidth * s32 s.channels ∨
     4294967296 < s.dstBase.toNat + (s32 s.dstHeight - 1) * s32 s.dstStride + s32 s.dstWidth * s32 s.channels)

/-- The horizontal axis is not enlarged and its scale is an integer. -/
abbrev dividesX (s : State) : Prop := s32 s.dstWidth ≤ s32 s.srcWidth ∧ s32 s.srcWidth % s32 s.dstWidth = 0

/-- The vertical axis is not enlarged and its scale is an integer. -/
abbrev dividesY (s : State) : Prop := s32 s.dstHeight ≤ s32 s.srcHeight ∧ s32 s.srcHeight % s32 s.dstHeight = 0

/-- The precondition of a command on the scales fails (40_command_common.md R106), in lengths. -/
abbrev failsScales (i : Instr) (s : State) : Prop :=
  (i = .areaInt ∧ ¬ (dividesX s ∧ dividesY s)) ∨
  (i = .areaGen ∧ (s32 s.srcWidth < s32 s.dstWidth ∨ s32 s.srcHeight < s32 s.dstHeight)) ∨
  (i = .wtabX ∧ s32 s.srcWidth < s32 s.dstWidth) ∨
  (i = .wtabY ∧ s32 s.srcHeight < s32 s.dstHeight)

/-- The selection of `RESIZE` as a function of the four dimensions alone (45_dispatch.md R191). -/
def pathByDimensions (s : State) : PixelPath :=
  if s32 s.srcWidth < s32 s.dstWidth ∨ s32 s.srcHeight < s32 s.dstHeight then .lin
  else if s32 s.srcWidth % s32 s.dstWidth = 0 ∧ s32 s.srcHeight % s32 s.dstHeight = 0 then .int
  else .gen

/-- The path a command takes (40_command_common.md R106). -/
def commandPath (i : Instr) (s : State) : PixelPath :=
  match i with
  | .resize => pathByDimensions s
  | .areaInt => .int
  | .areaGen => .gen
  | .linear => .lin
  | .wtabX => .noPath
  | .wtabY => .noPath
  | .fptabX => .noPath
  | .fptabY => .noPath

/-- V7 fails: a table or buffer the command needs is too small (40_command_common.md R107). -/
abbrev failsV7 (i : Instr) (s : State) : Prop :=
  ((commandPath i s = .gen ∨ i = .wtabX) ∧ 16386 < 2 * s32 s.srcWidth + 2) ∨
  ((commandPath i s = .gen ∨ i = .wtabY) ∧ 16386 < 2 * s32 s.srcHeight + 2) ∨
  (commandPath i s = .gen ∧ 32768 < s32 s.dstWidth * s32 s.channels) ∨
  ((commandPath i s = .lin ∨ i = .fptabX) ∧ 8192 < s32 s.dstWidth) ∨
  ((commandPath i s = .lin ∨ i = .fptabY) ∧ 8192 < s32 s.dstHeight)

/-- The operands a command reads are legal: the checks V1 to V4 pass. -/
structure OperandsLegal (i : Instr) (s : State) : Prop where
  v1 : ¬ failsV1 i s
  v2 : ¬ failsV2 i s
  v3 : ¬ failsV3 i s
  v4 : ¬ failsV4 i s

/-- No check of a command fails (60_exceptions.md R200, code 0). -/
structure Accepted (i : Instr) (s : State) : Prop extends OperandsLegal i s where
  scales : ¬ failsScales i s
  v7 : ¬ failsV7 i s

/-! ### Footprints (20_memory.md R62, R63) -/

/-- `a` is a byte of the source footprint. -/
def inSource (s : State) (a : Nat) : Prop :=
  ∃ y i, y < (s32 s.srcHeight).toNat ∧ i < (s32 s.srcWidth).toNat * (s32 s.channels).toNat ∧
    a = s.srcBase.toNat + y * (s32 s.srcStride).toNat + i

/-- `a` is a byte of the destination footprint. -/
def inDestination (s : State) (a : Nat) : Prop :=
  ∃ y i, y < (s32 s.dstHeight).toNat ∧ i < (s32 s.dstWidth).toNat * (s32 s.channels).toNat ∧
    a = s.dstBase.toNat + y * (s32 s.dstStride).toNat + i

/-- The address of channel `ch` of pixel `(x, y)` of the source (20_memory.md R62). -/
def sourceAddr (s : State) (y x ch : Nat) : Nat :=
  s.srcBase.toNat + y * (s32 s.srcStride).toNat + x * (s32 s.channels).toNat + ch

/-- The address of channel `ch` of pixel `(x, y)` of the destination (20_memory.md R62). -/
def destinationAddr (s : State) (y x ch : Nat) : Nat :=
  s.dstBase.toNat + y * (s32 s.dstStride).toNat + x * (s32 s.channels).toNat + ch

/-- The host's duty of 20_memory.md R72 (70_reset_and_hazards.md R226): the footprints share no byte. -/
def footprintsApart (s : State) : Prop := ∀ a, inSource s a → ¬ inDestination s a

/-! ### The float of one sample of the general path (43_area_general.md R154, R155) -/

/-- The element of `SCRATCH` for pixel `dx`, channel `ch` after the horizontal pass of source row `sy`, in terms of
the entries of `dx` alone (43_area_general.md R154: "Channels are independent", entries "in table order"). -/
def scratchSample (s : State) (dx ch sy : Nat) : F32 :=
  (cellEntries (s32 s.srcWidth).toNat (s32 s.channels).toNat (scaleOf (s32 s.srcWidth) (s32 s.dstWidth)) dx).foldl
    (fun x e => f32Add x (f32Mul (f32OfU8 (s.mem.read (s.srcBase.toNat + sy * (s32 s.srcStride).toNat + (e.si + ch))))
      e.alpha)) f32Zero

/-- The element of `ACC` for pixel `(dx, dy)`, channel `ch`: the first vertical entry of `dy` assigns, later ones add
(43_area_general.md R155). -/
def accSample (s : State) (dy dx ch : Nat) : F32 :=
  match cellEntries (s32 s.srcHeight).toNat 1 (scaleOf (s32 s.srcHeight) (s32 s.dstHeight)) dy with
  | [] => f32Zero
  | e :: rest =>
    rest.foldl (fun x e => f32Add x (f32Mul e.alpha (scratchSample s dx ch e.si)))
      (f32Mul e.alpha (scratchSample s dx ch e.si))

/-! ### What the encodings of floats and doubles stand for (00_scope.md R12, R13) -/

/-- The encoding is that of a finite number. -/
def isFinite (f : FloatFormat) (bits : Nat) : Prop := ∃ neg m e, f.unpack bits = .finite neg m e

/-- The number an encoding stands for, exactly; 0 for an infinity or a NaN, which no command produces (00_scope.md
R12). -/
def exactValue (f : FloatFormat) (bits : Nat) : Rat :=
  match f.unpack bits with
  | .nan => 0
  | .infinite _ => 0
  | .finite neg m e =>
    let v : Rat := ((m * 2 ^ e.toNat : Nat) : Rat) / ((2 ^ (-e).toNat : Nat) : Rat)
    if neg then -v else v

/-- The number a float stands for. -/
def f32Value (x : F32) : Rat := exactValue binary32 x.toNat

/-- The number a double stands for. -/
def f64Value (x : F64) : Rat := exactValue binary64 x.toNat

/-- The distance of two numbers. -/
def distance (p q : Rat) : Rat := if p ≤ q then q - p else p - q

/-- `bits` is the encoding of `q` rounded once to nearest with ties to even (00_scope.md R12, R13): it is finite, no
finite number of the format is nearer, and where another one is equally near the last bit is 0. -/
structure RoundedOnce (f : FloatFormat) (bits : Nat) (q : Rat) : Prop where
  finite : isFinite f bits
  nearest : ∀ c, isFinite f c → distance (exactValue f bits) q ≤ distance (exactValue f c) q
  even : ∀ c, isFinite f c → exactValue f c ≠ exactValue f bits →
    distance (exactValue f c) q = distance (exactValue f bits) q → bits % 2 = 0

/-! ### What two states share -/

/-- The two states agree on every register the command reads, and on the source footprint of a pixel command
(40_command_common.md R101, R112). -/
structure SameOperands (i : Instr) (s t : State) : Prop where
  widths : i ∈ widthCommands → s.srcWidth = t.srcWidth ∧ s.dstWidth = t.dstWidth ∧ s.channels = t.channels
  heights : i ∈ heightCommands → s.srcHeight = t.srcHeight ∧ s.dstHeight = t.dstHeight
  views : i ∈ pixelCommands → s.srcBase = t.srcBase ∧ s.dstBase = t.dstBase ∧ s.srcStride = t.srcStride ∧
    s.dstStride = t.dstStride
  samples : i ∈ pixelCommands → ∀ a, inSource s a → s.mem.read a = t.mem.read a

/-- Everything a host can read of a command's result is the same (10_state.md R21, R41): `STATUS`, the integer scales,
the counts and the entries below them. -/
structure SameResults (s t : State) : Prop where
  status : s.statusWord = t.statusWord
  scales : s.iscaleX = t.iscaleX ∧ s.iscaleY = t.iscaleY
  xtab : s.xtabCount = t.xtabCount ∧ s.xtab.take s.xtabCount.toNat = t.xtab.take t.xtabCount.toNat
  ytab : s.ytabCount = t.ytabCount ∧ s.ytab.take s.ytabCount.toNat = t.ytab.take t.ytabCount.toNat
  ygrp : s.ygrpCount = t.ygrpCount ∧ s.ygrp.take s.ygrpCount.toNat = t.ygrp.take t.ygrpCount.toNat
  fpx : s.fpxCount = t.fpxCount ∧ s.fpx.take s.fpxCount.toNat = t.fpx.take t.fpxCount.toNat
  fpy : s.fpyCount = t.fpyCount ∧ s.fpy.take s.fpyCount.toNat = t.fpy.take t.fpyCount.toNat

/-- The eleven host-writable registers and the host's side are unchanged (40_command_common.md R111, last line). -/
structure RegistersKept (s t : State) : Prop where
  srcBase : t.srcBase = s.srcBase
  srcWidth : t.srcWidth = s.srcWidth
  srcHeight : t.srcHeight = s.srcHeight
  srcStride : t.srcStride = s.srcStride
  dstBase : t.dstBase = s.dstBase
  dstWidth : t.dstWidth = s.dstWidth
  dstHeight : t.dstHeight = s.dstHeight
  dstStride : t.dstStride = s.dstStride
  channels : t.channels = s.channels
  tabSel : t.tabSel = s.tabSel
  tabIdx : t.tabIdx = s.tabIdx
  script : t.script = s.script
  listing : t.listing = s.listing

/-- The internal memories are unchanged. -/
structure MemoriesKept (s t : State) : Prop where
  xtab : t.xtab = s.xtab
  ytab : t.ytab = s.ytab
  ygrp : t.ygrp = s.ygrp
  fpx : t.fpx = s.fpx
  fpy : t.fpy = s.fpy
  scratch : t.scratch = s.scratch
  acc : t.acc = s.acc

/-- The results of the last command are unchanged (10_state.md R50). -/
structure ResultsKept (s t : State) : Prop where
  done : t.done = s.done
  err : t.err = s.err
  path : t.path = s.path
  iscaleX : t.iscaleX = s.iscaleX
  iscaleY : t.iscaleY = s.iscaleY
  xtabCount : t.xtabCount = s.xtabCount
  ytabCount : t.ytabCount = s.ytabCount
  ygrpCount : t.ygrpCount = s.ygrpCount
  fpxCount : t.fpxCount = s.fpxCount
  fpyCount : t.fpyCount = s.fpyCount

/-! ### What a run must respect, and what then holds of every state -/

/-- A state from which the spec gives the next step a meaning: the pending access is one the spec gives a meaning
(20_memory.md R60, R68), and a pixel command that passes its checks has disjoint footprints (R72). It holds of every
state with an empty script, whose idle step is the model's (log entry 4). -/
def MeaningfulStep (s : State) : Prop :=
  ∀ a rest, s.script = a :: rest →
    a.wf Config.default = true ∧
    ∀ w v i, a = .windowWrite w 0 v → decode v = .ok i → i ∈ pixelCommands → Accepted i s → footprintsApart s

/-- Every result a command sets stands at 0 (40_command_common.md R100, step 1). -/
structure ResultsClear (s : State) : Prop where
  xtabCount : s.xtabCount = 0
  ytabCount : s.ytabCount = 0
  ygrpCount : s.ygrpCount = 0
  fpxCount : s.fpxCount = 0
  fpyCount : s.fpyCount = 0
  iscaleX : s.iscaleX = 0
  iscaleY : s.iscaleY = 0

/-! ### What a command leaves -/

/-- The command ends with the error `e`: `STATUS` reads `w`, the results are clear, nothing else of the block and no byte
of data memory changes (60_exceptions.md R201); the state is the one raising the error gives. -/
def endsInError (o : Out) (s : State) (e : ErrCode) (w : Word) : Prop :=
  ∃ t, o = .next t ∧ t.err = e ∧ t.statusWord = w ∧ ResultsClear t ∧ RegistersKept s t ∧ MemoriesKept s t ∧
    t.mem = s.mem ∧ t = raiseError e (clearResults s)

/-- The runs of `YGRP` tile `YTAB` (41_weight_table.md R128, 43_area_general.md R151): the first starts at 0, every one
is non-empty and ends where the next starts, the last ends at the count, and run `dy` holds exactly the entries that the
builder emits for destination row `dy`, in their order, all with `di = dy`. -/
def runsTile (s t : State) : Prop :=
  ∃ bound : Nat → Nat, bound 0 = 0 ∧ bound (s32 s.dstHeight).toNat = t.ytabCount.toNat ∧
    ∀ dy, dy < (s32 s.dstHeight).toNat →
      bound dy < bound (dy + 1) ∧ t.ygrp[dy]? = some ⟨bound dy, bound (dy + 1)⟩ ∧
      (t.ytab.drop (bound dy)).take (bound (dy + 1) - bound dy) =
        cellEntries (s32 s.srcHeight).toNat 1 (scaleOf (s32 s.srcHeight) (s32 s.dstHeight)) dy ∧
      ∀ k e, bound dy ≤ k → k < bound (dy + 1) → t.ytab[k]? = some e → e.di = dy

/-- The valid entries of `FPX` are those `build_fptab` makes for the horizontal axis (44_linear.md R170, R173). -/
def holdsFpx (s t : State) : Prop :=
  t.fpx.take t.fpxCount.toNat = buildFptab (s32 s.srcWidth).toNat (s32 s.dstWidth).toNat (s32 s.channels).toNat
    (scaleOf (s32 s.srcWidth) (s32 s.dstWidth))

/-- The valid entries of `FPY` are those `build_fptab` makes for the vertical axis, of step 1 (44_linear.md R170, R174). -/
def holdsFpy (s t : State) : Prop :=
  t.fpy.take t.fpyCount.toNat = buildFptab (s32 s.srcHeight).toNat (s32 s.dstHeight).toNat 1
    (scaleOf (s32 s.srcHeight) (s32 s.dstHeight))

/-- Every destination sample of `t` is the sample at the same place of the source of `s` (95_test_vectors.md S2). -/
def copiesSource (s t : State) : Prop :=
  ∀ y x ch, y < (s32 s.srcHeight).toNat → x < (s32 s.srcWidth).toNat → ch < (s32 s.channels).toNat →
    t.mem.read (destinationAddr s y x ch) = s.mem.read (sourceAddr s y x ch)

/-! ### The invariant -/

/-- The invariant of every reachable state. Memory keeps its form and its space (20_memory.md R60); `STATUS` shows a
legal combination (10_state.md R26, 60_exceptions.md R201, R205); the valid entries of every table are there, within
the capacities (10_state.md R36 to R39, R44 to R49); every fixed-point entry sums to `ONE` (R47); every field of an
entry fits its 32-bit word (30_encoding.md R85 to R87). -/
structure MachineInv (s : State) : Prop where
  memory : s.mem.wf = true
  space : s.mem.inSpace Config.default = true
  noEmptyBuffer : s.err ≠ .emptyBuffer
  errorClear : s.err ≠ .ok → s.path = .noPath ∧ ResultsClear s
  idleClear : s.done = false → s.err = .ok ∧ s.path = .noPath ∧ ResultsClear s
  scalesInt : s.path ≠ .int → s.iscaleX = 0 ∧ s.iscaleY = 0
  xtabCount : s.xtabCount.toNat ≤ s.xtab.length
  ytabCount : s.ytabCount.toNat ≤ s.ytab.length
  ygrpCount : s.ygrpCount.toNat ≤ s.ygrp.length
  fpxCount : s.fpxCount.toNat ≤ s.fpx.length
  fpyCount : s.fpyCount.toNat ≤ s.fpy.length
  xtabCap : s.xtab.length ≤ 16386
  ytabCap : s.ytab.length ≤ 16386
  ygrpCap : s.ygrp.length ≤ 16386
  fpxCap : s.fpx.length ≤ 8192
  fpyCap : s.fpy.length ≤ 8192
  scratchCap : s.scratch.length ≤ 32768
  accCap : s.acc.length ≤ 32768
  xtabWords : ∀ e ∈ s.xtab, e.si < 4294967296 ∧ e.di < 4294967296
  ytabWords : ∀ e ∈ s.ytab, e.si < 4294967296 ∧ e.di < 4294967296
  ygrpWords : ∀ e ∈ s.ygrp, e.start ≤ e.stop ∧ e.stop < 4294967296
  fpxWeights : ∀ e ∈ s.fpx, e.w0 + e.w1 = 2048 ∧ e.ofs0 < 4294967296 ∧ e.ofs1 < 4294967296
  fpyWeights : ∀ e ∈ s.fpy, e.w0 + e.w1 = 2048 ∧ e.ofs0 < 4294967296 ∧ e.ofs1 < 4294967296

end Sys2Proof.Machine
end

