-- ==== Sys2Proof/Certificates/Slice0/Obligations.lean ====
section
/-! DEFINITION. The statements for the provers. -/

open Sys2Proof Sys2Proof.Machine

/-! ### Encoding -/

/-- 30_encoding.md R80, R81: the decoder reads every command back from its command word. -/
def Obligations.DecodeReadsEncodedCommand : Prop :=
  ∀ i : Instr, i.wf = true → decode (encode i) = .ok i

/-- 30_encoding.md R89: `decode` as a total function: each of the eight words is its command and no other word is, a
word with a bit of 31:4 set is illegal, and so is one whose `OP` is none of 1 to 8. -/
def Obligations.DecodeMatchesOneWordEach : Prop :=
  ∀ w : Word,
    (decode w = .ok .resize ↔ w.toNat = 1) ∧ (decode w = .ok .areaInt ↔ w.toNat = 2) ∧
    (decode w = .ok .areaGen ↔ w.toNat = 3) ∧ (decode w = .ok .linear ↔ w.toNat = 4) ∧
    (decode w = .ok .wtabX ↔ w.toNat = 5) ∧ (decode w = .ok .wtabY ↔ w.toNat = 6) ∧
    (decode w = .ok .fptabX ↔ w.toNat = 7) ∧ (decode w = .ok .fptabY ↔ w.toNat = 8) ∧
    (decode w = .error .zeroFieldSet ↔ w.toNat / 16 ≠ 0) ∧
    ∀ op : BitVec 4, decode w = .error (.reservedOp op) ↔
      w.toNat = op.toNat ∧ (op.toNat = 0 ∨ 9 ≤ op.toNat)

/-- 30_encoding.md R81: the eight words, written out from the opcode map. -/
def Obligations.OpcodeMapWords : Prop :=
  decode 0x00000001#32 = .ok .resize ∧ decode 0x00000002#32 = .ok .areaInt ∧
  decode 0x00000003#32 = .ok .areaGen ∧ decode 0x00000004#32 = .ok .linear ∧
  decode 0x00000005#32 = .ok .wtabX ∧ decode 0x00000006#32 = .ok .wtabY ∧
  decode 0x00000007#32 = .ok .fptabX ∧ decode 0x00000008#32 = .ok .fptabY ∧
  decode 0x00000000#32 = .error (.reservedOp 0#4) ∧ decode 0x00000009#32 = .error (.reservedOp 9#4) ∧
  decode 0x00000011#32 = .error .zeroFieldSet

/-- 30_encoding.md R87: the packed weights of a fixed-point entry, each field at its place, the other bits zero. -/
def Obligations.FixedWeightsWord : Prop :=
  ∀ w0 w1 : Nat, w0 ≤ 2048 → w1 ≤ 2048 →
    (packWeights w0 w1).toNat = w0 + 65536 * w1

/-- 30_encoding.md R92: the example script and its bus accesses. -/
def Obligations.ScriptExampleEncodes : Prop :=
  scriptAccesses [.ch 3#32, .cmd .resize] =
    [.windowWrite .bits32 0x28 0x00000003#32, .windowWrite .bits32 0x00 0x00000001#32]

/-! ### The step -/

/-- 10_state.md R25, 00_scope.md R19: a step whose pending access writes a command word to `CMD` executes that command,
as one step, and takes the access off the script. -/
def Obligations.StepRunsDecodedCommand : Prop :=
  ∀ (s : State) (w : Word) (rest : List BusAccess) (i : Instr),
    s.script = .windowWrite .bits32 0 w :: rest → decode w = .ok i → i.wf = true →
    step s = exec i { s with script := rest }

/-- 30_encoding.md R83: a word is one of the eight commands exactly when it is not illegal, and an illegal word is
executed as a command that fails at once with `InvalidArgument`: the results cleared, `DONE = 1`, `ERR = 1`, `PATH = 0`,
nothing else changed, no byte of data memory touched. -/
def Obligations.IllegalWordFails : Prop :=
  (∀ w : Word, (∃ i, decode w = .ok i) ↔ ¬ (w.toNat / 16 ≠ 0 ∨ w.toNat % 16 = 0 ∨ 9 ≤ w.toNat % 16)) ∧
  ∀ (s : State) (w : Word) (rest : List BusAccess), s.script = .windowWrite .bits32 0 w :: rest →
    (w.toNat / 16 ≠ 0 ∨ w.toNat % 16 = 0 ∨ 9 ≤ w.toNat % 16) →
    ∃ t, step s = .next t ∧ t.statusWord = 0x00000012#32 ∧ t.done = true ∧ t.err = .invalidArgument ∧
      t.path = .noPath ∧ ResultsClear t ∧ t.mem = s.mem ∧ MemoriesKept s t ∧
      RegistersKept { s with script := rest } t

/-- 20_memory.md R60, R68, R72, 40_command_common.md R113: a step to which the spec gives a meaning is made; none waits
and none stops. With an empty script the hypothesis holds of itself: that the idle step is made too is no rule of the
spec but the model's choice, log entry 4. -/
def Obligations.MeaningfulStepIsMade : Prop :=
  ∀ s : State, MeaningfulStep s → ∃ t, step s = .next t

/-- 60_exceptions.md R219: with no access of the host the state does not change. The model's reading of an idle host is
log entry 4. -/
def Obligations.IdleKeepsState : Prop :=
  ∀ s : State, s.script = [] → step s = .next s

/-! ### The register window -/

/-- 10_state.md R22, 20_memory.md R68: the rows of the table, each offset with its register, the state it reads and the
state a write of it stores; one register every four bytes from 0, each offset a legal access, none from 0x70 on. -/
def Obligations.RegisterOffsets : Prop :=
  (regAt 0x00 = some .cmd ∧ regAt 0x04 = some .status ∧ regAt 0x08 = some .srcBase ∧
    regAt 0x0C = some .srcWidth ∧ regAt 0x10 = some .srcHeight ∧ regAt 0x14 = some .srcStride ∧
    regAt 0x18 = some .dstBase ∧ regAt 0x1C = some .dstWidth ∧ regAt 0x20 = some .dstHeight ∧
    regAt 0x24 = some .dstStride ∧ regAt 0x28 = some .channels ∧ regAt 0x2C = some .xtabCount ∧
    regAt 0x30 = some .ytabCount ∧ regAt 0x34 = some .ygrpCount ∧ regAt 0x38 = some .fpxCount ∧
    regAt 0x3C = some .fpyCount ∧ regAt 0x40 = some .iscaleX ∧ regAt 0x44 = some .iscaleY ∧
    regAt 0x48 = some .tabSel ∧ regAt 0x4C = some .tabIdx ∧ regAt 0x50 = some .tabD0 ∧
    regAt 0x54 = some .tabD1 ∧ regAt 0x58 = some .tabD2 ∧ regAt 0x5C = some .id ∧ regAt 0x60 = some .capDim ∧
    regAt 0x64 = some .capTab ∧ regAt 0x68 = some .capRow ∧ regAt 0x6C = some .capFp) ∧
  (∀ s : State,
    readOffset Config.default s 0x00 = 0#32 ∧ readOffset Config.default s 0x04 = s.statusWord ∧
    readOffset Config.default s 0x08 = s.srcBase ∧ readOffset Config.default s 0x0C = s.srcWidth ∧
    readOffset Config.default s 0x10 = s.srcHeight ∧ readOffset Config.default s 0x14 = s.srcStride ∧
    readOffset Config.default s 0x18 = s.dstBase ∧ readOffset Config.default s 0x1C = s.dstWidth ∧
    readOffset Config.default s 0x20 = s.dstHeight ∧ readOffset Config.default s 0x24 = s.dstStride ∧
    readOffset Config.default s 0x28 = s.channels ∧ readOffset Config.default s 0x2C = s.xtabCount ∧
    readOffset Config.default s 0x30 = s.ytabCount ∧ readOffset Config.default s 0x34 = s.ygrpCount ∧
    readOffset Config.default s 0x38 = s.fpxCount ∧ readOffset Config.default s 0x3C = s.fpyCount ∧
    readOffset Config.default s 0x40 = s.iscaleX ∧ readOffset Config.default s 0x44 = s.iscaleY ∧
    readOffset Config.default s 0x48 = s.tabSel ∧ readOffset Config.default s 0x4C = s.tabIdx ∧
    readOffset Config.default s 0x50 = readTab s 0 ∧ readOffset Config.default s 0x54 = readTab s 1 ∧
    readOffset Config.default s 0x58 = readTab s 2 ∧ readOffset Config.default s 0x5C = 0x42534331#32 ∧
    readOffset Config.default s 0x60 = 0x00200410#32 ∧ readOffset Config.default s 0x64 = 0x00004002#32 ∧
    readOffset Config.default s 0x68 = 0x00008000#32 ∧ readOffset Config.default s 0x6C = 0x00002000#32) ∧
  (∀ (s : State) (v : Word),
    access (.windowWrite .bits32 0x08 v) s = .next { s with srcBase := v } ∧
    access (.windowWrite .bits32 0x0C v) s = .next { s with srcWidth := v } ∧
    access (.windowWrite .bits32 0x10 v) s = .next { s with srcHeight := v } ∧
    access (.windowWrite .bits32 0x14 v) s = .next { s with srcStride := v } ∧
    access (.windowWrite .bits32 0x18 v) s = .next { s with dstBase := v } ∧
    access (.windowWrite .bits32 0x1C v) s = .next { s with dstWidth := v } ∧
    access (.windowWrite .bits32 0x20 v) s = .next { s with dstHeight := v } ∧
    access (.windowWrite .bits32 0x24 v) s = .next { s with dstStride := v } ∧
    access (.windowWrite .bits32 0x28 v) s = .next { s with channels := v } ∧
    access (.windowWrite .bits32 0x48 v) s = .next { s with tabSel := v } ∧
    access (.windowWrite .bits32 0x4C v) s = .next { s with tabIdx := v }) ∧
  (∀ (s : State) (v : Word) (o : Nat),
    o ∈ [0x04, 0x2C, 0x30, 0x34, 0x38, 0x3C, 0x40, 0x44, 0x50, 0x54, 0x58, 0x5C, 0x60, 0x64, 0x68, 0x6C] →
    access (.windowWrite .bits32 o v) s = .next s) ∧
  (∀ r : Reg, regAt (regOffset r) = some r ∧ windowAccessOk .bits32 (regOffset r) = true) ∧
  (∀ k : Nat, k < 28 → (regAt (4 * k)).isSome = true) ∧
  (∀ o : Nat, 0x70 ≤ o → regAt o = none)

/-- 10_state.md R22: a write to a register other than `CMD` stores all 32 bits in a `RW` register, is ignored by a `RO`
one, and changes nothing else that a host can read or that a command leaves. -/
def Obligations.RegisterWriteStores : Prop :=
  ∀ (s : State) (r : Reg) (v : Word), r ≠ .cmd →
    ∃ t, access (.windowWrite .bits32 (regOffset r) v) s = .next t ∧
      (regRight r = .readWrite → readReg Config.default t r = v) ∧
      (regRight r = .readOnly → t = s) ∧
      (∀ q : Reg, q ≠ r → q ≠ .tabD0 → q ≠ .tabD1 → q ≠ .tabD2 →
        readReg Config.default t q = readReg Config.default s q) ∧
      ResultsKept s t ∧ MemoriesKept s t ∧ t.mem = s.mem ∧ t.script = s.script ∧ t.listing = s.listing

/-- 10_state.md R22: every offset from 0x70 to 0xFFC reads as zero and ignores writes. -/
def Obligations.ReservedOffsetsInert : Prop :=
  ∀ (s : State) (o : Nat) (v : Word), 0x70 ≤ o → o ≤ 0xFFC → o % 4 = 0 →
    access (.windowRead .bits32 o) s = .next { s with listing := .register 0#32 :: s.listing } ∧
    access (.windowWrite .bits32 o v) s = .next s

/-- 20_memory.md R79: a read of a register returns its value and changes nothing; `CMD` reads 0. -/
def Obligations.RegisterReadsHaveNoEffect : Prop :=
  ∀ (s : State) (r : Reg),
    access (.windowRead .bits32 (regOffset r)) s =
      .next { s with listing := .register (readReg Config.default s r) :: s.listing } ∧
    readReg Config.default s .cmd = 0#32

/-- 20_memory.md R68: a legal access to the window is a 32-bit one at a multiple of 4 below 4096; exactly the others
are refused as having no meaning. -/
def Obligations.IllegalWindowAccessRefused : Prop :=
  ∀ (s : State) (w : AccessWidth) (o : Nat) (v : Word),
    (access (.windowRead w o) s = .refused .windowAccess ↔ ¬ (w = .bits32 ∧ o % 4 = 0 ∧ o < 4096)) ∧
    (access (.windowWrite w o v) s = .refused .windowAccess ↔ ¬ (w = .bits32 ∧ o % 4 = 0 ∧ o < 4096))

/-- 10_state.md R42, R43: the identity and capacity registers, at their offsets, read-only, in every state: the fields
of every legal instance, and the words of the default one. -/
def Obligations.IdentityAndCapacityConstants : Prop :=
  (∀ (c : Config) (s : State), c.legal = true →
    readOffset c s 0x5C = c.idValue ∧
    (readOffset c s 0x60).toNat % 256 = c.dimBits ∧ (readOffset c s 0x60).toNat / 256 % 256 = c.maxCh ∧
    (readOffset c s 0x60).toNat / 65536 % 256 = c.addrBits ∧ (readOffset c s 0x60).toNat / 16777216 = 0 ∧
    (readOffset c s 0x64).toNat = c.tabCap ∧ (readOffset c s 0x68).toNat = c.rowCap ∧
    (readOffset c s 0x6C).toNat = c.fpCap) ∧
  (∀ s : State, readOffset Config.default s 0x5C = 0x42534331#32 ∧
    readOffset Config.default s 0x60 = 0x00200410#32 ∧ readOffset Config.default s 0x64 = 0x00004002#32 ∧
    readOffset Config.default s 0x68 = 0x00008000#32 ∧ readOffset Config.default s 0x6C = 0x00002000#32) ∧
  (∀ (s : State) (o : Nat) (v : Word), o ∈ [0x5C, 0x60, 0x64, 0x68, 0x6C] →
    access (.windowWrite .bits32 o v) s = .next s)

/-- 10_state.md R26: the layout of `STATUS` in every state: `DONE` in bit 1, `ERR` in bits 7:4, `PATH` in bits 9:8, every
other bit 0. -/
def Obligations.StatusLayout : Prop :=
  ∀ s : State,
    let w := (readReg Config.default s .status).toNat
    w / 2 % 2 = (if s.done = true then 1 else 0) ∧ w / 16 % 16 = s.err.code ∧ w / 256 % 4 = s.path.code ∧
    w % 2 = 0 ∧ w / 4 % 4 = 0 ∧ w / 1024 = 0

/-- 10_state.md R41, 30_encoding.md R85, R86, R87: what `TAB_D0` to `TAB_D2` read, for each selector, below the count
and at or above it. -/
def Obligations.TableReadOut : Prop :=
  ∀ s : State, MachineInv s →
    let idx := s.tabIdx.toNat
    let d0 := readReg Config.default s .tabD0
    let d1 := readReg Config.default s .tabD1
    let d2 := readReg Config.default s .tabD2
    (s.tabSel = 0#32 → idx < s.xtabCount.toNat → ∃ e, s.xtab[idx]? = some e ∧
      d0.toNat = e.si ∧ d1.toNat = e.di ∧ d2 = e.alpha) ∧
    (s.tabSel = 1#32 → idx < s.ytabCount.toNat → ∃ e, s.ytab[idx]? = some e ∧
      d0.toNat = e.si ∧ d1.toNat = e.di ∧ d2 = e.alpha) ∧
    (s.tabSel = 2#32 → idx < s.ygrpCount.toNat → ∃ g, s.ygrp[idx]? = some g ∧
      d0.toNat = g.start ∧ d1.toNat = g.stop ∧ d2 = 0#32) ∧
    (s.tabSel = 3#32 → idx < s.fpxCount.toNat → ∃ e, s.fpx[idx]? = some e ∧
      d0.toNat = e.ofs0 ∧ d1.toNat = e.ofs1 ∧ d2.toNat = e.w0 + 65536 * e.w1) ∧
    (s.tabSel = 4#32 → idx < s.fpyCount.toNat → ∃ e, s.fpy[idx]? = some e ∧
      d0.toNat = e.ofs0 ∧ d1.toNat = e.ofs1 ∧ d2.toNat = e.w0 + 65536 * e.w1) ∧
    ((s.tabSel = 0#32 ∧ s.xtabCount.toNat ≤ idx ∨ s.tabSel = 1#32 ∧ s.ytabCount.toNat ≤ idx ∨
      s.tabSel = 2#32 ∧ s.ygrpCount.toNat ≤ idx ∨ s.tabSel = 3#32 ∧ s.fpxCount.toNat ≤ idx ∨
      s.tabSel = 4#32 ∧ s.fpyCount.toNat ≤ idx ∨ 5 ≤ s.tabSel.toNat) → d0 = 0#32 ∧ d1 = 0#32 ∧ d2 = 0#32)

/-! ### Data memory -/

/-- 20_memory.md R60, R71: a host write of a byte is read back, and every other byte reads as before. -/
def Obligations.HostByteWriteReadsBack : Prop :=
  ∀ (s : State) (a : Nat) (v : Byte), a < 4294967296 →
    ∃ t, access (.memWrite a v) s = .next t ∧ t = { s with mem := t.mem } ∧
      access (.memRead a) t = .next { t with listing := .byte v :: t.listing } ∧
      ∀ b, b ≠ a → t.mem.read b = s.mem.read b

/-- A host access at an address that is not below `2^ADDR_BITS`, which 20_memory.md R60 says does not exist, faults. The
fault is the model's choice: log entry 8. -/
def Obligations.OutsideDataMemoryFaults : Prop :=
  ∀ (s : State) (a : Nat) (v : Byte), 4294967296 ≤ a →
    access (.memRead a) s = .fault .outsideDataMemory ∧ access (.memWrite a v) s = .fault .outsideDataMemory

/-! ### Reset -/

/-- 70_reset_and_hazards.md R220: what every register reads after reset. -/
def Obligations.ResetValues : Prop :=
  (∀ r : Reg, r ≠ .id → r ≠ .capDim → r ≠ .capTab → r ≠ .capRow → r ≠ .capFp →
    readReg Config.default State.reset r = 0#32) ∧
  State.reset.done = false ∧ State.reset.err = .ok ∧ State.reset.path = .noPath

/-- 70_reset_and_hazards.md R220: the platform's reset brings every register to what it reads after reset and does not
touch data memory. That it lands between two accesses and leaves the unspecified memories is log entry 9. -/
def Obligations.PlatformResetRestoresRegisters : Prop :=
  ∀ s : State, ∃ t, access .reset s = .next t ∧
    (∀ r : Reg, readReg Config.default t r = readReg Config.default State.reset r) ∧
    t.mem = s.mem ∧ MemoriesKept s t ∧ t.script = s.script ∧ t.listing = s.listing

/-- 70_reset_and_hazards.md R221: a `RESIZE` issued straight after reset fails cleanly, and `STATUS` reads 0x00000012. -/
def Obligations.ResizeAfterReset : Prop :=
  ∃ t, exec .resize State.reset = .next t ∧ t.statusWord = 0x00000012#32 ∧ t.mem = State.reset.mem ∧
    RegistersKept State.reset t

/-! ### Errors -/

/-- 60_exceptions.md R202, with the codes of R200 and 10_state.md R26: the checks are made in the fixed order and the
first that fails is reported: an illegal word before all, then V1 to V4, the precondition on the scales, V6 (which never
fails) and V7. Every command, every combination of operands; the conditions are those of 40_command_common.md R102 to
R107, in integers; each error by the word that `STATUS` then reads. -/
def Obligations.FirstErrorReported : Prop :=
  (∀ (w : Word) (s : State), (∀ i, decode w ≠ .ok i) →
    endsInError (writeCmd w s) s .invalidArgument 0x00000012#32) ∧
  ∀ (i : Instr) (s : State),
    (failsV1 i s → endsInError (exec i s) s .invalidArgument 0x00000012#32) ∧
    (¬ failsV1 i s → failsV2 i s → endsInError (exec i s) s .dimensionOverflow 0x00000022#32) ∧
    (¬ failsV1 i s → ¬ failsV2 i s → failsV3 i s → endsInError (exec i s) s .invalidStride 0x00000032#32) ∧
    (¬ failsV1 i s → ¬ failsV2 i s → ¬ failsV3 i s → failsV4 i s →
      endsInError (exec i s) s .dimensionOverflow 0x00000022#32) ∧
    (OperandsLegal i s → failsScales i s → endsInError (exec i s) s .invalidArgument 0x00000012#32) ∧
    (∀ t, exec i s = .next t → t.err ≠ .emptyBuffer) ∧
    (OperandsLegal i s → ¬ failsScales i s → failsV7 i s →
      endsInError (exec i s) s .allocationFailure 0x00000052#32) ∧
    (Accepted i s → ∀ t, exec i s = .next t → t.err = .ok)

/-- 60_exceptions.md R201, R205, R206: a command that ends with `ERR != 0` leaves its code and nothing else: `STATUS`
is `0x2 | code << 4`, the results are clear, every table reads as empty, the registers and internal memories are as
they were, and data memory is neither written nor read: with any other contents the outcome is the same. -/
def Obligations.ErrorLeavesOnlyItsCode : Prop :=
  ∀ (i : Instr) (s t : State), exec i s = .next t → t.err ≠ .ok →
    t.statusWord.toNat = 2 + 16 * t.err.code ∧ t.done = true ∧ t.path = .noPath ∧ ResultsClear t ∧
    RegistersKept s t ∧ MemoriesKept s t ∧ t.mem = s.mem ∧
    (∀ (sel idx : Word) (n : Nat), readTab { t with tabSel := sel, tabIdx := idx } n = 0#32) ∧
    ∀ m : Memory, exec i { s with mem := m } = .next { t with mem := m }

/-- 40_command_common.md section 2 (R110, an inference the spec marks as its own from R102; the sizes are those of log
entry 15): after V1 every scratch size a command computes is at least 1, so the code `EmptyBuffer` never appears in
`STATUS.ERR` after a command. -/
def Obligations.EmptyBufferNeverReported : Prop :=
  (∀ (i : Instr) (s : State), ¬ failsV1 i s →
    (i ∈ widthCommands → 1 ≤ s32 s.dstWidth * s32 s.channels ∧ 1 ≤ 2 * s32 s.srcWidth + 2 ∧ 1 ≤ s32 s.dstWidth) ∧
    (i ∈ heightCommands → 1 ≤ 2 * s32 s.srcHeight + 2 ∧ 1 ≤ s32 s.dstHeight)) ∧
  ∀ (i : Instr) (s t : State), exec i s = .next t → t.err ≠ .emptyBuffer

/-- 60_exceptions.md R204: after a failed command every command does exactly what it
would have done before it. -/
def Obligations.ErrorsDoNotStick : Prop :=
  ∀ (i j : Instr) (s t : State), exec i s = .next t → t.err ≠ .ok → exec j t = exec j s

/-- 20_memory.md R72: a pixel command that passes its checks while the footprints share a byte is refused. -/
def Obligations.OverlapRefused : Prop :=
  ∀ (i : Instr) (s : State), i ∈ pixelCommands → Accepted i s → ¬ footprintsApart s →
    exec i s = .refused .overlappingFootprints

/-- 40_command_common.md R113, 60_exceptions.md R203: every command ends, in a next state or, only where 20_memory.md
R72 asks for it, in the refusal of overlapping footprints; none faults. -/
def Obligations.CommandOutcomes : Prop :=
  ∀ (i : Instr) (s : State), (∃ t, exec i s = .next t ∧ t.done = true) ∨
    (i ∈ pixelCommands ∧ Accepted i s ∧ ¬ footprintsApart s ∧ exec i s = .refused .overlappingFootprints)

/-! ### Completion -/

/-- 40_command_common.md R111: every accepted command completes, and its row of the table says what it leaves in the
result registers; the valid entries of each table it builds are those of its builder (41_weight_table.md R120, R128,
44_linear.md R170), on every path. -/
def Obligations.AcceptedCommandCompletes : Prop :=
  ∀ (i : Instr) (s : State), Accepted i s → (i ∈ pixelCommands → footprintsApart s) →
    ∃ t, exec i s = .next t ∧ t.err = .ok ∧ t.done = true ∧ t.path = commandPath i s ∧
      (t.path = .int → t.iscaleX.toNat = (s32 s.srcWidth / s32 s.dstWidth).toNat ∧
        t.iscaleY.toNat = (s32 s.srcHeight / s32 s.dstHeight).toNat) ∧
      (t.path ≠ .int → t.iscaleX = 0 ∧ t.iscaleY = 0) ∧
      (t.path = .gen ∨ i = .wtabX → t.xtab.take t.xtabCount.toNat =
        emittedEntries (s32 s.srcWidth).toNat (s32 s.dstWidth).toNat (s32 s.channels).toNat
          (scaleOf (s32 s.srcWidth) (s32 s.dstWidth))) ∧
      (t.path = .gen ∨ i = .wtabY → t.ytab.take t.ytabCount.toNat =
        emittedEntries (s32 s.srcHeight).toNat (s32 s.dstHeight).toNat 1 (scaleOf (s32 s.srcHeight) (s32 s.dstHeight)) ∧
        t.ygrpCount.toNat = (s32 s.dstHeight).toNat ∧ runsTile s t) ∧
      (t.path = .lin ∨ i = .fptabX → t.fpxCount.toNat = (s32 s.dstWidth).toNat ∧ holdsFpx s t) ∧
      (t.path = .lin ∨ i = .fptabY → t.fpyCount.toNat = (s32 s.dstHeight).toNat ∧ holdsFpy s t) ∧
      (¬ (t.path = .gen ∨ i = .wtabX) → t.xtabCount = 0) ∧
      (¬ (t.path = .gen ∨ i = .wtabY) → t.ytabCount = 0 ∧ t.ygrpCount = 0) ∧
      (¬ (t.path = .lin ∨ i = .fptabX) → t.fpxCount = 0) ∧
      (¬ (t.path = .lin ∨ i = .fptabY) → t.fpyCount = 0)

/-! ### Frames -/

/-- 40_command_common.md R111: no command writes a descriptor register, `TAB_SEL` or `TAB_IDX`; nor the host's side. -/
def Obligations.CommandsKeepRegisters : Prop :=
  ∀ (i : Instr) (s t : State), exec i s = .next t → RegistersKept s t

/-- 20_memory.md R63, R64: a command writes no byte outside the destination footprint, whose addresses are
`DST_BASE + y*DST_STRIDE + i`; a table-only command writes none. -/
def Obligations.CommandsKeepMemoryOutsideDestination : Prop :=
  ∀ (i : Instr) (s t : State), exec i s = .next t →
    (i ∈ pixelCommands → ∀ a, ¬ inDestination s a → t.mem.read a = s.mem.read a) ∧
    (i ∉ pixelCommands → t.mem = s.mem)

/-- 10_state.md R21, R36 to R39, R49: a command changes no entry of a table at or beyond the count it leaves, and no
element of `SCRATCH` or `ACC` but on the general path, there only elements `0` to `DST_WIDTH*CHANNELS - 1`.
That it keeps these unobservable elements is log entry 2. -/
def Obligations.CommandsKeepOtherTableEntries : Prop :=
  ∀ (i : Instr) (s t : State), exec i s = .next t →
    (∀ k, t.xtabCount.toNat ≤ k → t.xtab[k]? = s.xtab[k]?) ∧
    (∀ k, t.ytabCount.toNat ≤ k → t.ytab[k]? = s.ytab[k]?) ∧
    (∀ k, t.ygrpCount.toNat ≤ k → t.ygrp[k]? = s.ygrp[k]?) ∧
    (∀ k, t.fpxCount.toNat ≤ k → t.fpx[k]? = s.fpx[k]?) ∧
    (∀ k, t.fpyCount.toNat ≤ k → t.fpy[k]? = s.fpy[k]?) ∧
    (t.path ≠ .gen → t.scratch = s.scratch ∧ t.acc = s.acc) ∧
    (∀ k, (s32 s.dstWidth).toNat * (s32 s.channels).toNat ≤ k →
      t.scratch[k]? = s.scratch[k]? ∧ t.acc[k]? = s.acc[k]?)

/-! ### Whole-machine rules -/

/-- The invariant holds right after reset (70_reset_and_hazards.md R220). -/
def Obligations.ResetIsInvariant : Prop := MachineInv State.reset

/-- Every step keeps the invariant: memory canonical and in its space, `STATUS` a legal combination, every valid entry
there, every table within its capacity, every fixed-point entry summing to `ONE`. -/
def Obligations.StepKeepsInvariant : Prop :=
  ∀ s t : State, MachineInv s → step s = .next t → MachineInv t

/-- 40_command_common.md R112, 10_state.md R50: the same command word, operand registers and source footprint give the
same `STATUS`, tables and destination bytes, whatever else the two states hold. -/
def Obligations.ResultsDependOnOperandsOnly : Prop :=
  ∀ (i : Instr) (s1 s2 t1 : State), SameOperands i s1 s2 → exec i s1 = .next t1 →
    ∃ t2, exec i s2 = .next t2 ∧ SameResults t1 t2 ∧
      (t1.path ≠ .noPath → ∀ a, inDestination s1 a → t1.mem.read a = t2.mem.read a)

/-- 70_reset_and_hazards.md R223: the registers keep their values and the sources are apart from the destination, so the
same command again changes nothing. -/
def Obligations.RepeatedCommandChangesNothing : Prop :=
  ∀ (i : Instr) (s t : State), s.mem.wf = true → exec i s = .next t → exec i t = .next t

/-- 45_dispatch.md R190, R191 (R191 is the spec's own inference from R106, R108, R109): `RESIZE` has exactly the effect of the command of the path that the four dimensions
select, and its selection raises no error; `STATUS.PATH` shows the selection of the four dimensions. -/
def Obligations.ResizeIsTheSelectedCommand : Prop :=
  ∀ s : State,
    (failsV1 .resize s ∨ failsV2 .resize s →
      exec .resize s = exec .areaInt s ∧ exec .resize s = exec .areaGen s ∧ exec .resize s = exec .linear s) ∧
    (¬ failsV1 .resize s → ¬ failsV2 .resize s →
      exec .resize s =
        if s32 s.srcWidth < s32 s.dstWidth ∨ s32 s.srcHeight < s32 s.dstHeight then exec .linear s
        else if s32 s.srcWidth % s32 s.dstWidth = 0 ∧ s32 s.srcHeight % s32 s.dstHeight = 0 then exec .areaInt s
        else exec .areaGen s) ∧
    (∀ t, exec .resize s = .next t → t.err = .ok → t.statusWord.toNat / 256 % 4 =
      if s32 s.srcWidth < s32 s.dstWidth ∨ s32 s.srcHeight < s32 s.dstHeight then 3
      else if s32 s.srcWidth % s32 s.dstWidth = 0 ∧ s32 s.srcHeight % s32 s.dstHeight = 0 then 1
      else 2)

/-! ### The weight tables -/

/-- 41_weight_table.md R129, R125, R126: `WTAB_X` completes; its count and its entries are those of the cells of the
destination pixels, in order; entries of one pixel share `di = dx*cn`, name whole source pixels (10_state.md
R44: `si` is a multiple of `cn`) and step through the source by `cn`. -/
def Obligations.WtabXBuildsHorizontalTable : Prop :=
  ∀ s : State, Accepted .wtabX s →
    let sw := (s32 s.srcWidth).toNat
    let dw := (s32 s.dstWidth).toNat
    let cn := (s32 s.channels).toNat
    let cell := cellEntries sw cn (scaleOf (s32 s.srcWidth) (s32 s.dstWidth))
    ∃ t, exec .wtabX s = .next t ∧ t.statusWord = 0x00000002#32 ∧ t.mem = s.mem ∧
      t.xtab.take t.xtabCount.toNat = (List.range dw).flatMap cell ∧
      t.xtabCount.toNat = ((List.range dw).flatMap cell).length ∧ t.xtabCount.toNat ≤ sw + dw ∧
      ∀ dx, dx < dw → cell dx ≠ [] ∧ (∀ e ∈ cell dx, e.di = dx * cn ∧ ∃ x, x < sw ∧ e.si = x * cn) ∧
        ∀ k e f, (cell dx)[k]? = some e → (cell dx)[k + 1]? = some f → f.si = e.si + cn

/-- 41_weight_table.md R130, R128: `WTAB_Y` completes; `YGRP` tiles `YTAB`: every run is non-empty, holds exactly the
entries of its row, the first starts at 0, each ends where the next starts, the last ends at the count. -/
def Obligations.WtabYGroupsRows : Prop :=
  ∀ s : State, Accepted .wtabY s →
    let dh := (s32 s.dstHeight).toNat
    ∃ t, exec .wtabY s = .next t ∧ t.statusWord = 0x00000002#32 ∧ t.mem = s.mem ∧ t.ygrpCount.toNat = dh ∧
      t.ytab.take t.ytabCount.toNat = emittedEntries (s32 s.srcHeight).toNat dh 1
        (scaleOf (s32 s.srcHeight) (s32 s.dstHeight)) ∧
      runsTile s t

/-- 41_weight_table.md R122 to R124: the table of an exactly dividing axis: every source sample feeds its own cell with
the weight `1/k` rounded. `k = 1` is the copying table of R129. -/
def Obligations.IntegerRatioWeightTable : Prop :=
  ∀ k d cn : Nat, 1 ≤ k → 1 ≤ d → k * d ≤ 65535 → 1 ≤ cn → cn ≤ 4 →
    emittedEntries (k * d) d cn (scaleOf ((k * d : Nat) : Int) (d : Int)) =
      (List.range (k * d)).map fun sx =>
        { si := sx * cn, di := sx / k * cn, alpha := f32OfF64 (f64Div oneF64 (f64OfInt k)) }

/-- 41_weight_table.md R127 (a) and its note: the weights of a destination index are positive, at most 1, and sum to 1
up to the suppressed overlaps (each at most `EPS_PART`) and rounding. -/
def Obligations.WeightsOfACellSumToOne : Prop :=
  ∀ src dst cn dx : Nat, 1 ≤ dst → dst ≤ src → src ≤ 65535 → 1 ≤ cn → cn ≤ 4 → dx < dst →
    let w := (cellEntries src cn (scaleOf (src : Int) (dst : Int)) dx).map fun e => f32Value e.alpha
    (∀ x ∈ w, 0 < x ∧ x ≤ 1) ∧ |w.sum - 1| ≤ 1 / 400

/-- 41_weight_table.md R121 to R124, in exact numbers, at every pair of lengths, dividing or not: destination index `dx`
covers the interval from `dx*src/dst` to `(dx+1)*src/dst`, and source sample `sx` lies in it by `overlap sx`. The entries
of `dx` name source samples in strictly ascending order; every sample that overlaps by more than `EPS_PART` has one, none
that overlaps by less has (at exactly `EPS_PART` the doubles decide); and its weight is the overlap over the width
`src/dst` of the cell, up to the rounding of the doubles and the float. The table is these entries for each `dx` in
ascending order (R120). -/
def Obligations.WeightEntriesFollowOverlaps : Prop :=
  ∀ src dst cn : Nat, 1 ≤ dst → dst ≤ src → src ≤ 65535 → 1 ≤ cn → cn ≤ 4 →
    let cell := cellEntries src cn (scaleOf (src : Int) (dst : Int))
    emittedEntries src dst cn (scaleOf (src : Int) (dst : Int)) = (List.range dst).flatMap cell ∧
    ∀ dx, dx < dst →
      let overlap := fun sx : Nat =>
        max 0 (min ((sx : ℚ) + 1) (((dx : ℚ) + 1) * src / dst) - max (sx : ℚ) ((dx : ℚ) * src / dst))
      ((cell dx).map fun e => e.si).Pairwise (· < ·) ∧
      (∀ e ∈ cell dx, e.di = dx * cn ∧ ∃ sx, sx < src ∧ e.si = sx * cn ∧ 1 / 1000 ≤ overlap sx ∧
        |f32Value e.alpha * (src / dst) - overlap sx| ≤ 1 / 1000000) ∧
      ∀ sx, sx < src → 1 / 1000 < overlap sx → ∃ e ∈ cell dx, e.si = sx * cn

/-! ### The integer area path -/

/-- 42_area_integer.md R140, R141, R142: `AREA_INT` completes on dividing dimensions; every destination sample is the
rounded average of its block. -/
def Obligations.AreaIntAveragesBlocks : Prop :=
  ∀ s : State, Accepted .areaInt s → footprintsApart s →
    let ix := (s32 s.srcWidth).toNat / (s32 s.dstWidth).toNat
    let iy := (s32 s.srcHeight).toNat / (s32 s.dstHeight).toNat
    ∃ t, exec .areaInt s = .next t ∧ t.statusWord = 0x00000102#32 ∧ t.iscaleX.toNat = ix ∧ t.iscaleY.toNat = iy ∧
      ix * (s32 s.dstWidth).toNat = (s32 s.srcWidth).toNat ∧ iy * (s32 s.dstHeight).toNat = (s32 s.srcHeight).toNat ∧
      ∀ dy dx ch, dy < (s32 s.dstHeight).toNat → dx < (s32 s.dstWidth).toNat → ch < (s32 s.channels).toNat →
        (t.mem.read (destinationAddr s dy dx ch)).toNat =
          ((∑ j ∈ Finset.range iy, ∑ i ∈ Finset.range ix,
            (s.mem.read (sourceAddr s (dy * iy + j) (dx * ix + i) ch)).toNat) + ix * iy / 2) / (ix * iy)

/-- 42_area_integer.md R144 (a), R143: the box average is the exact average rounded to the nearest integer, halves up;
for four samples it is `(sum + 2) >> 2`. -/
def Obligations.BoxAverageRoundsHalvesUp : Prop :=
  (∀ sum area : Nat, 0 < area →
    |(boxAverage sum area : ℚ) - sum / area| ≤ 1 / 2 ∧
    ((sum : ℚ) / area - ⌊(sum : ℚ) / area⌋ = 1 / 2 → (boxAverage sum area : ℤ) = ⌊(sum : ℚ) / area⌋ + 1)) ∧
  (∀ sum : Nat, boxAverage sum 4 = (sum + 2) >>> 2)

/-! ### The general area path -/

/-- 43_area_general.md R150 to R156: `AREA_GEN` completes; every destination sample is the float that its own entries
accumulate, in their order, rounded to nearest even and saturated. -/
def Obligations.AreaGenAccumulatesEachSample : Prop :=
  ∀ s : State, Accepted .areaGen s → footprintsApart s →
    ∃ t, exec .areaGen s = .next t ∧ t.statusWord = 0x00000202#32 ∧
      ∀ dy dx ch, dy < (s32 s.dstHeight).toNat → dx < (s32 s.dstWidth).toNat → ch < (s32 s.channels).toNat →
        t.mem.read (destinationAddr s dy dx ch) = satU8 (f32Rne (accSample s dy dx ch))

/-- 43_area_general.md R157 (c): at an exact factor the general and the integer path agree within 1 per channel. -/
def Obligations.AreaPathsAgreeWithinOne : Prop :=
  ∀ s : State, Accepted .areaInt s → Accepted .areaGen s → footprintsApart s →
    ∃ t u, exec .areaInt s = .next t ∧ exec .areaGen s = .next u ∧
      ∀ a, inDestination s a → (t.mem.read a).toNat ≤ (u.mem.read a).toNat + 1 ∧
        (u.mem.read a).toNat ≤ (t.mem.read a).toNat + 1

/-- 43_area_general.md R157 (e): an all-0 source gives all 0. -/
def Obligations.AreaGenOfZeroIsZero : Prop :=
  ∀ s : State, Accepted .areaGen s → footprintsApart s → (∀ a, inSource s a → s.mem.read a = 0#8) →
    ∃ t, exec .areaGen s = .next t ∧ ∀ a, inDestination s a → t.mem.read a = 0#8

/-! ### The linear path -/

/-- 44_linear.md R173, R174, R176, 10_state.md R47, R48: `FPTAB_X` and `FPTAB_Y` complete with one entry for each
destination index; the weights sum to `ONE`, the offsets name samples of the axis; an axis of extent 1 has the entries
`{0, 0, 2048, 0}` (R175). Which samples and weights they are at every scale is FixedTablePositions. -/
def Obligations.FptabCommandsBuildEntries : Prop :=
  (∀ s : State, Accepted .fptabX s →
    let sw := (s32 s.srcWidth).toNat
    let cn := (s32 s.channels).toNat
    ∃ t, exec .fptabX s = .next t ∧ t.statusWord = 0x00000002#32 ∧ t.mem = s.mem ∧
      t.fpxCount.toNat = (s32 s.dstWidth).toNat ∧ holdsFpx s t ∧
      ∀ d, d < (s32 s.dstWidth).toNat → ∃ e x, t.fpx[d]? = some e ∧ e.w0 + e.w1 = 2048 ∧ e.ofs0 = x * cn ∧
        (sw = 1 → e = ⟨0, 0, 2048, 0⟩) ∧ (sw ≠ 1 → x + 2 ≤ sw ∧ e.ofs1 = (x + 1) * cn)) ∧
  (∀ s : State, Accepted .fptabY s →
    let sh := (s32 s.srcHeight).toNat
    ∃ t, exec .fptabY s = .next t ∧ t.statusWord = 0x00000002#32 ∧ t.mem = s.mem ∧
      t.fpyCount.toNat = (s32 s.dstHeight).toNat ∧ holdsFpy s t ∧
      ∀ d, d < (s32 s.dstHeight).toNat → ∃ e, t.fpy[d]? = some e ∧ e.w0 + e.w1 = 2048 ∧
        (sh = 1 → e = ⟨0, 0, 2048, 0⟩) ∧ (sh ≠ 1 → e.ofs0 + 2 ≤ sh ∧ e.ofs1 = e.ofs0 + 1))

/-- 44_linear.md R173, corner case, for both table commands' builder: a source of the destination's length selects
sample `d` exactly. -/
def Obligations.ScaleOneFixedTable : Prop :=
  ∀ n step d : Nat, 2 ≤ n → n ≤ 65535 → d < n →
    (buildFptab n n step (scaleOf (n : Int) (n : Int)))[d]? =
      some (if d + 1 < n then ⟨d * step, (d + 1) * step, 2048, 0⟩ else ⟨(n - 2) * step, (n - 1) * step, 0, 2048⟩)

/-- 44_linear.md R170, R171, R172, R176, in exact numbers, for the builder of both tables at every pair of lengths: an
entry names sample `s = floor(d*src/dst)` and its neighbour (or, where `d*src/dst` is an integer that the doubles may
miss, the pair one below) with weights that sum to `ONE`. Where the doubles cannot miss, because `d*src/dst` is 0 or no
integer or the scale is exact: at or beyond the last sample it is the last pair with full weight on the second; below
that `w1` is 2048 times the fraction `(d+1) - (s+1)*dst/src`, 0 where that is negative, rounded to an integer (up to the
rounding of the doubles). -/
def Obligations.FixedTablePositions : Prop :=
  ∀ src dst step d : Nat, 2 ≤ src → src ≤ 65535 → 1 ≤ dst → dst ≤ 65535 → d < dst →
    let scale := scaleOf (src : Int) (dst : Int)
    let s := d * src / dst
    ∃ e x, (buildFptab src dst step scale)[d]? = some e ∧ e.ofs0 = x * step ∧ e.ofs1 = (x + 1) * step ∧
      e.w0 + e.w1 = 2048 ∧ (x = s ∨ x + 1 = s) ∧
      (d = 0 ∨ d * src % dst ≠ 0 ∨ f64Value scale * dst = src →
        (src ≤ s + 1 → e = ⟨(src - 2) * step, (src - 1) * step, 0, 2048⟩) ∧
        (s + 1 < src → x = s ∧
          |(e.w1 : ℚ) - 2048 * max 0 (((d : ℚ) + 1) - ((s : ℚ) + 1) * dst / src)| ≤ 1 / 2 + 1 / 1000))

/-- 44_linear.md R177, R178, R179: `LINEAR` completes at any scales; every destination sample is the two-stage blend of
the four samples its two entries name, the entries being those of the two tables' builder (R170). -/
def Obligations.LinearBlendsFourSamples : Prop :=
  ∀ s : State, Accepted .linear s → footprintsApart s →
    ∃ t, exec .linear s = .next t ∧ t.statusWord = 0x00000302#32 ∧
      t.fpxCount.toNat = (s32 s.dstWidth).toNat ∧ holdsFpx s t ∧
      t.fpyCount.toNat = (s32 s.dstHeight).toNat ∧ holdsFpy s t ∧
      ∀ dy dx ch, dy < (s32 s.dstHeight).toNat → dx < (s32 s.dstWidth).toNat → ch < (s32 s.channels).toNat →
        ∃ x y, t.fpx[dx]? = some x ∧ t.fpy[dy]? = some y ∧
          let at_ := fun row ofs =>
            (s.mem.read (s.srcBase.toNat + row * (s32 s.srcStride).toNat + ofs + ch)).toNat
          let h0 := at_ y.ofs0 x.ofs0 * x.w0 + at_ y.ofs0 x.ofs1 * x.w1
          let h1 := at_ y.ofs1 x.ofs0 * x.w0 + at_ y.ofs1 x.ofs1 * x.w1
          let v0 := y.w0 * (h0 / 16) / 65536
          let v1 := y.w1 * (h1 / 16) / 65536
          (t.mem.read (destinationAddr s dy dx ch)).toNat = (v0 + v1 + 2) / 4

/-- 44_linear.md R179: with weights that sum to `ONE` no stage exceeds its bound, and the saturation changes nothing. -/
def Obligations.BlendStaysInRange : Prop :=
  ∀ (a b c d : Byte) (x y : FixedEntry), x.w0 + x.w1 = 2048 → y.w0 + y.w1 = 2048 →
    blendRow a b x ≤ 522240 ∧ blendRow c d x ≤ 522240 ∧
    foldWeight y.w0 (blendRow a b x) + foldWeight y.w1 (blendRow c d x) ≤ 1020 ∧
    (blendOut (foldWeight y.w0 (blendRow a b x)) (foldWeight y.w1 (blendRow c d x))).toNat =
      (foldWeight y.w0 (blendRow a b x) + foldWeight y.w1 (blendRow c d x) + 2) / 4

/-- 44_linear.md R180 (a): a sample selected with full weight on both axes is reproduced exactly, at each corner of the
weights. -/
def Obligations.FullWeightReproducesSample : Prop :=
  ∀ (a b c d : Byte) (x y : FixedEntry),
    let out := blendOut (foldWeight y.w0 (blendRow a b x)) (foldWeight y.w1 (blendRow c d x))
    (x.w0 = 2048 → x.w1 = 0 → y.w0 = 2048 → y.w1 = 0 → out = a) ∧
    (x.w0 = 0 → x.w1 = 2048 → y.w0 = 2048 → y.w1 = 0 → out = b) ∧
    (x.w0 = 2048 → x.w1 = 0 → y.w0 = 0 → y.w1 = 2048 → out = c) ∧
    (x.w0 = 0 → x.w1 = 2048 → y.w0 = 0 → y.w1 = 2048 → out = d)

/-- 44_linear.md R180 (b), (f): four equal samples blend to that sample whatever the weights. -/
def Obligations.EqualSamplesBlendToThemselves : Prop :=
  ∀ (a : Byte) (x y : FixedEntry), x.w0 + x.w1 = 2048 → y.w0 + y.w1 = 2048 →
    blendOut (foldWeight y.w0 (blendRow a a x)) (foldWeight y.w1 (blendRow a a x)) = a

/-- 45_dispatch.md R193, 42_area_integer.md R144 (b), 43_area_general.md R157 (d), 44_linear.md R180 (a),
95_test_vectors.md S2: at equal dimensions `RESIZE` (on the integer path), `AREA_INT`, `AREA_GEN` and `LINEAR` reproduce
the source exactly. -/
def Obligations.EqualDimensionsCopy : Prop :=
  ∀ s : State, s.srcWidth = s.dstWidth → s.srcHeight = s.dstHeight → footprintsApart s →
    (∀ i, i = .resize ∨ i = .areaInt → Accepted i s → ∃ t, exec i s = .next t ∧ t.statusWord = 0x00000102#32 ∧
      t.iscaleX = 1#32 ∧ t.iscaleY = 1#32 ∧ copiesSource s t) ∧
    (Accepted .areaGen s → ∃ t, exec .areaGen s = .next t ∧ t.statusWord = 0x00000202#32 ∧ copiesSource s t) ∧
    (Accepted .linear s → ∃ t, exec .linear s = .next t ∧ t.statusWord = 0x00000302#32 ∧ copiesSource s t)

/-! ### The number primitives -/

/-- 00_scope.md R14: `rne` on a fraction, on a finite float and on a finite double is a nearest integer, and the even
one when two are equally near. -/
def Obligations.RneIsNearestTiesToEven : Prop :=
  (∀ n d : Nat, 0 < d →
    |(rneDiv n d : ℚ) - n / d| ≤ 1 / 2 ∧ (|(rneDiv n d : ℚ) - n / d| = 1 / 2 → rneDiv n d % 2 = 0)) ∧
  (∀ x : F32, isFinite binary32 x.toNat → |(f32Rne x : ℚ) - f32Value x| ≤ 1 / 2 ∧
    (|(f32Rne x : ℚ) - f32Value x| = 1 / 2 → f32Rne x % 2 = 0)) ∧
  (∀ x : F64, isFinite binary64 x.toNat → |(f64Rne x : ℚ) - f64Value x| ≤ 1 / 2 ∧
    (|(f64Rne x : ℚ) - f64Value x| = 1 / 2 → f64Rne x % 2 = 0))

/-- 00_scope.md R13: on finite floats, with a result in the range of the format, `*f`, `+f` and `f32_of_f64` are the
exact result rounded once to nearest, ties to even; `f32_of_u8` is exact. -/
def Obligations.FloatsRoundOnce : Prop :=
  (∀ a b : F32, isFinite binary32 a.toNat → isFinite binary32 b.toNat →
    (|f32Value a * f32Value b| < 2 ^ 127 → RoundedOnce binary32 (f32Mul a b).toNat (f32Value a * f32Value b)) ∧
    (|f32Value a + f32Value b| < 2 ^ 127 → RoundedOnce binary32 (f32Add a b).toNat (f32Value a + f32Value b))) ∧
  (∀ a : F64, isFinite binary64 a.toNat → |f64Value a| < 2 ^ 127 →
    RoundedOnce binary32 (f32OfF64 a).toNat (f64Value a)) ∧
  (∀ v : Byte, isFinite binary32 (f32OfU8 v).toNat ∧ f32Value (f32OfU8 v) = v.toNat)

/-- 00_scope.md R12: on finite doubles, with a result in the range of the format, `*d`, `+d`, `-d`, `/d` are the exact
result rounded once to nearest, ties to even; `f64` is exact below `2^53`; `mind` and the comparisons are those of the
values. -/
def Obligations.DoublesRoundOnce : Prop :=
  (∀ a b : F64, isFinite binary64 a.toNat → isFinite binary64 b.toNat →
    (|f64Value a * f64Value b| < 2 ^ 1023 → RoundedOnce binary64 (f64Mul a b).toNat (f64Value a * f64Value b)) ∧
    (|f64Value a + f64Value b| < 2 ^ 1023 → RoundedOnce binary64 (f64Add a b).toNat (f64Value a + f64Value b)) ∧
    (|f64Value a - f64Value b| < 2 ^ 1023 → RoundedOnce binary64 (f64Sub a b).toNat (f64Value a - f64Value b)) ∧
    (f64Value b ≠ 0 → |f64Value a / f64Value b| < 2 ^ 1023 →
      RoundedOnce binary64 (f64Div a b).toNat (f64Value a / f64Value b)) ∧
    (f64Lt a b = true ↔ f64Value a < f64Value b) ∧ (f64Le a b = true ↔ f64Value a ≤ f64Value b) ∧
    f64Min a b = if f64Value b < f64Value a then b else a) ∧
  (∀ n : Int, |n| < 2 ^ 53 → isFinite binary64 (f64OfInt n).toNat ∧ f64Value (f64OfInt n) = n)

/-- 00_scope.md R15: `sat_u8`. -/
def Obligations.SaturationToByte : Prop :=
  ∀ i : Int, ((satU8 i).toNat : Int) = if i < 0 then 0 else if 255 < i then 255 else i
end

