-- ==== Sys2Proof/Laws/Rounding.lean ====
section
/-! SUPPORT. Rounding to nearest, ties to even, on the rationals: what `rneDiv`, `log2Ratio` and `roundMag` compute. -/

namespace Sys2Proof.Machine

/-- The nearest integer of a rational, ties to the even one. -/
def rneQ (q : ℚ) : ℤ :=
  if 2 * (q - ⌊q⌋) < 1 then ⌊q⌋ else if 1 < 2 * (q - ⌊q⌋) then ⌊q⌋ + 1 else ⌊q⌋ + ⌊q⌋ % 2

theorem rneQ_error (q : ℚ) : |(rneQ q : ℚ) - q| ≤ 1 / 2 := by
  have h1 := Int.floor_le q
  have h2 := Int.lt_floor_add_one q
  unfold rneQ
  split_ifs with ha hb
  · rw [abs_le]; constructor <;> linarith
  · rw [abs_le]; push_cast; constructor <;> linarith
  · have hq : q = ⌊q⌋ + 1 / 2 := by linarith
    rcases Int.emod_two_eq_zero_or_one ⌊q⌋ with h | h <;> rw [h] <;> rw [abs_le] <;> push_cast <;>
      constructor <;> linarith

@[simp] theorem rneQ_intCast (z : ℤ) : rneQ (z : ℚ) = z := by simp [rneQ]

theorem rneQ_mono {p q : ℚ} (h : p ≤ q) : rneQ p ≤ rneQ q := by
  have hf : ⌊p⌋ ≤ ⌊q⌋ := Int.floor_le_floor h
  have p1 := Int.floor_le p
  have p2 := Int.lt_floor_add_one p
  have q1 := Int.floor_le q
  have q2 := Int.lt_floor_add_one q
  rcases hf.eq_or_lt with heq | hlt
  · unfold rneQ
    rw [heq] at *
    have := Int.emod_two_eq_zero_or_one ⌊q⌋
    split_ifs <;> first | omega | (exfalso; linarith)
  · have hub : rneQ p ≤ ⌊p⌋ + 1 := by
      unfold rneQ
      have := Int.emod_two_eq_zero_or_one ⌊p⌋
      split_ifs <;> omega
    have hlb : ⌊q⌋ ≤ rneQ q := by
      unfold rneQ
      have := Int.emod_two_eq_zero_or_one ⌊q⌋
      split_ifs <;> omega
    omega

theorem rneQ_nonneg {q : ℚ} (h : 0 ≤ q) : 0 ≤ rneQ q := by
  have h2 := rneQ_mono h
  have h0 : rneQ 0 = 0 := by simpa using rneQ_intCast 0
  rwa [h0] at h2

/-- `rneDiv` is the rounded quotient. -/
theorem rneDiv_eq_rneQ (n d : ℕ) (hd : 0 < d) : (rneDiv n d : ℤ) = rneQ ((n : ℚ) / d) := by
  have hfl : ⌊(n : ℚ) / d⌋ = ((n / d : ℕ) : ℤ) := by
    have := Rat.floor_intCast_div_natCast (n : ℤ) d
    push_cast at this ⊢
    exact this
  have hd' : (0 : ℚ) < d := by exact_mod_cast hd
  have hsplit : (n : ℚ) = d * (n / d : ℕ) + (n % d : ℕ) := by exact_mod_cast (Nat.div_add_mod n d).symm
  have hfrac : (n : ℚ) / d - ((n / d : ℕ) : ℤ) = ((n % d : ℕ) : ℚ) / d := by
    rw [div_sub' hd'.ne', div_left_inj' hd'.ne', Int.cast_natCast]
    linarith
  have e1 : 2 * ((n : ℚ) / d - ((n / d : ℕ) : ℤ)) < 1 ↔ 2 * (n % d) < d := by
    rw [hfrac, ← mul_div_assoc, div_lt_one hd']; exact_mod_cast Iff.rfl
  have e2 : 1 < 2 * ((n : ℚ) / d - ((n / d : ℕ) : ℤ)) ↔ d < 2 * (n % d) := by
    rw [hfrac, ← mul_div_assoc, one_lt_div hd']; exact_mod_cast Iff.rfl
  unfold rneDiv rneQ
  rw [hfl]
  simp only [e1, e2]
  split_ifs <;> push_cast <;> rfl

theorem two_zpow_pos (k : ℤ) : (0 : ℚ) < (2 : ℚ) ^ k := zpow_pos (by norm_num) k

theorem two_zpow_le {a b : ℤ} (h : a ≤ b) : (2 : ℚ) ^ a ≤ (2 : ℚ) ^ b :=
  zpow_le_zpow_right₀ (by norm_num) h

/-- `m * 2^e` as a fraction. -/
theorem scale_eq (m : ℕ) (e : ℤ) : (scaleNum m e : ℚ) / scaleDen e = m * (2 : ℚ) ^ e := by
  unfold scaleNum scaleDen
  rcases le_total 0 e with h | h
  · have h2 : (-e).toNat = 0 := by omega
    obtain ⟨k, rfl⟩ := Int.eq_ofNat_of_zero_le h
    simp [h2]
  · obtain ⟨k, hk⟩ := Int.eq_ofNat_of_zero_le (by omega : 0 ≤ -e)
    have h1 : e.toNat = 0 := by omega
    have : e = -(k : ℤ) := by omega
    subst this
    simp [h1, div_eq_mul_inv]

theorem scaleDen_pos (e : ℤ) : 0 < scaleDen e := by unfold scaleDen; positivity

theorem scaleNum_pos {m : ℕ} (e : ℤ) (h : 0 < m) : 0 < scaleNum m e := by unfold scaleNum; positivity

/-- A quotient scaled by `2^(-k)`, as a fraction of naturals. -/
theorem scaled_quotient (n d : ℕ) (k : ℤ) :
    ((scaleNum n (-k) : ℕ) : ℚ) / (scaleNum d k : ℕ) = (n : ℚ) / d / (2 : ℚ) ^ k := by
  unfold scaleNum
  rcases le_total 0 k with h | h
  · obtain ⟨j, rfl⟩ := Int.eq_ofNat_of_zero_le h
    have : (-(j : ℤ)).toNat = 0 := by omega
    simp [this, div_div]
  · obtain ⟨j, hj⟩ := Int.eq_ofNat_of_zero_le (by omega : 0 ≤ -k)
    have : k = -(j : ℤ) := by omega
    subst this
    have h0 : (-(j : ℤ)).toNat = 0 := by omega
    simp [h0, div_eq_mul_inv]
    ring

theorem log2Ratio_eq_log (n d : ℕ) (hn : 0 < n) (hd : 0 < d) :
    log2Ratio n d = Int.log 2 ((n : ℚ) / d) := by
  have hn' : (0 : ℚ) < n := by exact_mod_cast hn
  have hd' : (0 : ℚ) < d := by exact_mod_cast hd
  have hq : (0 : ℚ) < (n : ℚ) / d := by positivity
  have a1 : ((2 : ℚ) ^ (n.log2 : ℤ)) ≤ n := by
    rw [zpow_natCast]; exact_mod_cast Nat.log2_self_le hn.ne'
  have a2 : (n : ℚ) < (2 : ℚ) ^ ((n.log2 : ℤ) + 1) := by
    have : n < 2 ^ (n.log2 + 1) := Nat.lt_log2_self
    exact_mod_cast this
  have b1 : ((2 : ℚ) ^ (d.log2 : ℤ)) ≤ d := by
    rw [zpow_natCast]; exact_mod_cast Nat.log2_self_le hd.ne'
  have b2 : (d : ℚ) < (2 : ℚ) ^ ((d.log2 : ℤ) + 1) := by
    have : d < 2 ^ (d.log2 + 1) := Nat.lt_log2_self
    exact_mod_cast this
  set e : ℤ := (n.log2 : ℤ) - d.log2 with he
  have hub : (n : ℚ) / d < (2 : ℚ) ^ (e + 1) := by
    rw [div_lt_iff₀ hd']
    calc (n : ℚ) < (2 : ℚ) ^ ((n.log2 : ℤ) + 1) := a2
      _ = (2 : ℚ) ^ (e + 1) * (2 : ℚ) ^ (d.log2 : ℤ) := by
          rw [← zpow_add₀ (by norm_num : (2 : ℚ) ≠ 0)]; congr 1; omega
      _ ≤ (2 : ℚ) ^ (e + 1) * d := by
          apply mul_le_mul_of_nonneg_left b1 (two_zpow_pos _).le
  have hlb : (2 : ℚ) ^ (e - 1) ≤ (n : ℚ) / d := by
    rw [le_div_iff₀ hd']
    calc (2 : ℚ) ^ (e - 1) * d ≤ (2 : ℚ) ^ (e - 1) * (2 : ℚ) ^ ((d.log2 : ℤ) + 1) := by
          apply mul_le_mul_of_nonneg_left b2.le (two_zpow_pos _).le
      _ = (2 : ℚ) ^ (n.log2 : ℤ) := by
          rw [← zpow_add₀ (by norm_num : (2 : ℚ) ≠ 0)]; congr 1; omega
      _ ≤ n := a1
  have hcmp : scaleNum n (-e) < scaleNum d e ↔ (n : ℚ) / d < (2 : ℚ) ^ e := by
    have hs := scaled_quotient n d e
    have hp : (0 : ℚ) < (scaleNum d e : ℕ) := by exact_mod_cast scaleNum_pos e hd
    rw [← div_lt_one (two_zpow_pos e), ← hs, div_lt_one hp]
    exact_mod_cast Iff.rfl
  have l1 : (n : ℚ) / d < (2 : ℚ) ^ (e + 1) ↔ Int.log 2 ((n : ℚ) / d) < e + 1 := by
    have := @Int.lt_zpow_iff_log_lt ℚ _ _ _ _ 2 (by norm_num) (e + 1) _ hq
    simpa using this
  have l0 : (n : ℚ) / d < (2 : ℚ) ^ e ↔ Int.log 2 ((n : ℚ) / d) < e := by
    have := @Int.lt_zpow_iff_log_lt ℚ _ _ _ _ 2 (by norm_num) e _ hq
    simpa using this
  have lm : (2 : ℚ) ^ (e - 1) ≤ (n : ℚ) / d ↔ e - 1 ≤ Int.log 2 ((n : ℚ) / d) := by
    have := @Int.zpow_le_iff_le_log ℚ _ _ _ _ 2 (by norm_num) (e - 1) _ hq
    simpa using this
  have h1 := l1.mp hub
  have h2 := lm.mp hlb
  unfold log2Ratio
  rw [← he]
  show (if scaleNum n (-e) < scaleNum d e then e - 1 else e) = _
  split_ifs with h
  · have := l0.mp (hcmp.mp h); omega
  · have : ¬ Int.log 2 ((n : ℚ) / d) < e := fun hh => h (hcmp.mpr (l0.mpr hh))
    omega

/-- The exponent of the last digit kept when a positive rational is rounded to the format. -/
def quantumQ (f : FloatFormat) (q : ℚ) : ℤ := max (Int.log 2 q) (1 - f.bias) - f.fracBits

theorem quantum_eq (f : FloatFormat) (n d : ℕ) (hn : 0 < n) (hd : 0 < d) :
    f.quantum n d = quantumQ f ((n : ℚ) / d) := by
  unfold FloatFormat.quantum quantumQ
  rw [log2Ratio_eq_log n d hn hd]

/-- A positive rational rounded to the format, were its exponents unbounded above. -/
def roundQ (f : FloatFormat) (q : ℚ) : ℚ := rneQ (q / (2 : ℚ) ^ quantumQ f q) * (2 : ℚ) ^ quantumQ f q

theorem log_lt {q : ℚ} (hq : 0 < q) {k : ℤ} : q < (2 : ℚ) ^ k ↔ Int.log 2 q < k := by
  have := @Int.lt_zpow_iff_log_lt ℚ _ _ _ _ 2 (by norm_num) k _ hq
  simpa using this

theorem le_log {q : ℚ} (hq : 0 < q) {k : ℤ} : (2 : ℚ) ^ k ≤ q ↔ k ≤ Int.log 2 q := by
  have := @Int.zpow_le_iff_le_log ℚ _ _ _ _ 2 (by norm_num) k _ hq
  simpa using this

/-- The digits kept of a positive rational fit in `fracBits + 1` bits. -/
theorem quotient_lt (f : FloatFormat) {q : ℚ} (hq : 0 < q) :
    q / (2 : ℚ) ^ quantumQ f q < (2 : ℚ) ^ (f.fracBits + 1) := by
  rw [div_lt_iff₀ (two_zpow_pos _), ← zpow_natCast, ← zpow_add₀ (by norm_num : (2 : ℚ) ≠ 0), log_lt hq]
  unfold quantumQ
  push_cast
  have := le_max_left (Int.log 2 q) (1 - (f.bias : ℤ))
  omega

theorem rounded_le (f : FloatFormat) {q : ℚ} (hq : 0 < q) :
    rneQ (q / (2 : ℚ) ^ quantumQ f q) ≤ 2 ^ (f.fracBits + 1) := by
  have h := rneQ_mono (quotient_lt f hq).le
  have e : ((2 : ℚ) ^ (f.fracBits + 1)) = (((2 : ℤ) ^ (f.fracBits + 1) : ℤ) : ℚ) := by push_cast; rfl
  rw [e, rneQ_intCast] at h
  exact h

/-- A number of the format is its own rounding. -/
theorem roundQ_exact (f : FloatFormat) {m : ℕ} {j : ℤ} (hm : 0 < m) (hlt : m < 2 ^ (f.fracBits + 1))
    (hj : 1 - (f.bias : ℤ) - f.fracBits ≤ j) : roundQ f (m * (2 : ℚ) ^ j) = m * (2 : ℚ) ^ j := by
  have hm' : (0 : ℚ) < m := by exact_mod_cast hm
  have hq : (0 : ℚ) < m * (2 : ℚ) ^ j := mul_pos hm' (two_zpow_pos j)
  have hlog : Int.log 2 ((m : ℚ) * (2 : ℚ) ^ j) < f.fracBits + 1 + j := by
    rw [← log_lt hq, zpow_add₀ (by norm_num : (2 : ℚ) ≠ 0)]
    apply mul_lt_mul_of_pos_right _ (two_zpow_pos j)
    exact_mod_cast hlt
  have hk : quantumQ f (m * (2 : ℚ) ^ j) ≤ j := by
    unfold quantumQ
    have : max (Int.log 2 ((m : ℚ) * (2 : ℚ) ^ j)) (1 - (f.bias : ℤ)) ≤ f.fracBits + j := max_le (by omega) (by omega)
    omega
  unfold roundQ
  set k := quantumQ f (m * (2 : ℚ) ^ j)
  obtain ⟨i, hi⟩ := Int.eq_ofNat_of_zero_le (by omega : 0 ≤ j - k)
  have hz : (m : ℚ) * (2 : ℚ) ^ j / (2 : ℚ) ^ k = (((m : ℤ) * 2 ^ i : ℤ) : ℚ) := by
    rw [mul_div_assoc, ← zpow_sub₀ (by norm_num : (2 : ℚ) ≠ 0), hi, zpow_natCast]
    push_cast
    rfl
  rw [hz, rneQ_intCast, ← hz, div_mul_cancel₀ _ (two_zpow_pos k).ne']

theorem roundQ_error (f : FloatFormat) (q : ℚ) : |roundQ f q - q| ≤ (2 : ℚ) ^ quantumQ f q / 2 := by
  have hp := two_zpow_pos (quantumQ f q)
  have h := rneQ_error (q / (2 : ℚ) ^ quantumQ f q)
  have e : roundQ f q - q =
      (rneQ (q / (2 : ℚ) ^ quantumQ f q) - q / (2 : ℚ) ^ quantumQ f q) * (2 : ℚ) ^ quantumQ f q := by
    unfold roundQ
    rw [sub_mul, div_mul_cancel₀ _ hp.ne']
  rw [e, abs_mul, abs_of_pos hp]
  calc _ ≤ 1 / 2 * (2 : ℚ) ^ quantumQ f q := mul_le_mul_of_nonneg_right h hp.le
    _ = _ := by ring

/-- The relative error of a rounding in the normal range. -/
theorem roundQ_relative (f : FloatFormat) {q : ℚ} (hq : 0 < q) (hn : (2 : ℚ) ^ (1 - (f.bias : ℤ)) ≤ q) :
    |roundQ f q - q| ≤ q * (2 : ℚ) ^ (-(f.fracBits : ℤ) - 1) := by
  have hlog := (le_log hq).mp hn
  have hk : quantumQ f q = Int.log 2 q - f.fracBits := by unfold quantumQ; rw [max_eq_left hlog]
  refine (roundQ_error f q).trans ?_
  have h1 : (2 : ℚ) ^ Int.log 2 q ≤ q := (le_log hq).mpr le_rfl
  have e : (2 : ℚ) ^ quantumQ f q / 2 = (2 : ℚ) ^ Int.log 2 q * (2 : ℚ) ^ (-(f.fracBits : ℤ) - 1) := by
    rw [hk, ← zpow_add₀ (by norm_num : (2 : ℚ) ≠ 0), div_eq_mul_inv]
    rw [show ((2 : ℚ)⁻¹) = (2 : ℚ) ^ (-1 : ℤ) by norm_num, ← zpow_add₀ (by norm_num : (2 : ℚ) ≠ 0)]
    congr 1; ring
  rw [e]
  exact mul_le_mul_of_nonneg_right h1 (two_zpow_pos _).le

theorem roundQ_nonneg (f : FloatFormat) {q : ℚ} (hq : 0 ≤ q) : 0 ≤ roundQ f q := by
  unfold roundQ
  apply mul_nonneg _ (two_zpow_pos _).le
  exact_mod_cast rneQ_nonneg (div_nonneg hq (two_zpow_pos _).le)

/-- Rounding keeps the order. -/
theorem roundQ_mono (f : FloatFormat) {p q : ℚ} (hp : 0 < p) (h : p ≤ q) : roundQ f p ≤ roundQ f q := by
  have hq : 0 < q := hp.trans_le h
  have hlog : Int.log 2 p ≤ Int.log 2 q := Int.log_mono_right hp h
  have hk : quantumQ f p ≤ quantumQ f q := by
    unfold quantumQ
    have := max_le_max hlog (le_refl (1 - (f.bias : ℤ)))
    omega
  rcases hk.eq_or_lt with heq | hlt
  · unfold roundQ
    rw [heq]
    apply mul_le_mul_of_nonneg_right _ (two_zpow_pos _).le
    exact_mod_cast rneQ_mono (div_le_div_of_nonneg_right h (two_zpow_pos _).le)
  · -- the larger number has a larger quantum: a power of two separates the two roundings
    have hE : Int.log 2 q - f.fracBits = quantumQ f q := by
      unfold quantumQ at hlt ⊢
      rcases max_choice (Int.log 2 q) (1 - (f.bias : ℤ)) with hm | hm
      · rw [hm]
      · rw [hm] at hlt
        have := le_max_right (Int.log 2 p) (1 - (f.bias : ℤ))
        omega
    have hub : roundQ f p ≤ (2 : ℚ) ^ ((f.fracBits : ℤ) + 1 + quantumQ f p) := by
      unfold roundQ
      rw [zpow_add₀ (by norm_num : (2 : ℚ) ≠ 0)]
      apply mul_le_mul_of_nonneg_right _ (two_zpow_pos _).le
      have := rounded_le f hp
      exact_mod_cast this
    have hlb : (2 : ℚ) ^ ((f.fracBits : ℤ) + quantumQ f q) ≤ roundQ f q := by
      unfold roundQ
      rw [zpow_add₀ (by norm_num : (2 : ℚ) ≠ 0)]
      apply mul_le_mul_of_nonneg_right _ (two_zpow_pos _).le
      have h1 : ((((2 : ℤ) ^ f.fracBits : ℤ)) : ℚ) ≤ q / (2 : ℚ) ^ quantumQ f q := by
        rw [le_div_iff₀ (two_zpow_pos _)]
        push_cast
        rw [← zpow_natCast, ← zpow_add₀ (by norm_num : (2 : ℚ) ≠ 0), le_log hq]
        omega
      have h2 := rneQ_mono h1
      rw [rneQ_intCast] at h2
      exact_mod_cast h2
    refine hub.trans (le_trans (two_zpow_le ?_) hlb)
    omega

/-- A rounding does not pass a number of the format from below. -/
theorem roundQ_le_of_le (f : FloatFormat) {q : ℚ} {m : ℕ} {j : ℤ} (hq : 0 < q) (hm : 0 < m)
    (hlt : m < 2 ^ (f.fracBits + 1)) (hj : 1 - (f.bias : ℤ) - f.fracBits ≤ j) (h : q ≤ m * (2 : ℚ) ^ j) :
    roundQ f q ≤ m * (2 : ℚ) ^ j := by
  rw [← roundQ_exact f hm hlt hj]; exact roundQ_mono f hq h

/-- A rounding does not pass a number of the format from above. -/
theorem le_roundQ_of_le (f : FloatFormat) {q : ℚ} {m : ℕ} {j : ℤ} (hm : 0 < m)
    (hlt : m < 2 ^ (f.fracBits + 1)) (hj : 1 - (f.bias : ℤ) - f.fracBits ≤ j) (h : m * (2 : ℚ) ^ j ≤ q) :
    m * (2 : ℚ) ^ j ≤ roundQ f q := by
  rw [← roundQ_exact f hm hlt hj]
  exact roundQ_mono f (mul_pos (by exact_mod_cast hm) (two_zpow_pos j)) h

end Sys2Proof.Machine
end

