-- ==== Sys2Proof/Laws/Floats.lean ====
section
/-! SUPPORT. What the floating-point operations compute: the exact result on the values, rounded once
(00_scope.md R12, R13, R14). -/

namespace Sys2Proof.Machine

/-- The rational a finite value stands for (0 for the others). -/
def FloatVal.toRat (v : FloatVal) : ℚ :=
  match v with
  | .finite s m e => (if s then -1 else 1) * (m * (2 : ℚ) ^ e)
  | .infinite _ => 0
  | .nan => 0

/-- A value is finite. -/
def FloatVal.isFinite (v : FloatVal) : Bool :=
  match v with
  | .finite _ _ _ => true
  | .infinite _ => false
  | .nan => false

/-- A signed rational rounded to the format. -/
def rnd (f : FloatFormat) (q : ℚ) : ℚ :=
  if q = 0 then 0 else if q < 0 then -roundQ f (-q) else roundQ f q

/-- The magnitude bits of a number below infinity stand for that number. -/
theorem unpack_pack (f : FloatFormat) (hx : 0 < f.expBits) (neg : Bool) (E m : ℕ) (hm : m ≤ 2 ^ (f.fracBits + 1))
    (hE : E = 0 ∨ 2 ^ f.fracBits ≤ m) (hlt : E * 2 ^ f.fracBits + m < f.infMag) :
    (f.unpack (f.pack neg (E * 2 ^ f.fracBits + m))).isFinite = true ∧
    (f.unpack (f.pack neg (E * 2 ^ f.fracBits + m))).toRat =
      (if neg then -1 else 1) * (m * (2 : ℚ) ^ ((E : ℤ) + 1 - f.bias - f.fracBits)) := by
  have hF : 0 < 2 ^ f.fracBits := by positivity
  have hX : 1 < 2 ^ f.expBits := Nat.one_lt_two_pow hx.ne'
  set F := 2 ^ f.fracBits with hFdef
  set mag := E * F + m with hmag
  have hdiv : mag / F < 2 ^ f.expBits - 1 := by
    rw [Nat.div_lt_iff_lt_mul hF]; exact hlt
  have hmagX : mag < F * 2 ^ f.expBits := by
    have : f.infMag ≤ F * 2 ^ f.expBits := by
      unfold FloatFormat.infMag
      rw [mul_comm]
      exact Nat.mul_le_mul_left _ (Nat.sub_le _ _)
    omega
  have hpow : 2 ^ (f.fracBits + f.expBits) = F * 2 ^ f.expBits := by rw [pow_add]
  have hmod : f.pack neg mag % F = mag % F := by
    unfold FloatFormat.pack
    split
    · rw [hpow, Nat.add_mod, Nat.mul_mod_right, Nat.zero_add, Nat.mod_mod]
    · rfl
  have hfield : f.pack neg mag / F % 2 ^ f.expBits = mag / F := by
    unfold FloatFormat.pack
    split
    · rw [hpow, Nat.mul_add_div hF, Nat.add_mod_left, Nat.mod_eq_of_lt (by omega)]
    · rw [Nat.mod_eq_of_lt (by omega)]
  have hsign : (f.pack neg mag / 2 ^ (f.fracBits + f.expBits) % 2 == 1) = neg := by
    unfold FloatFormat.pack
    rw [hpow]
    have h0 : mag / (F * 2 ^ f.expBits) = 0 := Nat.div_eq_of_lt hmagX
    cases neg
    · simp [h0]
    · have : (F * 2 ^ f.expBits + mag) / (F * 2 ^ f.expBits) = 1 := by
        rw [Nat.add_div_left _ (by positivity), h0]
      simp [this]
  have hE1 : ∀ z : ℕ, mag / F = z → mag % F = mag - F * z := by
    intro z hz; have := Nat.div_add_mod mag F; rw [hz] at this; omega
  unfold FloatFormat.unpack
  simp only [← hFdef, hmod, hfield, hsign]
  have hne : mag / F ≠ 2 ^ f.expBits - 1 := by omega
  rw [if_neg hne]
  have hm2 : m ≤ 2 * F := by rw [hFdef, ← pow_succ']; exact hm
  by_cases hlow : m < F
  · have hE0 : E = 0 := by rcases hE with h | h <;> omega
    have hz : mag / F = 0 := by rw [hmag, hE0]; simp; omega
    have hr : mag % F = m := by rw [hE1 0 hz, hmag, hE0]; simp
    rw [if_pos hz]
    refine ⟨rfl, ?_⟩
    simp only [FloatVal.toRat, hr, hE0]
    congr 3
  · by_cases htop : m = 2 * F
    · have hz : mag / F = E + 2 := by
        rw [hmag, htop, ← Nat.add_mul, Nat.mul_div_cancel _ hF]
      have hr : mag % F = 0 := by
        rw [hmag, htop, ← Nat.add_mul, Nat.mul_mod_left]
      rw [if_neg (by omega)]
      refine ⟨rfl, ?_⟩
      have hFq : (F : ℚ) = 2 ^ f.fracBits := by rw [hFdef]; push_cast; rfl
      simp only [FloatVal.toRat, hr, hz]
      congr 1
      rw [show (((E + 2 : ℕ) : ℤ) - f.bias - f.fracBits) = ((E : ℤ) + 1 - f.bias - f.fracBits) + 1 by push_cast; ring,
        zpow_add₀ (by norm_num : (2 : ℚ) ≠ 0)]
      rw [htop]
      push_cast
      ring
    · have hz : mag / F = E + 1 := by
        rw [hmag, Nat.div_eq_iff hF]
        constructor
        · have : (E + 1) * F = E * F + F := by ring
          omega
        · have : (E + 1) * F = E * F + F := by ring
          omega
      have hr : mag % F = m - F := by
        rw [hE1 _ hz, hmag]
        have : F * (E + 1) = E * F + F := by ring
        omega
      rw [if_neg (by omega)]
      refine ⟨rfl, ?_⟩
      simp only [FloatVal.toRat, hr, hz]
      have : F + (m - F) = m := by omega
      rw [this]
      congr 3

/-- What the lemmas need of a format's numbers; both formats have it. -/
abbrev FloatFormat.Good (f : FloatFormat) : Prop :=
  0 < f.expBits ∧ f.infMag = (2 * f.bias + 1) * 2 ^ f.fracBits ∧ 1 ≤ f.bias

theorem binary64_good : binary64.Good := by decide +kernel
theorem binary32_good : binary32.Good := by decide +kernel

/-- A positive quotient below `2^bias` is rounded once, and nothing overflows. -/
theorem roundMag_spec (f : FloatFormat) (hf : f.Good) (neg : Bool) (n d : ℕ) (hn : 0 < n) (hd : 0 < d)
    (hlt : (n : ℚ) / d < (2 : ℚ) ^ (f.bias : ℤ)) :
    (f.unpack (f.pack neg (f.roundMag n d))).isFinite = true ∧
    (f.unpack (f.pack neg (f.roundMag n d))).toRat = (if neg then -1 else 1) * roundQ f ((n : ℚ) / d) ∧
    f.roundMag n d < f.infMag := by
  obtain ⟨hx, hinf, hb⟩ := hf
  have hq : (0 : ℚ) < (n : ℚ) / d := div_pos (by exact_mod_cast hn) (by exact_mod_cast hd)
  have hquant := quantum_eq f n d hn hd
  have hrnd : roundQ f ((n : ℚ) / d) = rneQ ((n : ℚ) / d / (2 : ℚ) ^ quantumQ f ((n : ℚ) / d)) *
      (2 : ℚ) ^ quantumQ f ((n : ℚ) / d) := rfl
  set k := quantumQ f ((n : ℚ) / d) with hk
  set r : ℕ := rneDiv (scaleNum n (-k)) (scaleNum d k) with hr
  have hrq : (r : ℤ) = rneQ ((n : ℚ) / d / (2 : ℚ) ^ k) := by
    rw [hr, rneDiv_eq_rneQ _ _ (scaleNum_pos k hd), scaled_quotient]
  have hrle : r ≤ 2 ^ (f.fracBits + 1) := by
    have := rounded_le f hq
    rw [← hk, ← hrq] at this
    exact_mod_cast this
  have hmaxr := le_max_right (Int.log 2 ((n : ℚ) / d)) (1 - (f.bias : ℤ))
  have hkd : k = max (Int.log 2 ((n : ℚ) / d)) (1 - (f.bias : ℤ)) - f.fracBits := rfl
  have hlog : Int.log 2 ((n : ℚ) / d) < f.bias := (log_lt hq).mp hlt
  have hkle : max (Int.log 2 ((n : ℚ) / d)) (1 - (f.bias : ℤ)) ≤ f.bias - 1 := max_le (by omega) (by omega)
  obtain ⟨E, hE⟩ := Int.eq_ofNat_of_zero_le (by omega : 0 ≤ k + f.fracBits + f.bias - 1)
  have hElt : E + 2 ≤ 2 * f.bias := by omega
  -- the bits before the bound by infinity
  have hbits : E * 2 ^ f.fracBits + r < f.infMag := by
    rw [hinf]
    have h1 : r ≤ 2 * 2 ^ f.fracBits := by rw [← pow_succ']; exact hrle
    have h2 : (E + 2) * 2 ^ f.fracBits ≤ 2 * f.bias * 2 ^ f.fracBits := Nat.mul_le_mul_right _ hElt
    have h3 : 0 < 2 ^ f.fracBits := by positivity
    have h4 : (E + 2) * 2 ^ f.fracBits = E * 2 ^ f.fracBits + 2 * 2 ^ f.fracBits := by ring
    have h5 : (2 * f.bias + 1) * 2 ^ f.fracBits = 2 * f.bias * 2 ^ f.fracBits + 2 ^ f.fracBits := by ring
    omega
  have hmag : f.roundMag n d = E * 2 ^ f.fracBits + r := by
    unfold FloatFormat.roundMag
    rw [if_neg hn.ne', hquant]
    show min ((k + f.fracBits + f.bias - 1).toNat * 2 ^ f.fracBits + r) f.infMag = _
    rw [hE]
    exact Nat.min_eq_left hbits.le
  have hlow : E = 0 ∨ 2 ^ f.fracBits ≤ r := by
    by_cases h0 : E = 0
    · exact .inl h0
    · right
      have hkl : k = Int.log 2 ((n : ℚ) / d) - f.fracBits := by
        rcases max_choice (Int.log 2 ((n : ℚ) / d)) (1 - (f.bias : ℤ)) with h | h <;> omega
      have h1 : (((2 : ℤ) ^ f.fracBits : ℤ) : ℚ) ≤ (n : ℚ) / d / (2 : ℚ) ^ k := by
        rw [le_div_iff₀ (two_zpow_pos _)]
        push_cast
        rw [← zpow_natCast, ← zpow_add₀ (by norm_num : (2 : ℚ) ≠ 0), le_log hq]
        omega
      have h2 := rneQ_mono h1
      rw [rneQ_intCast, ← hrq] at h2
      exact_mod_cast h2
  obtain ⟨u1, u2⟩ := unpack_pack f hx neg E r hrle hlow hbits
  rw [hmag]
  refine ⟨u1, ?_, hbits⟩
  rw [u2, hrnd, ← hrq]
  congr 2
  congr 1
  omega


/-! ### Rounding signed numbers -/

theorem natAbs_cast_of_nonneg {z : ℤ} (h : 0 ≤ z) : ((z.natAbs : ℕ) : ℚ) = z := by
  have : ((z.natAbs : ℕ) : ℤ) = z := by omega
  calc ((z.natAbs : ℕ) : ℚ) = (((z.natAbs : ℕ) : ℤ) : ℚ) := by rw [Int.cast_natCast]
    _ = z := by rw [this]

theorem natAbs_cast_of_neg {z : ℤ} (h : z < 0) : ((z.natAbs : ℕ) : ℚ) = -z := by
  have := natAbs_cast_of_nonneg (z := -z) (by omega)
  rw [Int.natAbs_neg] at this
  rw [this, Int.cast_neg]

theorem rnd_neg (f : FloatFormat) (q : ℚ) : rnd f (-q) = -rnd f q := by
  unfold rnd
  rcases lt_trichotomy q 0 with h | h | h
  · rw [if_neg (by linarith : ¬ -q = 0), if_neg (by linarith : ¬ -q < 0), if_neg h.ne, if_pos h, neg_neg]
  · simp [h]
  · rw [if_neg (by linarith : ¬ -q = 0), if_pos (by linarith : -q < 0), if_neg h.ne', if_neg (by linarith : ¬ q < 0),
      neg_neg]

theorem rnd_pos (f : FloatFormat) {q : ℚ} (h : 0 < q) : rnd f q = roundQ f q := by
  unfold rnd; rw [if_neg h.ne', if_neg (by linarith)]

@[simp] theorem rnd_zero (f : FloatFormat) : rnd f 0 = 0 := by simp [rnd]

theorem rnd_nonneg (f : FloatFormat) {q : ℚ} (h : 0 ≤ q) : 0 ≤ rnd f q := by
  rcases h.eq_or_lt with h | h
  · simp [← h]
  · rw [rnd_pos f h]; exact roundQ_nonneg f h.le

theorem rnd_mono (f : FloatFormat) {p q : ℚ} (h : p ≤ q) : rnd f p ≤ rnd f q := by
  rcases lt_or_ge 0 p with hp | hp
  · rw [rnd_pos f hp, rnd_pos f (hp.trans_le h)]; exact roundQ_mono f hp h
  · rcases lt_or_ge q 0 with hq | hq
    · have h1 := roundQ_mono f (by linarith : 0 < -q) (by linarith : -q ≤ -p)
      rw [← rnd_pos f (by linarith), ← rnd_pos f (by linarith), rnd_neg, rnd_neg] at h1
      linarith
    · have h1 := rnd_nonneg f hq
      have h2 := rnd_nonneg f (by linarith : 0 ≤ -p)
      rw [rnd_neg] at h2
      linarith

/-- A number of the format, of either sign, is its own rounding. -/
theorem rnd_exact (f : FloatFormat) (z : ℤ) (j : ℤ) (hlt : z.natAbs < 2 ^ (f.fracBits + 1))
    (hj : 1 - (f.bias : ℤ) - f.fracBits ≤ j) : rnd f (z * (2 : ℚ) ^ j) = z * (2 : ℚ) ^ j := by
  have pos : ∀ m : ℕ, 0 < m → m < 2 ^ (f.fracBits + 1) → rnd f (m * (2 : ℚ) ^ j) = m * (2 : ℚ) ^ j := by
    intro m hm hl
    rw [rnd_pos f (mul_pos (by exact_mod_cast hm) (two_zpow_pos j))]
    exact roundQ_exact f hm hl hj
  rcases lt_trichotomy z 0 with h | h | h
  · have e : (z : ℚ) = -((z.natAbs : ℕ) : ℚ) := by rw [natAbs_cast_of_neg h, neg_neg]
    rw [e, neg_mul, rnd_neg, pos _ (by omega) hlt]
  · simp [h]
  · have e : (z : ℚ) = ((z.natAbs : ℕ) : ℚ) := (natAbs_cast_of_nonneg h.le).symm
    rw [e, pos _ (by omega) hlt]

/-- An integer of at most `fracBits + 1` bits is its own rounding. -/
theorem rnd_int (f : FloatFormat) (hf : f.Good) (z : ℤ) (hlt : z.natAbs < 2 ^ (f.fracBits + 1)) : rnd f z = z := by
  have := rnd_exact f z 0 hlt (by have := hf.2.2; omega)
  simpa using this

/-- The error of a rounding of a number in the normal range, or of 0. -/
theorem rnd_error (f : FloatFormat) {q : ℚ} (hq : q = 0 ∨ (2 : ℚ) ^ (1 - (f.bias : ℤ)) ≤ |q|) :
    |rnd f q - q| ≤ |q| * (2 : ℚ) ^ (-(f.fracBits : ℤ) - 1) := by
  rcases hq with h | h
  · simp [h]
  · rcases lt_trichotomy q 0 with h0 | h0 | h0
    · rw [abs_of_neg h0] at h ⊢
      have := roundQ_relative f (by linarith : 0 < -q) h
      rw [← rnd_pos f (by linarith), rnd_neg] at this
      rwa [show rnd f q - q = -(-rnd f q - -q) by ring, abs_neg]
    · simp [h0]
    · rw [abs_of_pos h0] at h ⊢
      rw [rnd_pos f h0]
      exact roundQ_relative f h0 h

/-! ### The operations on encodings -/

/-- An encoding is finite. -/
def FloatFormat.fin (f : FloatFormat) (a : ℕ) : Prop := (f.unpack a).isFinite = true

/-- The rational a finite encoding stands for. -/
def FloatFormat.val (f : FloatFormat) (a : ℕ) : ℚ := (f.unpack a).toRat

theorem fin_iff {f : FloatFormat} {a : ℕ} (h : f.fin a) : ∃ s m e, f.unpack a = .finite s m e := by
  unfold FloatFormat.fin at h
  cases hu : f.unpack a with
  | nan => rw [hu] at h; cases h
  | infinite s => rw [hu] at h; cases h
  | finite s m e => exact ⟨s, m, e, rfl⟩

theorem pack_lt (f : FloatFormat) (neg : Bool) {mag : ℕ} (h : mag < f.infMag) :
    f.pack neg mag < 2 ^ (f.fracBits + f.expBits + 1) := by
  have h1 : f.infMag ≤ 2 ^ (f.fracBits + f.expBits) := by
    unfold FloatFormat.infMag
    rw [pow_add, mul_comm]
    exact Nat.mul_le_mul_left _ (Nat.sub_le _ _)
  unfold FloatFormat.pack
  rw [pow_succ]
  split <;> omega

theorem infMag_pos {f : FloatFormat} (hf : f.Good) : 0 < f.infMag := by
  rw [hf.2.1]; positivity

theorem pack_zero_spec {f : FloatFormat} (hf : f.Good) (neg : Bool) :
    f.fin (f.pack neg 0) ∧ f.val (f.pack neg 0) = 0 := by
  have := unpack_pack f hf.1 neg 0 0 (by positivity) (.inl rfl) (by simpa using infMag_pos hf)
  simp only [Nat.add_zero, Nat.cast_zero, zero_mul, mul_zero] at this
  exact this

/-- A sign and a scaled significand are rounded once. -/
theorem roundMag_val {f : FloatFormat} (hf : f.Good) (neg : Bool) (n d : ℕ) (hd : 0 < d)
    (hlt : (n : ℚ) / d < (2 : ℚ) ^ (f.bias : ℤ)) :
    f.fin (f.pack neg (f.roundMag n d)) ∧
    f.val (f.pack neg (f.roundMag n d)) = rnd f ((if neg then -1 else 1) * ((n : ℚ) / d)) ∧
    f.pack neg (f.roundMag n d) < 2 ^ (f.fracBits + f.expBits + 1) := by
  rcases Nat.eq_zero_or_pos n with h0 | hn
  · have hz : f.roundMag n d = 0 := by unfold FloatFormat.roundMag; rw [if_pos h0]
    obtain ⟨z1, z2⟩ := pack_zero_spec hf neg
    rw [hz]
    refine ⟨z1, ?_, pack_lt f neg (infMag_pos hf)⟩
    rw [z2, h0]; simp
  · obtain ⟨s1, s2, s3⟩ := roundMag_spec f hf neg n d hn hd hlt
    have hq : (0 : ℚ) < (n : ℚ) / d := div_pos (by exact_mod_cast hn) (by exact_mod_cast hd)
    refine ⟨s1, ?_, pack_lt f neg s3⟩
    unfold FloatFormat.val
    rw [s2]
    cases neg
    · simp [rnd_pos f hq]
    · simp only [if_true, neg_one_mul, rnd_neg, rnd_pos f hq]

theorem roundScaled_val {f : FloatFormat} (hf : f.Good) (neg : Bool) (m : ℕ) (e : ℤ)
    (hlt : (m : ℚ) * (2 : ℚ) ^ e < (2 : ℚ) ^ (f.bias : ℤ)) :
    f.fin (f.roundScaled neg m e) ∧
    f.val (f.roundScaled neg m e) = rnd f ((if neg then -1 else 1) * (m * (2 : ℚ) ^ e)) ∧
    f.roundScaled neg m e < 2 ^ (f.fracBits + f.expBits + 1) := by
  have hs := scale_eq m e
  unfold FloatFormat.roundScaled
  rw [← hs] at hlt ⊢
  exact roundMag_val hf neg _ _ (scaleDen_pos e) hlt

/-- `a * b`: the exact product rounded once. -/
theorem mul_val {f : FloatFormat} (hf : f.Good) {a b : ℕ} (ha : f.fin a) (hb : f.fin b)
    (hlt : |f.val a * f.val b| < (2 : ℚ) ^ (f.bias : ℤ)) :
    f.fin (f.mul a b) ∧ f.val (f.mul a b) = rnd f (f.val a * f.val b) ∧
    f.mul a b < 2 ^ (f.fracBits + f.expBits + 1) := by
  obtain ⟨s, m, e, ua⟩ := fin_iff ha
  obtain ⟨t, n, g, ub⟩ := fin_iff hb
  have hprod : f.val a * f.val b =
      (if (s ^^ t) then -1 else 1) * (((m * n : ℕ) : ℚ) * (2 : ℚ) ^ (e + g)) := by
    unfold FloatFormat.val
    rw [ua, ub, zpow_add₀ (by norm_num : (2 : ℚ) ≠ 0)]
    simp only [FloatVal.toRat]
    push_cast
    cases s <;> cases t <;> simp <;> ring
  have hmul : f.mul a b = f.roundScaled (s ^^ t) (m * n) (e + g) := by
    unfold FloatFormat.mul; rw [ua, ub]
  have habs : |f.val a * f.val b| = ((m * n : ℕ) : ℚ) * (2 : ℚ) ^ (e + g) := by
    rw [hprod, abs_mul]
    have h1 : |(if (s ^^ t) then (-1 : ℚ) else 1)| = 1 := by split <;> simp
    rw [h1, one_mul, abs_of_nonneg (mul_nonneg (by positivity) (two_zpow_pos _).le)]
  rw [habs] at hlt
  rw [hmul, hprod]
  exact roundScaled_val hf _ _ _ hlt

theorem alignTo_val (s : Bool) (m : ℕ) (e h : ℤ) (hle : h ≤ e) :
    ((alignTo s m e h : ℤ) : ℚ) * (2 : ℚ) ^ h = (if s then -1 else 1) * (m * (2 : ℚ) ^ e) := by
  obtain ⟨i, hi⟩ := Int.eq_ofNat_of_zero_le (by omega : 0 ≤ e - h)
  have he : e = i + h := by omega
  have hn : (e - h).toNat = i := by omega
  unfold alignTo
  rw [hn, he, zpow_add₀ (by norm_num : (2 : ℚ) ≠ 0), zpow_natCast]
  cases s <;> simp <;> ring

/-- `a + b`: the exact sum rounded once. -/
theorem add_val {f : FloatFormat} (hf : f.Good) {a b : ℕ} (ha : f.fin a) (hb : f.fin b)
    (hlt : |f.val a + f.val b| < (2 : ℚ) ^ (f.bias : ℤ)) :
    f.fin (f.add a b) ∧ f.val (f.add a b) = rnd f (f.val a + f.val b) ∧
    f.add a b < 2 ^ (f.fracBits + f.expBits + 1) := by
  obtain ⟨s, m, e, ua⟩ := fin_iff ha
  obtain ⟨t, n, g, ub⟩ := fin_iff hb
  set sum : ℤ := alignTo s m e (min e g) + alignTo t n g (min e g) with hsum
  have hval : f.val a + f.val b = (sum : ℚ) * (2 : ℚ) ^ min e g := by
    unfold FloatFormat.val
    rw [ua, ub, hsum]
    simp only [FloatVal.toRat]
    push_cast
    rw [add_mul, alignTo_val s m e _ (min_le_left e g), alignTo_val t n g _ (min_le_right e g)]
  have hadd : f.add a b =
      if sum = 0 then f.pack (s && t) 0 else f.roundScaled (sum < 0) sum.natAbs (min e g) := by
    unfold FloatFormat.add; rw [ua, ub]
  by_cases h0 : sum = 0
  · rw [hadd, if_pos h0, hval, h0]
    obtain ⟨z1, z2⟩ := pack_zero_spec hf (s && t)
    refine ⟨z1, ?_, pack_lt f _ (infMag_pos hf)⟩
    rw [z2]; simp
  · have hsgn : (sum : ℚ) = (if decide (sum < 0) then -1 else 1) * ((sum.natAbs : ℕ) : ℚ) := by
      by_cases hn : sum < 0
      · simp only [hn, decide_true, if_true, neg_one_mul]
        rw [natAbs_cast_of_neg hn, neg_neg]
      · simp only [hn, decide_false, Bool.false_eq_true, if_false, one_mul]
        rw [natAbs_cast_of_nonneg (by omega)]
    have habs : |f.val a + f.val b| = ((sum.natAbs : ℕ) : ℚ) * (2 : ℚ) ^ min e g := by
      rw [hval, abs_mul, abs_of_pos (two_zpow_pos _)]
      congr 1
      rw [hsgn, abs_mul]
      have h1 : |(if decide (sum < 0) then (-1 : ℚ) else 1)| = 1 := by split <;> simp
      rw [h1, one_mul, Nat.abs_cast]
    rw [habs] at hlt
    rw [hadd, if_neg h0, hval, hsgn, mul_assoc]
    exact roundScaled_val hf _ _ _ hlt

theorem neg_val {f : FloatFormat} {a : ℕ} (ha : f.fin a) (hlt : a < 2 ^ (f.fracBits + f.expBits + 1)) :
    f.fin (f.neg a) ∧ f.val (f.neg a) = -f.val a := by
  set P := 2 ^ (f.fracBits + f.expBits) with hP
  have hPF : P = 2 ^ f.fracBits * 2 ^ f.expBits := by rw [hP, pow_add]
  have hPpos : 0 < P := by positivity
  have hFpos : 0 < 2 ^ f.fracBits := by positivity
  have hXpos : 0 < 2 ^ f.expBits := by positivity
  have hlt2 : a < 2 * P := by rw [hP, ← pow_succ']; exact hlt
  -- the sign bit aside, the fields are those of the remainder
  have key : ∀ x : ℕ, x < P → ∀ b : Bool, f.unpack (f.pack b x) =
      (if x / 2 ^ f.fracBits = 2 ^ f.expBits - 1 then
        (if x % 2 ^ f.fracBits = 0 then .infinite b else .nan)
      else if x / 2 ^ f.fracBits = 0 then .finite b (x % 2 ^ f.fracBits) (1 - f.bias - f.fracBits)
      else .finite b (2 ^ f.fracBits + x % 2 ^ f.fracBits) ((x / 2 ^ f.fracBits : ℕ) - f.bias - f.fracBits)) := by
    intro x hx b
    have hxd : x / 2 ^ f.fracBits < 2 ^ f.expBits := by
      rw [Nat.div_lt_iff_lt_mul hFpos, mul_comm, ← hPF]; exact hx
    have e1 : f.pack b x % 2 ^ f.fracBits = x % 2 ^ f.fracBits := by
      unfold FloatFormat.pack
      split
      · rw [← hP, hPF, Nat.add_mod, Nat.mul_mod_right, Nat.zero_add, Nat.mod_mod]
      · rfl
    have e2 : f.pack b x / 2 ^ f.fracBits % 2 ^ f.expBits = x / 2 ^ f.fracBits := by
      unfold FloatFormat.pack
      split
      · rw [← hP, hPF, Nat.mul_add_div hFpos, Nat.add_mod_left, Nat.mod_eq_of_lt hxd]
      · rw [Nat.mod_eq_of_lt hxd]
    have e3 : (f.pack b x / P % 2 == 1) = b := by
      unfold FloatFormat.pack
      rw [← hP]
      have h0 : x / P = 0 := Nat.div_eq_of_lt hx
      cases b
      · simp [h0]
      · have : (P + x) / P = 1 := by rw [Nat.add_div_left _ hPpos, h0]
        simp [this]
    unfold FloatFormat.unpack
    simp only [e1, e2]
    rw [← hP, e3]
  have flip : ∀ x : ℕ, x < P → ∀ b : Bool, f.fin (f.pack b x) →
      f.fin (f.pack (!b) x) ∧ f.val (f.pack (!b) x) = -f.val (f.pack b x) := by
    intro x hx b hfin
    unfold FloatFormat.fin FloatFormat.val at *
    rw [key x hx] at hfin ⊢
    rw [key x hx]
    split_ifs at hfin ⊢ <;> first
      | (cases hfin; done)
      | (refine ⟨rfl, ?_⟩; simp only [FloatVal.toRat]; cases b <;> simp)
  rcases lt_or_ge a P with h | h
  · have hp : f.pack false a = a := rfl
    have hn : f.neg a = f.pack true a := by
      unfold FloatFormat.neg FloatFormat.pack
      rw [← hP]
      have : a / P = 0 := Nat.div_eq_of_lt h
      simp [this]; omega
    rw [hn]
    have := flip a h false (by rw [hp]; exact ha)
    rw [hp] at this
    exact this
  · have hx : a - P < P := by omega
    have hp : f.pack true (a - P) = a := by unfold FloatFormat.pack; rw [← hP]; simp; omega
    have hn : f.neg a = f.pack false (a - P) := by
      unfold FloatFormat.neg FloatFormat.pack
      rw [← hP]
      have : a / P = 1 := by
        rw [Nat.div_eq_iff hPpos]; omega
      simp [this]
    rw [hn]
    have := flip (a - P) hx true (by rw [hp]; exact ha)
    rw [hp] at this
    exact this

/-- `a - b`: the exact difference rounded once. -/
theorem sub_val {f : FloatFormat} (hf : f.Good) {a b : ℕ} (ha : f.fin a) (hb : f.fin b)
    (hbl : b < 2 ^ (f.fracBits + f.expBits + 1)) (hlt : |f.val a - f.val b| < (2 : ℚ) ^ (f.bias : ℤ)) :
    f.fin (f.sub a b) ∧ f.val (f.sub a b) = rnd f (f.val a - f.val b) ∧
    f.sub a b < 2 ^ (f.fracBits + f.expBits + 1) := by
  obtain ⟨n1, n2⟩ := neg_val hb hbl
  have := add_val hf ha n1 (by rw [n2, ← sub_eq_add_neg]; exact hlt)
  rw [n2, ← sub_eq_add_neg] at this
  exact this

theorem val_ne_zero {f : FloatFormat} {b : ℕ} {t : Bool} {n : ℕ} {g : ℤ} (hb : f.unpack b = .finite t n g) :
    f.val b ≠ 0 ↔ n ≠ 0 := by
  unfold FloatFormat.val
  rw [hb]
  simp only [FloatVal.toRat]
  have := (two_zpow_pos g).ne'
  cases t <;> simp [this]

/-- `a / b`, for `b` not zero: the exact quotient rounded once. -/
theorem div_val {f : FloatFormat} (hf : f.Good) {a b : ℕ} (ha : f.fin a) (hb : f.fin b) (hb0 : f.val b ≠ 0)
    (hlt : |f.val a / f.val b| < (2 : ℚ) ^ (f.bias : ℤ)) :
    f.fin (f.div a b) ∧ f.val (f.div a b) = rnd f (f.val a / f.val b) ∧
    f.div a b < 2 ^ (f.fracBits + f.expBits + 1) := by
  obtain ⟨s, m, e, ua⟩ := fin_iff ha
  obtain ⟨t, n, g, ub⟩ := fin_iff hb
  have hn : n ≠ 0 := (val_ne_zero ub).mp hb0
  have hdiv : f.div a b = f.pack (s ^^ t) (f.roundMag (scaleNum m (e - g)) (scaleNum n (g - e))) := by
    unfold FloatFormat.div; rw [ua, ub]; simp only [if_neg hn]
  have hsc : ((scaleNum m (e - g) : ℕ) : ℚ) / (scaleNum n (g - e) : ℕ) = (m : ℚ) / n * (2 : ℚ) ^ (e - g) := by
    have := scaled_quotient m n (g - e)
    rw [show -(g - e) = e - g by ring] at this
    rw [this, div_eq_mul_inv _ ((2 : ℚ) ^ (g - e)), ← zpow_neg, show -(g - e) = e - g by ring]
  have hquot : f.val a / f.val b =
      (if (s ^^ t) then -1 else 1) * (((scaleNum m (e - g) : ℕ) : ℚ) / (scaleNum n (g - e) : ℕ)) := by
    rw [hsc]
    unfold FloatFormat.val
    rw [ua, ub, zpow_sub₀ (by norm_num : (2 : ℚ) ≠ 0)]
    simp only [FloatVal.toRat]
    have hn' : (n : ℚ) ≠ 0 := by exact_mod_cast hn
    have hg := (two_zpow_pos g).ne'
    cases s <;> cases t <;> simp <;> field_simp
  have habs : |f.val a / f.val b| = ((scaleNum m (e - g) : ℕ) : ℚ) / (scaleNum n (g - e) : ℕ) := by
    rw [hquot, abs_mul]
    have h1 : |(if (s ^^ t) then (-1 : ℚ) else 1)| = 1 := by split <;> simp
    rw [h1, one_mul, abs_of_nonneg (by positivity)]
  rw [habs] at hlt
  rw [hdiv, hquot]
  exact roundMag_val hf _ _ _ (scaleNum_pos _ (by omega)) hlt

theorem lt_val {f : FloatFormat} {a b : ℕ} (ha : f.fin a) (hb : f.fin b) :
    f.lt a b = true ↔ f.val a < f.val b := by
  obtain ⟨s, m, e, ua⟩ := fin_iff ha
  obtain ⟨t, n, g, ub⟩ := fin_iff hb
  have h1 := alignTo_val s m e (min e g) (min_le_left e g)
  have h2 := alignTo_val t n g (min e g) (min_le_right e g)
  unfold FloatFormat.lt FloatFormat.val
  rw [ua, ub]
  simp only [FloatVal.toRat, decide_eq_true_eq]
  rw [← h1, ← h2, mul_lt_mul_iff_left₀ (two_zpow_pos _)]
  exact_mod_cast Iff.rfl

theorem le_val {f : FloatFormat} {a b : ℕ} (ha : f.fin a) (hb : f.fin b) :
    f.le a b = true ↔ f.val a ≤ f.val b := by
  obtain ⟨s, m, e, ua⟩ := fin_iff ha
  obtain ⟨t, n, g, ub⟩ := fin_iff hb
  have h1 := alignTo_val s m e (min e g) (min_le_left e g)
  have h2 := alignTo_val t n g (min e g) (min_le_right e g)
  unfold FloatFormat.le FloatFormat.val
  rw [ua, ub]
  simp only [FloatVal.toRat, decide_eq_true_eq]
  rw [← h1, ← h2, mul_le_mul_iff_left₀ (two_zpow_pos _)]
  exact_mod_cast Iff.rfl

theorem floor_val {f : FloatFormat} {a : ℕ} (ha : f.fin a) : f.floor a = ⌊f.val a⌋ := by
  obtain ⟨s, m, e, ua⟩ := fin_iff ha
  have hs := scale_eq m e
  unfold FloatFormat.floor FloatFormat.val
  rw [ua]
  simp only [FloatVal.toRat]
  rw [← hs, ← Rat.floor_intCast_div_natCast]
  congr 1
  cases s <;> simp
  ring

theorem ceil_val {f : FloatFormat} {a : ℕ} (ha : f.fin a) (hlt : a < 2 ^ (f.fracBits + f.expBits + 1)) :
    f.ceil a = ⌈f.val a⌉ := by
  obtain ⟨n1, n2⟩ := neg_val ha hlt
  unfold FloatFormat.ceil
  rw [floor_val n1, n2, Int.floor_neg, neg_neg]

theorem rneQ_neg (q : ℚ) : rneQ (-q) = -rneQ q := by
  have h1 := Int.floor_le q
  have h2 := Int.lt_floor_add_one q
  rcases h1.eq_or_lt with h | h
  · rw [← h, ← Int.cast_neg, rneQ_intCast, rneQ_intCast]
  · have hfl : ⌊-q⌋ = -⌊q⌋ - 1 := by
      rw [Int.floor_eq_iff]; push_cast; constructor <;> linarith
    unfold rneQ
    rw [hfl]
    push_cast
    have := Int.emod_two_eq_zero_or_one ⌊q⌋
    have := Int.emod_two_eq_zero_or_one (-⌊q⌋ - 1)
    split_ifs <;> first | omega | (exfalso; linarith)

theorem rne_val {f : FloatFormat} {a : ℕ} (ha : f.fin a) : f.rne a = rneQ (f.val a) := by
  obtain ⟨s, m, e, ua⟩ := fin_iff ha
  have hs := scale_eq m e
  unfold FloatFormat.rne FloatFormat.val
  rw [ua]
  simp only [FloatVal.toRat]
  rw [← hs, rneDiv_eq_rneQ _ _ (scaleDen_pos e)]
  cases s
  · simp
  · simp [rneQ_neg]

theorem ofInt_val {f : FloatFormat} (hf : f.Good) (z : ℤ) (hlt : z.natAbs < 2 ^ (f.fracBits + 1))
    (hb : f.fracBits + 1 ≤ f.bias) :
    f.fin (f.ofInt z) ∧ f.val (f.ofInt z) = z ∧ f.ofInt z < 2 ^ (f.fracBits + f.expBits + 1) := by
  have hl : ((z.natAbs : ℕ) : ℚ) * (2 : ℚ) ^ (0 : ℤ) < (2 : ℚ) ^ (f.bias : ℤ) := by
    rw [zpow_zero, mul_one, zpow_natCast]
    have : z.natAbs < 2 ^ f.bias := hlt.trans_le (Nat.pow_le_pow_right (by norm_num) hb)
    exact_mod_cast this
  obtain ⟨r1, r2, r3⟩ := roundScaled_val hf (decide (z < 0)) z.natAbs 0 hl
  refine ⟨r1, ?_, r3⟩
  unfold FloatFormat.ofInt
  rw [r2]
  have e : ((if decide (z < 0) = true then (-1 : ℚ) else 1) * (((z.natAbs : ℕ) : ℚ) * (2 : ℚ) ^ (0 : ℤ))) = (z : ℚ) := by
    rw [zpow_zero, mul_one]
    by_cases h : z < 0
    · simp only [h, decide_true, if_true, neg_one_mul]
      rw [natAbs_cast_of_neg h, neg_neg]
    · simp only [h, decide_false, Bool.false_eq_true, if_false, one_mul]
      rw [natAbs_cast_of_nonneg (by omega)]
  rw [e]
  exact rnd_int f hf z hlt

theorem abs_val {f : FloatFormat} {a : ℕ} (ha : f.fin a) (hlt : a < 2 ^ (f.fracBits + f.expBits + 1)) :
    f.fin (f.abs a) ∧ f.val (f.abs a) = |f.val a| := by
  have hpos : ∀ x : ℕ, x < 2 ^ (f.fracBits + f.expBits) → 0 ≤ f.val x := by
    intro x hx
    have h0 : x / 2 ^ (f.fracBits + f.expBits) = 0 := Nat.div_eq_of_lt hx
    unfold FloatFormat.val FloatFormat.unpack
    simp only [h0]
    split_ifs <;> simp [FloatVal.toRat] <;> positivity
  rw [pow_succ] at hlt
  rcases lt_or_ge a (2 ^ (f.fracBits + f.expBits)) with h | h
  · have : f.abs a = a := Nat.mod_eq_of_lt h
    rw [this, abs_of_nonneg (hpos a h)]
    exact ⟨ha, rfl⟩
  · have h1 : f.abs a = a - 2 ^ (f.fracBits + f.expBits) := by
      unfold FloatFormat.abs
      rw [Nat.mod_eq_sub_mod h, Nat.mod_eq_of_lt (by omega)]
    have h2 : f.neg a = f.abs a := by
      rw [h1]
      unfold FloatFormat.neg
      have : a / 2 ^ (f.fracBits + f.expBits) = 1 := by rw [Nat.div_eq_iff (by positivity)]; omega
      simp [this]
    obtain ⟨n1, n2⟩ := neg_val ha (by rw [pow_succ]; exact hlt)
    rw [h2] at n1 n2
    refine ⟨n1, ?_⟩
    have h3 := hpos (f.abs a) (by rw [h1]; omega)
    rw [n2] at h3 ⊢
    rw [abs_of_nonpos (by linarith)]

end Sys2Proof.Machine
end

