-- ==== Sys2Proof/Laws/Doubles.lean ====
section
/-! SUPPORT. The double operations on the rationals (00_scope.md R12), and the scale factors: when a scale is at least
1 and when it is an integer (40_command_common.md R106, R108, R109). -/

namespace Sys2Proof.Machine

/-- A double is finite. -/
def dFin (a : F64) : Prop := binary64.fin a.toNat

/-- The rational a finite double stands for. -/
def dVal (a : F64) : ℚ := binary64.val a.toNat

/-- A rational rounded to a double. -/
def rnd64 (q : ℚ) : ℚ := rnd binary64 q

theorem bias_binary64 : binary64.bias = 1023 := by decide +kernel

theorem below_bias {q : ℚ} (h : |q| ≤ 2 ^ 100) : |q| < (2 : ℚ) ^ (binary64.bias : ℤ) := by
  rw [bias_binary64]
  refine h.trans_lt ?_
  rw [zpow_natCast]
  exact pow_lt_pow_right₀ (by norm_num) (by norm_num)

theorem toNat_ofNat64 {n : ℕ} (h : n < 2 ^ (binary64.fracBits + binary64.expBits + 1)) :
    (BitVec.ofNat 64 n).toNat = n := by
  rw [BitVec.toNat_ofNat]
  exact Nat.mod_eq_of_lt h

theorem f64Mul_val {a b : F64} (ha : dFin a) (hb : dFin b) (h : |dVal a * dVal b| ≤ 2 ^ 100) :
    dFin (f64Mul a b) ∧ dVal (f64Mul a b) = rnd64 (dVal a * dVal b) := by
  obtain ⟨h1, h2, h3⟩ := mul_val binary64_good ha hb (below_bias h)
  unfold dFin dVal f64Mul
  rw [toNat_ofNat64 h3]
  exact ⟨h1, h2⟩

theorem f64Add_val {a b : F64} (ha : dFin a) (hb : dFin b) (h : |dVal a + dVal b| ≤ 2 ^ 100) :
    dFin (f64Add a b) ∧ dVal (f64Add a b) = rnd64 (dVal a + dVal b) := by
  obtain ⟨h1, h2, h3⟩ := add_val binary64_good ha hb (below_bias h)
  unfold dFin dVal f64Add
  rw [toNat_ofNat64 h3]
  exact ⟨h1, h2⟩

theorem toNat_lt64 (a : F64) : a.toNat < 2 ^ (binary64.fracBits + binary64.expBits + 1) := a.isLt

theorem f64Sub_val {a b : F64} (ha : dFin a) (hb : dFin b) (h : |dVal a - dVal b| ≤ 2 ^ 100) :
    dFin (f64Sub a b) ∧ dVal (f64Sub a b) = rnd64 (dVal a - dVal b) := by
  obtain ⟨h1, h2, h3⟩ := sub_val binary64_good ha hb (toNat_lt64 b) (below_bias h)
  unfold dFin dVal f64Sub
  rw [toNat_ofNat64 h3]
  exact ⟨h1, h2⟩

theorem f64Div_val {a b : F64} (ha : dFin a) (hb : dFin b) (hb0 : dVal b ≠ 0) (h : |dVal a / dVal b| ≤ 2 ^ 100) :
    dFin (f64Div a b) ∧ dVal (f64Div a b) = rnd64 (dVal a / dVal b) := by
  obtain ⟨h1, h2, h3⟩ := div_val binary64_good ha hb hb0 (below_bias h)
  unfold dFin dVal f64Div
  rw [toNat_ofNat64 h3]
  exact ⟨h1, h2⟩

theorem f64OfInt_val {z : ℤ} (h : z.natAbs < 2 ^ 53) : dFin (f64OfInt z) ∧ dVal (f64OfInt z) = z := by
  obtain ⟨h1, h2, h3⟩ := ofInt_val binary64_good z h (by rw [bias_binary64]; decide)
  unfold dFin dVal f64OfInt
  rw [toNat_ofNat64 h3]
  exact ⟨h1, h2⟩

theorem f64Lt_iff {a b : F64} (ha : dFin a) (hb : dFin b) : f64Lt a b = true ↔ dVal a < dVal b := lt_val ha hb

theorem f64Le_iff {a b : F64} (ha : dFin a) (hb : dFin b) : f64Le a b = true ↔ dVal a ≤ dVal b := le_val ha hb

theorem f64Floor_val {a : F64} (ha : dFin a) : f64Floor a = ⌊dVal a⌋ := floor_val ha

theorem f64Ceil_val {a : F64} (ha : dFin a) : f64Ceil a = ⌈dVal a⌉ := ceil_val ha (toNat_lt64 a)

theorem f64Rne_val {a : F64} (ha : dFin a) : f64Rne a = rneQ (dVal a) := rne_val ha

theorem f64Abs_val {a : F64} (ha : dFin a) : dFin (f64Abs a) ∧ dVal (f64Abs a) = |dVal a| := by
  obtain ⟨h1, h2⟩ := abs_val ha (toNat_lt64 a)
  have h3 : binary64.abs a.toNat < 2 ^ (binary64.fracBits + binary64.expBits + 1) := by
    unfold FloatFormat.abs
    exact (Nat.mod_lt _ (by positivity)).trans (Nat.pow_lt_pow_right (by norm_num) (by omega))
  unfold dFin dVal f64Abs
  rw [toNat_ofNat64 h3]
  exact ⟨h1, h2⟩

theorem f64Min_val {a b : F64} (ha : dFin a) (hb : dFin b) :
    dFin (f64Min a b) ∧ dVal (f64Min a b) = min (dVal a) (dVal b) := by
  unfold f64Min
  by_cases h : dVal b < dVal a
  · rw [if_pos ((f64Lt_iff hb ha).mpr h), min_eq_right h.le]; exact ⟨hb, rfl⟩
  · rw [if_neg (fun hh => h ((f64Lt_iff hb ha).mp hh)), min_eq_left (not_lt.mp h)]; exact ⟨ha, rfl⟩

/-! ### Constants -/

theorem one_val : dFin oneF64 ∧ dVal oneF64 = 1 := by
  have h : binary64.unpack oneF64.toNat = .finite false (2 ^ 52) (-52) := by decide +kernel
  unfold dFin dVal FloatFormat.fin FloatFormat.val
  rw [h]
  refine ⟨rfl, ?_⟩
  simp only [FloatVal.toRat]
  norm_num

theorem zero_val : dFin 0#64 ∧ dVal 0#64 = 0 := by
  have h : binary64.unpack (0#64).toNat = .finite false 0 (-1074) := by decide +kernel
  unfold dFin dVal FloatFormat.fin FloatFormat.val
  rw [h]
  refine ⟨rfl, ?_⟩
  simp [FloatVal.toRat]

theorem fixedOne_val : dFin fixedOneF64 ∧ dVal fixedOneF64 = 2048 := by
  have h : binary64.unpack fixedOneF64.toNat = .finite false (2 ^ 52) (-41) := by decide +kernel
  unfold dFin dVal FloatFormat.fin FloatFormat.val
  rw [h]
  refine ⟨rfl, ?_⟩
  simp only [FloatVal.toRat]
  norm_num

theorem epsPart_val : dFin epsPart ∧ (999 / 1000000 : ℚ) < dVal epsPart ∧ dVal epsPart < 1001 / 1000000 := by
  have h : binary64.unpack epsPart.toNat = .finite false 0x10624DD2F1A9FC (-62) := by decide +kernel
  unfold dFin dVal FloatFormat.fin FloatFormat.val
  rw [h]
  refine ⟨rfl, ?_⟩
  simp only [FloatVal.toRat]
  norm_num

theorem epsInt_val : dFin epsInt ∧ (0 : ℚ) < dVal epsInt ∧ dVal epsInt < 1001 / 1000000000 := by
  have h : binary64.unpack epsInt.toNat = .finite false 0x10C6F7A0B5ED8D (-72) := by decide +kernel
  unfold dFin dVal FloatFormat.fin FloatFormat.val
  rw [h]
  refine ⟨rfl, ?_⟩
  simp only [FloatVal.toRat]
  norm_num

/-! ### Rounding to a double -/

theorem rnd64_int {z : ℤ} (h : z.natAbs < 2 ^ 53) : rnd64 z = z := rnd_int binary64 binary64_good z h

theorem rnd64_mono {p q : ℚ} (h : p ≤ q) : rnd64 p ≤ rnd64 q := rnd_mono binary64 h

@[simp] theorem rnd64_zero : rnd64 0 = 0 := rnd_zero binary64

theorem rnd64_nonneg {q : ℚ} (h : 0 ≤ q) : 0 ≤ rnd64 q := rnd_nonneg binary64 h

theorem rnd64_one : rnd64 1 = 1 := by
  have := rnd64_int (z := 1) (by norm_num)
  simpa using this

theorem rnd64_le_int {q : ℚ} {z : ℤ} (hz : z.natAbs < 2 ^ 53) (h : q ≤ z) : rnd64 q ≤ z :=
  (rnd64_mono h).trans (rnd64_int hz).le

/-- A power of two bounds a rounded number that it bounds. -/
theorem rnd64_le_pow {q : ℚ} (n : ℕ) (h : q ≤ 2 ^ n) (hn : n < 53) : rnd64 q ≤ 2 ^ n := by
  have := rnd64_le_int (q := q) (z := ((2 ^ n : ℕ) : ℤ))
    (by rw [Int.natAbs_natCast]; exact Nat.pow_lt_pow_right (by norm_num) hn) (by push_cast; exact h)
  push_cast at this
  exact this

theorem rnd64_neg (q : ℚ) : rnd64 (-q) = -rnd64 q := rnd_neg binary64 q

/-- A number of 53 bits is exact. -/
theorem rnd64_exact (z j : ℤ) (h : z.natAbs < 2 ^ 53) (hj : -1000 ≤ j) : rnd64 (z * (2 : ℚ) ^ j) = z * (2 : ℚ) ^ j :=
  rnd_exact binary64 z j h (by rw [bias_binary64]; change 1 - ((1023 : ℕ) : ℤ) - ((52 : ℕ) : ℤ) ≤ j; omega)

/-- The relative error of a rounding of a number that is 0 or not tiny. -/
theorem rnd64_error {q : ℚ} (h : q = 0 ∨ 1 / 2 ^ 100 ≤ |q|) : |rnd64 q - q| ≤ |q| / 2 ^ 53 := by
  have := rnd_error binary64 (q := q) (by
    rcases h with h | h
    · exact .inl h
    · right
      rw [bias_binary64]
      refine le_trans ?_ h
      rw [show (1 : ℤ) - ((1023 : ℕ) : ℤ) = -(1022 : ℕ) by norm_num, zpow_neg, zpow_natCast, one_div]
      exact inv_anti₀ (by positivity) (pow_le_pow_right₀ (by norm_num) (by norm_num)))
  refine this.trans (le_of_eq ?_)
  change |q| * (2 : ℚ) ^ (-((52 : ℕ) : ℤ) - 1) = _
  rw [div_eq_mul_inv]
  norm_num

/-! ### Scale factors -/

/-- A quotient of two dimensions is between `2^-19` and `2^19`. -/
theorem quotient_bounds {a b : ℤ} (ha : 1 ≤ a) (ha' : a < 2 ^ 19) (hb : 1 ≤ b) (hb' : b < 2 ^ 19) :
    (1 : ℚ) / 2 ^ 19 < (a : ℚ) / b ∧ (a : ℚ) / b < 2 ^ 19 := by
  have a1 : (1 : ℚ) ≤ a := by exact_mod_cast ha
  have a2 : (a : ℚ) < 2 ^ 19 := by exact_mod_cast ha'
  have b1 : (1 : ℚ) ≤ b := by exact_mod_cast hb
  have b2 : (b : ℚ) < 2 ^ 19 := by exact_mod_cast hb'
  have b0 : (0 : ℚ) < b := by linarith
  constructor
  · rw [div_lt_div_iff₀ (by positivity) b0]; nlinarith
  · rw [div_lt_iff₀ b0]; nlinarith

theorem scaleOf_val {a b : ℤ} (ha : 1 ≤ a) (ha' : a < 2 ^ 19) (hb : 1 ≤ b) (hb' : b < 2 ^ 19) :
    dFin (scaleOf a b) ∧ dVal (scaleOf a b) = rnd64 ((a : ℚ) / b) := by
  obtain ⟨a1, a2⟩ := f64OfInt_val (z := a) (by omega)
  obtain ⟨b1, b2⟩ := f64OfInt_val (z := b) (by omega)
  obtain ⟨q1, q2⟩ := quotient_bounds ha ha' hb hb'
  have hb0 : dVal (f64OfInt b) ≠ 0 := by
    rw [b2]; have : b ≠ 0 := by omega
    exact_mod_cast this
  have hq : |dVal (f64OfInt a) / dVal (f64OfInt b)| ≤ 2 ^ 100 := by
    rw [a2, b2, abs_of_pos (lt_trans (by positivity) q1)]
    refine q2.le.trans ?_
    norm_num
  have := f64Div_val a1 b1 hb0 hq
  rw [a2, b2] at this
  exact this

/-- The absolute error of a scale. -/
theorem scale_error {a b : ℤ} (ha : 1 ≤ a) (ha' : a < 2 ^ 19) (hb : 1 ≤ b) (hb' : b < 2 ^ 19) :
    |dVal (scaleOf a b) - (a : ℚ) / b| ≤ (a : ℚ) / b / 2 ^ 53 := by
  obtain ⟨q1, q2⟩ := quotient_bounds ha ha' hb hb'
  have hpos : (0 : ℚ) < (a : ℚ) / b := lt_trans (by positivity) q1
  rw [(scaleOf_val ha ha' hb hb').2]
  have := rnd64_error (q := (a : ℚ) / b) (.inr (by
    rw [abs_of_pos hpos]
    refine le_trans ?_ q1.le
    norm_num))
  rwa [abs_of_pos hpos] at this

/-- `scale >= 1.0` exactly when the source is at least as long as the destination (40_command_common.md R106). -/
theorem scaleAtLeastOne_iff {a b : ℤ} (ha : 1 ≤ a) (ha' : a < 2 ^ 19) (hb : 1 ≤ b) (hb' : b < 2 ^ 19) :
    scaleAtLeastOne (scaleOf a b) = true ↔ b ≤ a := by
  obtain ⟨s1, s2⟩ := scaleOf_val ha ha' hb hb'
  have b0 : (0 : ℚ) < b := by exact_mod_cast (by omega : (0 : ℤ) < b)
  unfold scaleAtLeastOne
  rw [f64Le_iff one_val.1 s1, one_val.2, s2]
  constructor
  · intro h
    by_contra hlt
    have hle : (a : ℚ) / b ≤ 1 - 1 / 2 ^ 19 := by
      have hab : (a : ℚ) + 1 ≤ b := by exact_mod_cast (by omega : a + 1 ≤ b)
      have b2 : (b : ℚ) < 2 ^ 19 := by exact_mod_cast hb'
      rw [div_le_iff₀ b0]
      have : b / 2 ^ 19 ≤ (1 : ℚ) := by rw [div_le_one (by positivity)]; exact b2.le
      linarith
    have h2 := rnd64_mono hle
    have h3 : rnd64 (1 - 1 / 2 ^ 19) = 1 - 1 / 2 ^ 19 := by
      have := rnd64_exact (2 ^ 19 - 1) (-19) (by norm_num) (by norm_num)
      have e : (((2 ^ 19 - 1 : ℤ) : ℚ)) * (2 : ℚ) ^ (-19 : ℤ) = 1 - 1 / 2 ^ 19 := by norm_num
      rwa [e] at this
    rw [h3] at h2
    linarith
  · intro h
    have h1 : (1 : ℚ) ≤ (a : ℚ) / b := by
      rw [le_div_iff₀ b0, one_mul]; exact_mod_cast h
    have := rnd64_mono h1
    rwa [rnd64_one] at this

/-- An exactly dividing axis has an exact integer scale. -/
theorem scale_of_dvd {a b : ℤ} (ha : 1 ≤ a) (ha' : a < 2 ^ 19) (hb : 1 ≤ b) (hb' : b < 2 ^ 19) (h : b ∣ a) :
    dVal (scaleOf a b) = ((a / b : ℤ) : ℚ) := by
  rw [(scaleOf_val ha ha' hb hb').2]
  have b0 : (b : ℚ) ≠ 0 := by exact_mod_cast (by omega : b ≠ 0)
  rw [← Int.cast_div h b0]
  refine rnd64_int ?_
  have h1 : a / b ≤ a := Int.ediv_le_self _ (by omega)
  have h2 : 0 ≤ a / b := Int.ediv_nonneg (by omega) (by omega)
  omega

/-- `isint(scale)` holds exactly when the destination length divides the source length (40_command_common.md R109). -/
theorem isInt_iff {a b : ℤ} (ha : 1 ≤ a) (ha' : a < 2 ^ 19) (hb : 1 ≤ b) (hb' : b < 2 ^ 19) :
    isInt (scaleOf a b) = true ↔ b ∣ a := by
  obtain ⟨s1, s2⟩ := scaleOf_val ha ha' hb hb'
  obtain ⟨q1, q2⟩ := quotient_bounds ha ha' hb hb'
  have b0 : (0 : ℚ) < b := by exact_mod_cast (by omega : (0 : ℤ) < b)
  have hpos : (0 : ℚ) < (a : ℚ) / b := lt_trans (by positivity) q1
  have herr := scale_error ha ha' hb hb'
  -- the scale lies in `[0, 2^19]`, so its nearest integer does too
  have hs0 : 0 ≤ dVal (scaleOf a b) := by rw [s2]; exact rnd64_nonneg hpos.le
  have hs1 : dVal (scaleOf a b) ≤ 2 ^ 19 := by
    rw [s2]
    have := rnd64_mono q2.le
    have h19 : rnd64 (2 ^ 19) = 2 ^ 19 := by
      have := rnd64_int (z := 2 ^ 19) (by norm_num)
      exact_mod_cast this
    rwa [h19] at this
  set r : ℤ := rneQ (dVal (scaleOf a b)) with hr
  have hr0 : 0 ≤ r := rneQ_nonneg hs0
  have hr1 : r ≤ 2 ^ 19 := by
    have := rneQ_mono hs1
    rw [show ((2 : ℚ) ^ 19) = (((2 : ℤ) ^ 19 : ℤ) : ℚ) by norm_num, rneQ_intCast] at this
    exact this
  obtain ⟨i1, i2⟩ := f64OfInt_val (z := r) (by omega)
  have hr0q : (0 : ℚ) ≤ r := by exact_mod_cast hr0
  have hr1q : (r : ℚ) ≤ 2 ^ 19 := by exact_mod_cast hr1
  have hdiff : |dVal (scaleOf a b) - dVal (f64OfInt r)| ≤ 2 ^ 100 := by
    rw [i2, abs_le]
    have : (2 : ℚ) ^ 19 ≤ 2 ^ 100 := by norm_num
    constructor <;> linarith
  obtain ⟨d1, d2⟩ := f64Sub_val s1 i1 hdiff
  rw [i2] at d2
  obtain ⟨e1, e2⟩ := f64Abs_val d1
  unfold isInt
  rw [f64Rne_val s1, ← hr, f64Le_iff e1 epsInt_val.1, e2, d2]
  constructor
  · intro h
    by_contra hnd
    -- a quotient that is not an integer stays away from every integer
    have hfar : (1 : ℚ) / 2 ^ 19 ≤ |(a : ℚ) / b - r| := by
      have hne : a - r * b ≠ 0 := by
        intro h0; exact hnd ⟨r, by linarith [mul_comm r b]⟩
      have h1 : (1 : ℚ) ≤ |((a - r * b : ℤ) : ℚ)| := by
        rw [← Int.cast_abs]; exact_mod_cast Int.one_le_abs hne
      have h2 : (a : ℚ) / b - r = ((a - r * b : ℤ) : ℚ) / b := by
        push_cast; field_simp
      rw [h2, abs_div, abs_of_pos b0, div_le_div_iff₀ (by positivity) b0]
      have b2 : (b : ℚ) < 2 ^ 19 := by exact_mod_cast hb'
      nlinarith
    have hclose : |dVal (scaleOf a b) - (a : ℚ) / b| ≤ 1 / 2 ^ 34 := by
      refine herr.trans ?_
      rw [div_le_div_iff₀ (by positivity) (by positivity)]
      have : (a : ℚ) / b * 2 ^ 34 ≤ 2 ^ 19 * 2 ^ 34 := by
        apply mul_le_mul_of_nonneg_right q2.le; positivity
      linarith
    have hfar2 : (1 : ℚ) / 2 ^ 19 - 1 / 2 ^ 34 ≤ |dVal (scaleOf a b) - r| := by
      have h1 : |(a : ℚ) / b - r| ≤ |dVal (scaleOf a b) - r| + |dVal (scaleOf a b) - (a : ℚ) / b| := by
        have := abs_sub_le ((a : ℚ) / b) (dVal (scaleOf a b)) r
        rw [abs_sub_comm ((a : ℚ) / b) (dVal (scaleOf a b))] at this
        linarith
      linarith
    have hround : (1 : ℚ) / 2 ^ 19 - 1 / 2 ^ 34 ≤ |rnd64 (dVal (scaleOf a b) - r)| := by
      have hex : rnd64 (1 / 2 ^ 19 - 1 / 2 ^ 34) = 1 / 2 ^ 19 - 1 / 2 ^ 34 := by
        have := rnd64_exact (2 ^ 15 - 1) (-34) (by norm_num) (by norm_num)
        have e : (((2 ^ 15 - 1 : ℤ) : ℚ)) * (2 : ℚ) ^ (-34 : ℤ) = 1 / 2 ^ 19 - 1 / 2 ^ 34 := by norm_num
        rwa [e] at this
      rcases le_abs.mp hfar2 with h1 | h1
      · have := rnd64_mono h1
        rw [hex] at this
        exact this.trans (le_abs_self _)
      · have := rnd64_mono h1
        rw [hex, rnd64_neg] at this
        exact this.trans (neg_le_abs _)
    have h3 := epsInt_val.2.2
    have h4 : (1001 : ℚ) / 1000000000 < 1 / 2 ^ 19 - 1 / 2 ^ 34 := by norm_num
    linarith [hround.trans h]
  · intro h
    have hv := scale_of_dvd ha ha' hb hb' h
    have : r = a / b := by rw [hr, hv, rneQ_intCast]
    rw [hv, this, sub_self, rnd64_zero, abs_zero]
    exact epsInt_val.2.1.le

end Sys2Proof.Machine
end

