-- ==== Sys2Proof/Laws/Checks.lean ====
section
/-! SUPPORT. What the checks and the shared operations of a command can do (40_command_common.md R100 to R111,
20_memory.md R63, R64, R72), each said once. -/

namespace Sys2Proof.Machine

/-! ### The list of checks (60_exceptions.md R202) -/

@[simp] theorem firstFailure_nil : firstFailure [] = none := rfl

theorem firstFailure_cons (b : Bool) (e : ErrCode) (rest : List Check) :
    firstFailure ((b, e) :: rest) = if b = true then firstFailure rest else some e := rfl

theorem firstFailure_eq_none {checks : List Check} : firstFailure checks = none ↔ ∀ k ∈ checks, k.1 = true := by
  induction checks with
  | nil => simp
  | cons k rest ih =>
    obtain ⟨b, e⟩ := k
    rw [firstFailure_cons]
    cases b <;> simp [ih]

theorem firstFailure_append (p q : List Check) :
    firstFailure (p ++ q) = match firstFailure p with
      | some e => some e
      | none => firstFailure q := by
  induction p with
  | nil => rfl
  | cons k rest ih =>
    obtain ⟨b, e⟩ := k
    rw [List.cons_append, firstFailure_cons, firstFailure_cons]
    cases b
    · rfl
    · exact ih

/-- Everything the template of a command can do (40_command_common.md R100). -/
theorem command_eq (checks : List Check) (body : State → Out) (s : State) :
    (∃ e, firstFailure checks = some e ∧ command checks body s = .next (raiseError e (clearResults s))) ∨
    (firstFailure checks = none ∧ command checks body s = body (clearResults s)) := by
  unfold command
  cases h : firstFailure checks with
  | none => exact .inr ⟨rfl, rfl⟩
  | some e => exact .inl ⟨e, rfl, rfl⟩

/-! ### The operands under the default parameters -/

theorem toNat_mod_default (w : Word) : w.toNat % 2 ^ Config.default.addrBits = w.toNat :=
  Nat.mod_eq_of_lt w.isLt

@[simp] theorem operands_sb (s : State) : (operands Config.default s).sb = s.srcBase.toNat := toNat_mod_default _
@[simp] theorem operands_sw (c : Config) (s : State) : (operands c s).sw = s32 s.srcWidth := (rfl)
@[simp] theorem operands_sh (c : Config) (s : State) : (operands c s).sh = s32 s.srcHeight := (rfl)
@[simp] theorem operands_ss (c : Config) (s : State) : (operands c s).ss = s32 s.srcStride := (rfl)
@[simp] theorem operands_db (s : State) : (operands Config.default s).db = s.dstBase.toNat := toNat_mod_default _
@[simp] theorem operands_dw (c : Config) (s : State) : (operands c s).dw = s32 s.dstWidth := (rfl)
@[simp] theorem operands_dh (c : Config) (s : State) : (operands c s).dh = s32 s.dstHeight := (rfl)
@[simp] theorem operands_ds (c : Config) (s : State) : (operands c s).ds = s32 s.dstStride := (rfl)
@[simp] theorem operands_cn (c : Config) (s : State) : (operands c s).cn = s32 s.channels := (rfl)

theorem operands_clearResults (c : Config) (s : State) : operands c (clearResults s) = operands c s := rfl

/-! ### The checks V1 to V4, on the registers -/

theorem checkV1_iff (i : Instr) (s : State) :
    checkV1 Config.default (operandUse i) (operands Config.default s) = true ↔ ¬ failsV1 i s := by
  have h : ((Config.default.maxCh : ℕ) : ℤ) = 4 := rfl
  cases i <;>
    simp [checkV1, operandUse, pixelUse, horizontalUse, verticalUse, failsV1, pixelCommands, widthCommands,
      heightCommands, h] <;> omega

theorem checkV2_iff (i : Instr) (s : State) :
    checkV2 Config.default (operandUse i) (operands Config.default s) = true ↔ ¬ failsV2 i s := by
  have h : ((Config.default.maxDim : ℕ) : ℤ) = 65535 := rfl
  cases i <;>
    simp [checkV2, operandUse, pixelUse, horizontalUse, verticalUse, failsV2, widthCommands,
      heightCommands, h]

theorem checkV3_iff (i : Instr) (s : State) :
    checkV3 (operandUse i) (operands Config.default s) = true ↔ ¬ failsV3 i s := by
  cases i <;>
    simp [checkV3, operandUse, pixelUse, horizontalUse, verticalUse, failsV3, pixelCommands]

theorem checkV4_iff (i : Instr) (s : State) :
    checkV4 Config.default (operandUse i) (operands Config.default s) = true ↔ ¬ failsV4 i s := by
  have h : ((2 ^ Config.default.addrBits : ℕ) : ℤ) = 4294967296 := rfl
  cases i <;>
    simp only [checkV4, operandUse, pixelUse, horizontalUse, verticalUse, failsV4, pixelCommands, h, operands_sb,
      operands_sw, operands_sh, operands_ss, operands_db, operands_dw, operands_dh, operands_ds, operands_cn] <;>
    simp

/-- The first failure of a command: the checks of its operands in order, then the rest. -/
theorem firstFailure_operandChecks (i : Instr) (s : State) (rest : List Check) :
    firstFailure (operandChecks Config.default (operandUse i) (operands Config.default s) ++ rest) =
      if failsV1 i s then some .invalidArgument
      else if failsV2 i s then some .dimensionOverflow
      else if failsV3 i s then some .invalidStride
      else if failsV4 i s then some .dimensionOverflow
      else firstFailure rest := by
  unfold operandChecks
  simp only [List.cons_append, List.nil_append, firstFailure_cons, checkV1_iff, checkV2_iff, checkV3_iff, checkV4_iff,
    ite_not]

/-- The checks V6 and V7 of a list of needs. -/
theorem firstFailure_needChecks (needs : List Need) :
    firstFailure (needChecks needs) =
      if ∀ n ∈ needs, n.size ≠ 0 then
        if ∀ n ∈ needs, n.size ≤ n.cap then none else some .allocationFailure
      else some .emptyBuffer := by
  simp [needChecks, firstFailure_cons]

/-! ### Legal operands as plain bounds -/

/-- What V1 and V2 leave of the horizontal operands. -/
theorem OperandsLegal.widths {i : Instr} {s : State} (h : OperandsLegal i s) (hi : i ∈ widthCommands) :
    1 ≤ s32 s.srcWidth ∧ s32 s.srcWidth ≤ 65535 ∧ 1 ≤ s32 s.dstWidth ∧ s32 s.dstWidth ≤ 65535 ∧
    1 ≤ s32 s.channels ∧ s32 s.channels ≤ 4 := by
  have h1 := h.v1
  have h2 := h.v2
  unfold failsV1 at h1
  unfold failsV2 at h2
  simp only [hi, true_and, not_or, not_le, not_lt] at h1 h2
  omega

/-- What V1 and V2 leave of the vertical operands. -/
theorem OperandsLegal.heights {i : Instr} {s : State} (h : OperandsLegal i s) (hi : i ∈ heightCommands) :
    1 ≤ s32 s.srcHeight ∧ s32 s.srcHeight ≤ 65535 ∧ 1 ≤ s32 s.dstHeight ∧ s32 s.dstHeight ≤ 65535 := by
  have h1 := h.v1
  have h2 := h.v2
  unfold failsV1 at h1
  unfold failsV2 at h2
  simp only [hi, true_and, not_or, not_le, not_lt] at h1 h2
  omega

/-- What V1, V3 and V4 leave of the bases and strides. -/
theorem OperandsLegal.strides {i : Instr} {s : State} (h : OperandsLegal i s) (hi : i ∈ pixelCommands) :
    s.srcBase.toNat ≠ 0 ∧ s.dstBase.toNat ≠ 0 ∧
    s32 s.srcWidth * s32 s.channels ≤ s32 s.srcStride ∧ s32 s.dstWidth * s32 s.channels ≤ s32 s.dstStride ∧
    s.srcBase.toNat + (s32 s.srcHeight - 1) * s32 s.srcStride + s32 s.srcWidth * s32 s.channels ≤ 4294967296 ∧
    s.dstBase.toNat + (s32 s.dstHeight - 1) * s32 s.dstStride + s32 s.dstWidth * s32 s.channels ≤ 4294967296 := by
  have h1 := h.v1
  have h3 := h.v3
  have h4 := h.v4
  unfold failsV1 at h1
  unfold failsV3 at h3
  unfold failsV4 at h4
  simp only [hi, true_and, not_or, not_lt] at h1 h3 h4
  exact ⟨h1.1.1, h1.1.2, h3.1, h3.2, h4.1, h4.2⟩

/-! ### The scales of legal operands, in integers (40_command_common.md R106, R109) -/

theorem scaleAtLeastOne_legal {a b : ℤ} (ha : 1 ≤ a) (ha' : a ≤ 65535) (hb : 1 ≤ b) (hb' : b ≤ 65535) :
    scaleAtLeastOne (scaleOf a b) = true ↔ b ≤ a :=
  scaleAtLeastOne_iff ha (by omega) hb (by omega)

theorem isInt_legal {a b : ℤ} (ha : 1 ≤ a) (ha' : a ≤ 65535) (hb : 1 ≤ b) (hb' : b ≤ 65535) :
    isInt (scaleOf a b) = true ↔ a % b = 0 :=
  (isInt_iff ha (by omega) hb (by omega)).trans Int.dvd_iff_emod_eq_zero

/-- The integer scale of an exactly dividing axis (42_area_integer.md R141). -/
theorem intScale_legal {a b : ℤ} (ha : 1 ≤ a) (ha' : a ≤ 65535) (hb : 1 ≤ b) (hb' : b ≤ 65535) (h : a % b = 0) :
    intScale (scaleOf a b) = (a / b).toNat := by
  obtain ⟨s1, -⟩ := scaleOf_val ha (by omega) hb (by omega)
  have hv := scale_of_dvd ha (by omega) hb (by omega) (Int.dvd_of_emod_eq_zero h)
  unfold intScale
  rw [f64Rne_val s1, hv, rneQ_intCast]

/-- The path selected is the one of 45_dispatch.md R191. -/
theorem selectPath_legal {i : Instr} {s : State} (h : OperandsLegal i s) (hi : i ∈ pixelCommands) :
    selectPath (operands Config.default s) = pathByDimensions s := by
  obtain ⟨w1, w2, w3, w4, -, -⟩ := h.widths (by revert hi; cases i <;> decide)
  obtain ⟨v1, v2, v3, v4⟩ := h.heights (by revert hi; cases i <;> decide)
  unfold selectPath pathByDimensions Operands.scaleX Operands.scaleY
  simp only [operands_sw, operands_sh, operands_dw, operands_dh, Bool.and_eq_true, scaleAtLeastOne_legal w1 w2 w3 w4,
    scaleAtLeastOne_legal v1 v2 v3 v4, isInt_legal w1 w2 w3 w4, isInt_legal v1 v2 v3 v4]
  split_ifs <;> first | rfl | omega

/-! ### Footprints (20_memory.md R63, R72) -/

theorem View.covers_iff (v : View) (a : ℕ) :
    v.covers a = true ↔ ∃ y i, y < v.height ∧ i < v.rowBytes ∧ a = v.addr y i := by
  unfold View.covers View.addr
  simp only [List.any_eq_true, List.mem_range, Bool.and_eq_true, decide_eq_true_eq]
  constructor
  · rintro ⟨y, hy, h1, h2⟩
    exact ⟨y, a - (v.base + y * v.stride), hy, by omega, by omega⟩
  · rintro ⟨y, i, hy, hi, rfl⟩
    exact ⟨y, hy, by omega, by omega⟩

/-- Two views are disjoint exactly when no address belongs to both footprints (20_memory.md R72). -/
theorem View.disjoint_iff (v w : View) (hv : 0 < v.rowBytes) (hw : 0 < w.rowBytes) :
    v.disjoint w = true ↔
      ∀ y i z j, y < v.height → i < v.rowBytes → z < w.height → j < w.rowBytes → v.addr y i ≠ w.addr z j := by
  unfold View.disjoint View.addr
  simp only [List.all_eq_true, List.mem_range, Bool.or_eq_true, decide_eq_true_eq]
  constructor
  · intro h y i z j hy hi hz hj heq
    rcases h y hy z hz with h1 | h1 <;> omega
  · intro h y hy z hz
    by_contra hn
    push Not at hn
    rcases Nat.le_total (w.base + z * w.stride) (v.base + y * v.stride) with hle | hle
    · exact h y 0 z (v.base + y * v.stride - (w.base + z * w.stride)) hy hv hz (by omega) (by omega)
    · exact h y (w.base + z * w.stride - (v.base + y * v.stride)) z 0 hy (by omega) hz hw (by omega)

/-- Every byte is ordinary memory under the default `MEM_ADMIT` (20_memory.md R71). -/
@[simp] theorem View.admitted_default (v : View) : v.admitted Config.default = true := by
  simp [View.admitted, Config.default]

/-- Everything the pixel pass can do under the default parameters (20_memory.md R64, R71, R72). -/
theorem pixelPass_default (o : Operands) (rows : ℕ → List Byte) (s : State) :
    pixelPass Config.default o rows s =
      if o.srcView.disjoint o.dstView = true then
        .next { s with mem := s.mem.writeRows o.dstView rows o.dstView.height }
      else .refused .overlappingFootprints := by
  unfold pixelPass
  simp only [View.admitted_default, Bool.and_self, Bool.not_true, Bool.false_eq_true, if_false]
  cases o.srcView.disjoint o.dstView <;> rfl

/-- If the pixel pass answers a next state, only data memory has changed. -/
theorem pixelPass_next {o : Operands} {rows : ℕ → List Byte} {s t : State}
    (h : pixelPass Config.default o rows s = .next t) :
    o.srcView.disjoint o.dstView = true ∧ t = { s with mem := s.mem.writeRows o.dstView rows o.dstView.height } := by
  rw [pixelPass_default] at h
  split_ifs at h with hd
  cases h
  exact ⟨hd, rfl⟩

/-- The footprints of legal operands are disjoint views exactly when they share no byte. -/
theorem disjoint_legal {i : Instr} {s : State} (h : OperandsLegal i s) (hi : i ∈ pixelCommands) :
    (operands Config.default s).srcView.disjoint (operands Config.default s).dstView = true ↔ footprintsApart s := by
  obtain ⟨w1, w2, w3, w4, c1, c2⟩ := h.widths (by revert hi; cases i <;> decide)
  have h1 : 0 < (s32 s.srcWidth).toNat * (s32 s.channels).toNat := Nat.mul_pos (by omega) (by omega)
  have h2 : 0 < (s32 s.dstWidth).toNat * (s32 s.channels).toNat := Nat.mul_pos (by omega) (by omega)
  rw [View.disjoint_iff _ _ h1 h2]
  unfold footprintsApart inSource inDestination View.addr Operands.srcView Operands.dstView
  simp only [operands_sb, operands_sw, operands_sh, operands_ss, operands_db, operands_dw, operands_dh, operands_ds,
    operands_cn]
  constructor
  · rintro hn a ⟨y, i, hy, hi, rfl⟩ ⟨z, j, hz, hj, heq⟩
    exact hn y i z j hy hi hz hj heq
  · intro hn y i z j hy hi hz hj heq
    exact hn _ ⟨y, i, hy, hi, rfl⟩ ⟨z, j, hz, hj, heq⟩

/-! ### Rows of an image -/

@[simp] theorem rowOf_length (width cn : ℕ) (sample : ℕ → ℕ → Byte) : (rowOf width cn sample).length = width * cn := by
  simp [rowOf, List.length_flatMap]

theorem rowOf_succ (width cn : ℕ) (sample : ℕ → ℕ → Byte) :
    rowOf (width + 1) cn sample = rowOf width cn sample ++ (List.range cn).map (sample width) := by
  simp [rowOf, List.range_succ, List.flatMap_append]

/-- The byte of pixel `dx`, channel `ch` of a row (20_memory.md R62). -/
theorem rowOf_getElem? {width cn : ℕ} (sample : ℕ → ℕ → Byte) {dx ch : ℕ} (hdx : dx < width) (hch : ch < cn) :
    (rowOf width cn sample)[dx * cn + ch]? = some (sample dx ch) := by
  induction width with
  | zero => omega
  | succ w ih =>
    rw [rowOf_succ]
    by_cases h : dx = w
    · subst h
      rw [List.getElem?_append_right (by rw [rowOf_length]; omega), rowOf_length, Nat.add_sub_cancel_left]
      simp [hch]
    · have hb : dx * cn + ch < w * cn := by
        have : (dx + 1) * cn ≤ w * cn := Nat.mul_le_mul_right _ (by omega)
        rw [Nat.add_mul] at this
        omega
      rw [List.getElem?_append_left (by rw [rowOf_length]; exact hb)]
      exact ih (by omega)

/-- The bytes of a row, one by one. -/
theorem mem_rowOf {width cn : ℕ} {sample : ℕ → ℕ → Byte} {b : Byte} (h : b ∈ rowOf width cn sample) :
    ∃ dx ch, dx < width ∧ ch < cn ∧ b = sample dx ch := by
  unfold rowOf at h
  simp only [List.mem_flatMap, List.mem_range, List.mem_map] at h
  obtain ⟨dx, hdx, ch, hch, rfl⟩ := h
  exact ⟨dx, ch, hdx, hch, rfl⟩

/-! ### Table memories -/

@[simp] theorem overlay_length {α : Type} (new old : List α) :
    (overlay new old).length = max new.length old.length := by
  unfold overlay
  rw [List.length_append, List.length_drop]
  omega

theorem overlay_getElem? {α : Type} (new old : List α) (k : ℕ) :
    (overlay new old)[k]? = if k < new.length then new[k]? else old[k]? := by
  unfold overlay
  split_ifs with h
  · exact List.getElem?_append_left h
  · rw [List.getElem?_append_right (by omega), List.getElem?_drop]
    congr 1
    omega

@[simp] theorem overlay_take {α : Type} (new old : List α) : (overlay new old).take new.length = new := by
  simp [overlay]

theorem mem_overlay {α : Type} {new old : List α} {x : α} (h : x ∈ overlay new old) : x ∈ new ∨ x ∈ old := by
  unfold overlay at h
  rcases List.mem_append.mp h with h | h
  · exact .inl h
  · exact .inr (List.mem_of_mem_drop h)

end Sys2Proof.Machine
end

