-- ==== Sys2Proof/Laws/FixedTable.lean ====
section
/-! SUPPORT. The fixed-point table builder (44_linear.md R170 to R176): the weights sum to `ONE`, the offsets name
samples of the source. -/

namespace Sys2Proof.Machine

/-- A fraction lies between 0 and 1, as a double. -/
def UnitFraction (fx : F64) : Prop := dFin fx ∧ 0 ≤ dVal fx ∧ dVal fx ≤ 1

theorem zero_unit : UnitFraction 0#64 := ⟨zero_val.1, zero_val.2.ge, by rw [zero_val.2]; norm_num⟩

theorem one_unit : UnitFraction oneF64 := ⟨one_val.1, by rw [one_val.2]; norm_num, one_val.2.le⟩

/-- The weights of a fraction (44_linear.md R176): `0 <= w1 <= 2048`. -/
theorem fixedWeight_bounds {fx : F64} (h : UnitFraction fx) : 0 ≤ fixedWeight fx ∧ fixedWeight fx ≤ 2048 := by
  obtain ⟨h1, h2, h3⟩ := h
  have hp : |dVal fx * dVal fixedOneF64| ≤ 2 ^ 100 := by
    rw [fixedOne_val.2, abs_of_nonneg (by linarith)]
    have : (2048 : ℚ) ≤ 2 ^ 100 := by norm_num
    linarith
  obtain ⟨m1, m2⟩ := f64Mul_val h1 fixedOne_val.1 hp
  rw [fixedOne_val.2] at m2
  have hlow : 0 ≤ rnd64 (dVal fx * 2048) := rnd64_nonneg (by linarith)
  have hhigh : rnd64 (dVal fx * 2048) ≤ 2048 := by
    have := rnd64_mono (show dVal fx * 2048 ≤ ((2048 : ℤ) : ℚ) by push_cast; linarith)
    rw [rnd64_int (by norm_num)] at this
    exact_mod_cast this
  unfold fixedWeight
  rw [f64Rne_val m1, m2]
  refine ⟨rneQ_nonneg hlow, ?_⟩
  have := rneQ_mono (show rnd64 (dVal fx * 2048) ≤ ((2048 : ℤ) : ℚ) by exact_mod_cast hhigh)
  rwa [rneQ_intCast] at this

/-- The reciprocal of a scale is finite and at most a little more than `2^19`. -/
theorem inverse_val {src dst : ℕ} (hs : 1 ≤ src) (hs' : src < 2 ^ 19) (hd : 1 ≤ dst) (hd' : dst < 2 ^ 19) :
    dFin (f64Div oneF64 (scaleOf (src : ℤ) (dst : ℤ))) ∧
    0 ≤ dVal (f64Div oneF64 (scaleOf (src : ℤ) (dst : ℤ))) ∧
    dVal (f64Div oneF64 (scaleOf (src : ℤ) (dst : ℤ))) ≤ 2 ^ 20 := by
  obtain ⟨s1, s2⟩ := scaleOf_val (a := (src : ℤ)) (b := (dst : ℤ)) (by omega) (by omega) (by omega) (by omega)
  obtain ⟨q1, q2⟩ := quotient_bounds (a := (src : ℤ)) (b := (dst : ℤ)) (by omega) (by omega) (by omega) (by omega)
  have hlow : 1 / 2 ^ 19 ≤ dVal (scaleOf (src : ℤ) (dst : ℤ)) := by
    rw [s2]
    have := rnd64_mono q1.le
    have hex : rnd64 (1 / 2 ^ 19) = 1 / 2 ^ 19 := by
      have := rnd64_exact 1 (-19) (by norm_num) (by norm_num)
      have e : (((1 : ℤ) : ℚ)) * (2 : ℚ) ^ (-19 : ℤ) = 1 / 2 ^ 19 := by norm_num
      rwa [e] at this
    rwa [hex] at this
  have hpos : 0 < dVal (scaleOf (src : ℤ) (dst : ℤ)) := lt_of_lt_of_le (by positivity) hlow
  have hq : 1 / dVal (scaleOf (src : ℤ) (dst : ℤ)) ≤ 2 ^ 19 := by
    rw [div_le_iff₀ hpos]
    calc (1 : ℚ) = 2 ^ 19 * (1 / 2 ^ 19) := by norm_num
      _ ≤ 2 ^ 19 * _ := mul_le_mul_of_nonneg_left hlow (by positivity)
  have hq0 : 0 ≤ 1 / dVal (scaleOf (src : ℤ) (dst : ℤ)) := by positivity
  obtain ⟨d1, d2⟩ := f64Div_val one_val.1 s1 hpos.ne' (by
    rw [one_val.2, abs_of_nonneg hq0]
    refine hq.trans ?_
    norm_num)
  rw [one_val.2] at d2
  refine ⟨d1, ?_, ?_⟩
  · rw [d2]; exact rnd64_nonneg hq0
  · rw [d2]
    have := rnd64_le_pow 19 hq (by norm_num)
    have h20 : (2 : ℚ) ^ 19 ≤ 2 ^ 20 := by norm_num
    linarith

/-- The position of a destination index (44_linear.md R171): a whole position that is not negative, a fraction. -/
theorem fixedPosition_bounds {src dst d : ℕ} (hs : 1 ≤ src) (hs' : src < 2 ^ 19) (hd : 1 ≤ dst) (hd' : dst < 2 ^ 19)
    (hlt : d < dst) :
    let p := fixedPosition (scaleOf (src : ℤ) (dst : ℤ)) (f64Div oneF64 (scaleOf (src : ℤ) (dst : ℤ))) d
    0 ≤ p.s ∧ UnitFraction p.fx := by
  obtain ⟨s1, s2⟩ := scaleOf_val (a := (src : ℤ)) (b := (dst : ℤ)) (by omega) (by omega) (by omega) (by omega)
  obtain ⟨q1, q2⟩ := quotient_bounds (a := (src : ℤ)) (b := (dst : ℤ)) (by omega) (by omega) (by omega) (by omega)
  obtain ⟨i1, i2, i3⟩ := inverse_val hs hs' hd hd'
  set scale := scaleOf (src : ℤ) (dst : ℤ) with hscale
  set inv := f64Div oneF64 scale with hinv
  have sc0 : 0 ≤ dVal scale := by
    rw [s2]; exact rnd64_nonneg (lt_trans (by positivity) q1).le
  have sc1 : dVal scale ≤ 2 ^ 19 := by
    rw [s2]; exact rnd64_le_pow 19 (by exact_mod_cast q2.le) (by norm_num)
  obtain ⟨d1, d2⟩ := f64OfInt_val (z := (d : ℤ)) (by omega)
  have dq : ((d : ℤ) : ℚ) < 2 ^ 19 := by exact_mod_cast (by omega : (d : ℤ) < 2 ^ 19)
  have dq0 : (0 : ℚ) ≤ ((d : ℤ) : ℚ) := by positivity
  have hprod0 : 0 ≤ ((d : ℤ) : ℚ) * dVal scale := mul_nonneg dq0 sc0
  have hprod1 : ((d : ℤ) : ℚ) * dVal scale ≤ 2 ^ 38 := by
    calc ((d : ℤ) : ℚ) * dVal scale ≤ 2 ^ 19 * 2 ^ 19 := mul_le_mul dq.le sc1 sc0 (by positivity)
      _ = 2 ^ 38 := by norm_num
  have big38 : (2 : ℚ) ^ 38 ≤ 2 ^ 100 := by norm_num
  obtain ⟨m1, m2⟩ := f64Mul_val d1 s1 (by rw [d2, abs_of_nonneg hprod0]; linarith)
  rw [d2] at m2
  have hm0 : 0 ≤ dVal (f64Mul (f64OfInt d) scale) := by rw [m2]; exact rnd64_nonneg hprod0
  have hm1 : dVal (f64Mul (f64OfInt d) scale) ≤ 2 ^ 38 := by
    rw [m2]; exact rnd64_le_pow 38 hprod1 (by norm_num)
  set s : ℤ := f64Floor (f64Mul (f64OfInt d) scale) with hsdef
  have hsv : s = ⌊dVal (f64Mul (f64OfInt d) scale)⌋ := f64Floor_val m1
  have hs0 : 0 ≤ s := by rw [hsv]; exact Int.floor_nonneg.mpr hm0
  have hs1 : s ≤ 2 ^ 38 := by
    have h1 : (s : ℚ) ≤ 2 ^ 38 := by rw [hsv]; exact (Int.floor_le _).trans hm1
    exact_mod_cast h1
  obtain ⟨k1, k2⟩ := f64OfInt_val (z := s + 1) (by omega)
  have sq0 : (0 : ℚ) ≤ ((s + 1 : ℤ) : ℚ) := by exact_mod_cast (by omega : (0 : ℤ) ≤ s + 1)
  have sq1 : ((s + 1 : ℤ) : ℚ) ≤ 2 ^ 39 := by exact_mod_cast (by omega : s + 1 ≤ 2 ^ 39)
  have ht0 : 0 ≤ ((s + 1 : ℤ) : ℚ) * dVal inv := mul_nonneg sq0 i2
  have ht1 : ((s + 1 : ℤ) : ℚ) * dVal inv ≤ 2 ^ 59 := by
    calc ((s + 1 : ℤ) : ℚ) * dVal inv ≤ 2 ^ 39 * 2 ^ 20 := mul_le_mul sq1 i3 i2 (by positivity)
      _ = 2 ^ 59 := by norm_num
  have big59 : (2 : ℚ) ^ 59 ≤ 2 ^ 100 := by norm_num
  obtain ⟨t1, t2⟩ := f64Mul_val k1 i1 (by rw [k2, abs_of_nonneg ht0]; linarith)
  rw [k2] at t2
  have htv0 : 0 ≤ dVal (f64Mul (f64OfInt (s + 1)) inv) := by rw [t2]; exact rnd64_nonneg ht0
  have htv1 : dVal (f64Mul (f64OfInt (s + 1)) inv) ≤ 2 ^ 59 := by
    rw [t2]
    have h59 : rnd64 (2 ^ 59) = 2 ^ 59 := by
      have := rnd64_exact 1 59 (by norm_num) (by norm_num)
      have e : (((1 : ℤ) : ℚ)) * (2 : ℚ) ^ (59 : ℤ) = 2 ^ 59 := by norm_num
      rwa [e] at this
    have := rnd64_mono ht1
    rwa [h59] at this
  obtain ⟨e1, e2⟩ := f64OfInt_val (z := (d : ℤ) + 1) (by omega)
  have eq1 : (((d : ℤ) + 1 : ℤ) : ℚ) ≤ 2 ^ 19 := by exact_mod_cast (by omega : (d : ℤ) + 1 ≤ 2 ^ 19)
  have eq0 : (0 : ℚ) ≤ (((d : ℤ) + 1 : ℤ) : ℚ) := by exact_mod_cast (by omega : (0 : ℤ) ≤ (d : ℤ) + 1)
  have big19 : (2 : ℚ) ^ 19 ≤ 2 ^ 100 := by norm_num
  obtain ⟨f1, f2⟩ := f64Sub_val e1 t1 (by rw [e2, abs_le]; constructor <;> linarith)
  rw [e2] at f2
  intro p
  have hp : p = (if f64Le (f64Sub (f64OfInt ((d : ℤ) + 1)) (f64Mul (f64OfInt (s + 1)) inv)) 0#64 then
      { s := s, fx := 0#64 }
    else
      { s := s, fx := f64Sub (f64Sub (f64OfInt ((d : ℤ) + 1)) (f64Mul (f64OfInt (s + 1)) inv))
          (f64OfInt (f64Floor (f64Sub (f64OfInt ((d : ℤ) + 1)) (f64Mul (f64OfInt (s + 1)) inv)))) }) := rfl
  clear_value p
  subst hp
  set fx := f64Sub (f64OfInt ((d : ℤ) + 1)) (f64Mul (f64OfInt (s + 1)) inv) with hfx
  split
  · exact ⟨hs0, zero_unit⟩
  · rename_i hle
    refine ⟨hs0, ?_⟩
    have hpos : 0 < dVal fx := by
      by_contra hn
      exact hle ((f64Le_iff f1 zero_val.1).mpr (by rw [zero_val.2]; linarith))
    have hub : dVal fx ≤ 2 ^ 19 := by
      rw [f2]; exact rnd64_le_pow 19 (by linarith) (by norm_num)
    have hfl0 : 0 ≤ ⌊dVal fx⌋ := Int.floor_nonneg.mpr hpos.le
    have hfl1 : ⌊dVal fx⌋ ≤ 2 ^ 19 := by
      have h1 : ((⌊dVal fx⌋ : ℤ) : ℚ) ≤ 2 ^ 19 := (Int.floor_le _).trans hub
      exact_mod_cast h1
    have hfv : f64Floor fx = ⌊dVal fx⌋ := f64Floor_val f1
    obtain ⟨g1, g2⟩ := f64OfInt_val (z := f64Floor fx) (by rw [hfv]; omega)
    have l1 := Int.floor_le (dVal fx)
    have l2 := Int.lt_floor_add_one (dVal fx)
    obtain ⟨r1, r2⟩ := f64Sub_val f1 g1 (by
      rw [g2, hfv, abs_le]
      have : (1 : ℚ) ≤ 2 ^ 100 := by norm_num
      constructor <;> linarith)
    rw [g2] at r2
    refine ⟨r1, ?_, ?_⟩
    · show 0 ≤ dVal (f64Sub fx (f64OfInt (f64Floor fx)))
      rw [r2, hfv]; exact rnd64_nonneg (by linarith)
    · show dVal (f64Sub fx (f64OfInt (f64Floor fx))) ≤ 1
      rw [r2, hfv]
      have := rnd64_mono (show dVal fx - ((⌊dVal fx⌋ : ℤ) : ℚ) ≤ 1 by linarith)
      rwa [rnd64_one] at this

/-- The clamp of R172 puts a position on the samples of a source of at least two. -/
theorem fixedClamp_bounds {src : ℕ} (hs : 2 ≤ src) {q : FixedPos} (h1 : 0 ≤ q.s) (h2 : UnitFraction q.fx) :
    UnitFraction (fixedClamp src q).fx ∧ 0 ≤ (fixedClamp src q).s ∧ (fixedClamp src q).s ≤ (src : ℤ) - 2 := by
  unfold fixedClamp
  rw [if_neg (not_lt.mpr h1)]
  simp only
  split
  · exact ⟨one_unit, by show (0 : ℤ) ≤ (src : ℤ) - 2; omega, le_rfl⟩
  · exact ⟨h2, h1, by omega⟩

/-- The clamped position (44_linear.md R172, R175) names two samples of the source. -/
theorem fixedPos_bounds {src dst d : ℕ} (hs : 1 ≤ src) (hs' : src < 2 ^ 19) (hd : 1 ≤ dst) (hd' : dst < 2 ^ 19)
    (hlt : d < dst) :
    UnitFraction (fixedPos src (scaleOf (src : ℤ) (dst : ℤ)) (f64Div oneF64 (scaleOf (src : ℤ) (dst : ℤ))) d).fx ∧
    0 ≤ (fixedPos src (scaleOf (src : ℤ) (dst : ℤ)) (f64Div oneF64 (scaleOf (src : ℤ) (dst : ℤ))) d).s ∧
    (src = 1 → (fixedPos src (scaleOf (src : ℤ) (dst : ℤ)) (f64Div oneF64 (scaleOf (src : ℤ) (dst : ℤ))) d).s = 0) ∧
    (src ≠ 1 → (fixedPos src (scaleOf (src : ℤ) (dst : ℤ)) (f64Div oneF64 (scaleOf (src : ℤ) (dst : ℤ))) d).s ≤
      (src : ℤ) - 2) := by
  obtain ⟨h1, h2⟩ := fixedPosition_bounds hs hs' hd hd' hlt
  unfold fixedPos
  by_cases h : src = 1
  · rw [if_pos h]
    exact ⟨zero_unit, le_rfl, fun _ => rfl, fun hh => absurd h hh⟩
  · rw [if_neg h]
    have hs2 : 2 ≤ src := by clear h1 h2; omega
    obtain ⟨c1, c2, c3⟩ := fixedClamp_bounds hs2 h1 h2
    exact ⟨c1, c2, fun hh => absurd hh h, fun _ => c3⟩

/-- An entry of a fixed-point table: its weights sum to `ONE`, its offsets name two samples of the source
(10_state.md R47, 44_linear.md R172, R175, R176). -/
theorem fixedEntry_bounds {src dst d : ℕ} (step : ℕ) (hs : 1 ≤ src) (hs' : src < 2 ^ 19) (hd : 1 ≤ dst)
    (hd' : dst < 2 ^ 19) (hlt : d < dst) :
    let e := fixedEntry src step (scaleOf (src : ℤ) (dst : ℤ)) (f64Div oneF64 (scaleOf (src : ℤ) (dst : ℤ))) d
    e.w0 + e.w1 = 2048 ∧ ∃ x0 x1, x0 < src ∧ x1 < src ∧ e.ofs0 = x0 * step ∧ e.ofs1 = x1 * step := by
  obtain ⟨h1, h2, h3, h4⟩ := fixedPos_bounds hs hs' hd hd' hlt
  obtain ⟨w1, w2⟩ := fixedWeight_bounds h1
  unfold fixedEntry
  generalize fixedPos src (scaleOf (src : ℤ) (dst : ℤ)) (f64Div oneF64 (scaleOf (src : ℤ) (dst : ℤ))) d = p at h1 h2 h3 h4 w1 w2 ⊢
  intro e
  refine ⟨?_, p.s.toNat, (if src = 1 then p.s else p.s + 1).toNat, ?_, ?_, rfl, rfl⟩
  · show ((fixedOne : ℤ) - fixedWeight p.fx).toNat + (fixedWeight p.fx).toNat = 2048
    generalize fixedWeight p.fx = w at w1 w2 ⊢
    unfold fixedOne
    omega
  · by_cases h : src = 1
    · have := h3 h; omega
    · have := h4 h; omega
  · by_cases h : src = 1
    · have := h3 h
      simp only [h, if_true]; omega
    · have := h4 h
      simp only [if_neg h]; omega

/-- `build_fptab` produces exactly `dst_len` entries (44_linear.md R170). -/
@[simp] theorem buildFptab_length (src dst step : ℕ) (scale : F64) :
    (buildFptab src dst step scale).length = dst := by
  simp [buildFptab]

theorem mem_buildFptab {src dst step : ℕ} {scale : F64} {e : FixedEntry} :
    e ∈ buildFptab src dst step scale ↔ ∃ d, d < dst ∧ fixedEntry src step scale (f64Div oneF64 scale) d = e := by
  simp [buildFptab]

theorem fixedAt_buildFptab {src dst step d : ℕ} {scale : F64} (h : d < dst) :
    fixedAt (buildFptab src dst step scale) d = fixedEntry src step scale (f64Div oneF64 scale) d := by
  simp [fixedAt, buildFptab, List.getD_eq_getElem?_getD, h]

end Sys2Proof.Machine
end

