-- ==== Sys2Proof/Laws/Memory.lean ====
section
/-! SUPPORT. Data memory (20_memory.md R60, R66): what a read returns after a write, and that every memory operation
keeps the canonical form and the address space. -/

namespace Sys2Proof.Machine

/-! ### Reads -/

@[simp] theorem Memory.read_nil (a : ℕ) : Memory.read [] a = Memory.unlisted := rfl

@[simp] theorem Memory.read_cons (k : ℕ) (v : Byte) (m : Memory) (a : ℕ) :
    Memory.read ((k, v) :: m) a = if k = a then v else Memory.read m a := rfl

theorem Memory.read_insert (m : Memory) (a : ℕ) (b : Byte) (c : ℕ) :
    Memory.read (Memory.insert m a b) c = if a = c then b else Memory.read m c := by
  induction m with
  | nil => simp [Memory.insert]
  | cons cell rest ih =>
    obtain ⟨k, v⟩ := cell
    unfold Memory.insert
    split_ifs with h1 h2 h3 <;> simp_all
    all_goals omega

theorem Memory.read_filter (m : Memory) (a c : ℕ) :
    Memory.read (m.filter fun cell => cell.1 != a) c = if a = c then Memory.unlisted else Memory.read m c := by
  induction m with
  | nil => simp
  | cons cell rest ih =>
    obtain ⟨k, v⟩ := cell
    by_cases hk : k = a
    · subst hk
      rw [List.filter_cons_of_neg (by simp), ih]
      simp only [Memory.read_cons]
      split_ifs <;> rfl
    · rw [List.filter_cons_of_pos (by simpa using hk)]
      simp only [Memory.read_cons, ih]
      split_ifs with h1 h2 <;> first | rfl | omega

/-- A read after a write (00_scope.md R11): the byte written at its address, the old byte elsewhere. -/
theorem Memory.read_write (m : Memory) (a : ℕ) (b : Byte) (c : ℕ) :
    Memory.read (Memory.write m a b) c = if a = c then b else Memory.read m c := by
  unfold Memory.write
  split_ifs with h1 h2 <;> simp [Memory.read_filter, Memory.read_insert, *]

@[simp] theorem Memory.read_write_same (m : Memory) (a : ℕ) (b : Byte) :
    Memory.read (Memory.write m a b) a = b := by simp [Memory.read_write]

theorem Memory.read_write_other (m : Memory) {a c : ℕ} (b : Byte) (h : a ≠ c) :
    Memory.read (Memory.write m a b) c = Memory.read m c := by simp [Memory.read_write, h]

/-- A read after a run of bytes is written. -/
theorem Memory.read_writeBytes (bs : List Byte) (m : Memory) (a c : ℕ) :
    Memory.read (Memory.writeBytes m a bs) c =
      if h : a ≤ c ∧ c < a + bs.length then bs[c - a]'(by omega) else Memory.read m c := by
  induction bs generalizing m a with
  | nil =>
    rw [dif_neg (by simp)]
    rfl
  | cons b rest ih =>
    unfold Memory.writeBytes
    rw [ih]
    by_cases h : a + 1 ≤ c ∧ c < a + 1 + rest.length
    · have h2 : a ≤ c ∧ c < a + (b :: rest).length := by simp; omega
      rw [dif_pos h, dif_pos h2]
      have : c - a = (c - (a + 1)) + 1 := by omega
      simp [this]
    · rw [dif_neg h, Memory.read_write]
      by_cases hc : a = c
      · subst hc
        rw [if_pos rfl, dif_pos (by simp)]
        simp
      · rw [if_neg hc, dif_neg (by simp; omega)]

theorem Memory.read_writeBytes_outside (bs : List Byte) (m : Memory) {a c : ℕ}
    (h : c < a ∨ a + bs.length ≤ c) : Memory.read (Memory.writeBytes m a bs) c = Memory.read m c := by
  rw [Memory.read_writeBytes, dif_neg (by omega)]

/-- A byte outside every row written reads as before (20_memory.md R64: padding is not written). -/
theorem Memory.read_writeRows_outside (m : Memory) (v : View) (rows : ℕ → List Byte) (n c : ℕ)
    (h : ∀ y, y < n → c < v.addr y 0 ∨ v.addr y 0 + (rows y).length ≤ c) :
    Memory.read (Memory.writeRows m v rows n) c = Memory.read m c := by
  induction n with
  | zero => rfl
  | succ k ih =>
    unfold Memory.writeRows
    rw [Memory.read_writeBytes_outside _ _ (h k (by omega)), ih fun y hy => h y (by omega)]

/-- A byte of a row written reads as the row's byte, when rows do not meet (20_memory.md R62, R64). -/
theorem Memory.read_writeRows (m : Memory) (v : View) (rows : ℕ → List Byte) (n : ℕ) (hs : v.rowBytes ≤ v.stride)
    (hl : ∀ y, y < n → (rows y).length = v.rowBytes) {y i : ℕ} (hy : y < n) (hi : i < v.rowBytes) :
    Memory.read (Memory.writeRows m v rows n) (v.addr y i) = (rows y)[i]'(by rw [hl y hy]; exact hi) := by
  induction n with
  | zero => omega
  | succ k ih =>
    unfold Memory.writeRows
    by_cases hk : y = k
    · subst hk
      rw [Memory.read_writeBytes, dif_pos (by unfold View.addr; rw [hl y hy]; omega)]
      congr 1
      unfold View.addr
      omega
    · rw [Memory.read_writeBytes_outside, ih (fun z hz => hl z (by omega)) (by omega)]
      left
      unfold View.addr
      have : (y + 1) * v.stride ≤ k * v.stride := Nat.mul_le_mul_right _ (by omega)
      rw [Nat.add_mul] at this
      omega

/-! ### The canonical form -/

@[simp] theorem Memory.wf_nil : Memory.wf [] = true := rfl

theorem Memory.wf_cons {cell : Host.Cell} {m : Memory} :
    Memory.wf (cell :: m) = true ↔
      cell.2 ≠ Memory.unlisted ∧ (∀ d ∈ m, cell.1 < d.1) ∧ Memory.wf m = true := by
  simp [Memory.wf, and_assoc]

theorem Memory.wf_filter {m : Memory} (p : Host.Cell → Bool) (h : Memory.wf m = true) :
    Memory.wf (m.filter p) = true := by
  induction m with
  | nil => rfl
  | cons cell rest ih =>
    obtain ⟨h1, h2, h3⟩ := Memory.wf_cons.mp h
    rw [List.filter_cons]
    split
    · refine Memory.wf_cons.mpr ⟨h1, fun d hd => h2 d (List.mem_of_mem_filter hd), ih h3⟩
    · exact ih h3

theorem Memory.mem_insert {m : Memory} {a : ℕ} {b : Byte} {d : Host.Cell} (h : d ∈ Memory.insert m a b) :
    d = (a, b) ∨ d ∈ m := by
  induction m with
  | nil => simpa [Memory.insert] using h
  | cons cell rest ih =>
    obtain ⟨k, v⟩ := cell
    unfold Memory.insert at h
    split_ifs at h with h1 h2
    · simpa using h
    · rcases List.mem_cons.mp h with h | h
      · exact .inl h
      · exact .inr (List.mem_cons_of_mem _ h)
    · rcases List.mem_cons.mp h with h | h
      · exact .inr (by rw [h]; exact List.mem_cons_self)
      · rcases ih h with h | h
        · exact .inl h
        · exact .inr (List.mem_cons_of_mem _ h)

theorem Memory.wf_insert {m : Memory} (a : ℕ) {b : Byte} (hb : b ≠ Memory.unlisted) (h : Memory.wf m = true) :
    Memory.wf (Memory.insert m a b) = true := by
  induction m with
  | nil => exact Memory.wf_cons.mpr ⟨hb, by simp, rfl⟩
  | cons cell rest ih =>
    obtain ⟨k, v⟩ := cell
    obtain ⟨h1, h2, h3⟩ := Memory.wf_cons.mp h
    unfold Memory.insert
    split_ifs with c1 c2
    · refine Memory.wf_cons.mpr ⟨hb, ?_, h⟩
      intro d hd
      rcases List.mem_cons.mp hd with hd | hd
      · rw [hd]; exact c1
      · exact lt_trans c1 (h2 d hd)
    · subst c2
      exact Memory.wf_cons.mpr ⟨hb, h2, h3⟩
    · refine Memory.wf_cons.mpr ⟨h1, ?_, ih h3⟩
      intro d hd
      rcases Memory.mem_insert hd with hd | hd
      · rw [hd]
        show k < a
        omega
      · exact h2 d hd

/-- A write keeps the canonical form. -/
theorem Memory.wf_write {m : Memory} (a : ℕ) (b : Byte) (h : Memory.wf m = true) :
    Memory.wf (Memory.write m a b) = true := by
  unfold Memory.write
  split_ifs with hb
  · exact Memory.wf_filter _ h
  · exact Memory.wf_insert a hb h

/-- A run of bytes keeps the canonical form. -/
theorem Memory.wf_writeBytes (bs : List Byte) {m : Memory} (a : ℕ) (h : Memory.wf m = true) :
    Memory.wf (Memory.writeBytes m a bs) = true := by
  induction bs generalizing m a with
  | nil => exact h
  | cons b rest ih => exact ih (a + 1) (Memory.wf_write a b h)

/-- An image keeps the canonical form. -/
theorem Memory.wf_writeRows {m : Memory} (v : View) (rows : ℕ → List Byte) (n : ℕ) (h : Memory.wf m = true) :
    Memory.wf (Memory.writeRows m v rows n) = true := by
  induction n with
  | zero => exact h
  | succ k ih => exact Memory.wf_writeBytes _ _ ih

/-- Memory after reset has the canonical form. -/
theorem Memory.wf_reset : Memory.wf State.reset.mem = true := rfl

theorem Memory.read_of_above {m : Memory} {a : ℕ} (h : ∀ d ∈ m, a < d.1) : Memory.read m a = Memory.unlisted := by
  induction m with
  | nil => rfl
  | cons cell rest ih =>
    obtain ⟨k, v⟩ := cell
    have h1 := h (k, v) List.mem_cons_self
    rw [Memory.read_cons, if_neg (by simp at h1; omega), ih fun d hd => h d (List.mem_cons_of_mem _ hd)]

/-- Equal memories are equal data: two canonical memories that read alike are one list. -/
theorem Memory.ext_of_wf {m n : Memory} (hm : Memory.wf m = true) (hn : Memory.wf n = true)
    (h : ∀ a, Memory.read m a = Memory.read n a) : m = n := by
  induction m generalizing n with
  | nil =>
    cases n with
    | nil => rfl
    | cons cell rest =>
      obtain ⟨k, v⟩ := cell
      have h1 := h k
      rw [Memory.read_cons, if_pos rfl] at h1
      exact absurd h1.symm (Memory.wf_cons.mp hn).1
  | cons cell rest ih =>
    obtain ⟨k, v⟩ := cell
    obtain ⟨a1, a2, a3⟩ := Memory.wf_cons.mp hm
    cases n with
    | nil =>
      have h1 := h k
      rw [Memory.read_cons, if_pos rfl] at h1
      exact absurd h1 a1
    | cons cell' rest' =>
      obtain ⟨k', v'⟩ := cell'
      obtain ⟨b1, b2, b3⟩ := Memory.wf_cons.mp hn
      simp only at a1 a2 b1 b2
      have hk : k = k' := by
        rcases Nat.lt_trichotomy k k' with hlt | heq | hgt
        · have h1 := h k
          rw [Memory.read_cons, if_pos rfl, Memory.read_cons, if_neg (by omega),
            Memory.read_of_above fun d hd => lt_trans hlt (b2 d hd)] at h1
          exact absurd h1 a1
        · exact heq
        · have h1 := h k'
          rw [Memory.read_cons, if_neg (by omega), Memory.read_cons, if_pos rfl,
            Memory.read_of_above fun d hd => lt_trans hgt (a2 d hd)] at h1
          exact absurd h1.symm b1
      subst hk
      have hv : v = v' := by
        have h1 := h k
        rwa [Memory.read_cons, if_pos rfl, Memory.read_cons, if_pos rfl] at h1
      subst hv
      congr 1
      refine ih a3 b3 fun a => ?_
      have h1 := h a
      rw [Memory.read_cons, Memory.read_cons] at h1
      by_cases hka : k = a
      · subst hka
        rw [Memory.read_of_above a2, Memory.read_of_above b2]
      · rwa [if_neg hka, if_neg hka] at h1

/-! ### The address space -/

theorem Memory.inSpace_iff {c : Config} {m : Memory} :
    Memory.inSpace c m = true ↔ ∀ d ∈ m, d.1 < 2 ^ c.addrBits := by
  simp [Memory.inSpace]

/-- A write below `2^ADDR_BITS` keeps every listed address there. -/
theorem Memory.inSpace_write {c : Config} {m : Memory} {a : ℕ} (b : Byte) (ha : a < 2 ^ c.addrBits)
    (h : Memory.inSpace c m = true) : Memory.inSpace c (Memory.write m a b) = true := by
  rw [Memory.inSpace_iff] at h ⊢
  intro d hd
  unfold Memory.write at hd
  split_ifs at hd
  · exact h d (List.mem_of_mem_filter hd)
  · rcases Memory.mem_insert hd with hd | hd
    · rw [hd]; exact ha
    · exact h d hd

theorem Memory.inSpace_writeBytes {c : Config} (bs : List Byte) {m : Memory} {a : ℕ}
    (ha : a + bs.length ≤ 2 ^ c.addrBits) (h : Memory.inSpace c m = true) :
    Memory.inSpace c (Memory.writeBytes m a bs) = true := by
  induction bs generalizing m a with
  | nil => exact h
  | cons b rest ih =>
    simp only [List.length_cons] at ha
    exact ih (by omega) (Memory.inSpace_write b (by omega) h)

theorem Memory.inSpace_writeRows {c : Config} {m : Memory} (v : View) (rows : ℕ → List Byte) (n : ℕ)
    (hr : ∀ y, y < n → v.addr y 0 + (rows y).length ≤ 2 ^ c.addrBits) (h : Memory.inSpace c m = true) :
    Memory.inSpace c (Memory.writeRows m v rows n) = true := by
  induction n with
  | zero => exact h
  | succ k ih =>
    exact Memory.inSpace_writeBytes _ (hr k (by omega)) (ih fun y hy => hr y (by omega))

end Sys2Proof.Machine
end

