-- ==== Sys2Proof/Laws/State.lean ====
section
/-! SUPPORT. One lemma per field of State for every shared update, true by unfolding. -/

namespace Sys2Proof.Machine

section
variable (s : State)

/-! ### Step 1 of every command (40_command_common.md R100). -/

@[simp] theorem clearResults_srcBase : (clearResults s).srcBase = s.srcBase := rfl
@[simp] theorem clearResults_srcWidth : (clearResults s).srcWidth = s.srcWidth := rfl
@[simp] theorem clearResults_srcHeight : (clearResults s).srcHeight = s.srcHeight := rfl
@[simp] theorem clearResults_srcStride : (clearResults s).srcStride = s.srcStride := rfl
@[simp] theorem clearResults_dstBase : (clearResults s).dstBase = s.dstBase := rfl
@[simp] theorem clearResults_dstWidth : (clearResults s).dstWidth = s.dstWidth := rfl
@[simp] theorem clearResults_dstHeight : (clearResults s).dstHeight = s.dstHeight := rfl
@[simp] theorem clearResults_dstStride : (clearResults s).dstStride = s.dstStride := rfl
@[simp] theorem clearResults_channels : (clearResults s).channels = s.channels := rfl
@[simp] theorem clearResults_tabSel : (clearResults s).tabSel = s.tabSel := rfl
@[simp] theorem clearResults_tabIdx : (clearResults s).tabIdx = s.tabIdx := rfl
@[simp] theorem clearResults_done : (clearResults s).done = s.done := rfl
@[simp] theorem clearResults_err : (clearResults s).err = .ok := rfl
@[simp] theorem clearResults_path : (clearResults s).path = .noPath := rfl
@[simp] theorem clearResults_iscaleX : (clearResults s).iscaleX = 0 := rfl
@[simp] theorem clearResults_iscaleY : (clearResults s).iscaleY = 0 := rfl
@[simp] theorem clearResults_xtabCount : (clearResults s).xtabCount = 0 := rfl
@[simp] theorem clearResults_ytabCount : (clearResults s).ytabCount = 0 := rfl
@[simp] theorem clearResults_ygrpCount : (clearResults s).ygrpCount = 0 := rfl
@[simp] theorem clearResults_fpxCount : (clearResults s).fpxCount = 0 := rfl
@[simp] theorem clearResults_fpyCount : (clearResults s).fpyCount = 0 := rfl
@[simp] theorem clearResults_xtab : (clearResults s).xtab = s.xtab := rfl
@[simp] theorem clearResults_ytab : (clearResults s).ytab = s.ytab := rfl
@[simp] theorem clearResults_ygrp : (clearResults s).ygrp = s.ygrp := rfl
@[simp] theorem clearResults_fpx : (clearResults s).fpx = s.fpx := rfl
@[simp] theorem clearResults_fpy : (clearResults s).fpy = s.fpy := rfl
@[simp] theorem clearResults_scratch : (clearResults s).scratch = s.scratch := rfl
@[simp] theorem clearResults_acc : (clearResults s).acc = s.acc := rfl
@[simp] theorem clearResults_mem : (clearResults s).mem = s.mem := rfl
@[simp] theorem clearResults_script : (clearResults s).script = s.script := rfl
@[simp] theorem clearResults_listing : (clearResults s).listing = s.listing := rfl

/-! ### Completion with an error (60_exceptions.md R205). -/

@[simp] theorem raiseError_srcBase (e : ErrCode) : (raiseError e s).srcBase = s.srcBase := rfl
@[simp] theorem raiseError_srcWidth (e : ErrCode) : (raiseError e s).srcWidth = s.srcWidth := rfl
@[simp] theorem raiseError_srcHeight (e : ErrCode) : (raiseError e s).srcHeight = s.srcHeight := rfl
@[simp] theorem raiseError_srcStride (e : ErrCode) : (raiseError e s).srcStride = s.srcStride := rfl
@[simp] theorem raiseError_dstBase (e : ErrCode) : (raiseError e s).dstBase = s.dstBase := rfl
@[simp] theorem raiseError_dstWidth (e : ErrCode) : (raiseError e s).dstWidth = s.dstWidth := rfl
@[simp] theorem raiseError_dstHeight (e : ErrCode) : (raiseError e s).dstHeight = s.dstHeight := rfl
@[simp] theorem raiseError_dstStride (e : ErrCode) : (raiseError e s).dstStride = s.dstStride := rfl
@[simp] theorem raiseError_channels (e : ErrCode) : (raiseError e s).channels = s.channels := rfl
@[simp] theorem raiseError_tabSel (e : ErrCode) : (raiseError e s).tabSel = s.tabSel := rfl
@[simp] theorem raiseError_tabIdx (e : ErrCode) : (raiseError e s).tabIdx = s.tabIdx := rfl
@[simp] theorem raiseError_done (e : ErrCode) : (raiseError e s).done = true := rfl
@[simp] theorem raiseError_err (e : ErrCode) : (raiseError e s).err = e := rfl
@[simp] theorem raiseError_path (e : ErrCode) : (raiseError e s).path = .noPath := rfl
@[simp] theorem raiseError_iscaleX (e : ErrCode) : (raiseError e s).iscaleX = s.iscaleX := rfl
@[simp] theorem raiseError_iscaleY (e : ErrCode) : (raiseError e s).iscaleY = s.iscaleY := rfl
@[simp] theorem raiseError_xtabCount (e : ErrCode) : (raiseError e s).xtabCount = s.xtabCount := rfl
@[simp] theorem raiseError_ytabCount (e : ErrCode) : (raiseError e s).ytabCount = s.ytabCount := rfl
@[simp] theorem raiseError_ygrpCount (e : ErrCode) : (raiseError e s).ygrpCount = s.ygrpCount := rfl
@[simp] theorem raiseError_fpxCount (e : ErrCode) : (raiseError e s).fpxCount = s.fpxCount := rfl
@[simp] theorem raiseError_fpyCount (e : ErrCode) : (raiseError e s).fpyCount = s.fpyCount := rfl
@[simp] theorem raiseError_xtab (e : ErrCode) : (raiseError e s).xtab = s.xtab := rfl
@[simp] theorem raiseError_ytab (e : ErrCode) : (raiseError e s).ytab = s.ytab := rfl
@[simp] theorem raiseError_ygrp (e : ErrCode) : (raiseError e s).ygrp = s.ygrp := rfl
@[simp] theorem raiseError_fpx (e : ErrCode) : (raiseError e s).fpx = s.fpx := rfl
@[simp] theorem raiseError_fpy (e : ErrCode) : (raiseError e s).fpy = s.fpy := rfl
@[simp] theorem raiseError_scratch (e : ErrCode) : (raiseError e s).scratch = s.scratch := rfl
@[simp] theorem raiseError_acc (e : ErrCode) : (raiseError e s).acc = s.acc := rfl
@[simp] theorem raiseError_mem (e : ErrCode) : (raiseError e s).mem = s.mem := rfl
@[simp] theorem raiseError_script (e : ErrCode) : (raiseError e s).script = s.script := rfl
@[simp] theorem raiseError_listing (e : ErrCode) : (raiseError e s).listing = s.listing := rfl

/-! ### Completion with success (40_command_common.md R111). -/

@[simp] theorem complete_srcBase (p : PixelPath) : (complete p s).srcBase = s.srcBase := rfl
@[simp] theorem complete_srcWidth (p : PixelPath) : (complete p s).srcWidth = s.srcWidth := rfl
@[simp] theorem complete_srcHeight (p : PixelPath) : (complete p s).srcHeight = s.srcHeight := rfl
@[simp] theorem complete_srcStride (p : PixelPath) : (complete p s).srcStride = s.srcStride := rfl
@[simp] theorem complete_dstBase (p : PixelPath) : (complete p s).dstBase = s.dstBase := rfl
@[simp] theorem complete_dstWidth (p : PixelPath) : (complete p s).dstWidth = s.dstWidth := rfl
@[simp] theorem complete_dstHeight (p : PixelPath) : (complete p s).dstHeight = s.dstHeight := rfl
@[simp] theorem complete_dstStride (p : PixelPath) : (complete p s).dstStride = s.dstStride := rfl
@[simp] theorem complete_channels (p : PixelPath) : (complete p s).channels = s.channels := rfl
@[simp] theorem complete_tabSel (p : PixelPath) : (complete p s).tabSel = s.tabSel := rfl
@[simp] theorem complete_tabIdx (p : PixelPath) : (complete p s).tabIdx = s.tabIdx := rfl
@[simp] theorem complete_done (p : PixelPath) : (complete p s).done = true := rfl
@[simp] theorem complete_err (p : PixelPath) : (complete p s).err = .ok := rfl
@[simp] theorem complete_path (p : PixelPath) : (complete p s).path = p := rfl
@[simp] theorem complete_iscaleX (p : PixelPath) : (complete p s).iscaleX = s.iscaleX := rfl
@[simp] theorem complete_iscaleY (p : PixelPath) : (complete p s).iscaleY = s.iscaleY := rfl
@[simp] theorem complete_xtabCount (p : PixelPath) : (complete p s).xtabCount = s.xtabCount := rfl
@[simp] theorem complete_ytabCount (p : PixelPath) : (complete p s).ytabCount = s.ytabCount := rfl
@[simp] theorem complete_ygrpCount (p : PixelPath) : (complete p s).ygrpCount = s.ygrpCount := rfl
@[simp] theorem complete_fpxCount (p : PixelPath) : (complete p s).fpxCount = s.fpxCount := rfl
@[simp] theorem complete_fpyCount (p : PixelPath) : (complete p s).fpyCount = s.fpyCount := rfl
@[simp] theorem complete_xtab (p : PixelPath) : (complete p s).xtab = s.xtab := rfl
@[simp] theorem complete_ytab (p : PixelPath) : (complete p s).ytab = s.ytab := rfl
@[simp] theorem complete_ygrp (p : PixelPath) : (complete p s).ygrp = s.ygrp := rfl
@[simp] theorem complete_fpx (p : PixelPath) : (complete p s).fpx = s.fpx := rfl
@[simp] theorem complete_fpy (p : PixelPath) : (complete p s).fpy = s.fpy := rfl
@[simp] theorem complete_scratch (p : PixelPath) : (complete p s).scratch = s.scratch := rfl
@[simp] theorem complete_acc (p : PixelPath) : (complete p s).acc = s.acc := rfl
@[simp] theorem complete_mem (p : PixelPath) : (complete p s).mem = s.mem := rfl
@[simp] theorem complete_script (p : PixelPath) : (complete p s).script = s.script := rfl
@[simp] theorem complete_listing (p : PixelPath) : (complete p s).listing = s.listing := rfl

/-! ### `XTAB` written (10_state.md R36). -/

@[simp] theorem setXtab_srcBase (t : List WeightEntry) : (setXtab t s).srcBase = s.srcBase := rfl
@[simp] theorem setXtab_srcWidth (t : List WeightEntry) : (setXtab t s).srcWidth = s.srcWidth := rfl
@[simp] theorem setXtab_srcHeight (t : List WeightEntry) : (setXtab t s).srcHeight = s.srcHeight := rfl
@[simp] theorem setXtab_srcStride (t : List WeightEntry) : (setXtab t s).srcStride = s.srcStride := rfl
@[simp] theorem setXtab_dstBase (t : List WeightEntry) : (setXtab t s).dstBase = s.dstBase := rfl
@[simp] theorem setXtab_dstWidth (t : List WeightEntry) : (setXtab t s).dstWidth = s.dstWidth := rfl
@[simp] theorem setXtab_dstHeight (t : List WeightEntry) : (setXtab t s).dstHeight = s.dstHeight := rfl
@[simp] theorem setXtab_dstStride (t : List WeightEntry) : (setXtab t s).dstStride = s.dstStride := rfl
@[simp] theorem setXtab_channels (t : List WeightEntry) : (setXtab t s).channels = s.channels := rfl
@[simp] theorem setXtab_tabSel (t : List WeightEntry) : (setXtab t s).tabSel = s.tabSel := rfl
@[simp] theorem setXtab_tabIdx (t : List WeightEntry) : (setXtab t s).tabIdx = s.tabIdx := rfl
@[simp] theorem setXtab_done (t : List WeightEntry) : (setXtab t s).done = s.done := rfl
@[simp] theorem setXtab_err (t : List WeightEntry) : (setXtab t s).err = s.err := rfl
@[simp] theorem setXtab_path (t : List WeightEntry) : (setXtab t s).path = s.path := rfl
@[simp] theorem setXtab_iscaleX (t : List WeightEntry) : (setXtab t s).iscaleX = s.iscaleX := rfl
@[simp] theorem setXtab_iscaleY (t : List WeightEntry) : (setXtab t s).iscaleY = s.iscaleY := rfl
@[simp] theorem setXtab_xtabCount (t : List WeightEntry) : (setXtab t s).xtabCount = BitVec.ofNat 32 t.length := rfl
@[simp] theorem setXtab_ytabCount (t : List WeightEntry) : (setXtab t s).ytabCount = s.ytabCount := rfl
@[simp] theorem setXtab_ygrpCount (t : List WeightEntry) : (setXtab t s).ygrpCount = s.ygrpCount := rfl
@[simp] theorem setXtab_fpxCount (t : List WeightEntry) : (setXtab t s).fpxCount = s.fpxCount := rfl
@[simp] theorem setXtab_fpyCount (t : List WeightEntry) : (setXtab t s).fpyCount = s.fpyCount := rfl
@[simp] theorem setXtab_xtab (t : List WeightEntry) : (setXtab t s).xtab = overlay t s.xtab := rfl
@[simp] theorem setXtab_ytab (t : List WeightEntry) : (setXtab t s).ytab = s.ytab := rfl
@[simp] theorem setXtab_ygrp (t : List WeightEntry) : (setXtab t s).ygrp = s.ygrp := rfl
@[simp] theorem setXtab_fpx (t : List WeightEntry) : (setXtab t s).fpx = s.fpx := rfl
@[simp] theorem setXtab_fpy (t : List WeightEntry) : (setXtab t s).fpy = s.fpy := rfl
@[simp] theorem setXtab_scratch (t : List WeightEntry) : (setXtab t s).scratch = s.scratch := rfl
@[simp] theorem setXtab_acc (t : List WeightEntry) : (setXtab t s).acc = s.acc := rfl
@[simp] theorem setXtab_mem (t : List WeightEntry) : (setXtab t s).mem = s.mem := rfl
@[simp] theorem setXtab_script (t : List WeightEntry) : (setXtab t s).script = s.script := rfl
@[simp] theorem setXtab_listing (t : List WeightEntry) : (setXtab t s).listing = s.listing := rfl

/-! ### `YTAB` and `YGRP` written (10_state.md R37, R38). -/

@[simp] theorem setYtab_srcBase (t : List WeightEntry) (g : List RunEntry) : (setYtab t g s).srcBase = s.srcBase := rfl
@[simp] theorem setYtab_srcWidth (t : List WeightEntry) (g : List RunEntry) : (setYtab t g s).srcWidth = s.srcWidth := rfl
@[simp] theorem setYtab_srcHeight (t : List WeightEntry) (g : List RunEntry) : (setYtab t g s).srcHeight = s.srcHeight := rfl
@[simp] theorem setYtab_srcStride (t : List WeightEntry) (g : List RunEntry) : (setYtab t g s).srcStride = s.srcStride := rfl
@[simp] theorem setYtab_dstBase (t : List WeightEntry) (g : List RunEntry) : (setYtab t g s).dstBase = s.dstBase := rfl
@[simp] theorem setYtab_dstWidth (t : List WeightEntry) (g : List RunEntry) : (setYtab t g s).dstWidth = s.dstWidth := rfl
@[simp] theorem setYtab_dstHeight (t : List WeightEntry) (g : List RunEntry) : (setYtab t g s).dstHeight = s.dstHeight := rfl
@[simp] theorem setYtab_dstStride (t : List WeightEntry) (g : List RunEntry) : (setYtab t g s).dstStride = s.dstStride := rfl
@[simp] theorem setYtab_channels (t : List WeightEntry) (g : List RunEntry) : (setYtab t g s).channels = s.channels := rfl
@[simp] theorem setYtab_tabSel (t : List WeightEntry) (g : List RunEntry) : (setYtab t g s).tabSel = s.tabSel := rfl
@[simp] theorem setYtab_tabIdx (t : List WeightEntry) (g : List RunEntry) : (setYtab t g s).tabIdx = s.tabIdx := rfl
@[simp] theorem setYtab_done (t : List WeightEntry) (g : List RunEntry) : (setYtab t g s).done = s.done := rfl
@[simp] theorem setYtab_err (t : List WeightEntry) (g : List RunEntry) : (setYtab t g s).err = s.err := rfl
@[simp] theorem setYtab_path (t : List WeightEntry) (g : List RunEntry) : (setYtab t g s).path = s.path := rfl
@[simp] theorem setYtab_iscaleX (t : List WeightEntry) (g : List RunEntry) : (setYtab t g s).iscaleX = s.iscaleX := rfl
@[simp] theorem setYtab_iscaleY (t : List WeightEntry) (g : List RunEntry) : (setYtab t g s).iscaleY = s.iscaleY := rfl
@[simp] theorem setYtab_xtabCount (t : List WeightEntry) (g : List RunEntry) : (setYtab t g s).xtabCount = s.xtabCount := rfl
@[simp] theorem setYtab_ytabCount (t : List WeightEntry) (g : List RunEntry) : (setYtab t g s).ytabCount = BitVec.ofNat 32 t.length := rfl
@[simp] theorem setYtab_ygrpCount (t : List WeightEntry) (g : List RunEntry) : (setYtab t g s).ygrpCount = BitVec.ofNat 32 g.length := rfl
@[simp] theorem setYtab_fpxCount (t : List WeightEntry) (g : List RunEntry) : (setYtab t g s).fpxCount = s.fpxCount := rfl
@[simp] theorem setYtab_fpyCount (t : List WeightEntry) (g : List RunEntry) : (setYtab t g s).fpyCount = s.fpyCount := rfl
@[simp] theorem setYtab_xtab (t : List WeightEntry) (g : List RunEntry) : (setYtab t g s).xtab = s.xtab := rfl
@[simp] theorem setYtab_ytab (t : List WeightEntry) (g : List RunEntry) : (setYtab t g s).ytab = overlay t s.ytab := rfl
@[simp] theorem setYtab_ygrp (t : List WeightEntry) (g : List RunEntry) : (setYtab t g s).ygrp = overlay g s.ygrp := rfl
@[simp] theorem setYtab_fpx (t : List WeightEntry) (g : List RunEntry) : (setYtab t g s).fpx = s.fpx := rfl
@[simp] theorem setYtab_fpy (t : List WeightEntry) (g : List RunEntry) : (setYtab t g s).fpy = s.fpy := rfl
@[simp] theorem setYtab_scratch (t : List WeightEntry) (g : List RunEntry) : (setYtab t g s).scratch = s.scratch := rfl
@[simp] theorem setYtab_acc (t : List WeightEntry) (g : List RunEntry) : (setYtab t g s).acc = s.acc := rfl
@[simp] theorem setYtab_mem (t : List WeightEntry) (g : List RunEntry) : (setYtab t g s).mem = s.mem := rfl
@[simp] theorem setYtab_script (t : List WeightEntry) (g : List RunEntry) : (setYtab t g s).script = s.script := rfl
@[simp] theorem setYtab_listing (t : List WeightEntry) (g : List RunEntry) : (setYtab t g s).listing = s.listing := rfl

/-! ### `FPX` written (10_state.md R39). -/

@[simp] theorem setFpx_srcBase (t : List FixedEntry) : (setFpx t s).srcBase = s.srcBase := rfl
@[simp] theorem setFpx_srcWidth (t : List FixedEntry) : (setFpx t s).srcWidth = s.srcWidth := rfl
@[simp] theorem setFpx_srcHeight (t : List FixedEntry) : (setFpx t s).srcHeight = s.srcHeight := rfl
@[simp] theorem setFpx_srcStride (t : List FixedEntry) : (setFpx t s).srcStride = s.srcStride := rfl
@[simp] theorem setFpx_dstBase (t : List FixedEntry) : (setFpx t s).dstBase = s.dstBase := rfl
@[simp] theorem setFpx_dstWidth (t : List FixedEntry) : (setFpx t s).dstWidth = s.dstWidth := rfl
@[simp] theorem setFpx_dstHeight (t : List FixedEntry) : (setFpx t s).dstHeight = s.dstHeight := rfl
@[simp] theorem setFpx_dstStride (t : List FixedEntry) : (setFpx t s).dstStride = s.dstStride := rfl
@[simp] theorem setFpx_channels (t : List FixedEntry) : (setFpx t s).channels = s.channels := rfl
@[simp] theorem setFpx_tabSel (t : List FixedEntry) : (setFpx t s).tabSel = s.tabSel := rfl
@[simp] theorem setFpx_tabIdx (t : List FixedEntry) : (setFpx t s).tabIdx = s.tabIdx := rfl
@[simp] theorem setFpx_done (t : List FixedEntry) : (setFpx t s).done = s.done := rfl
@[simp] theorem setFpx_err (t : List FixedEntry) : (setFpx t s).err = s.err := rfl
@[simp] theorem setFpx_path (t : List FixedEntry) : (setFpx t s).path = s.path := rfl
@[simp] theorem setFpx_iscaleX (t : List FixedEntry) : (setFpx t s).iscaleX = s.iscaleX := rfl
@[simp] theorem setFpx_iscaleY (t : List FixedEntry) : (setFpx t s).iscaleY = s.iscaleY := rfl
@[simp] theorem setFpx_xtabCount (t : List FixedEntry) : (setFpx t s).xtabCount = s.xtabCount := rfl
@[simp] theorem setFpx_ytabCount (t : List FixedEntry) : (setFpx t s).ytabCount = s.ytabCount := rfl
@[simp] theorem setFpx_ygrpCount (t : List FixedEntry) : (setFpx t s).ygrpCount = s.ygrpCount := rfl
@[simp] theorem setFpx_fpxCount (t : List FixedEntry) : (setFpx t s).fpxCount = BitVec.ofNat 32 t.length := rfl
@[simp] theorem setFpx_fpyCount (t : List FixedEntry) : (setFpx t s).fpyCount = s.fpyCount := rfl
@[simp] theorem setFpx_xtab (t : List FixedEntry) : (setFpx t s).xtab = s.xtab := rfl
@[simp] theorem setFpx_ytab (t : List FixedEntry) : (setFpx t s).ytab = s.ytab := rfl
@[simp] theorem setFpx_ygrp (t : List FixedEntry) : (setFpx t s).ygrp = s.ygrp := rfl
@[simp] theorem setFpx_fpx (t : List FixedEntry) : (setFpx t s).fpx = overlay t s.fpx := rfl
@[simp] theorem setFpx_fpy (t : List FixedEntry) : (setFpx t s).fpy = s.fpy := rfl
@[simp] theorem setFpx_scratch (t : List FixedEntry) : (setFpx t s).scratch = s.scratch := rfl
@[simp] theorem setFpx_acc (t : List FixedEntry) : (setFpx t s).acc = s.acc := rfl
@[simp] theorem setFpx_mem (t : List FixedEntry) : (setFpx t s).mem = s.mem := rfl
@[simp] theorem setFpx_script (t : List FixedEntry) : (setFpx t s).script = s.script := rfl
@[simp] theorem setFpx_listing (t : List FixedEntry) : (setFpx t s).listing = s.listing := rfl

/-! ### `FPY` written (10_state.md R39). -/

@[simp] theorem setFpy_srcBase (t : List FixedEntry) : (setFpy t s).srcBase = s.srcBase := rfl
@[simp] theorem setFpy_srcWidth (t : List FixedEntry) : (setFpy t s).srcWidth = s.srcWidth := rfl
@[simp] theorem setFpy_srcHeight (t : List FixedEntry) : (setFpy t s).srcHeight = s.srcHeight := rfl
@[simp] theorem setFpy_srcStride (t : List FixedEntry) : (setFpy t s).srcStride = s.srcStride := rfl
@[simp] theorem setFpy_dstBase (t : List FixedEntry) : (setFpy t s).dstBase = s.dstBase := rfl
@[simp] theorem setFpy_dstWidth (t : List FixedEntry) : (setFpy t s).dstWidth = s.dstWidth := rfl
@[simp] theorem setFpy_dstHeight (t : List FixedEntry) : (setFpy t s).dstHeight = s.dstHeight := rfl
@[simp] theorem setFpy_dstStride (t : List FixedEntry) : (setFpy t s).dstStride = s.dstStride := rfl
@[simp] theorem setFpy_channels (t : List FixedEntry) : (setFpy t s).channels = s.channels := rfl
@[simp] theorem setFpy_tabSel (t : List FixedEntry) : (setFpy t s).tabSel = s.tabSel := rfl
@[simp] theorem setFpy_tabIdx (t : List FixedEntry) : (setFpy t s).tabIdx = s.tabIdx := rfl
@[simp] theorem setFpy_done (t : List FixedEntry) : (setFpy t s).done = s.done := rfl
@[simp] theorem setFpy_err (t : List FixedEntry) : (setFpy t s).err = s.err := rfl
@[simp] theorem setFpy_path (t : List FixedEntry) : (setFpy t s).path = s.path := rfl
@[simp] theorem setFpy_iscaleX (t : List FixedEntry) : (setFpy t s).iscaleX = s.iscaleX := rfl
@[simp] theorem setFpy_iscaleY (t : List FixedEntry) : (setFpy t s).iscaleY = s.iscaleY := rfl
@[simp] theorem setFpy_xtabCount (t : List FixedEntry) : (setFpy t s).xtabCount = s.xtabCount := rfl
@[simp] theorem setFpy_ytabCount (t : List FixedEntry) : (setFpy t s).ytabCount = s.ytabCount := rfl
@[simp] theorem setFpy_ygrpCount (t : List FixedEntry) : (setFpy t s).ygrpCount = s.ygrpCount := rfl
@[simp] theorem setFpy_fpxCount (t : List FixedEntry) : (setFpy t s).fpxCount = s.fpxCount := rfl
@[simp] theorem setFpy_fpyCount (t : List FixedEntry) : (setFpy t s).fpyCount = BitVec.ofNat 32 t.length := rfl
@[simp] theorem setFpy_xtab (t : List FixedEntry) : (setFpy t s).xtab = s.xtab := rfl
@[simp] theorem setFpy_ytab (t : List FixedEntry) : (setFpy t s).ytab = s.ytab := rfl
@[simp] theorem setFpy_ygrp (t : List FixedEntry) : (setFpy t s).ygrp = s.ygrp := rfl
@[simp] theorem setFpy_fpx (t : List FixedEntry) : (setFpy t s).fpx = s.fpx := rfl
@[simp] theorem setFpy_fpy (t : List FixedEntry) : (setFpy t s).fpy = overlay t s.fpy := rfl
@[simp] theorem setFpy_scratch (t : List FixedEntry) : (setFpy t s).scratch = s.scratch := rfl
@[simp] theorem setFpy_acc (t : List FixedEntry) : (setFpy t s).acc = s.acc := rfl
@[simp] theorem setFpy_mem (t : List FixedEntry) : (setFpy t s).mem = s.mem := rfl
@[simp] theorem setFpy_script (t : List FixedEntry) : (setFpy t s).script = s.script := rfl
@[simp] theorem setFpy_listing (t : List FixedEntry) : (setFpy t s).listing = s.listing := rfl

/-! ### The row buffers written (10_state.md R49). -/

@[simp] theorem setBuffers_srcBase (b : RowBuffers) : (setBuffers b s).srcBase = s.srcBase := rfl
@[simp] theorem setBuffers_srcWidth (b : RowBuffers) : (setBuffers b s).srcWidth = s.srcWidth := rfl
@[simp] theorem setBuffers_srcHeight (b : RowBuffers) : (setBuffers b s).srcHeight = s.srcHeight := rfl
@[simp] theorem setBuffers_srcStride (b : RowBuffers) : (setBuffers b s).srcStride = s.srcStride := rfl
@[simp] theorem setBuffers_dstBase (b : RowBuffers) : (setBuffers b s).dstBase = s.dstBase := rfl
@[simp] theorem setBuffers_dstWidth (b : RowBuffers) : (setBuffers b s).dstWidth = s.dstWidth := rfl
@[simp] theorem setBuffers_dstHeight (b : RowBuffers) : (setBuffers b s).dstHeight = s.dstHeight := rfl
@[simp] theorem setBuffers_dstStride (b : RowBuffers) : (setBuffers b s).dstStride = s.dstStride := rfl
@[simp] theorem setBuffers_channels (b : RowBuffers) : (setBuffers b s).channels = s.channels := rfl
@[simp] theorem setBuffers_tabSel (b : RowBuffers) : (setBuffers b s).tabSel = s.tabSel := rfl
@[simp] theorem setBuffers_tabIdx (b : RowBuffers) : (setBuffers b s).tabIdx = s.tabIdx := rfl
@[simp] theorem setBuffers_done (b : RowBuffers) : (setBuffers b s).done = s.done := rfl
@[simp] theorem setBuffers_err (b : RowBuffers) : (setBuffers b s).err = s.err := rfl
@[simp] theorem setBuffers_path (b : RowBuffers) : (setBuffers b s).path = s.path := rfl
@[simp] theorem setBuffers_iscaleX (b : RowBuffers) : (setBuffers b s).iscaleX = s.iscaleX := rfl
@[simp] theorem setBuffers_iscaleY (b : RowBuffers) : (setBuffers b s).iscaleY = s.iscaleY := rfl
@[simp] theorem setBuffers_xtabCount (b : RowBuffers) : (setBuffers b s).xtabCount = s.xtabCount := rfl
@[simp] theorem setBuffers_ytabCount (b : RowBuffers) : (setBuffers b s).ytabCount = s.ytabCount := rfl
@[simp] theorem setBuffers_ygrpCount (b : RowBuffers) : (setBuffers b s).ygrpCount = s.ygrpCount := rfl
@[simp] theorem setBuffers_fpxCount (b : RowBuffers) : (setBuffers b s).fpxCount = s.fpxCount := rfl
@[simp] theorem setBuffers_fpyCount (b : RowBuffers) : (setBuffers b s).fpyCount = s.fpyCount := rfl
@[simp] theorem setBuffers_xtab (b : RowBuffers) : (setBuffers b s).xtab = s.xtab := rfl
@[simp] theorem setBuffers_ytab (b : RowBuffers) : (setBuffers b s).ytab = s.ytab := rfl
@[simp] theorem setBuffers_ygrp (b : RowBuffers) : (setBuffers b s).ygrp = s.ygrp := rfl
@[simp] theorem setBuffers_fpx (b : RowBuffers) : (setBuffers b s).fpx = s.fpx := rfl
@[simp] theorem setBuffers_fpy (b : RowBuffers) : (setBuffers b s).fpy = s.fpy := rfl
@[simp] theorem setBuffers_scratch (b : RowBuffers) : (setBuffers b s).scratch = overlay b.scratch s.scratch := rfl
@[simp] theorem setBuffers_acc (b : RowBuffers) : (setBuffers b s).acc = overlay b.acc s.acc := rfl
@[simp] theorem setBuffers_mem (b : RowBuffers) : (setBuffers b s).mem = s.mem := rfl
@[simp] theorem setBuffers_script (b : RowBuffers) : (setBuffers b s).script = s.script := rfl
@[simp] theorem setBuffers_listing (b : RowBuffers) : (setBuffers b s).listing = s.listing := rfl

/-! ### A value read by the host (30_encoding.md R90). -/

@[simp] theorem record_srcBase (v : ReadValue) : (record v s).srcBase = s.srcBase := rfl
@[simp] theorem record_srcWidth (v : ReadValue) : (record v s).srcWidth = s.srcWidth := rfl
@[simp] theorem record_srcHeight (v : ReadValue) : (record v s).srcHeight = s.srcHeight := rfl
@[simp] theorem record_srcStride (v : ReadValue) : (record v s).srcStride = s.srcStride := rfl
@[simp] theorem record_dstBase (v : ReadValue) : (record v s).dstBase = s.dstBase := rfl
@[simp] theorem record_dstWidth (v : ReadValue) : (record v s).dstWidth = s.dstWidth := rfl
@[simp] theorem record_dstHeight (v : ReadValue) : (record v s).dstHeight = s.dstHeight := rfl
@[simp] theorem record_dstStride (v : ReadValue) : (record v s).dstStride = s.dstStride := rfl
@[simp] theorem record_channels (v : ReadValue) : (record v s).channels = s.channels := rfl
@[simp] theorem record_tabSel (v : ReadValue) : (record v s).tabSel = s.tabSel := rfl
@[simp] theorem record_tabIdx (v : ReadValue) : (record v s).tabIdx = s.tabIdx := rfl
@[simp] theorem record_done (v : ReadValue) : (record v s).done = s.done := rfl
@[simp] theorem record_err (v : ReadValue) : (record v s).err = s.err := rfl
@[simp] theorem record_path (v : ReadValue) : (record v s).path = s.path := rfl
@[simp] theorem record_iscaleX (v : ReadValue) : (record v s).iscaleX = s.iscaleX := rfl
@[simp] theorem record_iscaleY (v : ReadValue) : (record v s).iscaleY = s.iscaleY := rfl
@[simp] theorem record_xtabCount (v : ReadValue) : (record v s).xtabCount = s.xtabCount := rfl
@[simp] theorem record_ytabCount (v : ReadValue) : (record v s).ytabCount = s.ytabCount := rfl
@[simp] theorem record_ygrpCount (v : ReadValue) : (record v s).ygrpCount = s.ygrpCount := rfl
@[simp] theorem record_fpxCount (v : ReadValue) : (record v s).fpxCount = s.fpxCount := rfl
@[simp] theorem record_fpyCount (v : ReadValue) : (record v s).fpyCount = s.fpyCount := rfl
@[simp] theorem record_xtab (v : ReadValue) : (record v s).xtab = s.xtab := rfl
@[simp] theorem record_ytab (v : ReadValue) : (record v s).ytab = s.ytab := rfl
@[simp] theorem record_ygrp (v : ReadValue) : (record v s).ygrp = s.ygrp := rfl
@[simp] theorem record_fpx (v : ReadValue) : (record v s).fpx = s.fpx := rfl
@[simp] theorem record_fpy (v : ReadValue) : (record v s).fpy = s.fpy := rfl
@[simp] theorem record_scratch (v : ReadValue) : (record v s).scratch = s.scratch := rfl
@[simp] theorem record_acc (v : ReadValue) : (record v s).acc = s.acc := rfl
@[simp] theorem record_mem (v : ReadValue) : (record v s).mem = s.mem := rfl
@[simp] theorem record_script (v : ReadValue) : (record v s).script = s.script := rfl
@[simp] theorem record_listing (v : ReadValue) : (record v s).listing = v :: s.listing := rfl

/-! ### Data memory written (20_memory.md R60). -/

@[simp] theorem setMemory_srcBase (m : Memory) : (({ s with mem := m } : State)).srcBase = s.srcBase := rfl
@[simp] theorem setMemory_srcWidth (m : Memory) : (({ s with mem := m } : State)).srcWidth = s.srcWidth := rfl
@[simp] theorem setMemory_srcHeight (m : Memory) : (({ s with mem := m } : State)).srcHeight = s.srcHeight := rfl
@[simp] theorem setMemory_srcStride (m : Memory) : (({ s with mem := m } : State)).srcStride = s.srcStride := rfl
@[simp] theorem setMemory_dstBase (m : Memory) : (({ s with mem := m } : State)).dstBase = s.dstBase := rfl
@[simp] theorem setMemory_dstWidth (m : Memory) : (({ s with mem := m } : State)).dstWidth = s.dstWidth := rfl
@[simp] theorem setMemory_dstHeight (m : Memory) : (({ s with mem := m } : State)).dstHeight = s.dstHeight := rfl
@[simp] theorem setMemory_dstStride (m : Memory) : (({ s with mem := m } : State)).dstStride = s.dstStride := rfl
@[simp] theorem setMemory_channels (m : Memory) : (({ s with mem := m } : State)).channels = s.channels := rfl
@[simp] theorem setMemory_tabSel (m : Memory) : (({ s with mem := m } : State)).tabSel = s.tabSel := rfl
@[simp] theorem setMemory_tabIdx (m : Memory) : (({ s with mem := m } : State)).tabIdx = s.tabIdx := rfl
@[simp] theorem setMemory_done (m : Memory) : (({ s with mem := m } : State)).done = s.done := rfl
@[simp] theorem setMemory_err (m : Memory) : (({ s with mem := m } : State)).err = s.err := rfl
@[simp] theorem setMemory_path (m : Memory) : (({ s with mem := m } : State)).path = s.path := rfl
@[simp] theorem setMemory_iscaleX (m : Memory) : (({ s with mem := m } : State)).iscaleX = s.iscaleX := rfl
@[simp] theorem setMemory_iscaleY (m : Memory) : (({ s with mem := m } : State)).iscaleY = s.iscaleY := rfl
@[simp] theorem setMemory_xtabCount (m : Memory) : (({ s with mem := m } : State)).xtabCount = s.xtabCount := rfl
@[simp] theorem setMemory_ytabCount (m : Memory) : (({ s with mem := m } : State)).ytabCount = s.ytabCount := rfl
@[simp] theorem setMemory_ygrpCount (m : Memory) : (({ s with mem := m } : State)).ygrpCount = s.ygrpCount := rfl
@[simp] theorem setMemory_fpxCount (m : Memory) : (({ s with mem := m } : State)).fpxCount = s.fpxCount := rfl
@[simp] theorem setMemory_fpyCount (m : Memory) : (({ s with mem := m } : State)).fpyCount = s.fpyCount := rfl
@[simp] theorem setMemory_xtab (m : Memory) : (({ s with mem := m } : State)).xtab = s.xtab := rfl
@[simp] theorem setMemory_ytab (m : Memory) : (({ s with mem := m } : State)).ytab = s.ytab := rfl
@[simp] theorem setMemory_ygrp (m : Memory) : (({ s with mem := m } : State)).ygrp = s.ygrp := rfl
@[simp] theorem setMemory_fpx (m : Memory) : (({ s with mem := m } : State)).fpx = s.fpx := rfl
@[simp] theorem setMemory_fpy (m : Memory) : (({ s with mem := m } : State)).fpy = s.fpy := rfl
@[simp] theorem setMemory_scratch (m : Memory) : (({ s with mem := m } : State)).scratch = s.scratch := rfl
@[simp] theorem setMemory_acc (m : Memory) : (({ s with mem := m } : State)).acc = s.acc := rfl
@[simp] theorem setMemory_mem (m : Memory) : (({ s with mem := m } : State)).mem = m := rfl
@[simp] theorem setMemory_script (m : Memory) : (({ s with mem := m } : State)).script = s.script := rfl
@[simp] theorem setMemory_listing (m : Memory) : (({ s with mem := m } : State)).listing = s.listing := rfl

/-! ### An access taken off the host's script (00_scope.md R19). -/

@[simp] theorem setScript_srcBase (l : List BusAccess) : (({ s with script := l } : State)).srcBase = s.srcBase := rfl
@[simp] theorem setScript_srcWidth (l : List BusAccess) : (({ s with script := l } : State)).srcWidth = s.srcWidth := rfl
@[simp] theorem setScript_srcHeight (l : List BusAccess) : (({ s with script := l } : State)).srcHeight = s.srcHeight := rfl
@[simp] theorem setScript_srcStride (l : List BusAccess) : (({ s with script := l } : State)).srcStride = s.srcStride := rfl
@[simp] theorem setScript_dstBase (l : List BusAccess) : (({ s with script := l } : State)).dstBase = s.dstBase := rfl
@[simp] theorem setScript_dstWidth (l : List BusAccess) : (({ s with script := l } : State)).dstWidth = s.dstWidth := rfl
@[simp] theorem setScript_dstHeight (l : List BusAccess) : (({ s with script := l } : State)).dstHeight = s.dstHeight := rfl
@[simp] theorem setScript_dstStride (l : List BusAccess) : (({ s with script := l } : State)).dstStride = s.dstStride := rfl
@[simp] theorem setScript_channels (l : List BusAccess) : (({ s with script := l } : State)).channels = s.channels := rfl
@[simp] theorem setScript_tabSel (l : List BusAccess) : (({ s with script := l } : State)).tabSel = s.tabSel := rfl
@[simp] theorem setScript_tabIdx (l : List BusAccess) : (({ s with script := l } : State)).tabIdx = s.tabIdx := rfl
@[simp] theorem setScript_done (l : List BusAccess) : (({ s with script := l } : State)).done = s.done := rfl
@[simp] theorem setScript_err (l : List BusAccess) : (({ s with script := l } : State)).err = s.err := rfl
@[simp] theorem setScript_path (l : List BusAccess) : (({ s with script := l } : State)).path = s.path := rfl
@[simp] theorem setScript_iscaleX (l : List BusAccess) : (({ s with script := l } : State)).iscaleX = s.iscaleX := rfl
@[simp] theorem setScript_iscaleY (l : List BusAccess) : (({ s with script := l } : State)).iscaleY = s.iscaleY := rfl
@[simp] theorem setScript_xtabCount (l : List BusAccess) : (({ s with script := l } : State)).xtabCount = s.xtabCount := rfl
@[simp] theorem setScript_ytabCount (l : List BusAccess) : (({ s with script := l } : State)).ytabCount = s.ytabCount := rfl
@[simp] theorem setScript_ygrpCount (l : List BusAccess) : (({ s with script := l } : State)).ygrpCount = s.ygrpCount := rfl
@[simp] theorem setScript_fpxCount (l : List BusAccess) : (({ s with script := l } : State)).fpxCount = s.fpxCount := rfl
@[simp] theorem setScript_fpyCount (l : List BusAccess) : (({ s with script := l } : State)).fpyCount = s.fpyCount := rfl
@[simp] theorem setScript_xtab (l : List BusAccess) : (({ s with script := l } : State)).xtab = s.xtab := rfl
@[simp] theorem setScript_ytab (l : List BusAccess) : (({ s with script := l } : State)).ytab = s.ytab := rfl
@[simp] theorem setScript_ygrp (l : List BusAccess) : (({ s with script := l } : State)).ygrp = s.ygrp := rfl
@[simp] theorem setScript_fpx (l : List BusAccess) : (({ s with script := l } : State)).fpx = s.fpx := rfl
@[simp] theorem setScript_fpy (l : List BusAccess) : (({ s with script := l } : State)).fpy = s.fpy := rfl
@[simp] theorem setScript_scratch (l : List BusAccess) : (({ s with script := l } : State)).scratch = s.scratch := rfl
@[simp] theorem setScript_acc (l : List BusAccess) : (({ s with script := l } : State)).acc = s.acc := rfl
@[simp] theorem setScript_mem (l : List BusAccess) : (({ s with script := l } : State)).mem = s.mem := rfl
@[simp] theorem setScript_script (l : List BusAccess) : (({ s with script := l } : State)).script = l := rfl
@[simp] theorem setScript_listing (l : List BusAccess) : (({ s with script := l } : State)).listing = s.listing := rfl

/-! ### The integer scales written (10_state.md R40). -/

@[simp] theorem setScales_srcBase (x y : Word) : (({ s with iscaleX := x, iscaleY := y } : State)).srcBase = s.srcBase := rfl
@[simp] theorem setScales_srcWidth (x y : Word) : (({ s with iscaleX := x, iscaleY := y } : State)).srcWidth = s.srcWidth := rfl
@[simp] theorem setScales_srcHeight (x y : Word) : (({ s with iscaleX := x, iscaleY := y } : State)).srcHeight = s.srcHeight := rfl
@[simp] theorem setScales_srcStride (x y : Word) : (({ s with iscaleX := x, iscaleY := y } : State)).srcStride = s.srcStride := rfl
@[simp] theorem setScales_dstBase (x y : Word) : (({ s with iscaleX := x, iscaleY := y } : State)).dstBase = s.dstBase := rfl
@[simp] theorem setScales_dstWidth (x y : Word) : (({ s with iscaleX := x, iscaleY := y } : State)).dstWidth = s.dstWidth := rfl
@[simp] theorem setScales_dstHeight (x y : Word) : (({ s with iscaleX := x, iscaleY := y } : State)).dstHeight = s.dstHeight := rfl
@[simp] theorem setScales_dstStride (x y : Word) : (({ s with iscaleX := x, iscaleY := y } : State)).dstStride = s.dstStride := rfl
@[simp] theorem setScales_channels (x y : Word) : (({ s with iscaleX := x, iscaleY := y } : State)).channels = s.channels := rfl
@[simp] theorem setScales_tabSel (x y : Word) : (({ s with iscaleX := x, iscaleY := y } : State)).tabSel = s.tabSel := rfl
@[simp] theorem setScales_tabIdx (x y : Word) : (({ s with iscaleX := x, iscaleY := y } : State)).tabIdx = s.tabIdx := rfl
@[simp] theorem setScales_done (x y : Word) : (({ s with iscaleX := x, iscaleY := y } : State)).done = s.done := rfl
@[simp] theorem setScales_err (x y : Word) : (({ s with iscaleX := x, iscaleY := y } : State)).err = s.err := rfl
@[simp] theorem setScales_path (x y : Word) : (({ s with iscaleX := x, iscaleY := y } : State)).path = s.path := rfl
@[simp] theorem setScales_iscaleX (x y : Word) : (({ s with iscaleX := x, iscaleY := y } : State)).iscaleX = x := rfl
@[simp] theorem setScales_iscaleY (x y : Word) : (({ s with iscaleX := x, iscaleY := y } : State)).iscaleY = y := rfl
@[simp] theorem setScales_xtabCount (x y : Word) : (({ s with iscaleX := x, iscaleY := y } : State)).xtabCount = s.xtabCount := rfl
@[simp] theorem setScales_ytabCount (x y : Word) : (({ s with iscaleX := x, iscaleY := y } : State)).ytabCount = s.ytabCount := rfl
@[simp] theorem setScales_ygrpCount (x y : Word) : (({ s with iscaleX := x, iscaleY := y } : State)).ygrpCount = s.ygrpCount := rfl
@[simp] theorem setScales_fpxCount (x y : Word) : (({ s with iscaleX := x, iscaleY := y } : State)).fpxCount = s.fpxCount := rfl
@[simp] theorem setScales_fpyCount (x y : Word) : (({ s with iscaleX := x, iscaleY := y } : State)).fpyCount = s.fpyCount := rfl
@[simp] theorem setScales_xtab (x y : Word) : (({ s with iscaleX := x, iscaleY := y } : State)).xtab = s.xtab := rfl
@[simp] theorem setScales_ytab (x y : Word) : (({ s with iscaleX := x, iscaleY := y } : State)).ytab = s.ytab := rfl
@[simp] theorem setScales_ygrp (x y : Word) : (({ s with iscaleX := x, iscaleY := y } : State)).ygrp = s.ygrp := rfl
@[simp] theorem setScales_fpx (x y : Word) : (({ s with iscaleX := x, iscaleY := y } : State)).fpx = s.fpx := rfl
@[simp] theorem setScales_fpy (x y : Word) : (({ s with iscaleX := x, iscaleY := y } : State)).fpy = s.fpy := rfl
@[simp] theorem setScales_scratch (x y : Word) : (({ s with iscaleX := x, iscaleY := y } : State)).scratch = s.scratch := rfl
@[simp] theorem setScales_acc (x y : Word) : (({ s with iscaleX := x, iscaleY := y } : State)).acc = s.acc := rfl
@[simp] theorem setScales_mem (x y : Word) : (({ s with iscaleX := x, iscaleY := y } : State)).mem = s.mem := rfl
@[simp] theorem setScales_script (x y : Word) : (({ s with iscaleX := x, iscaleY := y } : State)).script = s.script := rfl
@[simp] theorem setScales_listing (x y : Word) : (({ s with iscaleX := x, iscaleY := y } : State)).listing = s.listing := rfl

/-! ### The platform's reset (70_reset_and_hazards.md R220). -/

@[simp] theorem platformReset_srcBase : (platformReset s).srcBase = 0 := rfl
@[simp] theorem platformReset_srcWidth : (platformReset s).srcWidth = 0 := rfl
@[simp] theorem platformReset_srcHeight : (platformReset s).srcHeight = 0 := rfl
@[simp] theorem platformReset_srcStride : (platformReset s).srcStride = 0 := rfl
@[simp] theorem platformReset_dstBase : (platformReset s).dstBase = 0 := rfl
@[simp] theorem platformReset_dstWidth : (platformReset s).dstWidth = 0 := rfl
@[simp] theorem platformReset_dstHeight : (platformReset s).dstHeight = 0 := rfl
@[simp] theorem platformReset_dstStride : (platformReset s).dstStride = 0 := rfl
@[simp] theorem platformReset_channels : (platformReset s).channels = 0 := rfl
@[simp] theorem platformReset_tabSel : (platformReset s).tabSel = 0 := rfl
@[simp] theorem platformReset_tabIdx : (platformReset s).tabIdx = 0 := rfl
@[simp] theorem platformReset_done : (platformReset s).done = false := rfl
@[simp] theorem platformReset_err : (platformReset s).err = .ok := rfl
@[simp] theorem platformReset_path : (platformReset s).path = .noPath := rfl
@[simp] theorem platformReset_iscaleX : (platformReset s).iscaleX = 0 := rfl
@[simp] theorem platformReset_iscaleY : (platformReset s).iscaleY = 0 := rfl
@[simp] theorem platformReset_xtabCount : (platformReset s).xtabCount = 0 := rfl
@[simp] theorem platformReset_ytabCount : (platformReset s).ytabCount = 0 := rfl
@[simp] theorem platformReset_ygrpCount : (platformReset s).ygrpCount = 0 := rfl
@[simp] theorem platformReset_fpxCount : (platformReset s).fpxCount = 0 := rfl
@[simp] theorem platformReset_fpyCount : (platformReset s).fpyCount = 0 := rfl
@[simp] theorem platformReset_xtab : (platformReset s).xtab = s.xtab := rfl
@[simp] theorem platformReset_ytab : (platformReset s).ytab = s.ytab := rfl
@[simp] theorem platformReset_ygrp : (platformReset s).ygrp = s.ygrp := rfl
@[simp] theorem platformReset_fpx : (platformReset s).fpx = s.fpx := rfl
@[simp] theorem platformReset_fpy : (platformReset s).fpy = s.fpy := rfl
@[simp] theorem platformReset_scratch : (platformReset s).scratch = s.scratch := rfl
@[simp] theorem platformReset_acc : (platformReset s).acc = s.acc := rfl
@[simp] theorem platformReset_mem : (platformReset s).mem = s.mem := rfl
@[simp] theorem platformReset_script : (platformReset s).script = s.script := rfl
@[simp] theorem platformReset_listing : (platformReset s).listing = s.listing := rfl

/-! ### A register write (10_state.md R22): a field keeps its value unless it is the register written. -/

@[simp] theorem writeReg_srcBase (r : Reg) (v : Word) : (writeReg r v s).srcBase = if r = .srcBase then v else s.srcBase := by
  cases r <;> rfl
@[simp] theorem writeReg_srcWidth (r : Reg) (v : Word) : (writeReg r v s).srcWidth = if r = .srcWidth then v else s.srcWidth := by
  cases r <;> rfl
@[simp] theorem writeReg_srcHeight (r : Reg) (v : Word) : (writeReg r v s).srcHeight = if r = .srcHeight then v else s.srcHeight := by
  cases r <;> rfl
@[simp] theorem writeReg_srcStride (r : Reg) (v : Word) : (writeReg r v s).srcStride = if r = .srcStride then v else s.srcStride := by
  cases r <;> rfl
@[simp] theorem writeReg_dstBase (r : Reg) (v : Word) : (writeReg r v s).dstBase = if r = .dstBase then v else s.dstBase := by
  cases r <;> rfl
@[simp] theorem writeReg_dstWidth (r : Reg) (v : Word) : (writeReg r v s).dstWidth = if r = .dstWidth then v else s.dstWidth := by
  cases r <;> rfl
@[simp] theorem writeReg_dstHeight (r : Reg) (v : Word) : (writeReg r v s).dstHeight = if r = .dstHeight then v else s.dstHeight := by
  cases r <;> rfl
@[simp] theorem writeReg_dstStride (r : Reg) (v : Word) : (writeReg r v s).dstStride = if r = .dstStride then v else s.dstStride := by
  cases r <;> rfl
@[simp] theorem writeReg_channels (r : Reg) (v : Word) : (writeReg r v s).channels = if r = .channels then v else s.channels := by
  cases r <;> rfl
@[simp] theorem writeReg_tabSel (r : Reg) (v : Word) : (writeReg r v s).tabSel = if r = .tabSel then v else s.tabSel := by
  cases r <;> rfl
@[simp] theorem writeReg_tabIdx (r : Reg) (v : Word) : (writeReg r v s).tabIdx = if r = .tabIdx then v else s.tabIdx := by
  cases r <;> rfl
@[simp] theorem writeReg_done (r : Reg) (v : Word) : (writeReg r v s).done = s.done := by cases r <;> rfl
@[simp] theorem writeReg_err (r : Reg) (v : Word) : (writeReg r v s).err = s.err := by cases r <;> rfl
@[simp] theorem writeReg_path (r : Reg) (v : Word) : (writeReg r v s).path = s.path := by cases r <;> rfl
@[simp] theorem writeReg_iscaleX (r : Reg) (v : Word) : (writeReg r v s).iscaleX = s.iscaleX := by cases r <;> rfl
@[simp] theorem writeReg_iscaleY (r : Reg) (v : Word) : (writeReg r v s).iscaleY = s.iscaleY := by cases r <;> rfl
@[simp] theorem writeReg_xtabCount (r : Reg) (v : Word) : (writeReg r v s).xtabCount = s.xtabCount := by cases r <;> rfl
@[simp] theorem writeReg_ytabCount (r : Reg) (v : Word) : (writeReg r v s).ytabCount = s.ytabCount := by cases r <;> rfl
@[simp] theorem writeReg_ygrpCount (r : Reg) (v : Word) : (writeReg r v s).ygrpCount = s.ygrpCount := by cases r <;> rfl
@[simp] theorem writeReg_fpxCount (r : Reg) (v : Word) : (writeReg r v s).fpxCount = s.fpxCount := by cases r <;> rfl
@[simp] theorem writeReg_fpyCount (r : Reg) (v : Word) : (writeReg r v s).fpyCount = s.fpyCount := by cases r <;> rfl
@[simp] theorem writeReg_xtab (r : Reg) (v : Word) : (writeReg r v s).xtab = s.xtab := by cases r <;> rfl
@[simp] theorem writeReg_ytab (r : Reg) (v : Word) : (writeReg r v s).ytab = s.ytab := by cases r <;> rfl
@[simp] theorem writeReg_ygrp (r : Reg) (v : Word) : (writeReg r v s).ygrp = s.ygrp := by cases r <;> rfl
@[simp] theorem writeReg_fpx (r : Reg) (v : Word) : (writeReg r v s).fpx = s.fpx := by cases r <;> rfl
@[simp] theorem writeReg_fpy (r : Reg) (v : Word) : (writeReg r v s).fpy = s.fpy := by cases r <;> rfl
@[simp] theorem writeReg_scratch (r : Reg) (v : Word) : (writeReg r v s).scratch = s.scratch := by cases r <;> rfl
@[simp] theorem writeReg_acc (r : Reg) (v : Word) : (writeReg r v s).acc = s.acc := by cases r <;> rfl
@[simp] theorem writeReg_mem (r : Reg) (v : Word) : (writeReg r v s).mem = s.mem := by cases r <;> rfl
@[simp] theorem writeReg_script (r : Reg) (v : Word) : (writeReg r v s).script = s.script := by cases r <;> rfl
@[simp] theorem writeReg_listing (r : Reg) (v : Word) : (writeReg r v s).listing = s.listing := by cases r <;> rfl

end

end Sys2Proof.Machine
end

