-- ==== Sys2Proof/Laws/WeightTable.lean ====
section
/-! SUPPORT. The weight table builder (41_weight_table.md R121 to R126): the intervals on the rationals, the offsets of
the entries, and that the defensive raise of R126 never happens for `1 <= dst <= src`. -/

namespace Sys2Proof.Machine

/-- The lengths a command runs the builder at (40_command_common.md R103, R106; 00_scope.md R7). -/
structure BuildLengths (src dst : ℕ) : Prop where
  dst_pos : 1 ≤ dst
  dst_le : dst ≤ src
  src_lt : src < 2 ^ 19

/-- The value of the scale of a build. -/
def scaleQ (src dst : ℕ) : ℚ := dVal (scaleOf (src : ℤ) (dst : ℤ))

section
variable {src dst : ℕ}

theorem BuildLengths.scale_fin (h : BuildLengths src dst) : dFin (scaleOf (src : ℤ) (dst : ℤ)) := by
  obtain ⟨h1, h2, h3⟩ := h
  exact (scaleOf_val (by omega) (by omega) (by omega) (by omega)).1

theorem BuildLengths.scale_ge_one (h : BuildLengths src dst) : 1 ≤ scaleQ src dst := by
  obtain ⟨h1, h2, h3⟩ := h
  have := (scaleAtLeastOne_iff (a := (src : ℤ)) (b := (dst : ℤ)) (by omega) (by omega) (by omega) (by omega)).mpr
    (by omega)
  unfold scaleAtLeastOne at this
  rw [f64Le_iff one_val.1 (scaleOf_val (by omega) (by omega) (by omega) (by omega)).1, one_val.2] at this
  exact this

theorem BuildLengths.scale_close (h : BuildLengths src dst) :
    |scaleQ src dst - (src : ℚ) / dst| ≤ (src : ℚ) / dst / 2 ^ 53 := by
  obtain ⟨h1, h2, h3⟩ := h
  have := scale_error (a := (src : ℤ)) (b := (dst : ℤ)) (by omega) (by omega) (by omega) (by omega)
  simpa [scaleQ] using this

theorem BuildLengths.src_bounds (h : BuildLengths src dst) : (1 : ℚ) ≤ src ∧ (src : ℚ) < 2 ^ 19 := by
  obtain ⟨h1, h2, h3⟩ := h
  constructor
  · exact_mod_cast (by omega : 1 ≤ src)
  · exact_mod_cast h3

/-- `dx * scale` stays within `2^-34` of the exact `dx * src / dst`. -/
theorem BuildLengths.product_close (h : BuildLengths src dst) {dx : ℕ} (hdx : dx ≤ dst) :
    |dx * scaleQ src dst - dx * ((src : ℚ) / dst)| ≤ 1 / 2 ^ 34 ∧ dx * ((src : ℚ) / dst) ≤ src := by
  have hc := h.scale_close
  obtain ⟨s1, s2⟩ := h.src_bounds
  have d0 : (0 : ℚ) < dst := by exact_mod_cast h.dst_pos
  have hx : (dx : ℚ) ≤ dst := by exact_mod_cast hdx
  have hx0 : (0 : ℚ) ≤ dx := by positivity
  have hle : dx * ((src : ℚ) / dst) ≤ src := by
    rw [← mul_div_assoc, div_le_iff₀ d0, mul_comm]
    exact mul_le_mul_of_nonneg_left hx (by linarith)
  refine ⟨?_, hle⟩
  rw [← mul_sub, abs_mul, abs_of_nonneg hx0]
  calc (dx : ℚ) * |scaleQ src dst - (src : ℚ) / dst| ≤ dx * ((src : ℚ) / dst / 2 ^ 53) :=
        mul_le_mul_of_nonneg_left hc hx0
    _ = dx * ((src : ℚ) / dst) / 2 ^ 53 := by ring
    _ ≤ 2 ^ 19 / 2 ^ 53 := by
        apply div_le_div_of_nonneg_right _ (by positivity); linarith
    _ = 1 / 2 ^ 34 := by norm_num

/-- `fsx1` of a destination index (41_weight_table.md R121) as a rational. -/
def fsx1Q (src dst dx : ℕ) : ℚ := rnd64 (dx * scaleQ src dst)

/-- `fsx2` of a destination index (41_weight_table.md R121) as a rational. -/
def fsx2Q (src dst dx : ℕ) : ℚ := rnd64 (fsx1Q src dst dx + scaleQ src dst)

theorem abs_rnd_error {q : ℚ} (h0 : 0 ≤ q) (h1 : q = 0 ∨ 1 ≤ q) (h2 : q ≤ 2 ^ 20) :
    |rnd64 q - q| ≤ 1 / 2 ^ 33 := by
  refine (rnd64_error ?_).trans ?_
  · rcases h1 with h | h
    · exact .inl h
    · right
      rw [abs_of_nonneg h0]
      have : (1 : ℚ) / 2 ^ 100 ≤ 1 := by norm_num
      linarith
  · rw [abs_of_nonneg h0]
    calc q / 2 ^ 53 ≤ 2 ^ 20 / 2 ^ 53 := div_le_div_of_nonneg_right h2 (by positivity)
      _ = 1 / 2 ^ 33 := by norm_num

theorem BuildLengths.product_cases (h : BuildLengths src dst) (dx : ℕ) :
    0 ≤ dx * scaleQ src dst ∧ (dx * scaleQ src dst = 0 ∨ 1 ≤ dx * scaleQ src dst) := by
  have hs := h.scale_ge_one
  refine ⟨mul_nonneg (by positivity) (by linarith), ?_⟩
  rcases Nat.eq_zero_or_pos dx with h0 | h0
  · left; simp [h0]
  · right
    have : (1 : ℚ) ≤ dx := by exact_mod_cast h0
    nlinarith

theorem BuildLengths.product_le (h : BuildLengths src dst) {dx : ℕ} (hdx : dx ≤ dst) :
    dx * scaleQ src dst ≤ src + 1 / 2 ^ 34 := by
  obtain ⟨h1, h2⟩ := h.product_close hdx
  have := (abs_le.mp h1).2
  linarith

theorem BuildLengths.scale_le (h : BuildLengths src dst) : scaleQ src dst ≤ src + 1 / 2 ^ 34 := by
  have := h.product_le (dx := 1) h.dst_pos
  simpa using this

theorem BuildLengths.fsx1_close (h : BuildLengths src dst) {dx : ℕ} (hdx : dx ≤ dst) :
    |fsx1Q src dst dx - dx * scaleQ src dst| ≤ 1 / 2 ^ 33 := by
  obtain ⟨p1, p2⟩ := h.product_cases dx
  obtain ⟨s1, s2⟩ := h.src_bounds
  refine abs_rnd_error p1 p2 ?_
  have h3 := h.product_le hdx
  have : (2 : ℚ) ^ 19 + 1 / 2 ^ 34 ≤ 2 ^ 20 := by norm_num
  linarith

theorem BuildLengths.fsx1_nonneg (h : BuildLengths src dst) (dx : ℕ) : 0 ≤ fsx1Q src dst dx :=
  rnd64_nonneg (h.product_cases dx).1

/-- The start of a cell lies at least almost 1 before the end of the source (41_weight_table.md R121). -/
theorem BuildLengths.fsx1_le (h : BuildLengths src dst) {dx : ℕ} (hdx : dx < dst) :
    fsx1Q src dst dx ≤ src - 1 + 1 / 2 ^ 32 := by
  have h1 := (abs_le.mp (h.fsx1_close hdx.le)).2
  have h2 := (abs_le.mp (h.product_close hdx.le).1).2
  have d0 : (0 : ℚ) < dst := by exact_mod_cast h.dst_pos
  have hx : (dx : ℚ) + 1 ≤ dst := by exact_mod_cast hdx
  have hle : dx * ((src : ℚ) / dst) ≤ src - 1 := by
    have hsd : (dst : ℚ) ≤ src := by exact_mod_cast h.dst_le
    rw [← mul_div_assoc, div_le_iff₀ d0]
    nlinarith
  have e : (1 : ℚ) / 2 ^ 33 + 1 / 2 ^ 34 ≤ 1 / 2 ^ 32 := by norm_num
  linarith

theorem BuildLengths.fsx2_close (h : BuildLengths src dst) {dx : ℕ} (hdx : dx < dst) :
    |fsx2Q src dst dx - (fsx1Q src dst dx + scaleQ src dst)| ≤ 1 / 2 ^ 33 := by
  have hs := h.scale_ge_one
  have h0 := h.fsx1_nonneg dx
  have h1 := h.fsx1_le hdx
  have h2 := h.scale_le
  obtain ⟨s1, s2⟩ := h.src_bounds
  refine abs_rnd_error (by linarith) (.inr (by linarith)) ?_
  have e : (1 : ℚ) / 2 ^ 32 + 1 / 2 ^ 34 ≤ 1 := by norm_num
  have e2 : (2 : ℚ) ^ 19 + 2 ^ 19 = 2 ^ 20 := by norm_num
  linarith

/-- The end of a cell and the start of the next differ by rounding only. -/
theorem BuildLengths.cells_meet (h : BuildLengths src dst) {dx : ℕ} (hdx : dx + 1 < dst) :
    |fsx2Q src dst dx - fsx1Q src dst (dx + 1)| ≤ 1 / 2 ^ 31 := by
  have h1 := abs_le.mp (h.fsx2_close (by omega : dx < dst))
  have h2 := abs_le.mp (h.fsx1_close (by omega : dx ≤ dst))
  have h3 := abs_le.mp (h.fsx1_close (by omega : dx + 1 ≤ dst))
  have e : (1 : ℚ) / 2 ^ 33 + 1 / 2 ^ 33 + 1 / 2 ^ 33 ≤ 1 / 2 ^ 31 := by norm_num
  push_cast at h3
  rw [abs_le]
  constructor <;> linarith

/-- A cell reaches past its start by at least almost 1. -/
theorem BuildLengths.fsx2_ge (h : BuildLengths src dst) {dx : ℕ} (hdx : dx < dst) :
    fsx1Q src dst dx + scaleQ src dst - 1 / 2 ^ 33 ≤ fsx2Q src dst dx := by
  have := (abs_le.mp (h.fsx2_close hdx)).1
  linarith

/-- The interval of a destination index (41_weight_table.md R121), on the rationals. -/
theorem BuildLengths.interval_val (h : BuildLengths src dst) {dx : ℕ} (hdx : dx < dst) :
    let v := interval src (scaleOf (src : ℤ) (dst : ℤ)) dx
    dFin v.fsx1 ∧ dVal v.fsx1 = fsx1Q src dst dx ∧ dFin v.fsx2 ∧ dVal v.fsx2 = fsx2Q src dst dx ∧
    dFin v.cw ∧ dVal v.cw = min (scaleQ src dst) (rnd64 (src - fsx1Q src dst dx)) ∧
    v.sx2 = min ⌊fsx2Q src dst dx⌋ ((src : ℤ) - 1) ∧ v.sx1 = min ⌈fsx1Q src dst dx⌉ v.sx2 := by
  obtain ⟨s1, s2⟩ := h.src_bounds
  have hs := h.scale_ge_one
  have hsl := h.scale_le
  have hf0 := h.fsx1_nonneg dx
  have hf1 := h.fsx1_le hdx
  have hp := h.product_le hdx.le
  have hp0 := (h.product_cases dx).1
  have big : (2 : ℚ) ^ 20 ≤ 2 ^ 100 := by norm_num
  have e1 : (1 : ℚ) / 2 ^ 34 ≤ 1 := by norm_num
  have e2 : (1 : ℚ) / 2 ^ 32 ≤ 1 := by norm_num
  have e3 : (2 : ℚ) ^ 20 = 2 ^ 19 + 2 ^ 19 := by norm_num
  have hlt := h.src_lt
  have hle := h.dst_le
  obtain ⟨x1, x2⟩ := f64OfInt_val (z := (dx : ℤ)) (by omega)
  obtain ⟨n1, n2⟩ := f64OfInt_val (z := (src : ℤ)) (by omega)
  rw [Int.cast_natCast] at x2 n2
  have sf := h.scale_fin
  obtain ⟨m1, m2⟩ := f64Mul_val x1 sf (by
    rw [x2]
    change |(dx : ℚ) * scaleQ src dst| ≤ _
    rw [abs_of_nonneg hp0]; linarith)
  rw [x2] at m2
  change dVal _ = fsx1Q src dst dx at m2
  obtain ⟨a1, a2⟩ := f64Add_val m1 sf (by
    rw [m2]
    change |fsx1Q src dst dx + scaleQ src dst| ≤ _
    rw [abs_of_nonneg (by linarith)]; linarith)
  rw [m2] at a2
  change dVal _ = fsx2Q src dst dx at a2
  obtain ⟨b1, b2⟩ := f64Sub_val n1 m1 (by
    rw [n2, m2, abs_le]
    constructor <;> linarith)
  rw [n2, m2] at b2
  obtain ⟨c1, c2⟩ := f64Min_val sf b1
  rw [b2] at c2
  refine ⟨m1, m2, a1, a2, c1, c2, ?_, ?_⟩
  · show min (f64Floor _) _ = _
    rw [f64Floor_val a1, a2]
  · show min (f64Ceil _) _ = min _ (min (f64Floor _) _)
    rw [f64Ceil_val m1, m2]

/-- The whole indices of a cell (41_weight_table.md R121): `0 <= sx1 <= sx2 <= src_len - 1`. -/
theorem BuildLengths.index_bounds (h : BuildLengths src dst) {dx : ℕ} (hdx : dx < dst) :
    let v := interval src (scaleOf (src : ℤ) (dst : ℤ)) dx
    0 ≤ v.sx1 ∧ v.sx1 ≤ v.sx2 ∧ v.sx2 ≤ (src : ℤ) - 1 := by
  obtain ⟨-, -, -, -, -, -, h2, h1⟩ := h.interval_val hdx
  have hs := h.scale_ge_one
  have hf0 := h.fsx1_nonneg dx
  have hg := h.fsx2_ge hdx
  have hfl : 0 ≤ ⌊fsx2Q src dst dx⌋ := by
    rw [Int.floor_nonneg]
    have : (1 : ℚ) / 2 ^ 33 ≤ 1 := by norm_num
    linarith
  have hce : 0 ≤ ⌈fsx1Q src dst dx⌉ := Int.ceil_nonneg hf0
  have hsrc : 1 ≤ src := h.dst_pos.trans h.dst_le
  intro v
  refine ⟨?_, ?_, ?_⟩
  · rw [h1, h2]; omega
  · rw [h1]; exact min_le_right _ _
  · rw [h2]; exact min_le_right _ _

/-- An overlap that passes the threshold is more than `2^-10` less a hair: at least `2^-11`. -/
theorem overlap_of_gt {a b : F64} (ha : dFin a) (hb : dFin b) (hab : |dVal a - dVal b| ≤ 2 ^ 100)
    (h : f64Lt epsPart (f64Sub a b) = true) : 1 / 2 ^ 11 < dVal a - dVal b := by
  obtain ⟨d1, d2⟩ := f64Sub_val ha hb hab
  rw [f64Lt_iff epsPart_val.1 d1, d2] at h
  by_contra hle
  have h1 := rnd64_mono (not_lt.mp hle)
  have hex : rnd64 (1 / 2 ^ 11) = 1 / 2 ^ 11 := by
    have := rnd64_exact 1 (-11) (by norm_num) (by norm_num)
    have e : (((1 : ℤ) : ℚ)) * (2 : ℚ) ^ (-11 : ℤ) = 1 / 2 ^ 11 := by norm_num
    rwa [e] at this
  rw [hex] at h1
  have h2 := epsPart_val.2.1
  have h3 : (1 : ℚ) / 2 ^ 11 ≤ 999 / 1000000 := by norm_num
  linarith

/-- The right partial overlap of a cell passes the threshold (41_weight_table.md R124). -/
def hasRight (src dst dx : ℕ) : Bool :=
  let v := interval src (scaleOf (src : ℤ) (dst : ℤ)) dx
  f64Lt epsPart (f64Sub v.fsx2 (f64OfInt v.sx2))

/-- The left partial overlap of a cell passes the threshold (41_weight_table.md R122). -/
def hasLeft (src dst dx : ℕ) : Bool :=
  let v := interval src (scaleOf (src : ℤ) (dst : ℤ)) dx
  f64Lt epsPart (f64Sub (f64OfInt v.sx1) v.fsx1)

theorem BuildLengths.right_overlap (h : BuildLengths src dst) {dx : ℕ} (hdx : dx < dst)
    (hr : hasRight src dst dx = true) :
    ((interval src (scaleOf (src : ℤ) (dst : ℤ)) dx).sx2 : ℚ) + 1 / 2 ^ 11 < fsx2Q src dst dx := by
  obtain ⟨-, -, a1, a2, -, -, -, -⟩ := h.interval_val hdx
  obtain ⟨b0, b1, b2⟩ := h.index_bounds hdx
  have hlt := h.src_lt
  set v := interval src (scaleOf (src : ℤ) (dst : ℤ)) dx with hv
  obtain ⟨n1, n2⟩ := f64OfInt_val (z := v.sx2) (by omega)
  have hs := h.scale_ge_one
  have hg := h.fsx2_ge hdx
  have hf0 := h.fsx1_nonneg dx
  have hf1 := h.fsx1_le hdx
  have hsl := h.scale_le
  have hc := (abs_le.mp (h.fsx2_close hdx)).2
  obtain ⟨s1, s2⟩ := h.src_bounds
  have c1 : (0 : ℚ) ≤ v.sx2 := by exact_mod_cast b0.trans b1
  have c2 : (v.sx2 : ℚ) ≤ src - 1 := by exact_mod_cast b2
  have big : (2 : ℚ) ^ 20 ≤ 2 ^ 100 := by norm_num
  have e : (1 : ℚ) / 2 ^ 33 + 1 / 2 ^ 32 + 1 / 2 ^ 34 ≤ 1 := by norm_num
  have e3 : (2 : ℚ) ^ 20 = 2 ^ 19 + 2 ^ 19 := by norm_num
  have := overlap_of_gt a1 n1 (by rw [a2, n2, abs_le]; constructor <;> linarith) hr
  rw [a2, n2] at this
  linarith

/-- Where the full entries of the next cell may begin (41_weight_table.md R126): full entries of different cells name
different samples, and a sample with a right partial entry is a full entry of none. -/
theorem BuildLengths.next_start (h : BuildLengths src dst) {dx : ℕ} (hdx : dx + 1 < dst) :
    (interval src (scaleOf (src : ℤ) (dst : ℤ)) dx).sx2 + (if hasRight src dst dx then 1 else 0) ≤
    (interval src (scaleOf (src : ℤ) (dst : ℤ)) (dx + 1)).sx1 := by
  have hm := abs_le.mp (h.cells_meet hdx)
  obtain ⟨-, -, -, -, -, -, i2, -⟩ := h.interval_val (by omega : dx < dst)
  obtain ⟨-, -, -, -, -, -, j2, j1⟩ := h.interval_val hdx
  obtain ⟨b0, b1, b2⟩ := h.index_bounds (by omega : dx < dst)
  have hr := h.right_overlap (by omega : dx < dst)
  have hg := h.fsx2_ge hdx
  have hs := h.scale_ge_one
  have hf1 := h.fsx1_le hdx
  set v := interval src (scaleOf (src : ℤ) (dst : ℤ)) dx with hv
  set w := interval src (scaleOf (src : ℤ) (dst : ℤ)) (dx + 1) with hw
  have hfl : (v.sx2 : ℚ) ≤ fsx2Q src dst dx := by
    have h1 : v.sx2 ≤ ⌊fsx2Q src dst dx⌋ := by rw [i2]; exact min_le_left _ _
    exact Int.le_floor.mp h1
  have e31 : (1 : ℚ) / 2 ^ 31 + 1 / 2 ^ 33 < 1 / 2 ^ 11 := by norm_num
  have e32 : (1 : ℚ) / 2 ^ 31 + 1 / 2 ^ 32 < 1 / 2 ^ 11 := by norm_num
  have p31 : (0 : ℚ) < 1 / 2 ^ 31 := by norm_num
  have p33 : (0 : ℚ) < 1 / 2 ^ 33 := by norm_num
  have e11 : (1 : ℚ) / 2 ^ 11 < 1 := by norm_num
  rw [j1, j2]
  by_cases hright : hasRight src dst dx = true
  · have hro := hr hright
    rw [if_pos hright]
    have k1 : v.sx2 + 1 ≤ ⌈fsx1Q src dst (dx + 1)⌉ := by
      have : (v.sx2 : ℚ) < fsx1Q src dst (dx + 1) := by linarith
      have := Int.lt_ceil.mpr this
      omega
    have k2 : v.sx2 + 1 ≤ ⌊fsx2Q src dst (dx + 1)⌋ := by
      rw [Int.le_floor]; push_cast; linarith
    have k3 : v.sx2 + 1 ≤ (src : ℤ) - 1 := by
      have h1 : (v.sx2 : ℚ) < (src : ℚ) - 1 := by linarith
      have h2 : (v.sx2 : ℚ) < (((src : ℤ) - 1 : ℤ) : ℚ) := by push_cast; exact h1
      have := Int.cast_lt.mp h2
      omega
    omega
  · rw [if_neg hright]
    have k1 : v.sx2 ≤ ⌈fsx1Q src dst (dx + 1)⌉ := by
      have : ((v.sx2 - 1 : ℤ) : ℚ) < fsx1Q src dst (dx + 1) := by push_cast; linarith
      have := Int.lt_ceil.mpr this
      omega
    have k2 : v.sx2 ≤ ⌊fsx2Q src dst (dx + 1)⌋ := by
      rw [Int.le_floor]; linarith
    omega

/-- The number of entries of a cell (41_weight_table.md R122, R123, R124). -/
theorem cellEntries_length (cn dx : ℕ) :
    ((cellEntries src cn (scaleOf (src : ℤ) (dst : ℤ)) dx).length : ℤ) =
      (if hasLeft src dst dx then 1 else 0) +
      ((interval src (scaleOf (src : ℤ) (dst : ℤ)) dx).sx2 -
        (interval src (scaleOf (src : ℤ) (dst : ℤ)) dx).sx1).toNat +
      (if hasRight src dst dx then 1 else 0) := by
  unfold cellEntries leftEntry fullEntries rightEntry hasLeft hasRight
  simp only [List.length_append, List.length_map, List.length_range]
  push_cast
  congr 1
  · congr 1
    split <;> simp_all
  · split <;> simp_all

/-- The entries of the first `n` cells number at most `n` more than the samples they have passed. -/
theorem BuildLengths.prefix_length (h : BuildLengths src dst) (cn n : ℕ) (hn : n < dst) :
    ((((List.range (n + 1)).flatMap (cellEntries src cn (scaleOf (src : ℤ) (dst : ℤ)))).length : ℕ) : ℤ) ≤
      (n : ℤ) + 1 + (interval src (scaleOf (src : ℤ) (dst : ℤ)) n).sx2 + (if hasRight src dst n then 1 else 0) := by
  induction n with
  | zero =>
    obtain ⟨b0, b1, b2⟩ := h.index_bounds hn
    have hl := cellEntries_length (src := src) (dst := dst) cn 0
    simp only [Nat.zero_add, List.range_one, List.flatMap_cons, List.flatMap_nil, List.append_nil]
    rw [hl]
    have hle : (if hasLeft src dst 0 = true then (1 : ℤ) else 0) ≤ 1 := by split <;> omega
    push_cast
    omega
  | succ k ih =>
    have hk := ih (by omega)
    obtain ⟨b0, b1, b2⟩ := h.index_bounds hn
    have hl := cellEntries_length (src := src) (dst := dst) cn (k + 1)
    have hnext := h.next_start hn
    rw [List.range_succ, List.flatMap_append, List.length_append]
    simp only [List.flatMap_cons, List.flatMap_nil, List.append_nil]
    push_cast
    rw [hl]
    have hle : (if hasLeft src dst (k + 1) = true then (1 : ℤ) else 0) ≤ 1 := by split <;> omega
    clear hl ih
    generalize (if hasLeft src dst (k + 1) = true then (1 : ℤ) else 0) = left at hle ⊢
    generalize (if hasRight src dst (k + 1) = true then (1 : ℤ) else 0) = right
    generalize (if hasRight src dst k = true then (1 : ℤ) else 0) = before at hk hnext
    generalize interval src (scaleOf (src : ℤ) (dst : ℤ)) (k + 1) = v at *
    generalize interval src (scaleOf (src : ℤ) (dst : ℤ)) k = u at *
    generalize ((List.range (k + 1)).flatMap _).length = len at hk ⊢
    omega

/-- The loop of the builder emits at most `src_len + dst_len` entries (41_weight_table.md R126). -/
theorem BuildLengths.emitted_length (h : BuildLengths src dst) (cn : ℕ) :
    (emittedEntries src dst cn (scaleOf (src : ℤ) (dst : ℤ))).length ≤ src + dst := by
  obtain ⟨n, rfl⟩ : ∃ n, dst = n + 1 := ⟨dst - 1, by have := h.dst_pos; omega⟩
  have h1 := h.prefix_length cn n (by omega)
  obtain ⟨b0, b1, b2⟩ := h.index_bounds (by omega : n < n + 1)
  have hle : (if hasRight src (n + 1) n = true then (1 : ℤ) else 0) ≤ 1 := by split <;> omega
  unfold emittedEntries
  omega

/-- The builder succeeds at every scale a command runs it at, and its table is what the loop emits
(41_weight_table.md R126). -/
theorem BuildLengths.buildWtab_eq (h : BuildLengths src dst) (cn : ℕ) :
    buildWtab src dst cn (scaleOf (src : ℤ) (dst : ℤ)) =
      some (emittedEntries src dst cn (scaleOf (src : ℤ) (dst : ℤ))) := by
  have h1 := h.emitted_length cn
  have h2 := h.dst_le
  unfold buildWtab
  exact if_pos (by omega)

end

/-- The entries of a cell name samples of the source row and the cell's own destination pixel, channel-scaled
(10_state.md R44, 41_weight_table.md R125). -/
theorem BuildLengths.cell_offsets {src dst : ℕ} (h : BuildLengths src dst) {cn dx : ℕ} (hdx : dx < dst)
    {e : WeightEntry} (he : e ∈ cellEntries src cn (scaleOf (src : ℤ) (dst : ℤ)) dx) :
    e.di = dx * cn ∧ ∃ sx, sx < src ∧ e.si = sx * cn := by
  obtain ⟨b0, b1, b2⟩ := h.index_bounds hdx
  have hsrc : 1 ≤ src := h.dst_pos.trans h.dst_le
  unfold cellEntries at he
  simp only [List.mem_append] at he
  generalize interval src (scaleOf (src : ℤ) (dst : ℤ)) dx = v at *
  rcases he with (he | he) | he
  · unfold leftEntry at he
    simp only at he
    split at he
    · rw [List.mem_singleton] at he
      subst he
      exact ⟨rfl, (v.sx1 - 1).toNat, by omega, rfl⟩
    · cases he
  · unfold fullEntries at he
    rw [List.mem_map] at he
    obtain ⟨j, hj, rfl⟩ := he
    rw [List.mem_range] at hj
    exact ⟨rfl, (v.sx1 + j).toNat, by omega, rfl⟩
  · unfold rightEntry at he
    simp only at he
    split at he
    · rw [List.mem_singleton] at he
      subst he
      exact ⟨rfl, v.sx2.toNat, by omega, rfl⟩
    · cases he

/-- The entries of a table name samples of the source row and pixels of the destination row, channel-scaled. -/
theorem BuildLengths.emitted_offsets {src dst : ℕ} (h : BuildLengths src dst) {cn : ℕ} {e : WeightEntry}
    (he : e ∈ emittedEntries src dst cn (scaleOf (src : ℤ) (dst : ℤ))) :
    ∃ dx sx, dx < dst ∧ sx < src ∧ e.di = dx * cn ∧ e.si = sx * cn := by
  unfold emittedEntries at he
  rw [List.mem_flatMap] at he
  obtain ⟨dx, hdx, hmem⟩ := he
  rw [List.mem_range] at hdx
  obtain ⟨h1, sx, h2, h3⟩ := h.cell_offsets hdx hmem
  exact ⟨dx, sx, hdx, h2, h1, h3⟩

/-- A built table is what the loop emits, within the bound (41_weight_table.md R126). -/
theorem buildWtab_some {srcLen dstLen cn : ℕ} {scale : F64} {t : List WeightEntry}
    (h : buildWtab srcLen dstLen cn scale = some t) :
    t = emittedEntries srcLen dstLen cn scale ∧ t.length ≤ 2 * srcLen + 2 := by
  unfold buildWtab at h
  simp only at h
  split at h
  · rename_i hl
    cases h
    exact ⟨rfl, hl⟩
  · cases h

end Sys2Proof.Machine
end

