-- ==== Sys2Proof/Laws/Commands.lean ====
section
/-! SUPPORT. What each command's precondition, capacity check and body can do (41_weight_table.md to 45_dispatch.md). -/

namespace Sys2Proof.Machine

/-! ### Preconditions of legal operands (40_command_common.md R106) -/

theorem areaIntAllowed_legal {i : Instr} {s : State} (h : OperandsLegal i s) (hi : i ∈ pixelCommands) :
    areaIntAllowed (operands Config.default s) = true ↔ dividesX s ∧ dividesY s := by
  obtain ⟨w1, w2, w3, w4, -, -⟩ := h.widths (by revert hi; cases i <;> decide)
  obtain ⟨v1, v2, v3, v4⟩ := h.heights (by revert hi; cases i <;> decide)
  unfold areaIntAllowed Operands.scaleX Operands.scaleY dividesX dividesY
  simp only [operands_sw, operands_sh, operands_dw, operands_dh, Bool.and_eq_true, scaleAtLeastOne_legal w1 w2 w3 w4,
    scaleAtLeastOne_legal v1 v2 v3 v4, isInt_legal w1 w2 w3 w4, isInt_legal v1 v2 v3 v4]
  tauto

theorem areaGenAllowed_legal {i : Instr} {s : State} (h : OperandsLegal i s) (hi : i ∈ pixelCommands) :
    areaGenAllowed (operands Config.default s) = true ↔
      s32 s.dstWidth ≤ s32 s.srcWidth ∧ s32 s.dstHeight ≤ s32 s.srcHeight := by
  obtain ⟨w1, w2, w3, w4, -, -⟩ := h.widths (by revert hi; cases i <;> decide)
  obtain ⟨v1, v2, v3, v4⟩ := h.heights (by revert hi; cases i <;> decide)
  unfold areaGenAllowed Operands.scaleX Operands.scaleY
  simp only [operands_sw, operands_sh, operands_dw, operands_dh, Bool.and_eq_true, scaleAtLeastOne_legal w1 w2 w3 w4,
    scaleAtLeastOne_legal v1 v2 v3 v4]

/-- The scale check of a legal horizontal axis. -/
theorem scaleX_legal {i : Instr} {s : State} (h : OperandsLegal i s) (hi : i ∈ widthCommands) :
    scaleAtLeastOne (operands Config.default s).scaleX = true ↔ s32 s.dstWidth ≤ s32 s.srcWidth := by
  obtain ⟨w1, w2, w3, w4, -, -⟩ := h.widths hi
  exact scaleAtLeastOne_legal w1 w2 w3 w4

/-- The scale check of a legal vertical axis. -/
theorem scaleY_legal {i : Instr} {s : State} (h : OperandsLegal i s) (hi : i ∈ heightCommands) :
    scaleAtLeastOne (operands Config.default s).scaleY = true ↔ s32 s.dstHeight ≤ s32 s.srcHeight := by
  obtain ⟨v1, v2, v3, v4⟩ := h.heights hi
  exact scaleAtLeastOne_legal v1 v2 v3 v4

/-! ### Capacities of legal operands (40_command_common.md R107, R110) -/

theorem needChecks_nil : firstFailure (needChecks intNeeds) = none := rfl

theorem needChecks_xtab {i : Instr} {s : State} (h : OperandsLegal i s) (hi : i ∈ widthCommands) :
    firstFailure (needChecks [needXtab Config.default (operands Config.default s)]) =
      if 2 * s32 s.srcWidth + 2 ≤ 16386 then none else some .allocationFailure := by
  obtain ⟨w1, w2, w3, w4, -, -⟩ := h.widths hi
  have hc : ((Config.default.tabCap : ℕ) : ℤ) = 16386 := rfl
  rw [firstFailure_needChecks]
  simp only [List.mem_singleton, forall_eq, needXtab, operands_sw, hc]
  rw [if_pos (by omega)]

theorem needChecks_ytab {i : Instr} {s : State} (h : OperandsLegal i s) (hi : i ∈ heightCommands) :
    firstFailure (needChecks [needYtab Config.default (operands Config.default s)]) =
      if 2 * s32 s.srcHeight + 2 ≤ 16386 then none else some .allocationFailure := by
  obtain ⟨v1, v2, v3, v4⟩ := h.heights hi
  have hc : ((Config.default.tabCap : ℕ) : ℤ) = 16386 := rfl
  rw [firstFailure_needChecks]
  simp only [List.mem_singleton, forall_eq, needYtab, operands_sh, hc]
  rw [if_pos (by omega)]

theorem needChecks_fpx {i : Instr} {s : State} (h : OperandsLegal i s) (hi : i ∈ widthCommands) :
    firstFailure (needChecks [needFpx Config.default (operands Config.default s)]) =
      if s32 s.dstWidth ≤ 8192 then none else some .allocationFailure := by
  obtain ⟨w1, w2, w3, w4, -, -⟩ := h.widths hi
  have hc : ((Config.default.fpCap : ℕ) : ℤ) = 8192 := rfl
  rw [firstFailure_needChecks]
  simp only [List.mem_singleton, forall_eq, needFpx, operands_dw, hc]
  rw [if_pos (by omega)]

theorem needChecks_fpy {i : Instr} {s : State} (h : OperandsLegal i s) (hi : i ∈ heightCommands) :
    firstFailure (needChecks [needFpy Config.default (operands Config.default s)]) =
      if s32 s.dstHeight ≤ 8192 then none else some .allocationFailure := by
  obtain ⟨v1, v2, v3, v4⟩ := h.heights hi
  have hc : ((Config.default.fpCap : ℕ) : ℤ) = 8192 := rfl
  rw [firstFailure_needChecks]
  simp only [List.mem_singleton, forall_eq, needFpy, operands_dh, hc]
  rw [if_pos (by omega)]

theorem needChecks_gen {i : Instr} {s : State} (h : OperandsLegal i s) (hi : i ∈ pixelCommands) :
    firstFailure (needChecks (genNeeds Config.default (operands Config.default s))) =
      if 2 * s32 s.srcWidth + 2 ≤ 16386 ∧ 2 * s32 s.srcHeight + 2 ≤ 16386 ∧
          s32 s.dstWidth * s32 s.channels ≤ 32768 then none
      else some .allocationFailure := by
  obtain ⟨w1, w2, w3, w4, c1, c2⟩ := h.widths (by revert hi; cases i <;> decide)
  obtain ⟨v1, v2, v3, v4⟩ := h.heights (by revert hi; cases i <;> decide)
  have hc : ((Config.default.tabCap : ℕ) : ℤ) = 16386 := rfl
  have hr : ((Config.default.rowCap : ℕ) : ℤ) = 32768 := rfl
  have hp : 0 < s32 s.dstWidth * s32 s.channels := by positivity
  rw [firstFailure_needChecks]
  simp only [genNeeds, needXtab, needYtab, needRows, List.mem_cons, List.not_mem_nil, or_false, forall_eq_or_imp,
    forall_eq, operands_sw, operands_sh, operands_dw, operands_cn, hc, hr]
  rw [if_pos ⟨by omega, by omega, by omega⟩]

theorem needChecks_lin {i : Instr} {s : State} (h : OperandsLegal i s) (hi : i ∈ pixelCommands) :
    firstFailure (needChecks (linNeeds Config.default (operands Config.default s))) =
      if s32 s.dstWidth ≤ 8192 ∧ s32 s.dstHeight ≤ 8192 then none else some .allocationFailure := by
  obtain ⟨w1, w2, w3, w4, -, -⟩ := h.widths (by revert hi; cases i <;> decide)
  obtain ⟨v1, v2, v3, v4⟩ := h.heights (by revert hi; cases i <;> decide)
  have hc : ((Config.default.fpCap : ℕ) : ℤ) = 8192 := rfl
  rw [firstFailure_needChecks]
  simp only [linNeeds, needFpx, needFpy, List.mem_cons, List.not_mem_nil, or_false, forall_eq_or_imp,
    forall_eq, operands_dw, operands_dh, hc]
  rw [if_pos ⟨by omega, by omega⟩]

/-! ### The tables of legal operands -/

/-- A weight table of legal lengths exists and is what the loop emits (41_weight_table.md R120, R126). -/
theorem buildWtab_legal {a b : ℤ} (cn : ℕ) (hb : 1 ≤ b) (hba : b ≤ a) (ha : a ≤ 65535) :
    buildWtab a.toNat b.toNat cn (scaleOf a b) = some (emittedEntries a.toNat b.toNat cn (scaleOf a b)) := by
  obtain ⟨m, rfl⟩ := Int.eq_ofNat_of_zero_le (by omega : 0 ≤ a)
  obtain ⟨n, rfl⟩ := Int.eq_ofNat_of_zero_le (by omega : 0 ≤ b)
  exact BuildLengths.buildWtab_eq ⟨by omega, by omega, by omega⟩ cn

/-- The length of a weight table of legal lengths (41_weight_table.md R126). -/
theorem emittedEntries_legal {a b : ℤ} (cn : ℕ) (hb : 1 ≤ b) (hba : b ≤ a) (ha : a ≤ 65535) :
    (emittedEntries a.toNat b.toNat cn (scaleOf a b)).length ≤ a.toNat + b.toNat := by
  obtain ⟨m, rfl⟩ := Int.eq_ofNat_of_zero_le (by omega : 0 ≤ a)
  obtain ⟨n, rfl⟩ := Int.eq_ofNat_of_zero_le (by omega : 0 ≤ b)
  exact BuildLengths.emitted_length ⟨by omega, by omega, by omega⟩ cn

/-- The offsets of a weight table of legal lengths (10_state.md R44). -/
theorem emitted_offsets_legal {a b : ℤ} {cn : ℕ} (hb : 1 ≤ b) (hba : b ≤ a) (ha : a ≤ 65535) {e : WeightEntry}
    (he : e ∈ emittedEntries a.toNat b.toNat cn (scaleOf a b)) :
    ∃ dx sx, dx < b.toNat ∧ sx < a.toNat ∧ e.di = dx * cn ∧ e.si = sx * cn := by
  obtain ⟨m, rfl⟩ := Int.eq_ofNat_of_zero_le (by omega : 0 ≤ a)
  obtain ⟨n, rfl⟩ := Int.eq_ofNat_of_zero_le (by omega : 0 ≤ b)
  exact BuildLengths.emitted_offsets ⟨by omega, by omega, by omega⟩ he

/-- The entries of a fixed-point table of legal lengths (10_state.md R47, 44_linear.md R175, R176). -/
theorem fixedEntry_legal {a b : ℤ} (step : ℕ) (ha : 1 ≤ a) (ha' : a ≤ 65535) (hb : 1 ≤ b) (hb' : b ≤ 65535) {d : ℕ}
    (hd : d < b.toNat) :
    (fixedEntry a.toNat step (scaleOf a b) (f64Div oneF64 (scaleOf a b)) d).w0 +
      (fixedEntry a.toNat step (scaleOf a b) (f64Div oneF64 (scaleOf a b)) d).w1 = 2048 ∧
    ∃ x0 x1, x0 < a.toNat ∧ x1 < a.toNat ∧
      (fixedEntry a.toNat step (scaleOf a b) (f64Div oneF64 (scaleOf a b)) d).ofs0 = x0 * step ∧
      (fixedEntry a.toNat step (scaleOf a b) (f64Div oneF64 (scaleOf a b)) d).ofs1 = x1 * step := by
  obtain ⟨m, rfl⟩ := Int.eq_ofNat_of_zero_le (by omega : 0 ≤ a)
  obtain ⟨n, rfl⟩ := Int.eq_ofNat_of_zero_le (by omega : 0 ≤ b)
  simp only [Int.toNat_natCast] at *
  exact fixedEntry_bounds step (by omega) (by omega) (by omega) (by omega) hd

/-- Every entry of a fixed-point table of legal lengths. -/
theorem mem_buildFptab_legal {a b : ℤ} {step : ℕ} (ha : 1 ≤ a) (ha' : a ≤ 65535) (hb : 1 ≤ b) (hb' : b ≤ 65535)
    {e : FixedEntry} (he : e ∈ buildFptab a.toNat b.toNat step (scaleOf a b)) :
    e.w0 + e.w1 = 2048 ∧ ∃ x0 x1, x0 < a.toNat ∧ x1 < a.toNat ∧ e.ofs0 = x0 * step ∧ e.ofs1 = x1 * step := by
  obtain ⟨d, hd, rfl⟩ := mem_buildFptab.mp he
  exact fixedEntry_legal step ha ha' hb hb' hd

/-! ### The grouping index (41_weight_table.md R128) -/

@[simp] theorem groupScan_length (n dy k : ℕ) (rest : List WeightEntry) : (groupScan n dy k rest).length = n := by
  induction n generalizing dy k rest with
  | zero => rfl
  | succ m ih => simp [groupScan, ih]

@[simp] theorem groupIndex_length (ytab : List WeightEntry) (dh : ℕ) : (groupIndex ytab dh).length = dh :=
  groupScan_length _ _ _ _

/-- A run never ends before it starts, nor past the table. -/
theorem mem_groupScan {n dy k : ℕ} {rest : List WeightEntry} {g : RunEntry} (h : g ∈ groupScan n dy k rest) :
    g.start ≤ g.stop ∧ g.stop ≤ k + rest.length := by
  induction n generalizing dy k rest with
  | zero => cases h
  | succ m ih =>
    unfold groupScan at h
    have hl := (List.takeWhile_sublist (fun e : WeightEntry => e.di == dy) (l := rest)).length_le
    rcases List.mem_cons.mp h with h | h
    · rw [h]
      exact ⟨Nat.le_add_right _ _, by simpa using hl⟩
    · obtain ⟨h1, h2⟩ := ih h
      rw [List.length_drop] at h2
      exact ⟨h1, by omega⟩

/-- The scan of a table made of one block per destination row finds the blocks (41_weight_table.md R125, R128). -/
theorem groupScan_blocks (cells : ℕ → List WeightEntry) (hdi : ∀ d, ∀ e ∈ cells d, e.di = d) (n dy k : ℕ) :
    ∀ j, j < n → ∀ g, (groupScan n dy k ((List.range' dy n).flatMap cells))[j]? = some g →
      g.start = k + ((List.range' dy j).flatMap cells).length ∧ g.stop = g.start + (cells (dy + j)).length := by
  induction n generalizing dy k with
  | zero => intro j hj; omega
  | succ m ih =>
    intro j hj g hg
    have hsplit : (List.range' dy (m + 1)).flatMap cells = cells dy ++ (List.range' (dy + 1) m).flatMap cells := by
      simp [List.range'_succ]
    have hrest : ∀ e ∈ (List.range' (dy + 1) m).flatMap cells, ¬ (e.di == dy) = true := by
      intro e he
      rw [List.mem_flatMap] at he
      obtain ⟨d, hd, hmem⟩ := he
      rw [List.mem_range'_1] at hd
      rw [hdi d e hmem, beq_iff_eq]
      omega
    have htake : ((cells dy ++ (List.range' (dy + 1) m).flatMap cells).takeWhile fun e => e.di == dy) = cells dy := by
      rw [List.takeWhile_append_of_pos fun e he => by simpa using hdi dy e he]
      cases hl : (List.range' (dy + 1) m).flatMap cells with
      | nil => simp
      | cons e rest =>
        have hne := hrest e (by rw [hl]; exact List.mem_cons_self)
        rw [List.takeWhile_cons, if_neg hne, List.append_nil]
    unfold groupScan at hg
    simp only [hsplit, htake, List.drop_left] at hg
    cases j with
    | zero =>
      simp only [List.getElem?_cons_zero, Option.some.injEq] at hg
      subst hg
      exact ⟨by simp, by simp⟩
    | succ j =>
      rw [List.getElem?_cons_succ] at hg
      obtain ⟨h1, h2⟩ := ih (dy + 1) (k + (cells dy).length) j (by omega) g hg
      refine ⟨?_, by rw [h2, show dy + 1 + j = dy + (j + 1) by omega]⟩
      rw [h1]
      simp [List.range'_succ]
      omega

/-! ### The bodies -/

/-- The integer path answers a next state exactly when the footprints are disjoint, and this one (42_area_integer.md
R140). -/
theorem areaIntBody_eq (s : State) (o : Operands) :
    areaIntBody Config.default o s =
      if o.srcView.disjoint o.dstView = true then
        .next { complete .int { s with
            iscaleX := BitVec.ofNat 32 (intScale o.scaleX), iscaleY := BitVec.ofNat 32 (intScale o.scaleY) } with
          mem := s.mem.writeRows o.dstView
            (fun dy => rowOf o.dw.toNat o.cn.toNat
              (areaIntSample s.mem o.srcView o.cn.toNat (intScale o.scaleX) (intScale o.scaleY) dy)) o.dstView.height }
      else .refused .overlappingFootprints := by
  unfold areaIntBody
  rw [pixelPass_default]
  rfl

/-- The linear path answers a next state exactly when the footprints are disjoint, and this one (44_linear.md R177). -/
theorem linearBody_eq (s : State) (o : Operands) :
    linearBody Config.default o s =
      if o.srcView.disjoint o.dstView = true then
        .next { complete .lin (setFpy (buildFptab o.sh.toNat o.dh.toNat 1 o.scaleY)
            (setFpx (buildFptab o.sw.toNat o.dw.toNat o.cn.toNat o.scaleX) s)) with
          mem := s.mem.writeRows o.dstView
            (fun dy => rowOf o.dw.toNat o.cn.toNat fun dx ch =>
              linearSample s.mem o.srcView (fixedAt (buildFptab o.sh.toNat o.dh.toNat 1 o.scaleY) dy)
                (fixedAt (buildFptab o.sw.toNat o.dw.toNat o.cn.toNat o.scaleX) dx) ch) o.dstView.height }
      else .refused .overlappingFootprints := by
  unfold linearBody
  rw [pixelPass_default]
  rfl

/-- The general path with its tables answers a next state exactly when the footprints are disjoint, and this one
(43_area_general.md R150). -/
theorem areaGenPixels_eq (s : State) (o : Operands) (xt yt : List WeightEntry) :
    areaGenPixels Config.default o xt yt s =
      if o.srcView.disjoint o.dstView = true then
        .next { complete .gen (setBuffers (areaGenRow s.mem o xt yt (groupIndex yt o.dh.toNat) (o.dh.toNat - 1))
            (setYtab yt (groupIndex yt o.dh.toNat) (setXtab xt s))) with
          mem := s.mem.writeRows o.dstView
            (fun dy => (areaGenRow s.mem o xt yt (groupIndex yt o.dh.toNat) dy).acc.map accByte) o.dstView.height }
      else .refused .overlappingFootprints := by
  unfold areaGenPixels
  rw [pixelPass_default]
  rfl

/-! ### The row buffers (43_area_general.md R153 to R155) -/

@[simp] theorem addTerm_length (m : Memory) (src : View) (sy : ℕ) (e : WeightEntry) (l : List F32) (ch : ℕ) :
    (addTerm m src sy e l ch).length = l.length := by simp [addTerm]

theorem foldl_addTerm_length (m : Memory) (src : View) (sy : ℕ) (e : WeightEntry) (chs : List ℕ) (l : List F32) :
    (chs.foldl (addTerm m src sy e) l).length = l.length := by
  induction chs generalizing l with
  | nil => rfl
  | cons c rest ih => rw [List.foldl_cons, ih, addTerm_length]

@[simp] theorem horizontalPass_length (m : Memory) (src : View) (xtab : List WeightEntry) (cn n sy : ℕ) :
    (horizontalPass m src xtab cn n sy).length = n := by
  unfold horizontalPass
  suffices h : ∀ l : List F32,
      (xtab.foldl (fun scratch e => (List.range cn).foldl (addTerm m src sy e) scratch) l).length = l.length by
    rw [h]; simp
  induction xtab with
  | nil => intro l; rfl
  | cons e rest ih => intro l; rw [List.foldl_cons, ih, foldl_addTerm_length]

/-- Both buffers of a row have the row's length. -/
theorem rowBuffers_length (m : Memory) (src : View) (xtab run : List WeightEntry) (cn n : ℕ) :
    (rowBuffers m src xtab run cn n).scratch.length = n ∧ (rowBuffers m src xtab run cn n).acc.length = n := by
  suffices h : ∀ (run : List WeightEntry) (b : Option RowBuffers),
      (∀ x, b = some x → x.scratch.length = n ∧ x.acc.length = n) →
      ∀ x, run.foldl (rowStep m src xtab cn n) b = some x → x.scratch.length = n ∧ x.acc.length = n by
    unfold rowBuffers
    cases hb : run.foldl (rowStep m src xtab cn n) none with
    | none => simp
    | some x => exact h run none (by simp) x hb
  intro run
  induction run with
  | nil => intro b hb x hx; exact hb x hx
  | cons e rest ih =>
    intro b hb x hx
    rw [List.foldl_cons] at hx
    refine ih _ ?_ x hx
    intro y hy
    unfold rowStep at hy
    cases hy
    cases b with
    | none => simp [accumulate]
    | some c => simp [accumulate, (hb c rfl).2]

@[simp] theorem areaGenRow_length (m : Memory) (o : Operands) (xt yt : List WeightEntry) (grp : List RunEntry)
    (dy : ℕ) : (areaGenRow m o xt yt grp dy).acc.length = o.dw.toNat * o.cn.toNat ∧
      (areaGenRow m o xt yt grp dy).scratch.length = o.dw.toNat * o.cn.toNat := by
  obtain ⟨h1, h2⟩ := rowBuffers_length m o.srcView xt (runOf yt (grp.getD dy ⟨0, 0⟩)) o.cn.toNat
    (o.dw.toNat * o.cn.toNat)
  exact ⟨h2, h1⟩

/-! ### The box sum (42_area_integer.md R142) -/

theorem foldl_add_eq_sum (f : ℕ → ℕ) (n a : ℕ) :
    (List.range n).foldl (fun sum i => sum + f i) a = a + ∑ i ∈ Finset.range n, f i := by
  induction n with
  | zero => simp
  | succ k ih => rw [List.range_succ, List.foldl_append, ih, Finset.sum_range_succ]; simp [add_assoc]

/-- The box sum as a double sum. -/
theorem boxSum_eq_sum (m : Memory) (src : View) (cn ix iy dy dx ch : ℕ) :
    boxSum m src cn ix iy dy dx ch =
      ∑ j ∈ Finset.range iy, ∑ i ∈ Finset.range ix,
        (m.read (src.addr (dy * iy + j) ((dx * ix + i) * cn + ch))).toNat := by
  unfold boxSum
  simp only [foldl_add_eq_sum]
  simp

end Sys2Proof.Machine
end

