-- ==== Sys2Proof/Laws/Singles.lean ====
section
/-! SUPPORT. The float operations on the rationals (00_scope.md R13). -/

namespace Sys2Proof.Machine

/-- A float is finite. -/
def sFin (a : F32) : Prop := binary32.fin a.toNat

/-- The rational a finite float stands for. -/
def sVal (a : F32) : ℚ := binary32.val a.toNat

/-- A rational rounded to a float. -/
def rnd32 (q : ℚ) : ℚ := rnd binary32 q

theorem bias_binary32 : binary32.bias = 127 := by decide +kernel

theorem below_bias32 {q : ℚ} (h : |q| ≤ 2 ^ 100) : |q| < (2 : ℚ) ^ (binary32.bias : ℤ) := by
  rw [bias_binary32]
  refine h.trans_lt ?_
  rw [zpow_natCast]
  exact pow_lt_pow_right₀ (by norm_num) (by norm_num)

theorem toNat_ofNat32 {n : ℕ} (h : n < 2 ^ (binary32.fracBits + binary32.expBits + 1)) :
    (BitVec.ofNat 32 n).toNat = n := by
  rw [BitVec.toNat_ofNat]
  exact Nat.mod_eq_of_lt h

theorem f32Mul_val {a b : F32} (ha : sFin a) (hb : sFin b) (h : |sVal a * sVal b| ≤ 2 ^ 100) :
    sFin (f32Mul a b) ∧ sVal (f32Mul a b) = rnd32 (sVal a * sVal b) := by
  obtain ⟨h1, h2, h3⟩ := mul_val binary32_good ha hb (below_bias32 h)
  unfold sFin sVal f32Mul
  rw [toNat_ofNat32 h3]
  exact ⟨h1, h2⟩

theorem f32Add_val {a b : F32} (ha : sFin a) (hb : sFin b) (h : |sVal a + sVal b| ≤ 2 ^ 100) :
    sFin (f32Add a b) ∧ sVal (f32Add a b) = rnd32 (sVal a + sVal b) := by
  obtain ⟨h1, h2, h3⟩ := add_val binary32_good ha hb (below_bias32 h)
  unfold sFin sVal f32Add
  rw [toNat_ofNat32 h3]
  exact ⟨h1, h2⟩

/-- A byte is exact as a float. -/
theorem f32OfU8_val (v : Byte) : sFin (f32OfU8 v) ∧ sVal (f32OfU8 v) = v.toNat := by
  have hv : v.toNat < 256 := v.isLt
  obtain ⟨h1, h2, h3⟩ := ofInt_val binary32_good (v.toNat : ℤ)
    (by change v.toNat < 2 ^ 24; omega) (by rw [bias_binary32]; decide)
  unfold sFin sVal f32OfU8
  rw [toNat_ofNat32 h3]
  exact ⟨h1, by rw [h2]; simp⟩

/-- A double in range is rounded once to a float. -/
theorem f32OfF64_val {a : F64} (ha : dFin a) (h : |dVal a| ≤ 2 ^ 100) :
    sFin (f32OfF64 a) ∧ sVal (f32OfF64 a) = rnd32 (dVal a) := by
  obtain ⟨s, m, e, hu⟩ := fin_iff ha
  have hv : dVal a = (if s then -1 else 1) * (m * (2 : ℚ) ^ e) := by
    unfold dVal FloatFormat.val
    rw [hu]
    rfl
  have hp : (0 : ℚ) ≤ m * (2 : ℚ) ^ e := mul_nonneg (by positivity) (two_zpow_pos e).le
  have habs : |dVal a| = m * (2 : ℚ) ^ e := by
    rw [hv]
    cases s <;> simp [abs_of_nonneg hp]
  obtain ⟨h1, h2, h3⟩ := roundScaled_val binary32_good s m e (by
    have := below_bias32 h
    rwa [habs] at this)
  have hc : binary64.convert binary32 a.toNat = binary32.roundScaled s m e := by
    unfold FloatFormat.convert
    rw [hu]
  unfold sFin sVal f32OfF64
  rw [hc, toNat_ofNat32 h3]
  exact ⟨h1, by rw [h2, ← hv]; rfl⟩

theorem f32Rne_val {a : F32} (ha : sFin a) : f32Rne a = rneQ (sVal a) := rne_val ha

theorem f32Zero_val : sFin f32Zero ∧ sVal f32Zero = 0 := by
  have h : binary32.unpack f32Zero.toNat = .finite false 0 (-149) := by decide +kernel
  unfold sFin sVal FloatFormat.fin FloatFormat.val
  rw [h]
  exact ⟨rfl, by simp [FloatVal.toRat]⟩

/-- The value of Safety.lean is the value of the library. -/
theorem exactValue_eq (f : FloatFormat) (n : ℕ) : exactValue f n = f.val n := by
  unfold exactValue FloatFormat.val
  cases f.unpack n with
  | nan => rfl
  | infinite s => rfl
  | finite s m e =>
    have := scale_eq m e
    unfold scaleNum scaleDen at this
    simp only [FloatVal.toRat]
    rw [← this]
    cases s <;> simp

theorem f32Value_eq (a : F32) : f32Value a = sVal a := exactValue_eq binary32 a.toNat

theorem f64Value_eq (a : F64) : f64Value a = dVal a := exactValue_eq binary64 a.toNat

/-- Finiteness of Safety.lean is that of the library. -/
theorem isFinite_iff (f : FloatFormat) (n : ℕ) : isFinite f n ↔ f.fin n := by
  unfold isFinite FloatFormat.fin
  cases f.unpack n <;> simp [FloatVal.isFinite]

theorem distance_eq (p q : ℚ) : distance p q = |p - q| := by
  unfold distance
  split
  · rw [abs_of_nonpos (by linarith)]; ring
  · rw [abs_of_nonneg (by linarith)]

theorem rnd32_int {z : ℤ} (h : z.natAbs < 2 ^ 24) : rnd32 z = z := rnd_int binary32 binary32_good z h

theorem rnd32_mono {p q : ℚ} (h : p ≤ q) : rnd32 p ≤ rnd32 q := rnd_mono binary32 h

@[simp] theorem rnd32_zero : rnd32 0 = 0 := rnd_zero binary32

theorem rnd32_nonneg {q : ℚ} (h : 0 ≤ q) : 0 ≤ rnd32 q := rnd_nonneg binary32 h

theorem rnd32_one : rnd32 1 = 1 := by
  have := rnd32_int (z := 1) (by norm_num)
  simpa using this

/-- A number of 24 bits is exact as a float. -/
theorem rnd32_exact (z j : ℤ) (h : z.natAbs < 2 ^ 24) (hj : -140 ≤ j) : rnd32 (z * (2 : ℚ) ^ j) = z * (2 : ℚ) ^ j :=
  rnd_exact binary32 z j h (by rw [bias_binary32]; change 1 - ((127 : ℕ) : ℤ) - ((23 : ℕ) : ℤ) ≤ j; omega)

/-- The relative error of a rounding to a float of a number that is 0 or not tiny. -/
theorem rnd32_error {q : ℚ} (h : q = 0 ∨ 1 / 2 ^ 100 ≤ |q|) : |rnd32 q - q| ≤ |q| / 2 ^ 24 := by
  have := rnd_error binary32 (q := q) (by
    rcases h with h | h
    · exact .inl h
    · right
      rw [bias_binary32]
      refine le_trans ?_ h
      rw [show (1 : ℤ) - ((127 : ℕ) : ℤ) = -(126 : ℕ) by norm_num, zpow_neg, zpow_natCast, one_div]
      exact inv_anti₀ (by positivity) (pow_le_pow_right₀ (by norm_num) (by norm_num)))
  refine this.trans (le_of_eq ?_)
  change |q| * (2 : ℚ) ^ (-((23 : ℕ) : ℤ) - 1) = _
  rw [div_eq_mul_inv]
  norm_num

end Sys2Proof.Machine
end

