-- ==== Sys2Proof/Laws/Encodings.lean ====
section
/-! SUPPORT. A finite number other than 0 has one encoding in each format (00_scope.md R12, R13). -/

namespace Sys2Proof.Machine

/-- What a finite encoding unpacks to, by its three fields. -/
theorem unpack_fin {f : FloatFormat} {a : ℕ} (ha : f.fin a) :
    f.unpack a = .finite (a / 2 ^ (f.fracBits + f.expBits) % 2 == 1)
      ((if a / 2 ^ f.fracBits % 2 ^ f.expBits = 0 then 0 else 2 ^ f.fracBits) + a % 2 ^ f.fracBits)
      (((a / 2 ^ f.fracBits % 2 ^ f.expBits - 1 : ℕ) : ℤ) + 1 - f.bias - f.fracBits) := by
  unfold FloatFormat.fin at ha
  unfold FloatFormat.unpack at ha ⊢
  simp only at ha ⊢
  generalize hE : a / 2 ^ f.fracBits % 2 ^ f.expBits = E at ha ⊢
  split at ha
  · split at ha <;> simp [FloatVal.isFinite] at ha
  · rename_i h
    rw [if_neg h]
    by_cases h0 : E = 0
    · simp [h0]
    · rw [if_neg h0, if_neg h0]
      congr 2
      omega

/-- A number other than 0 has one encoding. -/
theorem val_inj {f : FloatFormat} {a b : ℕ} (ha : f.fin a) (hb : f.fin b)
    (la : a < 2 ^ (f.fracBits + f.expBits + 1)) (lb : b < 2 ^ (f.fracBits + f.expBits + 1))
    (h : f.val a = f.val b) (h0 : f.val a ≠ 0) : a = b := by
  unfold FloatFormat.val at h h0
  rw [unpack_fin ha] at h h0
  rw [unpack_fin hb] at h
  simp only [FloatVal.toRat] at h h0
  set F := f.fracBits
  set X := f.expBits
  have hF : 0 < 2 ^ F := by positivity
  have ra : a % 2 ^ F < 2 ^ F := Nat.mod_lt _ hF
  have rb : b % 2 ^ F < 2 ^ F := Nat.mod_lt _ hF
  have sa : a / 2 ^ (F + X) < 2 := by
    rw [Nat.div_lt_iff_lt_mul (by positivity)]; rw [pow_succ] at la; omega
  have sb : b / 2 ^ (F + X) < 2 := by
    rw [Nat.div_lt_iff_lt_mul (by positivity)]; rw [pow_succ] at lb; omega
  have da : a = (a / 2 ^ (F + X)) * 2 ^ (F + X) + (a / 2 ^ F % 2 ^ X) * 2 ^ F + a % 2 ^ F := by
    have h1 : a / 2 ^ F = a / 2 ^ (F + X) * 2 ^ X + a / 2 ^ F % 2 ^ X := by
      rw [pow_add, ← Nat.div_div_eq_div_mul]; exact (Nat.div_add_mod' _ _).symm
    calc a = a / 2 ^ F * 2 ^ F + a % 2 ^ F := (Nat.div_add_mod' _ _).symm
      _ = _ := by rw [congrArg (· * 2 ^ F) h1, pow_add]; ring
  have db : b = (b / 2 ^ (F + X)) * 2 ^ (F + X) + (b / 2 ^ F % 2 ^ X) * 2 ^ F + b % 2 ^ F := by
    have h1 : b / 2 ^ F = b / 2 ^ (F + X) * 2 ^ X + b / 2 ^ F % 2 ^ X := by
      rw [pow_add, ← Nat.div_div_eq_div_mul]; exact (Nat.div_add_mod' _ _).symm
    calc b = b / 2 ^ F * 2 ^ F + b % 2 ^ F := (Nat.div_add_mod' _ _).symm
      _ = _ := by rw [congrArg (· * 2 ^ F) h1, pow_add]; ring
  generalize a / 2 ^ F % 2 ^ X = E at *
  generalize b / 2 ^ F % 2 ^ X = G at *
  generalize a % 2 ^ F = r at *
  generalize b % 2 ^ F = q at *
  generalize a / 2 ^ (F + X) = s at *
  generalize b / 2 ^ (F + X) = t at *
  -- the significands and exponents
  set m : ℕ := (if E = 0 then 0 else 2 ^ F) + r with hm
  set n : ℕ := (if G = 0 then 0 else 2 ^ F) + q with hn
  have key : ∀ (m n E G : ℕ), 2 ^ F ≤ n ∨ G = 0 → m < 2 ^ F * 2 → (m : ℚ) * 2 ^ (((E - 1 : ℕ) : ℤ) + 1 - f.bias - F) = n * 2 ^ (((G - 1 : ℕ) : ℤ) + 1 - f.bias - F) →
      m ≠ 0 → G - 1 ≤ E - 1 := by
    intro m n E G hn hm h hm0
    by_contra hlt
    push Not at hlt
    obtain ⟨d, hd⟩ : ∃ d, G - 1 = E - 1 + (d + 1) := ⟨G - 1 - (E - 1) - 1, by omega⟩
    rw [hd] at h
    rw [show (((E - 1 + (d + 1) : ℕ) : ℤ) + 1 - f.bias - F) = (((E - 1 : ℕ) : ℤ) + 1 - f.bias - F) + ((d + 1 : ℕ) : ℤ) by push_cast; ring,
      zpow_add₀ (by norm_num), zpow_natCast] at h
    have hz : (2 : ℚ) ^ (((E - 1 : ℕ) : ℤ) + 1 - f.bias - F) ≠ 0 := by positivity
    have h2 : (m : ℚ) = n * 2 ^ (d + 1) := by
      have : (m : ℚ) * 2 ^ (((E - 1 : ℕ) : ℤ) + 1 - f.bias - F) = (n * 2 ^ (d + 1)) * 2 ^ (((E - 1 : ℕ) : ℤ) + 1 - f.bias - F) := by rw [h]; ring
      exact mul_right_cancel₀ hz this
    have h3 : m = n * 2 ^ (d + 1) := by exact_mod_cast h2
    have : n * 2 ≤ n * 2 ^ (d + 1) := Nat.mul_le_mul_left _ (by rw [pow_succ]; have : 1 ≤ 2 ^ d := Nat.one_le_two_pow; omega)
    omega
  have hmlt : m < 2 ^ F * 2 := by rw [hm]; split <;> omega
  have hnlt : n < 2 ^ F * 2 := by rw [hn]; split <;> omega
  have hmF : 2 ^ F ≤ m ∨ E = 0 := by rw [hm]; split <;> omega
  have hnF : 2 ^ F ≤ n ∨ G = 0 := by rw [hn]; split <;> omega
  have hm0 : m ≠ 0 := fun hz => h0 (by rw [hz]; simp)
  have hn0 : n ≠ 0 := fun hz => h0 (by rw [h, hz]; simp)
  have pa : (0 : ℚ) < m * 2 ^ (((E - 1 : ℕ) : ℤ) + 1 - f.bias - F) :=
    mul_pos (by exact_mod_cast Nat.pos_of_ne_zero hm0) (by positivity)
  have pb : (0 : ℚ) < n * 2 ^ (((G - 1 : ℕ) : ℤ) + 1 - f.bias - F) :=
    mul_pos (by exact_mod_cast Nat.pos_of_ne_zero hn0) (by positivity)
  have hsign : s = t ∧ (m : ℚ) * 2 ^ (((E - 1 : ℕ) : ℤ) + 1 - f.bias - F) = n * 2 ^ (((G - 1 : ℕ) : ℤ) + 1 - f.bias - F) := by
    have hs : s = 0 ∨ s = 1 := by omega
    have ht : t = 0 ∨ t = 1 := by omega
    rcases hs with rfl | rfl <;> rcases ht with rfl | rfl <;> simp at h
    · exact ⟨rfl, h⟩
    · linarith
    · linarith
    · exact ⟨rfl, h⟩
  obtain ⟨hst, hv⟩ := hsign
  have e1 := key m n E G hnF hmlt hv hm0
  have e2 := key n m G E hmF hnlt hv.symm hn0
  have e3 : G - 1 = E - 1 := by omega
  rw [e3] at hv
  have h4 : m = n := by
    have := mul_right_cancel₀ (by positivity) hv
    exact_mod_cast this
  have hEG : E = G ∧ r = q := by
    rw [hm, hn] at h4
    split at h4 <;> split at h4 <;> omega
  rw [da, db, hst, hEG.1, hEG.2]

/-- A double other than 0 is determined by its value. -/
theorem f64_ext {a b : F64} (ha : dFin a) (hb : dFin b) (h : dVal a = dVal b) (h0 : dVal a ≠ 0) : a = b :=
  BitVec.eq_of_toNat_eq (val_inj (f := binary64) ha hb a.isLt b.isLt h h0)

/-- A float other than 0 is determined by its value. -/
theorem f32_ext {a b : F32} (ha : sFin a) (hb : sFin b) (h : sVal a = sVal b) (h0 : sVal a ≠ 0) : a = b :=
  BitVec.eq_of_toNat_eq (val_inj (f := binary32) ha hb a.isLt b.isLt h h0)

end Sys2Proof.Machine
end

