-- ==== Sys2Proof/Laws/Exec.lean ====
section
/-! SUPPORT. Everything a command can do, said once: the first error of 60_exceptions.md R202, or the final state of
its path (40_command_common.md R100, R111). -/

namespace Sys2Proof.Machine

/-! ### The tables and the image of a path -/

/-- `XTAB` of the operands (43_area_general.md R151). -/
def tableX (o : Operands) : List WeightEntry := emittedEntries o.sw.toNat o.dw.toNat o.cn.toNat (scaleOf o.sw o.dw)

/-- `YTAB` of the operands (43_area_general.md R151). -/
def tableY (o : Operands) : List WeightEntry := emittedEntries o.sh.toNat o.dh.toNat 1 (scaleOf o.sh o.dh)

/-- `YGRP` of the operands (41_weight_table.md R128). -/
def groupsY (o : Operands) : List RunEntry := groupIndex (tableY o) o.dh.toNat

/-- `FPX` of the operands (44_linear.md R177). -/
def fixedX (o : Operands) : List FixedEntry := buildFptab o.sw.toNat o.dw.toNat o.cn.toNat (scaleOf o.sw o.dw)

/-- `FPY` of the operands (44_linear.md R177). -/
def fixedY (o : Operands) : List FixedEntry := buildFptab o.sh.toNat o.dh.toNat 1 (scaleOf o.sh o.dh)

/-- The integer scales of the operands (42_area_integer.md R141). -/
def scaleIntX (o : Operands) : ℕ := intScale (scaleOf o.sw o.dw)

@[inherit_doc scaleIntX] def scaleIntY (o : Operands) : ℕ := intScale (scaleOf o.sh o.dh)

/-- The row buffers of destination row `dy` (43_area_general.md R152). -/
def genRow (o : Operands) (m : Memory) (dy : ℕ) : RowBuffers := areaGenRow m o (tableX o) (tableY o) (groupsY o) dy

/-- The rows a path writes to the destination. -/
def pathRows (o : Operands) (p : PixelPath) (m : Memory) (dy : ℕ) : List Byte :=
  match p with
  | .noPath => []
  | .int => rowOf o.dw.toNat o.cn.toNat (areaIntSample m o.srcView o.cn.toNat (scaleIntX o) (scaleIntY o) dy)
  | .gen => (genRow o m dy).acc.map accByte
  | .lin =>
    rowOf o.dw.toNat o.cn.toNat fun dx ch =>
      linearSample m o.srcView (fixedAt (fixedY o) dy) (fixedAt (fixedX o) dx) ch

/-- Every row a pixel path writes is `dw*cn` bytes long. -/
theorem pathRows_length (o : Operands) {p : PixelPath} (hp : p ≠ .noPath) (m : Memory) (dy : ℕ) :
    (pathRows o p m dy).length = o.dw.toNat * o.cn.toNat := by
  cases p with
  | noPath => exact absurd rfl hp
  | int => exact rowOf_length _ _ _
  | gen =>
    show ((genRow o m dy).acc.map accByte).length = _
    rw [List.length_map]
    exact (areaGenRow_length _ _ _ _ _ _).1
  | lin => exact rowOf_length _ _ _

/-! ### The final states (40_command_common.md R111) -/

/-- The results and tables a path leaves, from the cleared state. -/
def pathResults (o : Operands) (p : PixelPath) (s0 : State) : State :=
  match p with
  | .noPath => complete .noPath s0
  | .int => complete .int { s0 with
      iscaleX := BitVec.ofNat 32 (scaleIntX o), iscaleY := BitVec.ofNat 32 (scaleIntY o) }
  | .gen => complete .gen (setBuffers (genRow o s0.mem (o.dh.toNat - 1)) (setYtab (tableY o) (groupsY o)
      (setXtab (tableX o) s0)))
  | .lin => complete .lin (setFpy (fixedY o) (setFpx (fixedX o) s0))

/-- The state a pixel path leaves, from the cleared state: results, tables, data memory. -/
def pathFinal (o : Operands) (p : PixelPath) (s0 : State) : State :=
  { pathResults o p s0 with mem := s0.mem.writeRows o.dstView (pathRows o p s0.mem) o.dstView.height }

/-- The state an accepted command leaves, from the cleared state. -/
def finalState (i : Instr) (s0 : State) : State :=
  let o := operands Config.default s0
  match i with
  | .resize => pathFinal o (pathByDimensions s0) s0
  | .areaInt => pathFinal o .int s0
  | .areaGen => pathFinal o .gen s0
  | .linear => pathFinal o .lin s0
  | .wtabX => complete .noPath (setXtab (tableX o) s0)
  | .wtabY => complete .noPath (setYtab (tableY o) (groupsY o) s0)
  | .fptabX => complete .noPath (setFpx (fixedX o) s0)
  | .fptabY => complete .noPath (setFpy (fixedY o) s0)

section
variable (o : Operands) (p : PixelPath) (s0 : State)

@[simp] theorem pathFinal_srcBase : (pathFinal o p s0).srcBase = s0.srcBase := by
  cases p <;> simp [pathFinal, pathResults]
@[simp] theorem pathFinal_srcWidth : (pathFinal o p s0).srcWidth = s0.srcWidth := by
  cases p <;> simp [pathFinal, pathResults]
@[simp] theorem pathFinal_srcHeight : (pathFinal o p s0).srcHeight = s0.srcHeight := by
  cases p <;> simp [pathFinal, pathResults]
@[simp] theorem pathFinal_srcStride : (pathFinal o p s0).srcStride = s0.srcStride := by
  cases p <;> simp [pathFinal, pathResults]
@[simp] theorem pathFinal_dstBase : (pathFinal o p s0).dstBase = s0.dstBase := by
  cases p <;> simp [pathFinal, pathResults]
@[simp] theorem pathFinal_dstWidth : (pathFinal o p s0).dstWidth = s0.dstWidth := by
  cases p <;> simp [pathFinal, pathResults]
@[simp] theorem pathFinal_dstHeight : (pathFinal o p s0).dstHeight = s0.dstHeight := by
  cases p <;> simp [pathFinal, pathResults]
@[simp] theorem pathFinal_dstStride : (pathFinal o p s0).dstStride = s0.dstStride := by
  cases p <;> simp [pathFinal, pathResults]
@[simp] theorem pathFinal_channels : (pathFinal o p s0).channels = s0.channels := by
  cases p <;> simp [pathFinal, pathResults]
@[simp] theorem pathFinal_tabSel : (pathFinal o p s0).tabSel = s0.tabSel := by
  cases p <;> simp [pathFinal, pathResults]
@[simp] theorem pathFinal_tabIdx : (pathFinal o p s0).tabIdx = s0.tabIdx := by
  cases p <;> simp [pathFinal, pathResults]
@[simp] theorem pathFinal_script : (pathFinal o p s0).script = s0.script := by
  cases p <;> simp [pathFinal, pathResults]
@[simp] theorem pathFinal_listing : (pathFinal o p s0).listing = s0.listing := by
  cases p <;> simp [pathFinal, pathResults]
@[simp] theorem pathFinal_mem : (pathFinal o p s0).mem =
    s0.mem.writeRows o.dstView (pathRows o p s0.mem) o.dstView.height := rfl
@[simp] theorem pathFinal_done : (pathFinal o p s0).done = true := by
  cases p <;> simp [pathFinal, pathResults]
@[simp] theorem pathFinal_err : (pathFinal o p s0).err = .ok := by
  cases p <;> simp [pathFinal, pathResults]
@[simp] theorem pathFinal_path : (pathFinal o p s0).path = p := by
  cases p <;> simp [pathFinal, pathResults]
@[simp] theorem pathFinal_int_iscaleX : (pathFinal o .int s0).iscaleX = BitVec.ofNat 32 (scaleIntX o) := by
  simp [pathFinal, pathResults]
@[simp] theorem pathFinal_int_iscaleY : (pathFinal o .int s0).iscaleY = BitVec.ofNat 32 (scaleIntY o) := by
  simp [pathFinal, pathResults]
@[simp] theorem pathFinal_int_xtabCount : (pathFinal o .int s0).xtabCount = s0.xtabCount := by
  simp [pathFinal, pathResults]
@[simp] theorem pathFinal_int_ytabCount : (pathFinal o .int s0).ytabCount = s0.ytabCount := by
  simp [pathFinal, pathResults]
@[simp] theorem pathFinal_int_ygrpCount : (pathFinal o .int s0).ygrpCount = s0.ygrpCount := by
  simp [pathFinal, pathResults]
@[simp] theorem pathFinal_int_fpxCount : (pathFinal o .int s0).fpxCount = s0.fpxCount := by
  simp [pathFinal, pathResults]
@[simp] theorem pathFinal_int_fpyCount : (pathFinal o .int s0).fpyCount = s0.fpyCount := by
  simp [pathFinal, pathResults]
@[simp] theorem pathFinal_int_xtab : (pathFinal o .int s0).xtab = s0.xtab := by
  simp [pathFinal, pathResults]
@[simp] theorem pathFinal_int_ytab : (pathFinal o .int s0).ytab = s0.ytab := by
  simp [pathFinal, pathResults]
@[simp] theorem pathFinal_int_ygrp : (pathFinal o .int s0).ygrp = s0.ygrp := by
  simp [pathFinal, pathResults]
@[simp] theorem pathFinal_int_fpx : (pathFinal o .int s0).fpx = s0.fpx := by
  simp [pathFinal, pathResults]
@[simp] theorem pathFinal_int_fpy : (pathFinal o .int s0).fpy = s0.fpy := by
  simp [pathFinal, pathResults]
@[simp] theorem pathFinal_int_scratch : (pathFinal o .int s0).scratch = s0.scratch := by
  simp [pathFinal, pathResults]
@[simp] theorem pathFinal_int_acc : (pathFinal o .int s0).acc = s0.acc := by
  simp [pathFinal, pathResults]
@[simp] theorem pathFinal_gen_iscaleX : (pathFinal o .gen s0).iscaleX = s0.iscaleX := by
  simp [pathFinal, pathResults]
@[simp] theorem pathFinal_gen_iscaleY : (pathFinal o .gen s0).iscaleY = s0.iscaleY := by
  simp [pathFinal, pathResults]
@[simp] theorem pathFinal_gen_xtabCount : (pathFinal o .gen s0).xtabCount = BitVec.ofNat 32 (tableX o).length := by
  simp [pathFinal, pathResults]
@[simp] theorem pathFinal_gen_ytabCount : (pathFinal o .gen s0).ytabCount = BitVec.ofNat 32 (tableY o).length := by
  simp [pathFinal, pathResults]
@[simp] theorem pathFinal_gen_ygrpCount : (pathFinal o .gen s0).ygrpCount = BitVec.ofNat 32 (groupsY o).length := by
  simp [pathFinal, pathResults]
@[simp] theorem pathFinal_gen_fpxCount : (pathFinal o .gen s0).fpxCount = s0.fpxCount := by
  simp [pathFinal, pathResults]
@[simp] theorem pathFinal_gen_fpyCount : (pathFinal o .gen s0).fpyCount = s0.fpyCount := by
  simp [pathFinal, pathResults]
@[simp] theorem pathFinal_gen_xtab : (pathFinal o .gen s0).xtab = overlay (tableX o) s0.xtab := by
  simp [pathFinal, pathResults]
@[simp] theorem pathFinal_gen_ytab : (pathFinal o .gen s0).ytab = overlay (tableY o) s0.ytab := by
  simp [pathFinal, pathResults]
@[simp] theorem pathFinal_gen_ygrp : (pathFinal o .gen s0).ygrp = overlay (groupsY o) s0.ygrp := by
  simp [pathFinal, pathResults]
@[simp] theorem pathFinal_gen_fpx : (pathFinal o .gen s0).fpx = s0.fpx := by
  simp [pathFinal, pathResults]
@[simp] theorem pathFinal_gen_fpy : (pathFinal o .gen s0).fpy = s0.fpy := by
  simp [pathFinal, pathResults]
@[simp] theorem pathFinal_gen_scratch : (pathFinal o .gen s0).scratch = overlay (genRow o s0.mem (o.dh.toNat - 1)).scratch s0.scratch := by
  simp [pathFinal, pathResults]
@[simp] theorem pathFinal_gen_acc : (pathFinal o .gen s0).acc = overlay (genRow o s0.mem (o.dh.toNat - 1)).acc s0.acc := by
  simp [pathFinal, pathResults]
@[simp] theorem pathFinal_lin_iscaleX : (pathFinal o .lin s0).iscaleX = s0.iscaleX := by
  simp [pathFinal, pathResults]
@[simp] theorem pathFinal_lin_iscaleY : (pathFinal o .lin s0).iscaleY = s0.iscaleY := by
  simp [pathFinal, pathResults]
@[simp] theorem pathFinal_lin_xtabCount : (pathFinal o .lin s0).xtabCount = s0.xtabCount := by
  simp [pathFinal, pathResults]
@[simp] theorem pathFinal_lin_ytabCount : (pathFinal o .lin s0).ytabCount = s0.ytabCount := by
  simp [pathFinal, pathResults]
@[simp] theorem pathFinal_lin_ygrpCount : (pathFinal o .lin s0).ygrpCount = s0.ygrpCount := by
  simp [pathFinal, pathResults]
@[simp] theorem pathFinal_lin_fpxCount : (pathFinal o .lin s0).fpxCount = BitVec.ofNat 32 (fixedX o).length := by
  simp [pathFinal, pathResults]
@[simp] theorem pathFinal_lin_fpyCount : (pathFinal o .lin s0).fpyCount = BitVec.ofNat 32 (fixedY o).length := by
  simp [pathFinal, pathResults]
@[simp] theorem pathFinal_lin_xtab : (pathFinal o .lin s0).xtab = s0.xtab := by
  simp [pathFinal, pathResults]
@[simp] theorem pathFinal_lin_ytab : (pathFinal o .lin s0).ytab = s0.ytab := by
  simp [pathFinal, pathResults]
@[simp] theorem pathFinal_lin_ygrp : (pathFinal o .lin s0).ygrp = s0.ygrp := by
  simp [pathFinal, pathResults]
@[simp] theorem pathFinal_lin_fpx : (pathFinal o .lin s0).fpx = overlay (fixedX o) s0.fpx := by
  simp [pathFinal, pathResults]
@[simp] theorem pathFinal_lin_fpy : (pathFinal o .lin s0).fpy = overlay (fixedY o) s0.fpy := by
  simp [pathFinal, pathResults]
@[simp] theorem pathFinal_lin_scratch : (pathFinal o .lin s0).scratch = s0.scratch := by
  simp [pathFinal, pathResults]
@[simp] theorem pathFinal_lin_acc : (pathFinal o .lin s0).acc = s0.acc := by
  simp [pathFinal, pathResults]

end

@[simp] theorem tableX_clearResults (s : State) :
    tableX (operands Config.default (clearResults s)) = tableX (operands Config.default s) := rfl
@[simp] theorem groupsY_length (o : Operands) : (groupsY o).length = o.dh.toNat := groupIndex_length _ _
@[simp] theorem fixedX_length (o : Operands) : (fixedX o).length = o.dw.toNat := buildFptab_length _ _ _ _
@[simp] theorem fixedY_length (o : Operands) : (fixedY o).length = o.dh.toNat := buildFptab_length _ _ _ _

/-- An accepted command leaves success, `DONE`, and the path of 40_command_common.md R106. -/
theorem finalState_status (i : Instr) (s0 : State) :
    (finalState i s0).err = .ok ∧ (finalState i s0).done = true ∧ (finalState i s0).path = commandPath i s0 := by
  cases i <;> simp [finalState, commandPath]

/-- A pixel command leaves the final state of its path. -/
theorem finalState_pixel {i : Instr} (hi : i ∈ pixelCommands) (s0 : State) :
    finalState i s0 = pathFinal (operands Config.default s0) (commandPath i s0) s0 := by
  revert hi
  cases i <;> first | (intro _; rfl) | (intro h; exact absurd h (by decide))

/-- What an accepted command does on the cleared state: its final state, or the refusal of overlapping footprints
(20_memory.md R72). -/
def acceptedBody (i : Instr) (s0 : State) : Out :=
  if i ∉ pixelCommands ∨
      (operands Config.default s0).srcView.disjoint (operands Config.default s0).dstView = true then
    .next (finalState i s0)
  else .refused .overlappingFootprints

/-- The body of a pixel path with legal lengths. -/
theorem pathBody_eq {o : Operands} {p : PixelPath} (hp : p ≠ .noPath) (s0 : State)
    (hw : p = .gen → 1 ≤ o.dw ∧ o.dw ≤ o.sw ∧ o.sw ≤ 65535) (hh : p = .gen → 1 ≤ o.dh ∧ o.dh ≤ o.sh ∧ o.sh ≤ 65535) :
    pathBody Config.default o p s0 =
      if o.srcView.disjoint o.dstView = true then .next (pathFinal o p s0) else .refused .overlappingFootprints := by
  cases p with
  | noPath => exact absurd rfl hp
  | int => exact areaIntBody_eq s0 o
  | gen =>
    obtain ⟨a1, a2, a3⟩ := hw rfl
    obtain ⟨b1, b2, b3⟩ := hh rfl
    show areaGenBody Config.default o s0 = _
    unfold areaGenBody Operands.scaleX Operands.scaleY
    rw [buildWtab_legal _ a1 a2 a3, buildWtab_legal _ b1 b2 b3]
    exact areaGenPixels_eq s0 o _ _
  | lin => exact linearBody_eq s0 o

theorem acceptedBody_pixel {i : Instr} (hi : i ∈ pixelCommands) (s : State) :
    acceptedBody i (clearResults s) =
      if (operands Config.default s).srcView.disjoint (operands Config.default s).dstView = true then
        .next (finalState i (clearResults s))
      else .refused .overlappingFootprints := by
  unfold acceptedBody
  simp only [hi, not_true_eq_false, false_or, operands_clearResults]

/-! ### The checks of a command -/

/-- The first error of a command, in the order of 60_exceptions.md R202, in integers on the registers. -/
def firstError (i : Instr) (s : State) : Option ErrCode :=
  if failsV1 i s then some .invalidArgument
  else if failsV2 i s then some .dimensionOverflow
  else if failsV3 i s then some .invalidStride
  else if failsV4 i s then some .dimensionOverflow
  else if failsScales i s then some .invalidArgument
  else if failsV7 i s then some .allocationFailure
  else none

/-- The two ways a command ends (40_command_common.md R100). -/
def outcomeOf (r : Option ErrCode) (s : State) (b : State → Out) : Out :=
  match r with
  | some e => .next (raiseError e (clearResults s))
  | none => b (clearResults s)

theorem command_eq_outcome {checks : List Check} {b b' : State → Out} {s : State} {r : Option ErrCode}
    (h : firstFailure checks = r) (hb : r = none → b (clearResults s) = b' (clearResults s)) :
    command checks b s = outcomeOf r s b' := by
  unfold command
  rw [h]
  cases r with
  | none => exact hb rfl
  | some e => rfl

theorem firstError_eq (i : Instr) (s : State) (rest : List Check)
    (hrest : OperandsLegal i s → firstFailure rest =
      if failsScales i s then some .invalidArgument else if failsV7 i s then some .allocationFailure else none) :
    firstFailure (operandChecks Config.default (operandUse i) (operands Config.default s) ++ rest) = firstError i s := by
  rw [firstFailure_operandChecks]
  unfold firstError
  by_cases h1 : failsV1 i s
  · rw [if_pos h1, if_pos h1]
  · by_cases h2 : failsV2 i s
    · rw [if_neg h1, if_pos h2, if_neg h1, if_pos h2]
    · by_cases h3 : failsV3 i s
      · rw [if_neg h1, if_neg h2, if_pos h3, if_neg h1, if_neg h2, if_pos h3]
      · by_cases h4 : failsV4 i s
        · rw [if_neg h1, if_neg h2, if_neg h3, if_pos h4, if_neg h1, if_neg h2, if_neg h3, if_pos h4]
        · rw [if_neg h1, if_neg h2, if_neg h3, if_neg h4, if_neg h1, if_neg h2, if_neg h3, if_neg h4]
          exact hrest ⟨h1, h2, h3, h4⟩

theorem firstError_none {i : Instr} {s : State} : firstError i s = none ↔ Accepted i s := by
  unfold firstError
  constructor
  · intro h
    split_ifs at h with h1 h2 h3 h4 h5 h6
    exact ⟨⟨h1, h2, h3, h4⟩, h5, h6⟩
  · rintro ⟨⟨h1, h2, h3, h4⟩, h5, h6⟩
    rw [if_neg h1, if_neg h2, if_neg h3, if_neg h4, if_neg h5, if_neg h6]

/-- A path of the dispatcher is a pixel path. -/
theorem pathByDimensions_ne (s : State) : pathByDimensions s ≠ .noPath := by
  unfold pathByDimensions
  split_ifs <;> decide

/-- Everything a command can do: its first error, or its body on the cleared state (40_command_common.md R100). -/
theorem exec_eq (i : Instr) (s : State) : exec i s = outcomeOf (firstError i s) s (acceptedBody i) := by
  cases i with
  | resize =>
    show Sys2Proof.Machine.resize Config.default s = _
    unfold Sys2Proof.Machine.resize
    simp only []
    refine command_eq_outcome (firstError_eq .resize s _ ?_) ?_
    · intro h
      rw [selectPath_legal h (by decide)]
      have hs : ¬ failsScales .resize s := by simp [failsScales]
      rw [if_neg hs]
      unfold failsV7 commandPath
      cases hp : pathByDimensions s with
      | noPath => unfold pathByDimensions at hp; split_ifs at hp
      | int => simp [pathNeeds, needChecks_nil]
      | gen =>
        simp only [pathNeeds, needChecks_gen h (by decide : Instr.resize ∈ pixelCommands)]
        simp only [reduceCtorEq, or_false, true_and, false_and]
        split_ifs <;> first | rfl | (exfalso; omega)
      | lin =>
        simp only [pathNeeds, needChecks_lin h (by decide : Instr.resize ∈ pixelCommands)]
        simp only [reduceCtorEq, or_false, true_and, false_and, false_or]
        split_ifs <;> first | rfl | (exfalso; omega)
    · intro h
      have ha := firstError_none.mp h
      obtain ⟨w1, w2, w3, w4, -, -⟩ := ha.toOperandsLegal.widths (by decide)
      obtain ⟨v1, v2, v3, v4⟩ := ha.toOperandsLegal.heights (by decide)
      have hd : pathByDimensions s = .gen →
          s32 s.dstWidth ≤ s32 s.srcWidth ∧ s32 s.dstHeight ≤ s32 s.srcHeight := by
        unfold pathByDimensions
        split_ifs with c1 c2
        · intro hh; cases hh
        · intro hh; cases hh
        · intro _; omega
      rw [selectPath_legal ha.toOperandsLegal (by decide), acceptedBody_pixel (by decide),
        pathBody_eq (pathByDimensions_ne s)]
      · rfl
      · intro hh; exact ⟨w3, (hd hh).1, w2⟩
      · intro hh; exact ⟨v3, (hd hh).2, v2⟩
  | areaInt =>
    show Sys2Proof.Machine.areaInt Config.default s = _
    unfold Sys2Proof.Machine.areaInt
    simp only []
    refine command_eq_outcome (firstError_eq .areaInt s _ ?_) ?_
    · intro h
      rw [firstFailure_cons, needChecks_nil]
      simp only [areaIntAllowed_legal h (by decide : Instr.areaInt ∈ pixelCommands)]
      unfold failsScales failsV7 commandPath
      simp only [reduceCtorEq, or_false, true_and, false_and, if_false]
      split_ifs <;> rfl
    · intro _
      rw [acceptedBody_pixel (by decide)]
      exact areaIntBody_eq _ _
  | areaGen =>
    show Sys2Proof.Machine.areaGen Config.default s = _
    unfold Sys2Proof.Machine.areaGen
    simp only []
    refine command_eq_outcome (firstError_eq .areaGen s _ ?_) ?_
    · intro h
      rw [firstFailure_cons, needChecks_gen h (by decide)]
      simp only [areaGenAllowed_legal h (by decide : Instr.areaGen ∈ pixelCommands)]
      unfold failsScales failsV7 commandPath
      simp only [reduceCtorEq, or_false, false_or, true_and, false_and]
      split_ifs <;> first | rfl | (exfalso; omega)
    · intro h
      have ha := firstError_none.mp h
      obtain ⟨w1, w2, w3, w4, -, -⟩ := ha.toOperandsLegal.widths (by decide)
      obtain ⟨v1, v2, v3, v4⟩ := ha.toOperandsLegal.heights (by decide)
      have h5 := ha.scales
      unfold failsScales at h5
      simp only [reduceCtorEq, or_false, false_or, true_and, false_and, not_or, not_lt] at h5
      rw [acceptedBody_pixel (by decide)]
      exact pathBody_eq (p := .gen) (by decide) _ (fun _ => ⟨w3, h5.1, w2⟩) (fun _ => ⟨v3, h5.2, v2⟩)
  | linear =>
    show Sys2Proof.Machine.linear Config.default s = _
    unfold Sys2Proof.Machine.linear
    simp only []
    refine command_eq_outcome (firstError_eq .linear s _ ?_) ?_
    · intro h
      rw [needChecks_lin h (by decide)]
      unfold failsScales failsV7 commandPath
      simp only [reduceCtorEq, or_false, false_or, true_and, false_and, if_false]
      split_ifs <;> first | rfl | (exfalso; omega)
    · intro _
      rw [acceptedBody_pixel (by decide)]
      exact linearBody_eq _ _
  | wtabX =>
    show Sys2Proof.Machine.wtabX Config.default s = _
    unfold Sys2Proof.Machine.wtabX
    simp only []
    refine command_eq_outcome (firstError_eq .wtabX s _ ?_) ?_
    · intro h
      unfold wtabChecks
      rw [firstFailure_cons, needChecks_xtab h (by decide)]
      simp only [scaleX_legal h (by decide : Instr.wtabX ∈ widthCommands)]
      unfold failsScales failsV7 commandPath
      simp only [reduceCtorEq, or_false, false_or, true_and, false_and]
      split_ifs <;> first | rfl | (exfalso; omega)
    · intro hl
      have ha := firstError_none.mp hl
      obtain ⟨w1, w2, w3, w4, -, -⟩ := ha.toOperandsLegal.widths (by decide)
      have h5 := ha.scales
      unfold failsScales at h5
      have := buildWtab_legal (a := s32 s.srcWidth) (b := s32 s.dstWidth) (s32 s.channels).toNat w3 (by
        simp at h5; omega) w2
      unfold Operands.scaleX
      simp only [operands_sw, operands_dw, operands_cn, this]
      rfl
  | wtabY =>
    show Sys2Proof.Machine.wtabY Config.default s = _
    unfold Sys2Proof.Machine.wtabY
    simp only []
    refine command_eq_outcome (firstError_eq .wtabY s _ ?_) ?_
    · intro h
      unfold wtabChecks
      rw [firstFailure_cons, needChecks_ytab h (by decide)]
      simp only [scaleY_legal h (by decide : Instr.wtabY ∈ heightCommands)]
      unfold failsScales failsV7 commandPath
      simp only [reduceCtorEq, or_false, false_or, true_and, false_and]
      split_ifs <;> first | rfl | (exfalso; omega)
    · intro hl
      have ha := firstError_none.mp hl
      obtain ⟨w1, w2, w3, w4⟩ := ha.toOperandsLegal.heights (by decide)
      have h5 := ha.scales
      unfold failsScales at h5
      have := buildWtab_legal (a := s32 s.srcHeight) (b := s32 s.dstHeight) 1 w3 (by
        simp at h5; omega) w2
      unfold Operands.scaleY
      simp only [operands_sh, operands_dh, this]
      rfl
  | fptabX =>
    show Sys2Proof.Machine.fptabX Config.default s = _
    unfold Sys2Proof.Machine.fptabX
    simp only []
    refine command_eq_outcome (firstError_eq .fptabX s _ ?_) ?_
    · intro h
      rw [needChecks_fpx h (by decide)]
      unfold failsScales failsV7 commandPath
      simp only [reduceCtorEq, or_false, false_or, true_and, false_and, if_false]
      split_ifs <;> first | rfl | (exfalso; omega)
    · intro _; rfl
  | fptabY =>
    show Sys2Proof.Machine.fptabY Config.default s = _
    unfold Sys2Proof.Machine.fptabY
    simp only []
    refine command_eq_outcome (firstError_eq .fptabY s _ ?_) ?_
    · intro h
      rw [needChecks_fpy h (by decide)]
      unfold failsScales failsV7 commandPath
      simp only [reduceCtorEq, or_false, false_or, true_and, false_and, if_false]
      split_ifs <;> first | rfl | (exfalso; omega)
    · intro _; rfl

/-- The inversion of a command: from a next state, an error completion or the final state of its path. -/
theorem exec_next {i : Instr} {s t : State} (h : exec i s = .next t) :
    (∃ e, firstError i s = some e ∧ t = raiseError e (clearResults s)) ∨
    (Accepted i s ∧ (i ∈ pixelCommands → footprintsApart s) ∧ t = finalState i (clearResults s)) := by
  rw [exec_eq] at h
  unfold outcomeOf at h
  cases he : firstError i s with
  | some e =>
    rw [he] at h
    cases h
    exact .inl ⟨e, rfl, rfl⟩
  | none =>
    rw [he] at h
    have ha := firstError_none.mp he
    refine .inr ⟨ha, ?_⟩
    by_cases hi : i ∈ pixelCommands
    · simp only [acceptedBody_pixel hi] at h
      by_cases hd : (operands Config.default s).srcView.disjoint (operands Config.default s).dstView = true
      · rw [if_pos hd] at h
        cases h
        exact ⟨fun _ => (disjoint_legal ha.toOperandsLegal hi).mp hd, rfl⟩
      · rw [if_neg hd] at h
        cases h
    · unfold acceptedBody at h
      simp only [hi, not_false_eq_true, true_or, if_true] at h
      cases h
      exact ⟨fun hh => absurd hh hi, rfl⟩

/-! ### Accepted lengths -/

/-- An accepted command that builds the horizontal weight table has a shrinking axis that fits (40_command_common.md
R106, R107). -/
theorem Accepted.weightsX {i : Instr} {s : State} (ha : Accepted i s) (h : commandPath i s = .gen ∨ i = .wtabX) :
    1 ≤ s32 s.dstWidth ∧ s32 s.dstWidth ≤ s32 s.srcWidth ∧ 2 * s32 s.srcWidth + 2 ≤ 16386 := by
  have h5 := ha.scales
  have h7 := ha.v7
  unfold failsScales at h5
  unfold failsV7 at h7
  push Not at h7
  have hi : i ∈ widthCommands := by revert h; cases i <;> simp [commandPath, widthCommands]
  obtain ⟨w1, w2, w3, w4, -, -⟩ := ha.toOperandsLegal.widths hi
  refine ⟨w3, ?_, h7.1 h⟩
  revert h
  cases i <;> simp [commandPath] at h5 ⊢
  · unfold pathByDimensions; split_ifs <;> simp; omega
  · exact h5.1
  · exact h5

/-- The same for the vertical weight table. -/
theorem Accepted.weightsY {i : Instr} {s : State} (ha : Accepted i s) (h : commandPath i s = .gen ∨ i = .wtabY) :
    1 ≤ s32 s.dstHeight ∧ s32 s.dstHeight ≤ s32 s.srcHeight ∧ 2 * s32 s.srcHeight + 2 ≤ 16386 := by
  have h5 := ha.scales
  have h7 := ha.v7
  unfold failsScales at h5
  unfold failsV7 at h7
  push Not at h7
  have hi : i ∈ heightCommands := by revert h; cases i <;> simp [commandPath, heightCommands]
  obtain ⟨w1, w2, w3, w4⟩ := ha.toOperandsLegal.heights hi
  refine ⟨w3, ?_, h7.2.1 h⟩
  revert h
  cases i <;> simp [commandPath] at h5 ⊢
  · unfold pathByDimensions; split_ifs <;> simp; omega
  · exact h5.2
  · exact h5

/-- The tables of an accepted command fit their memories (10_state.md R44 to R48). -/
theorem Accepted.tableX_length {i : Instr} {s : State} (ha : Accepted i s) (h : commandPath i s = .gen ∨ i = .wtabX) :
    (tableX (operands Config.default s)).length ≤ 16386 := by
  obtain ⟨a, b, c⟩ := ha.weightsX h
  have := emittedEntries_legal (s32 s.channels).toNat a b (by omega)
  show (emittedEntries (s32 s.srcWidth).toNat (s32 s.dstWidth).toNat (s32 s.channels).toNat
    (scaleOf (s32 s.srcWidth) (s32 s.dstWidth))).length ≤ 16386
  omega

theorem Accepted.tableY_length {i : Instr} {s : State} (ha : Accepted i s) (h : commandPath i s = .gen ∨ i = .wtabY) :
    (tableY (operands Config.default s)).length ≤ 16386 := by
  obtain ⟨a, b, c⟩ := ha.weightsY h
  have := emittedEntries_legal 1 a b (by omega)
  show (emittedEntries (s32 s.srcHeight).toNat (s32 s.dstHeight).toNat 1
    (scaleOf (s32 s.srcHeight) (s32 s.dstHeight))).length ≤ 16386
  omega

/-- An accepted command that builds a fixed-point table, or the row buffers, has lengths that fit. -/
theorem Accepted.fits {i : Instr} {s : State} (ha : Accepted i s) :
    (commandPath i s = .gen → s32 s.dstWidth * s32 s.channels ≤ 32768) ∧
    (commandPath i s = .lin ∨ i = .fptabX → s32 s.dstWidth ≤ 8192) ∧
    (commandPath i s = .lin ∨ i = .fptabY → s32 s.dstHeight ≤ 8192) := by
  have h7 := ha.v7
  unfold failsV7 at h7
  push Not at h7
  exact ⟨h7.2.2.1, h7.2.2.2.1, h7.2.2.2.2⟩

/-- On the integer path both axes divide exactly (45_dispatch.md R191, 40_command_common.md R106). -/
theorem Accepted.divides {i : Instr} {s : State} (ha : Accepted i s) (h : commandPath i s = .int) :
    s32 s.srcWidth % s32 s.dstWidth = 0 ∧ s32 s.srcHeight % s32 s.dstHeight = 0 := by
  have h5 := ha.scales
  unfold failsScales at h5
  revert h
  cases i <;> simp only [commandPath, reduceCtorEq, false_implies]
  · unfold pathByDimensions
    split_ifs with c1 c2
    · simp
    · intro _; exact c2
    · simp
  · intro _
    by_contra hc
    apply h5
    left
    refine ⟨rfl, ?_⟩
    unfold dividesX dividesY
    tauto

/-- The rows of the destination of a legal pixel command end within the address space (40_command_common.md R105). -/
theorem OperandsLegal.row_end {i : Instr} {s : State} (ha : OperandsLegal i s) (hi : i ∈ pixelCommands) {y : ℕ}
    (hy : y < (operands Config.default s).dstView.height) :
    (operands Config.default s).dstView.addr y 0 + (operands Config.default s).dstView.rowBytes ≤
      2 ^ Config.default.addrBits := by
  obtain ⟨-, -, -, a4, -, a6⟩ := ha.strides hi
  obtain ⟨w1, w2, w3, w4, c1, c2⟩ := ha.widths (by revert hi; cases i <;> decide)
  obtain ⟨v1, v2, v3, v4⟩ := ha.heights (by revert hi; cases i <;> decide)
  simp only [View.addr, Operands.dstView, operands_db, operands_ds, operands_dw, operands_cn, operands_dh] at hy ⊢
  show _ ≤ 4294967296
  have hst : 0 ≤ s32 s.dstStride := le_trans (by positivity) a4
  have e1 : ((s32 s.dstWidth).toNat * (s32 s.channels).toNat : ℕ) = (s32 s.dstWidth * s32 s.channels).toNat := by
    rw [Int.toNat_mul (by omega) (by omega)]
  have e2 : y * (s32 s.dstStride).toNat ≤ ((s32 s.dstHeight - 1) * s32 s.dstStride).toNat := by
    rw [Int.toNat_mul (by omega) hst]
    exact Nat.mul_le_mul_right _ (by omega)
  have e3 : 0 ≤ (s32 s.dstHeight - 1) * s32 s.dstStride := mul_nonneg (by omega) hst
  have e4 : 0 ≤ s32 s.dstWidth * s32 s.channels := mul_nonneg (by omega) (by omega)
  rw [e1]
  omega

/-- The rows of the destination of a legal pixel command do not meet (20_memory.md R62). -/
theorem OperandsLegal.rows_apart {i : Instr} {s : State} (ha : OperandsLegal i s) (hi : i ∈ pixelCommands) :
    (operands Config.default s).dstView.rowBytes ≤ (operands Config.default s).dstView.stride := by
  obtain ⟨-, -, -, a4, -, -⟩ := ha.strides hi
  obtain ⟨w1, w2, w3, w4, c1, c2⟩ := ha.widths (by revert hi; cases i <;> decide)
  simp only [Operands.dstView, operands_ds, operands_dw, operands_cn]
  rw [← Int.toNat_mul (by omega) (by omega)]
  omega

end Sys2Proof.Machine
end

