-- ==== Sys2Proof/Laws/PerInstr.lean ====
section
/-! SUPPORT. What is said of every command of the opcode map, one lemma per constructor. -/

/-- The command word of `i` is well formed (30_encoding.md R83), its `ZERO` field is 0 (R80), its `OP` is the one of
the opcode map (R81),
and the decoder reads the command back from its row of the opcode table. -/
def Sys2Proof.Laws.WordFormed.Statement (i : Sys2Proof.Instr) : Prop :=
  (Sys2Proof.fieldsOf (Sys2Proof.encode i)).wf = true ∧
  (Sys2Proof.fieldsOf (Sys2Proof.encode i)).zero = 0#28 ∧
  (Sys2Proof.fieldsOf (Sys2Proof.encode i)).op = i.op ∧
  Sys2Proof.decodeTableWord 32 (Sys2Proof.encode i).toNat = some i

theorem Sys2Proof.Laws.WordFormed.resize : Sys2Proof.Laws.WordFormed.Statement .resize := by
  unfold Sys2Proof.Laws.WordFormed.Statement; decide

theorem Sys2Proof.Laws.WordFormed.areaInt : Sys2Proof.Laws.WordFormed.Statement .areaInt := by
  unfold Sys2Proof.Laws.WordFormed.Statement; decide

theorem Sys2Proof.Laws.WordFormed.areaGen : Sys2Proof.Laws.WordFormed.Statement .areaGen := by
  unfold Sys2Proof.Laws.WordFormed.Statement; decide

theorem Sys2Proof.Laws.WordFormed.linear : Sys2Proof.Laws.WordFormed.Statement .linear := by
  unfold Sys2Proof.Laws.WordFormed.Statement; decide

theorem Sys2Proof.Laws.WordFormed.wtabX : Sys2Proof.Laws.WordFormed.Statement .wtabX := by
  unfold Sys2Proof.Laws.WordFormed.Statement; decide

theorem Sys2Proof.Laws.WordFormed.wtabY : Sys2Proof.Laws.WordFormed.Statement .wtabY := by
  unfold Sys2Proof.Laws.WordFormed.Statement; decide

theorem Sys2Proof.Laws.WordFormed.fptabX : Sys2Proof.Laws.WordFormed.Statement .fptabX := by
  unfold Sys2Proof.Laws.WordFormed.Statement; decide

theorem Sys2Proof.Laws.WordFormed.fptabY : Sys2Proof.Laws.WordFormed.Statement .fptabY := by
  unfold Sys2Proof.Laws.WordFormed.Statement; decide
end

