-- ==== Sys2Proof/Laws/Pixels.lean ====
section
/-! SUPPORT. What an accepted command answers, and the value of each destination sample (20_memory.md R64), path by
path. -/

namespace Sys2Proof.Machine

/-! ### An accepted command -/

/-- A command that passes its checks, with disjoint footprints, answers its final state. -/
theorem exec_accepted {i : Instr} {s : State} (ha : Accepted i s) (hf : i ∈ pixelCommands → footprintsApart s) :
    exec i s = .next (finalState i (clearResults s)) := by
  rw [exec_eq, firstError_none.mpr ha]
  show acceptedBody i (clearResults s) = _
  unfold acceptedBody
  by_cases hi : i ∈ pixelCommands
  · rw [if_pos (.inr ((disjoint_legal ha.toOperandsLegal hi).mpr (hf hi)))]
  · rw [if_pos (.inl hi)]

theorem commandPath_clearResults (i : Instr) (s : State) : commandPath i (clearResults s) = commandPath i s := rfl

theorem commandPath_noPath {i : Instr} {s : State} : commandPath i s = .noPath ↔ i ∉ pixelCommands := by
  cases i <;> simp [commandPath, pathByDimensions_ne, pixelCommands]

/-- The state an accepted pixel command leaves. -/
theorem finalState_accepted {i : Instr} (hi : i ∈ pixelCommands) (s : State) :
    finalState i (clearResults s) =
      pathFinal (operands Config.default s) (commandPath i s) (clearResults s) := by
  rw [finalState_pixel hi]
  rfl

theorem destinationAddr_eq (s : State) (dy dx ch : ℕ) :
    destinationAddr s dy dx ch =
      (operands Config.default s).dstView.addr dy (dx * (operands Config.default s).cn.toNat + ch) := by
  simp [destinationAddr, View.addr, Operands.dstView, Nat.add_assoc]

theorem sourceAddr_eq (s : State) (y x ch : ℕ) :
    sourceAddr s y x ch =
      (operands Config.default s).srcView.addr y (x * (operands Config.default s).cn.toNat + ch) := by
  simp [sourceAddr, View.addr, Operands.srcView, Nat.add_assoc]

theorem pixel_offset_lt {dx dw ch cn : ℕ} (hdx : dx < dw) (hch : ch < cn) : dx * cn + ch < dw * cn := by
  have : (dx + 1) * cn ≤ dw * cn := Nat.mul_le_mul_right _ hdx
  rw [Nat.add_mul] at this
  omega

/-- A destination sample after an accepted pixel command is its byte of the row the path writes (20_memory.md R64). -/
theorem read_destination {i : Instr} {s : State} (ha : Accepted i s) (hi : i ∈ pixelCommands) {dy dx ch : ℕ}
    (hdy : dy < (s32 s.dstHeight).toNat) (hdx : dx < (s32 s.dstWidth).toNat) (hch : ch < (s32 s.channels).toNat) :
    (pathRows (operands Config.default s) (commandPath i s) s.mem dy)[dx * (s32 s.channels).toNat + ch]? =
      some ((finalState i (clearResults s)).mem.read (destinationAddr s dy dx ch)) := by
  have hp : commandPath i s ≠ .noPath := fun h => absurd hi (commandPath_noPath.mp h)
  have hlen : ∀ y, (pathRows (operands Config.default s) (commandPath i s) s.mem y).length =
      (operands Config.default s).dstView.rowBytes := fun y => pathRows_length _ hp _ _
  have hk : dx * (s32 s.channels).toNat + ch < (operands Config.default s).dstView.rowBytes :=
    pixel_offset_lt hdx hch
  rw [finalState_accepted hi, pathFinal_mem, destinationAddr_eq, operands_cn]
  show _ = some (Memory.read (Memory.writeRows s.mem (operands Config.default s).dstView
    (pathRows (operands Config.default s) (commandPath i s) s.mem) _) _)
  rw [Memory.read_writeRows s.mem _ _ _ (ha.toOperandsLegal.rows_apart hi) (fun y _ => hlen y)
    (show dy < (operands Config.default s).dstView.height from hdy) hk]
  exact List.getElem?_eq_getElem _

/-- The integer path (42_area_integer.md R142). -/
theorem read_int {i : Instr} {s : State} (ha : Accepted i s) (hi : i ∈ pixelCommands) (hp : commandPath i s = .int)
    {dy dx ch : ℕ} (hdy : dy < (s32 s.dstHeight).toNat) (hdx : dx < (s32 s.dstWidth).toNat)
    (hch : ch < (s32 s.channels).toNat) :
    (finalState i (clearResults s)).mem.read (destinationAddr s dy dx ch) =
      areaIntSample s.mem (operands Config.default s).srcView (s32 s.channels).toNat
        (scaleIntX (operands Config.default s)) (scaleIntY (operands Config.default s)) dy dx ch := by
  have h := read_destination ha hi hdy hdx hch
  rw [hp] at h
  simp only [pathRows, operands_dw, operands_cn] at h
  rw [rowOf_getElem? _ hdx hch] at h
  exact (Option.some.inj h).symm

/-- The linear path (44_linear.md R178). -/
theorem read_lin {i : Instr} {s : State} (ha : Accepted i s) (hi : i ∈ pixelCommands) (hp : commandPath i s = .lin)
    {dy dx ch : ℕ} (hdy : dy < (s32 s.dstHeight).toNat) (hdx : dx < (s32 s.dstWidth).toNat)
    (hch : ch < (s32 s.channels).toNat) :
    (finalState i (clearResults s)).mem.read (destinationAddr s dy dx ch) =
      linearSample s.mem (operands Config.default s).srcView (fixedAt (fixedY (operands Config.default s)) dy)
        (fixedAt (fixedX (operands Config.default s)) dx) ch := by
  have h := read_destination ha hi hdy hdx hch
  rw [hp] at h
  simp only [pathRows, operands_dw, operands_cn] at h
  rw [rowOf_getElem? _ hdx hch] at h
  exact (Option.some.inj h).symm

/-! ### One element of the general path (43_area_general.md R154, R155) -/

/-- What one entry adds to the element of channel `ch` of its pixel. -/
def sampleTerm (m : Memory) (src : View) (sy ch : ℕ) (x : F32) (e : WeightEntry) : F32 :=
  f32Add x (f32Mul (f32OfU8 (m.read (src.addr sy (e.si + ch)))) e.alpha)

/-- One entry touches the `cn` elements of its pixel and no other. -/
theorem entry_getElem? (m : Memory) (src : View) (sy : ℕ) (e : WeightEntry) (l : List F32) (cn k : ℕ) :
    ((List.range cn).foldl (addTerm m src sy e) l)[k]? =
      if e.di ≤ k ∧ k < e.di + cn then l[k]?.map fun x => sampleTerm m src sy (k - e.di) x e else l[k]? := by
  induction cn with
  | zero => rw [if_neg (by omega)]; rfl
  | succ c ih =>
    rw [List.range_succ, List.foldl_append, List.foldl_cons, List.foldl_nil]
    unfold addTerm at ih ⊢
    rw [List.getElem?_modify, ih]
    by_cases hk : e.di + c = k
    · rw [if_neg (by omega : ¬ (e.di ≤ k ∧ k < e.di + c)), if_pos (by omega : e.di ≤ k ∧ k < e.di + (c + 1)),
        show k - e.di = c by omega]
      simp [hk, sampleTerm]
    · by_cases h : e.di ≤ k ∧ k < e.di + c
      · rw [if_pos h, if_pos (by omega : e.di ≤ k ∧ k < e.di + (c + 1))]
        simp [hk]
      · rw [if_neg h, if_neg (by omega : ¬ (e.di ≤ k ∧ k < e.di + (c + 1)))]
        simp [hk]

/-- The entries of one pixel, in table order. -/
theorem cell_getElem? (m : Memory) (src : View) (sy : ℕ) (cn : ℕ) (cell : List WeightEntry) (d dx ch : ℕ)
    (hd : ∀ e ∈ cell, e.di = d * cn) (hch : ch < cn) (l : List F32) :
    (cell.foldl (fun scratch e => (List.range cn).foldl (addTerm m src sy e) scratch) l)[dx * cn + ch]? =
      if d = dx then l[dx * cn + ch]?.map fun x => cell.foldl (sampleTerm m src sy ch) x
      else l[dx * cn + ch]? := by
  induction cell generalizing l with
  | nil => simp
  | cons e rest ih =>
    rw [List.foldl_cons, ih (fun e he => hd e (List.mem_cons_of_mem _ he)), entry_getElem?]
    have he := hd e List.mem_cons_self
    rw [he]
    by_cases h : d = dx
    · subst h
      rw [if_pos rfl, if_pos rfl, if_pos (by omega), show d * cn + ch - d * cn = ch by omega, Option.map_map]
      rfl
    · rw [if_neg h, if_neg h, if_neg]
      rintro ⟨h1, h2⟩
      rcases Nat.lt_or_gt_of_ne h with hlt | hlt
      · have : (d + 1) * cn ≤ dx * cn := Nat.mul_le_mul_right _ hlt
        rw [Nat.add_mul] at this
        omega
      · have : (dx + 1) * cn ≤ d * cn := Nat.mul_le_mul_right _ hlt
        rw [Nat.add_mul] at this
        omega

/-- The horizontal pass: an element takes the terms of its own pixel's entries, in table order, from `+0.0` on
(43_area_general.md R154). -/
theorem horizontalPass_getElem? (m : Memory) (src : View) (sy : ℕ) (cn dw : ℕ) (cells : ℕ → List WeightEntry)
    (hd : ∀ d < dw, ∀ e ∈ cells d, e.di = d * cn) {dx ch : ℕ} (hdx : dx < dw) (hch : ch < cn) :
    (horizontalPass m src ((List.range dw).flatMap cells) cn (dw * cn) sy)[dx * cn + ch]? =
      some ((cells dx).foldl (sampleTerm m src sy ch) f32Zero) := by
  have key : ∀ n, n ≤ dw → ∀ l : List F32,
      (((List.range n).flatMap cells).foldl (fun scratch e => (List.range cn).foldl (addTerm m src sy e) scratch)
          l)[dx * cn + ch]? =
        if dx < n then l[dx * cn + ch]?.map fun x => (cells dx).foldl (sampleTerm m src sy ch) x
        else l[dx * cn + ch]? := by
    intro n
    induction n with
    | zero => intro _ l; rw [if_neg (by omega)]; rfl
    | succ k ih =>
      intro hk l
      rw [List.range_succ, List.flatMap_append, List.foldl_append, List.flatMap_singleton,
        cell_getElem? m src sy cn (cells k) k dx ch (hd k (by omega)) hch, ih (by omega)]
      by_cases h : k = dx
      · subst h
        rw [if_pos rfl, if_neg (by omega), if_pos (by omega)]
      · rw [if_neg h]
        by_cases h2 : dx < k
        · rw [if_pos h2, if_pos (by omega)]
        · rw [if_neg h2, if_neg (by omega)]
  unfold horizontalPass
  rw [key dw le_rfl, if_pos hdx, List.getElem?_replicate, if_pos (pixel_offset_lt hdx hch)]
  rfl

/-- The vertical accumulation of a run: the first contribution assigns, later ones add (43_area_general.md R155). -/
theorem rowBuffers_getElem? (m : Memory) (src : View) (xtab : List WeightEntry) (cn n k : ℕ) (f : ℕ → F32)
    (hf : ∀ sy, (horizontalPass m src xtab cn n sy)[k]? = some (f sy)) (e : WeightEntry) (rest : List WeightEntry) :
    (rowBuffers m src xtab (e :: rest) cn n).acc[k]? =
      some (rest.foldl (fun x e => f32Add x (f32Mul e.alpha (f e.si))) (f32Mul e.alpha (f e.si))) := by
  have key : ∀ (rest : List WeightEntry) (b : RowBuffers) (x : F32), b.acc[k]? = some x →
      ∃ c, rest.foldl (rowStep m src xtab cn n) (some b) = some c ∧
        c.acc[k]? = some (rest.foldl (fun x e => f32Add x (f32Mul e.alpha (f e.si))) x) := by
    intro rest
    induction rest with
    | nil => intro b x hb; exact ⟨b, rfl, hb⟩
    | cons g rest ih =>
      intro b x hb
      rw [List.foldl_cons, List.foldl_cons]
      refine ih _ _ ?_
      show (List.zipWith _ b.acc (horizontalPass m src xtab cn n g.si))[k]? = _
      rw [List.getElem?_zipWith, hb, hf]
  unfold rowBuffers
  rw [List.foldl_cons]
  obtain ⟨c, h1, h2⟩ := key rest
    { scratch := horizontalPass m src xtab cn n e.si, acc := (horizontalPass m src xtab cn n e.si).map (f32Mul e.alpha) }
    (f32Mul e.alpha (f e.si)) (by rw [List.getElem?_map, hf]; rfl)
  have : rest.foldl (rowStep m src xtab cn n) (rowStep m src xtab cn n none e) = some c := h1
  rw [this]
  exact h2

/-- Every entry of a cell carries the cell's offset (41_weight_table.md R125). -/
theorem cellEntries_di (src cn : ℕ) (scale : F64) (dx : ℕ) {e : WeightEntry} (he : e ∈ cellEntries src cn scale dx) :
    e.di = dx * cn := by
  simp only [cellEntries, leftEntry, fullEntries, rightEntry, List.mem_append, List.mem_map] at he
  rcases he with (he | ⟨j, -, rfl⟩) | he
  · split at he
    · rw [List.mem_singleton] at he; rw [he]
    · cases he
  · rfl
  · split at he
    · rw [List.mem_singleton] at he; rw [he]
    · cases he

/-- The run of a destination row is the cell of the row (41_weight_table.md R128). -/
theorem runOf_row (src dh : ℕ) (scale : F64) {dy : ℕ} (hdy : dy < dh) :
    runOf (emittedEntries src dh 1 scale) ((groupIndex (emittedEntries src dh 1 scale) dh).getD dy ⟨0, 0⟩) =
      cellEntries src 1 scale dy := by
  have hdi : ∀ d, ∀ e ∈ cellEntries src 1 scale d, e.di = d := fun d e he => by
    rw [cellEntries_di _ _ _ _ he, Nat.mul_one]
  have hlen : dy < (groupIndex (emittedEntries src dh 1 scale) dh).length := by simpa using hdy
  rw [List.getD_eq_getElem?_getD, List.getElem?_eq_getElem hlen, Option.getD_some]
  have hg := List.getElem?_eq_getElem hlen
  generalize (groupIndex (emittedEntries src dh 1 scale) dh)[dy] = g at hg ⊢
  unfold groupIndex emittedEntries at hg
  rw [List.range_eq_range'] at hg
  obtain ⟨h1, h2⟩ := groupScan_blocks (cellEntries src 1 scale) hdi dh 0 0 dy hdy g hg
  have hsplit : (List.range dh) = List.range' 0 dy ++ dy :: List.range' (dy + 1) (dh - dy - 1) := by
    rw [List.range_eq_range', show dh = dy + (dh - dy - 1 + 1) by omega, ← List.range'_append_1, List.range'_succ]
    simp
  rw [Nat.zero_add] at h1 h2
  unfold runOf emittedEntries
  rw [hsplit, List.flatMap_append, List.flatMap_cons, h2, h1, List.drop_left, Nat.add_sub_cancel_left, List.take_left]

/-- An element of the accumulator of a destination row: the float that the pixel's own entries accumulate
(43_area_general.md R152 to R155). -/
theorem genRow_getElem? (s : State) {dy dx ch : ℕ} (hdy : dy < (s32 s.dstHeight).toNat)
    (hdx : dx < (s32 s.dstWidth).toNat) (hch : ch < (s32 s.channels).toNat) :
    (genRow (operands Config.default s) s.mem dy).acc[dx * (s32 s.channels).toNat + ch]? =
      some (accSample s dy dx ch) := by
  have hrun := runOf_row (s32 s.srcHeight).toNat (s32 s.dstHeight).toNat (scaleOf (s32 s.srcHeight) (s32 s.dstHeight))
    hdy
  have hscr : ∀ sy, (horizontalPass s.mem (operands Config.default s).srcView (tableX (operands Config.default s))
      (s32 s.channels).toNat ((s32 s.dstWidth).toNat * (s32 s.channels).toNat) sy)[dx * (s32 s.channels).toNat + ch]? =
        some (scratchSample s dx ch sy) := by
    intro sy
    have h := horizontalPass_getElem? s.mem (operands Config.default s).srcView sy (s32 s.channels).toNat
      (s32 s.dstWidth).toNat (cellEntries (s32 s.srcWidth).toNat (s32 s.channels).toNat
        (scaleOf (s32 s.srcWidth) (s32 s.dstWidth))) (fun d _ e he => cellEntries_di _ _ _ _ he) hdx hch
    refine h.trans (congrArg some ?_)
    unfold scratchSample sampleTerm
    simp [View.addr, Operands.srcView]
  show (rowBuffers s.mem (operands Config.default s).srcView (tableX (operands Config.default s))
    (runOf _ _) (s32 s.channels).toNat ((s32 s.dstWidth).toNat * (s32 s.channels).toNat)).acc[_]? = _
  rw [show runOf (tableY (operands Config.default s))
    ((groupsY (operands Config.default s)).getD dy { start := 0, stop := 0 }) = _ from hrun]
  unfold accSample
  cases cellEntries (s32 s.srcHeight).toNat 1 (scaleOf (s32 s.srcHeight) (s32 s.dstHeight)) dy with
  | nil =>
    show (List.replicate _ f32Zero)[_]? = _
    rw [List.getElem?_replicate, if_pos (pixel_offset_lt hdx hch)]
  | cons e rest => exact rowBuffers_getElem? _ _ _ _ _ _ (scratchSample s dx ch) hscr e rest

end Sys2Proof.Machine
end

