-- ==== Sys2Proof/Laws/Source.lean ====
section
/-! SUPPORT. The image a path writes depends on the source footprint alone (20_memory.md R63, R64; 40_command_common.md
R112). -/

namespace Sys2Proof.Machine

/-- Two memories agree on a footprint. -/
def AgreeOn (v : View) (m n : Memory) : Prop :=
  ∀ y i, y < v.height → i < v.rowBytes → m.read (v.addr y i) = n.read (v.addr y i)

theorem sample_offset {x cn w ch : ℕ} (hx : x < w) (hc : ch < cn) : x * cn + ch < w * cn := by
  have : (x + 1) * cn ≤ w * cn := Nat.mul_le_mul_right _ hx
  rw [Nat.add_mul] at this
  omega

/-- The box average reads its block only (42_area_integer.md R142). -/
theorem areaIntSample_agree {m n : Memory} {v : View} {w cn ix iy dw dh dy dx ch : ℕ} (h : AgreeOn v m n)
    (hw : v.rowBytes = w * cn) (hx : ix * dw = w) (hy : iy * dh = v.height) (hdy : dy < dh) (hdx : dx < dw)
    (hch : ch < cn) : areaIntSample m v cn ix iy dy dx ch = areaIntSample n v cn ix iy dy dx ch := by
  unfold areaIntSample
  rw [boxSum_eq_sum, boxSum_eq_sum]
  congr 2
  refine Finset.sum_congr rfl fun j hj => Finset.sum_congr rfl fun i hi => ?_
  rw [Finset.mem_range] at hi hj
  rw [h]
  · have : (dy + 1) * iy ≤ dh * iy := Nat.mul_le_mul_right _ hdy
    rw [Nat.add_mul, Nat.mul_comm dh iy] at this
    omega
  · rw [hw]
    refine sample_offset ?_ hch
    have : (dx + 1) * ix ≤ dw * ix := Nat.mul_le_mul_right _ hdx
    rw [Nat.add_mul, Nat.mul_comm dw ix] at this
    omega

/-- A blend reads the four samples its entries name (44_linear.md R179). -/
theorem linearSample_agree {m n : Memory} {v : View} {w cn : ℕ} {fy fx : FixedEntry} {ch : ℕ} (h : AgreeOn v m n)
    (hw : v.rowBytes = w * cn) (hy0 : fy.ofs0 < v.height) (hy1 : fy.ofs1 < v.height)
    (hx0 : ∃ x, x < w ∧ fx.ofs0 = x * cn) (hx1 : ∃ x, x < w ∧ fx.ofs1 = x * cn) (hch : ch < cn) :
    linearSample m v fy fx ch = linearSample n v fy fx ch := by
  obtain ⟨x0, h0, e0⟩ := hx0
  obtain ⟨x1, h1, e1⟩ := hx1
  have b0 : fx.ofs0 + ch < v.rowBytes := by rw [hw, e0]; exact sample_offset h0 hch
  have b1 : fx.ofs1 + ch < v.rowBytes := by rw [hw, e1]; exact sample_offset h1 hch
  unfold linearSample
  simp only [h _ _ hy0 b0, h _ _ hy0 b1, h _ _ hy1 b0, h _ _ hy1 b1]

theorem addTerm_agree {m n : Memory} {v : View} {sy : ℕ} {e : WeightEntry} {ch : ℕ} (l : List F32) (h : AgreeOn v m n)
    (hy : sy < v.height) (hx : e.si + ch < v.rowBytes) : addTerm m v sy e l ch = addTerm n v sy e l ch := by
  unfold addTerm
  rw [h _ _ hy hx]

/-- The horizontal pass reads the samples its entries name (43_area_general.md R154). -/
theorem horizontalPass_agree {m n : Memory} {v : View} {xtab : List WeightEntry} {w cn len sy : ℕ} (h : AgreeOn v m n)
    (hw : v.rowBytes = w * cn) (hy : sy < v.height) (hx : ∀ e ∈ xtab, ∃ x, x < w ∧ e.si = x * cn) :
    horizontalPass m v xtab cn len sy = horizontalPass n v xtab cn len sy := by
  unfold horizontalPass
  refine List.foldl_ext _ _ _ fun l e he => ?_
  obtain ⟨x, hxw, hsi⟩ := hx e he
  refine List.foldl_ext _ _ _ fun l' ch hch => ?_
  rw [List.mem_range] at hch
  exact addTerm_agree l' h hy (by rw [hw, hsi]; exact sample_offset hxw hch)

theorem rowBuffers_agree {m n : Memory} {v : View} {xtab run : List WeightEntry} {w cn len : ℕ} (h : AgreeOn v m n)
    (hw : v.rowBytes = w * cn) (hx : ∀ e ∈ xtab, ∃ x, x < w ∧ e.si = x * cn) (hr : ∀ e ∈ run, e.si < v.height) :
    rowBuffers m v xtab run cn len = rowBuffers n v xtab run cn len := by
  unfold rowBuffers
  have : run.foldl (rowStep m v xtab cn len) none = run.foldl (rowStep n v xtab cn len) none := by
    refine List.foldl_ext _ _ _ fun b e he => ?_
    unfold rowStep
    rw [horizontalPass_agree h hw (hr e he) hx]
  rw [this]

theorem mem_runOf {yt : List WeightEntry} {g : RunEntry} {e : WeightEntry} (h : e ∈ runOf yt g) : e ∈ yt :=
  List.mem_of_mem_drop (List.mem_of_mem_take h)

theorem fixedAt_mem {t : List FixedEntry} {d : ℕ} (h : d < t.length) : fixedAt t d ∈ t := by
  unfold fixedAt
  rw [List.getD_eq_getElem?_getD, List.getElem?_eq_getElem h]
  exact List.getElem_mem h

/-- The rows a path writes are the same for two memories that agree on the source footprint. -/
theorem pathRows_agree {i : Instr} {s : State} (ha : Accepted i s) (hi : i ∈ pixelCommands) {m n : Memory}
    (h : AgreeOn (operands Config.default s).srcView m n) {dy : ℕ} (hdy : dy < (s32 s.dstHeight).toNat) :
    pathRows (operands Config.default s) (commandPath i s) m dy =
      pathRows (operands Config.default s) (commandPath i s) n dy := by
  obtain ⟨w1, w2, w3, w4, c1, c2⟩ := ha.toOperandsLegal.widths (by revert hi; cases i <;> decide)
  obtain ⟨v1, v2, v3, v4⟩ := ha.toOperandsLegal.heights (by revert hi; cases i <;> decide)
  have hw : (operands Config.default s).srcView.rowBytes = (s32 s.srcWidth).toNat * (s32 s.channels).toNat := rfl
  cases hp : commandPath i s with
  | noPath => rfl
  | int =>
    obtain ⟨d1, d2⟩ := ha.divides hp
    have ex : scaleIntX (operands Config.default s) = (s32 s.srcWidth / s32 s.dstWidth).toNat :=
      intScale_legal w1 w2 w3 w4 d1
    have ey : scaleIntY (operands Config.default s) = (s32 s.srcHeight / s32 s.dstHeight).toNat :=
      intScale_legal v1 v2 v3 v4 d2
    have fx : (s32 s.srcWidth / s32 s.dstWidth).toNat * (s32 s.dstWidth).toNat = (s32 s.srcWidth).toNat := by
      rw [← Int.toNat_mul (Int.ediv_nonneg (by omega) (by omega)) (by omega),
        Int.ediv_mul_cancel (Int.dvd_of_emod_eq_zero d1)]
    have fy : (s32 s.srcHeight / s32 s.dstHeight).toNat * (s32 s.dstHeight).toNat = (s32 s.srcHeight).toNat := by
      rw [← Int.toNat_mul (Int.ediv_nonneg (by omega) (by omega)) (by omega),
        Int.ediv_mul_cancel (Int.dvd_of_emod_eq_zero d2)]
    simp only [pathRows, ex, ey]
    unfold rowOf
    refine List.flatMap_congr fun dx hdx => List.map_congr_left fun ch hch => ?_
    rw [List.mem_range] at hdx hch
    exact areaIntSample_agree h hw fx fy hdy hdx hch
  | gen =>
    obtain ⟨x1, x2, x3⟩ := ha.weightsX (.inl hp)
    obtain ⟨y1, y2, y3⟩ := ha.weightsY (.inl hp)
    simp only [pathRows]
    unfold genRow areaGenRow
    refine congrArg (fun b => List.map accByte b.acc)
      (rowBuffers_agree (cn := (operands Config.default s).cn.toNat) h hw ?_ ?_)
    · intro e he
      obtain ⟨dx, sx, -, h2, -, h4⟩ := emitted_offsets_legal x1 x2 w2 he
      exact ⟨sx, h2, h4⟩
    · intro e he
      obtain ⟨dx, sx, -, h2, -, h4⟩ := emitted_offsets_legal y1 y2 v2 (mem_runOf he)
      rw [h4, Nat.mul_one]
      exact h2
  | lin =>
    simp only [pathRows]
    unfold rowOf
    refine List.flatMap_congr fun dx hdx => List.map_congr_left fun ch hch => ?_
    rw [List.mem_range] at hdx hch
    obtain ⟨-, a0, a1, a2, a3, a4, a5⟩ := mem_buildFptab_legal v1 v2 v3 v4
      (fixedAt_mem (t := fixedY (operands Config.default s)) (d := dy) (by simpa using hdy))
    obtain ⟨-, b0, b1, b2, b3, b4, b5⟩ := mem_buildFptab_legal w1 w2 w3 w4
      (fixedAt_mem (t := fixedX (operands Config.default s)) (d := dx) (by simpa using hdx))
    refine linearSample_agree h hw ?_ ?_ ⟨b0, b2, b4⟩ ⟨b1, b3, b5⟩ hch
    · rw [a4, Nat.mul_one]; exact a2
    · rw [a5, Nat.mul_one]; exact a3

end Sys2Proof.Machine
end

