-- ==== Sys2Proof/Tests/Slice0.lean ====
section
/-! SUPPORT. The model's own tests: ill-formed terms, hand-written command words, one step on small images with the
results of 95_test_vectors.md, and a state that meets the hypotheses of each obligation. -/

namespace Sys2Proof.Tests

open Sys2Proof.Machine

/-! ### Well-formedness: an ill-formed term for each check -/

theorem test_zero_field_set_is_ill_formed : CommandFields.wf ⟨1#28, 1#4⟩ = false := by decide
theorem test_op_zero_is_ill_formed : CommandFields.wf ⟨0#28, 0#4⟩ = false := by decide
theorem test_op_nine_is_ill_formed : CommandFields.wf ⟨0#28, 9#4⟩ = false := by decide
theorem test_narrow_window_read_is_ill_formed : BusAccess.wf Config.default (.windowRead .bits16 4) = false := by decide
theorem test_misaligned_window_write_is_ill_formed :
    BusAccess.wf Config.default (.windowWrite .bits32 6 0#32) = false := by decide
theorem test_window_read_beyond_the_window_is_ill_formed :
    BusAccess.wf Config.default (.windowRead .bits32 4096) = false := by decide
theorem test_memory_read_beyond_the_space_is_ill_formed :
    BusAccess.wf Config.default (.memRead 4294967296) = false := by decide
theorem test_memory_write_beyond_the_space_is_ill_formed :
    BusAccess.wf Config.default (.memWrite 4294967296 1#8) = false := by decide
theorem test_wide_dimension_is_no_instance : Config.legal { Config.default with dimBits := 20 } = false := by decide
theorem test_default_instance_is_legal : Config.default.legal = true := by decide

/-! ### Decoding: each command's word of 30_encoding.md R81, and the illegal words E45 to E52 of 95 section 2.1 -/

theorem test_decode_resize : decode 0x00000001#32 = .ok .resize := by decide
theorem test_decode_areaInt : decode 0x00000002#32 = .ok .areaInt := by decide
theorem test_decode_areaGen : decode 0x00000003#32 = .ok .areaGen := by decide
theorem test_decode_linear : decode 0x00000004#32 = .ok .linear := by decide
theorem test_decode_wtabX : decode 0x00000005#32 = .ok .wtabX := by decide
theorem test_decode_wtabY : decode 0x00000006#32 = .ok .wtabY := by decide
theorem test_decode_fptabX : decode 0x00000007#32 = .ok .fptabX := by decide
theorem test_decode_fptabY : decode 0x00000008#32 = .ok .fptabY := by decide
theorem test_illegal_words : (decode 0x00000000#32 = .error (.reservedOp 0#4) ∧
    decode 0x00000009#32 = .error (.reservedOp 9#4) ∧ decode 0x0000000F#32 = .error (.reservedOp 15#4)) ∧
    (decode 0x00000010#32 = .error .zeroFieldSet ∧ decode 0x00000011#32 = .error .zeroFieldSet ∧
      decode 0x80000001#32 = .error .zeroFieldSet) := by decide
theorem test_encode_words : (encode .resize = 0x00000001#32 ∧ encode .areaInt = 0x00000002#32 ∧
    encode .areaGen = 0x00000003#32 ∧ encode .linear = 0x00000004#32) ∧ (encode .wtabX = 0x00000005#32 ∧
    encode .wtabY = 0x00000006#32 ∧ encode .fptabX = 0x00000007#32 ∧ encode .fptabY = 0x00000008#32) := by decide

/-! ### A small state: tight strides, `SRC_BASE = 0x1000`, `DST_BASE = 0x8000` (95_test_vectors.md, conventions) -/

/-- The state with given sizes and source bytes. -/
def scene (sw sh dw dh cn : Nat) (bytes : List Byte) : State :=
  { State.reset with
    srcBase := 0x1000#32, srcWidth := BitVec.ofNat 32 sw, srcHeight := BitVec.ofNat 32 sh,
    srcStride := BitVec.ofNat 32 (sw * cn), dstBase := 0x8000#32, dstWidth := BitVec.ofNat 32 dw,
    dstHeight := BitVec.ofNat 32 dh, dstStride := BitVec.ofNat 32 (dw * cn), channels := BitVec.ofNat 32 cn,
    mem := Memory.writeBytes [] 0x1000 bytes }

/-- The state a step answers, if it answers one. -/
def stateOf (o : Out) : Option State :=
  match o with
  | .next t => some t
  | .fault _ => none
  | .refused _ => none

/-- `STATUS` and the first `n` bytes at the destination base, after a command. -/
def outcome (i : Instr) (s : State) (n : Nat) : Option (Word × List Byte) :=
  (stateOf (exec i s)).map fun t => (t.statusWord, (List.range n).map fun k => t.mem.read (0x8000 + k))

/-- `STATUS` after a command. -/
def statusAfter (i : Instr) (s : State) : Option Word := (stateOf (exec i s)).map State.statusWord

/-- The first `n` entries of table `sel` as the host reads them, after a command. -/
def entries (i : Instr) (s : State) (sel : Word) (n : Nat) : Option (List (List Word)) :=
  (stateOf (exec i s)).map fun t => (List.range n).map fun k =>
    let u := { t with tabSel := sel, tabIdx := BitVec.ofNat 32 k }
    [readTab u 0, readTab u 1, readTab u 2]

/-- The baseline of 95 section 2.1. -/
def baseline : State := scene 4 4 2 2 1 []

/-! ### The eight commands (95_test_vectors.md sections 1 to 3; the ids are its own) -/

/-- S7, second reading. -/
theorem test_areaInt_two_by_two : outcome .areaInt (scene 4 4 2 2 1
    [0, 10, 0, 10, 0, 10, 0, 10, 0, 10, 0, 10, 0, 10, 0, 10]) 4 = some (0x102#32, [5, 5, 5, 5]) := by decide +kernel
/-- I6: the exact half rounds up. -/
theorem test_areaInt_half_rounds_up : outcome .areaInt (scene 2 1 1 1 1 [1, 2]) 1 = some (0x102#32, [2]) := by
  decide +kernel
/-- G1. -/
theorem test_areaGen_three_to_two : outcome .areaGen (scene 3 3 2 2 1 [10, 20, 30, 40, 50, 60, 70, 80, 90]) 4 =
    some (0x202#32, [23, 37, 63, 77]) := by decide +kernel
/-- G5: a tie goes to the even integer. -/
theorem test_areaGen_tie_to_even : outcome .areaGen (scene 2 2 1 1 1 [2, 2, 2, 4]) 1 = some (0x202#32, [2]) := by
  decide +kernel
/-- S9. -/
theorem test_linear_corners : outcome .linear (scene 2 2 4 4 1 [10, 20, 30, 40]) 16 =
    some (0x302#32, [10, 10, 20, 20, 10, 10, 20, 20, 30, 30, 40, 40, 30, 30, 40, 40]) := by decide +kernel
/-- L6: both axes change, one of them shrinks. -/
theorem test_linear_shrinking_axis : outcome .linear (scene 4 2 2 4 1 [0, 100, 200, 255, 10, 20, 30, 40]) 8 =
    some (0x302#32, [50, 228, 50, 228, 15, 35, 15, 35]) := by decide +kernel
/-- E1. -/
theorem test_resize_integer_path : statusAfter .resize baseline = some 0x102#32 := by decide +kernel
/-- L1. -/
theorem test_resize_linear_path : outcome .resize (scene 3 1 4 1 1 [10, 20, 30]) 4 =
    some (0x302#32, [10, 17, 23, 30]) := by decide +kernel
/-- 3.1: 3 to 2 with three channels. -/
theorem test_wtabX_entries : entries .wtabX (scene 3 0 2 0 3 []) 0 5 = some
    [[0, 0, 0x3F2AAAAB], [3, 0, 0x3EAAAAAB], [3, 3, 0x3EAAAAAB], [6, 3, 0x3F2AAAAB], [0, 0, 0]] := by decide +kernel
/-- 3.1: 5 to 3, the weights. -/
theorem test_wtabX_weights : (entries .wtabX (scene 5 0 3 0 1 []) 0 7).map (List.map fun e => e.getD 2 0) = some
    [0x3F19999A, 0x3ECCCCCD, 0x3E4CCCCD, 0x3F19999A, 0x3E4CCCCD, 0x3ECCCCCD, 0x3F19999A] := by decide +kernel
/-- 3.1: 5 to 3, the runs. -/
theorem test_wtabY_runs : entries .wtabY (scene 0 5 0 3 0 []) 2 4 =
    some [[0, 2, 0], [2, 5, 0], [5, 7, 0], [0, 0, 0]] := by decide +kernel
/-- E30: `WTAB_Y` reads only the heights. -/
theorem test_wtabY_reads_heights_only : statusAfter .wtabY { State.reset with srcHeight := 4, dstHeight := 2 } =
    some 0x002#32 := by decide +kernel
/-- 3.4: 2 to 3, step 3. -/
theorem test_fptabX_entries : entries .fptabX (scene 2 0 3 0 3 []) 3 3 =
    some [[0, 3, 0x00000800], [0, 3, 0x04000400], [0, 3, 0x08000000]] := by decide +kernel
/-- 3.4: an axis of extent 1. -/
theorem test_fptabX_extent_one : entries .fptabX (scene 1 0 3 0 4 []) 3 3 =
    some [[0, 0, 0x00000800], [0, 0, 0x00000800], [0, 0, 0x00000800]] := by decide +kernel
/-- 3.4: 3 to 5. -/
theorem test_fptabY_entries : entries .fptabY (scene 0 3 0 5 0 []) 4 5 =
    some [[0, 1, 0x00000800], [0, 1, 0x02AB0555], [1, 2, 0x00000800], [1, 2, 0x055502AB], [1, 2, 0x08000000]] := by
  decide +kernel
/-- 3.4: 5 to 3, a shrinking axis. -/
theorem test_fptabY_shrinking_axis : entries .fptabY (scene 0 5 0 3 0 []) 4 3 =
    some [[0, 1, 0x033304CD], [1, 2, 0x0666019A], [3, 4, 0x04CD0333]] := by decide +kernel

/-! ### Errors and their priority (95 section 2.1) -/

theorem test_error_V1 : statusAfter .resize { baseline with srcWidth := 0xFFFFFFFF#32 } = some 0x012#32 := by
  decide +kernel
theorem test_error_V2_before_V3 : statusAfter .resize { baseline with srcWidth := 70000, srcStride := 1 } =
    some 0x022#32 := by decide +kernel
theorem test_error_V3_before_precondition :
    statusAfter .areaInt { baseline with srcWidth := 3, srcHeight := 3, srcStride := 2 } = some 0x032#32 := by
  decide +kernel
theorem test_error_V4 : statusAfter .resize { baseline with srcStride := 0x7FFFFFFF } = some 0x022#32 := by
  decide +kernel
theorem test_error_precondition_before_V7 :
    statusAfter .areaGen { baseline with srcWidth := 8193, srcStride := 8193, dstWidth := 8194, dstStride := 8194 } =
      some 0x012#32 := by decide +kernel
theorem test_error_V7 : statusAfter .wtabX { baseline with srcWidth := 65535 } = some 0x052#32 := by decide +kernel

/-! ### The window, the host's side, reset -/

/-- 95 section 2.3: `WR SRC_WIDTH, 0xFFFFFFFF` then `RD SRC_WIDTH`. -/
theorem test_register_write_then_read :
    (match core.run 2 { State.reset with script := scriptAccesses [.wr .srcWidth 0xFFFFFFFF#32, .rd .srcWidth] } with
      | .next t => t.listing
      | .fault _ => []
      | .refused _ => []) = [.register 0xFFFFFFFF#32] := by decide +kernel
/-- 30_encoding.md R92: the accesses of `CH 3` and `CMD RESIZE`. -/
theorem test_script_encoding : scriptAccesses [.ch 3#32, .cmd .resize] =
    [.windowWrite .bits32 0x28 3#32, .windowWrite .bits32 0 1#32] := by decide
/-- 70_reset_and_hazards.md R221. -/
theorem test_resize_after_reset : statusAfter .resize State.reset = some 0x012#32 := by decide +kernel
/-- The word the host stores for a row of the table is the next command. -/
theorem test_fetch_word_runs : (stateOf (step (State.reset.withFetchWord 32 8))).map State.statusWord =
    some 0x012#32 := by decide +kernel
/-- 00_scope.md R14: ties to even. -/
theorem test_rne_ties : rneDiv 5 2 = 2 ∧ rneDiv 7 2 = 4 ∧ rneDiv 11 4 = 3 := by decide

/-! ### Witnesses: states that meet the hypotheses of the obligations

`small` is accepted by every command and selects the integer path; `ragged` selects the general one, `grown` the linear
one. -/

/-- 4x4 to 2x2, three channels. -/
def small : State := scene 4 4 2 2 3 [7, 8, 9]

/-- 3x3 to 2x2. -/
def ragged : State := scene 3 3 2 2 1 [10, 20, 30, 40, 50, 60, 70, 80, 90]

/-- 2x2 to 4x3. -/
def grown : State := scene 2 2 4 3 1 [10, 20, 30, 40]

/-- 2x2 to 2x2, two channels, the same sizes on both sides. -/
def equalSized : State := scene 2 2 2 2 2 [1, 2, 3, 4, 5, 6, 7, 8]

/-- 4x4 to 2x2 with the destination inside the source. -/
def overlapping : State := { scene 4 4 2 2 1 [] with dstBase := 0x1001#32 }

/-- A state whose five tables hold one entry each, all valid. -/
def tabled : State :=
  { State.reset with
    done := true, xtabCount := 1, ytabCount := 1, ygrpCount := 1, fpxCount := 1, fpyCount := 1,
    xtab := [⟨3, 6, 0x3F800000#32⟩], ytab := [⟨0, 0, 0x3F800000#32⟩], ygrp := [⟨0, 1⟩], fpx := [⟨0, 3, 2047, 1⟩],
    fpy := [⟨1, 2, 1024, 1024⟩] }

theorem witness_small_resize : Accepted .resize small :=
  ⟨⟨by decide, by decide, by decide, by decide⟩, by decide, by decide⟩
theorem witness_small_areaInt : Accepted .areaInt small :=
  ⟨⟨by decide, by decide, by decide, by decide⟩, by decide, by decide⟩
theorem witness_small_areaGen : Accepted .areaGen small :=
  ⟨⟨by decide, by decide, by decide, by decide⟩, by decide, by decide⟩
theorem witness_small_linear : Accepted .linear small :=
  ⟨⟨by decide, by decide, by decide, by decide⟩, by decide, by decide⟩
theorem witness_small_wtabX : Accepted .wtabX small :=
  ⟨⟨by decide, by decide, by decide, by decide⟩, by decide, by decide⟩
theorem witness_small_wtabY : Accepted .wtabY small :=
  ⟨⟨by decide, by decide, by decide, by decide⟩, by decide, by decide⟩
theorem witness_small_fptabX : Accepted .fptabX small :=
  ⟨⟨by decide, by decide, by decide, by decide⟩, by decide, by decide⟩
theorem witness_small_fptabY : Accepted .fptabY small :=
  ⟨⟨by decide, by decide, by decide, by decide⟩, by decide, by decide⟩
theorem witness_ragged_resize : Accepted .resize ragged :=
  ⟨⟨by decide, by decide, by decide, by decide⟩, by decide, by decide⟩
theorem witness_grown_resize : Accepted .resize grown :=
  ⟨⟨by decide, by decide, by decide, by decide⟩, by decide, by decide⟩
theorem witness_paths : pathByDimensions small = .int ∧ pathByDimensions ragged = .gen ∧
    pathByDimensions grown = .lin := by decide
theorem witness_small_apart : footprintsApart small :=
  (disjoint_legal witness_small_resize.toOperandsLegal (by decide)).mp (by decide)
theorem witness_ragged_apart : footprintsApart ragged :=
  (disjoint_legal witness_ragged_resize.toOperandsLegal (by decide)).mp (by decide)
theorem witness_grown_apart : footprintsApart grown :=
  (disjoint_legal witness_grown_resize.toOperandsLegal (by decide)).mp (by decide)

/-- E22: a source footprint that ends exactly at `2^32` is legal, V4 at its boundary. -/
theorem witness_last_byte : Accepted .resize { scene 32 1 16 1 1 [] with srcBase := 0xFFFFFFE0#32 } :=
  ⟨⟨by decide, by decide, by decide, by decide⟩, by decide, by decide⟩
/-- E43: the vertical table at the capacity, V7 at its boundary. -/
theorem witness_table_capacity : Accepted .wtabY (scene 0 8192 0 2 0 []) :=
  ⟨⟨by decide, by decide, by decide, by decide⟩, by decide, by decide⟩
/-- E41: the fixed-point table at the capacity. -/
theorem witness_fixed_capacity : Accepted .fptabY (scene 0 4 0 8192 0 []) :=
  ⟨⟨by decide, by decide, by decide, by decide⟩, by decide, by decide⟩

/-- FirstErrorReported: each failing line, at the boundary of its range. -/
theorem witness_V1 : failsV1 .resize (scene 4 4 2 2 5 []) := by decide
theorem witness_V2 : ¬ failsV1 .resize (scene 65536 4 2 2 1 []) ∧ failsV2 .resize (scene 65536 4 2 2 1 []) := by decide
theorem witness_V3 : let s := { baseline with srcStride := 3 }
    ¬ failsV1 .resize s ∧ ¬ failsV2 .resize s ∧ failsV3 .resize s := by decide
theorem witness_V4 : let s := { scene 32 1 16 1 1 [] with srcBase := 0xFFFFFFE1#32 }
    ¬ failsV1 .resize s ∧ ¬ failsV2 .resize s ∧ ¬ failsV3 .resize s ∧ failsV4 .resize s := by decide
theorem witness_scales : OperandsLegal .areaInt ragged ∧ failsScales .areaInt ragged :=
  ⟨⟨by decide, by decide, by decide, by decide⟩, by decide⟩
theorem witness_V7 : OperandsLegal .wtabY (scene 0 8193 0 2 0 []) ∧ ¬ failsScales .wtabY (scene 0 8193 0 2 0 []) ∧
    failsV7 .wtabY (scene 0 8193 0 2 0 []) :=
  ⟨⟨by decide, by decide, by decide, by decide⟩, by decide, by decide⟩

/-- OverlapRefused and CommandOutcomes, second clause. -/
theorem witness_overlap : Instr.resize ∈ pixelCommands ∧ Accepted .resize overlapping ∧ ¬ footprintsApart overlapping :=
  have h : Accepted .resize overlapping := ⟨⟨by decide, by decide, by decide, by decide⟩, by decide, by decide⟩
  ⟨by decide, h, fun d => absurd ((disjoint_legal h.toOperandsLegal (by decide)).mpr d) (by decide)⟩

/-- The frames, CommandsKeep… and StepKeepsInvariant's command: a pixel command that answers a next state. -/
theorem witness_next : ∃ t, exec .areaGen ragged = .next t ∧ t.err = .ok := by
  have h : (stateOf (exec .areaGen ragged)).map State.err = some .ok := by decide +kernel
  cases hx : exec .areaGen ragged with
  | next t => rw [hx] at h; exact ⟨t, rfl, by simpa [stateOf] using h⟩
  | fault r => rw [hx] at h; simp [stateOf] at h
  | refused r => rw [hx] at h; simp [stateOf] at h

/-- ErrorLeavesOnlyItsCode, ErrorsDoNotStick: a command that ends with an error. -/
theorem witness_error : ∃ t, exec .resize State.reset = .next t ∧ t.err ≠ .ok :=
  ⟨_, rfl, by decide⟩

/-- StepRunsDecodedCommand and MeaningfulStepIsMade: a pending `RESIZE` with disjoint footprints. -/
def pending : State := { small with script := [.windowWrite .bits32 0 1#32] }

theorem witness_pending : pending.script = .windowWrite .bits32 0 1#32 :: [] ∧ decode 1#32 = .ok .resize ∧
    Instr.wf .resize = true := by decide

theorem witness_meaningful : MeaningfulStep pending := by
  intro a rest h
  obtain ⟨rfl, rfl⟩ : BusAccess.windowWrite .bits32 0 1#32 = a ∧ [] = rest := by simpa [pending] using h
  exact ⟨by decide, fun w v i _ _ _ _ => witness_small_apart⟩

/-- IllegalWordFails: each of its three clauses. -/
theorem witness_illegal : (0x10#32).toNat / 16 ≠ 0 ∧ (0x00#32).toNat % 16 = 0 ∧ 9 ≤ (0x09#32).toNat % 16 := by decide

/-- IdleKeepsState. -/
theorem witness_idle : State.reset.script = [] := rfl

/-- RegisterWriteStores: one register of each right that it covers. -/
theorem witness_rights : (Reg.srcBase ≠ .cmd ∧ regRight .srcBase = .readWrite) ∧
    (Reg.capFp ≠ .cmd ∧ regRight .capFp = .readOnly) := by decide

/-- ReservedOffsetsInert: both ends of the range. -/
theorem witness_reserved : (0x70 ≤ 0x70 ∧ 0x70 ≤ 0xFFC ∧ 0x70 % 4 = 0) ∧
    (0x70 ≤ 0xFFC ∧ 0xFFC ≤ 0xFFC ∧ 0xFFC % 4 = 0) := by decide

/-- IllegalWindowAccessRefused: a legal access, and one that fails each part. -/
theorem witness_window : windowAccessOk .bits32 4092 = true ∧ windowAccessOk .bits64 0 = false ∧
    windowAccessOk .bits32 4095 = false ∧ windowAccessOk .bits32 4096 = false := by decide

/-- IdentityAndCapacityConstants: a legal instance that is not the default one. -/
theorem witness_instance : Config.legal { Config.default with addrBits := 20, dimBits := 19, maxCh := 255 } = true := by
  decide

/-- FirstErrorReported, first clause. -/
theorem witness_no_command (i : Instr) : decode 9#32 ≠ .ok i := by cases i <;> decide

/-- HostByteWriteReadsBack and OutsideDataMemoryFaults: the last address and the first that does not exist. -/
theorem witness_space : 4294967295 < 4294967296 ∧ 4294967296 ≤ 4294967296 := by decide

/-- TableReadOut, StepKeepsInvariant: a state of the invariant with a valid entry in every table. -/
theorem witness_invariant : MachineInv tabled where
  memory := by decide
  space := by decide
  noEmptyBuffer := by decide
  errorClear := fun h => absurd rfl h
  idleClear := fun h => absurd h (by decide)
  scalesInt := by decide
  xtabCount := by decide
  ytabCount := by decide
  ygrpCount := by decide
  fpxCount := by decide
  fpyCount := by decide
  xtabCap := by decide
  ytabCap := by decide
  ygrpCap := by decide
  fpxCap := by decide
  fpyCap := by decide
  scratchCap := by decide
  accCap := by decide
  xtabWords := by decide
  ytabWords := by decide
  ygrpWords := by decide
  fpxWeights := by decide
  fpyWeights := by decide

/-- StepKeepsInvariant's second hypothesis. -/
theorem witness_invariant_step : step tabled = .next tabled := rfl

/-- TableReadOut: the invariant holds whatever the host selects; below the count, at the count, a selector above 4. -/
theorem witness_selected (sel idx : Word) : MachineInv { tabled with tabSel := sel, tabIdx := idx } where
  memory := witness_invariant.memory
  space := witness_invariant.space
  noEmptyBuffer := witness_invariant.noEmptyBuffer
  errorClear := fun h => absurd rfl h
  idleClear := fun h => absurd h (show true ≠ false by decide)
  scalesInt := witness_invariant.scalesInt
  xtabCount := witness_invariant.xtabCount
  ytabCount := witness_invariant.ytabCount
  ygrpCount := witness_invariant.ygrpCount
  fpxCount := witness_invariant.fpxCount
  fpyCount := witness_invariant.fpyCount
  xtabCap := witness_invariant.xtabCap
  ytabCap := witness_invariant.ytabCap
  ygrpCap := witness_invariant.ygrpCap
  fpxCap := witness_invariant.fpxCap
  fpyCap := witness_invariant.fpyCap
  scratchCap := witness_invariant.scratchCap
  accCap := witness_invariant.accCap
  xtabWords := witness_invariant.xtabWords
  ytabWords := witness_invariant.ytabWords
  ygrpWords := witness_invariant.ygrpWords
  fpxWeights := witness_invariant.fpxWeights
  fpyWeights := witness_invariant.fpyWeights

theorem witness_counts : ((0#32).toNat < tabled.xtabCount.toNat ∧ (0#32).toNat < tabled.ytabCount.toNat ∧
    (0#32).toNat < tabled.ygrpCount.toNat ∧ (0#32).toNat < tabled.fpxCount.toNat ∧
    (0#32).toNat < tabled.fpyCount.toNat) ∧ tabled.xtabCount.toNat ≤ (1#32).toNat ∧ 5 ≤ (5#32).toNat := by decide

/-- ResultsDependOnOperandsOnly: two states that differ in registers the command does not read. -/
theorem witness_same_operands : SameOperands .wtabY small { tabled with srcHeight := 4, dstHeight := 2 } where
  widths := fun h => absurd h (by decide)
  heights := fun _ => by decide
  views := fun h => absurd h (by decide)
  samples := fun h => absurd h (by decide)

theorem witness_same_operands_next : ∃ t, exec .wtabY small = .next t :=
  ⟨_, exec_accepted witness_small_wtabY fun h => absurd h (by decide)⟩

/-- The same for a pixel command: other selectors, another table content. -/
theorem witness_same_source : SameOperands .areaGen ragged { ragged with tabSel := 7, tabIdx := 9, fpx := tabled.fpx } where
  widths := fun _ => ⟨rfl, rfl, rfl⟩
  heights := fun _ => ⟨rfl, rfl⟩
  views := fun _ => ⟨rfl, rfl, rfl, rfl⟩
  samples := fun _ _ _ => rfl

/-- RepeatedCommandChangesNothing. -/
theorem witness_canonical : ragged.mem.wf = true := by decide

/-- ResizeIsTheSelectedCommand: checks that fail, and each of the three selections. -/
theorem witness_selection : (failsV1 .resize State.reset ∧ ¬ failsV1 .resize small ∧ ¬ failsV2 .resize small) ∧
    (s32 grown.srcWidth < s32 grown.dstWidth ∧ s32 small.srcWidth % s32 small.dstWidth = 0 ∧
      s32 ragged.srcWidth % s32 ragged.dstWidth ≠ 0) := by decide

/-- IntegerRatioWeightTable and WeightsOfACellSumToOne: the ends of their ranges. -/
theorem witness_lengths : (1 ≤ 65535 ∧ 1 ≤ 1 ∧ 65535 * 1 ≤ 65535 ∧ 1 ≤ 4 ∧ 4 ≤ 4) ∧
    (1 ≤ 32768 ∧ 32768 ≤ 65535 ∧ 65535 ≤ 65535 ∧ 32767 < 32768) := by decide

/-- WeightEntriesFollowOverlaps: lengths 3 to 2, which do not divide; of index 1, whose cell is 1.5 to 3, sample 1 overlaps
by a half, sample 2 whole and sample 0 not at all; and the largest length. -/
theorem witness_overlaps : (1 ≤ 2 ∧ 2 ≤ 3 ∧ 3 ≤ 65535 ∧ 1 < 2 ∧ 3 % 2 ≠ 0) ∧
    (let overlap := fun sx : ℚ => max 0 (min (sx + 1) ((1 + 1) * 3 / 2) - max sx (1 * 3 / 2))
     overlap 0 = 0 ∧ overlap 1 = 1 / 2 ∧ overlap 2 = 1 ∧ 1 / 1000 < overlap 1) ∧
    1 ≤ 65534 ∧ 65534 ≤ 65535 ∧ 65535 ≤ 65535 := by norm_num

/-- AreaGenAccumulatesEachSample. -/
theorem witness_areaGen : Accepted .areaGen ragged ∧ footprintsApart ragged :=
  ⟨⟨⟨by decide, by decide, by decide, by decide⟩, by decide, by decide⟩, witness_ragged_apart⟩

/-- AreaGenOfZeroIsZero: an all-0 source. -/
theorem witness_zero_source : Accepted .areaGen (scene 3 3 2 2 1 []) ∧ footprintsApart (scene 3 3 2 2 1 []) ∧
    ∀ a, inSource (scene 3 3 2 2 1 []) a → (scene 3 3 2 2 1 []).mem.read a = 0#8 :=
  have h : Accepted .areaGen (scene 3 3 2 2 1 []) := ⟨⟨by decide, by decide, by decide, by decide⟩, by decide, by decide⟩
  ⟨h, (disjoint_legal h.toOperandsLegal (by decide)).mp (by decide), fun _ _ => rfl⟩

/-- AreaPathsAgreeWithinOne: one state that both commands accept. -/
theorem witness_both_area_paths : Accepted .areaInt small ∧ Accepted .areaGen small ∧ footprintsApart small :=
  ⟨witness_small_areaInt, witness_small_areaGen, witness_small_apart⟩

/-- FptabCommandsBuildEntries: extent 1 on both axes; `small` is the other clause. -/
theorem witness_extent_one : Accepted .fptabX (scene 1 1 3 3 4 []) ∧ Accepted .fptabY (scene 1 1 3 3 4 []) :=
  ⟨⟨⟨by decide, by decide, by decide, by decide⟩, by decide, by decide⟩,
    ⟨by decide, by decide, by decide, by decide⟩, by decide, by decide⟩

/-- ScaleOneFixedTable: an inner entry and the last one, at the smallest and the largest length. -/
theorem witness_scale_one : (2 ≤ 2 ∧ 2 ≤ 65535 ∧ 0 < 2 ∧ 1 < 2) ∧ (2 ≤ 65535 ∧ 65535 ≤ 65535 ∧ 65534 < 65535) := by
  decide

/-- FixedTablePositions: lengths 3 to 4, with the first index (0), an index inside (1) and the last pair (3); 2 to
98, whose index 49 is an integer position under a rounded scale, the case that only the first clauses cover. -/
theorem witness_positions : ((2 ≤ 3 ∧ 3 ≤ 65535 ∧ 1 ≤ 4 ∧ 4 ≤ 65535) ∧
    ((0 < 4 ∧ 0 * 3 / 4 + 1 < 3) ∧ (1 < 4 ∧ 1 * 3 % 4 ≠ 0 ∧ 1 * 3 / 4 + 1 < 3) ∧
      (3 < 4 ∧ 3 * 3 % 4 ≠ 0 ∧ 3 ≤ 3 * 3 / 4 + 1)) ∧
    (49 < 98 ∧ 49 * 2 % 98 = 0)) := by decide

/-- FixedTablePositions: lengths 2 to 4, an exact scale, whose index 2 is an integer position. -/
theorem witness_exact_scale : f64Value (scaleOf 2 4) * (4 : ℕ) = (2 : ℕ) := by
  rw [show scaleOf 2 4 = 0x3FE0000000000000#64 by decide +kernel, f64Value, exactValue,
    show binary64.unpack (0x3FE0000000000000#64).toNat = .finite false 4503599627370496 (-53) by decide +kernel]
  norm_num [show (-53 : ℤ).toNat = 0 by decide, show Int.toNat 53 = 53 by decide]

/-- LinearBlendsFourSamples. -/
theorem witness_linear : Accepted .linear grown ∧ footprintsApart grown :=
  ⟨⟨⟨by decide, by decide, by decide, by decide⟩, by decide, by decide⟩, witness_grown_apart⟩

/-- FixedWeightsWord, BlendStaysInRange, FullWeightReproducesSample, EqualSamplesBlendToThemselves: legal weights, each
corner among them. -/
theorem witness_weights : (2048 + 0 = 2048 ∧ 0 + 2048 = 2048 ∧ 1025 + 1023 = 2048) ∧ 2048 ≤ 2048 := by decide

/-- EqualDimensionsCopy: one state that every command accepts. -/
theorem witness_equal_sized : equalSized.srcWidth = equalSized.dstWidth ∧ equalSized.srcHeight = equalSized.dstHeight ∧
    footprintsApart equalSized ∧ ∀ i : Instr, Accepted i equalSized :=
  have h (i : Instr) : Accepted i equalSized := by
    cases i <;> exact ⟨⟨by decide, by decide, by decide, by decide⟩, by decide, by decide⟩
  ⟨by decide, by decide, (disjoint_legal (h .resize).toOperandsLegal (by decide)).mp (by decide), h⟩

/-- DoublesRoundOnce and RneIsNearestTiesToEven: finite doubles whose results are in range. -/
theorem witness_doubles : isFinite binary64 oneF64.toNat ∧ f64Value oneF64 ≠ 0 ∧
    |f64Value oneF64 * f64Value oneF64| < 2 ^ 1023 ∧ |f64Value oneF64 + f64Value oneF64| < 2 ^ 1023 ∧
    |f64Value oneF64 - f64Value oneF64| < 2 ^ 1023 ∧ |f64Value oneF64 / f64Value oneF64| < 2 ^ 1023 := by
  have h : f64Value oneF64 = 1 := (f64Value_eq _).trans one_val.2
  have big : (2 : ℚ) < 2 ^ 1023 := by
    simpa using pow_lt_pow_right₀ (one_lt_two : (1 : ℚ) < 2) (show 1 < 1023 by decide)
  refine ⟨(isFinite_iff _ _).mpr one_val.1, by rw [h]; exact one_ne_zero, ?_, ?_, ?_, ?_⟩ <;> rw [h] <;>
    exact lt_of_le_of_lt (by norm_num) big

/-- FloatsRoundOnce: finite floats whose results are in range. -/
theorem witness_floats : isFinite binary32 (f32OfU8 255#8).toNat ∧
    |f32Value (f32OfU8 255#8) * f32Value (f32OfU8 255#8)| < 2 ^ 127 ∧
    |f32Value (f32OfU8 255#8) + f32Value (f32OfU8 255#8)| < 2 ^ 127 ∧ |f64Value oneF64| < 2 ^ 127 := by
  have h : f32Value (f32OfU8 255#8) = 255 := (f32Value_eq _).trans (by rw [(f32OfU8_val 255#8).2]; norm_num)
  refine ⟨(isFinite_iff _ _).mpr (f32OfU8_val 255#8).1, ?_⟩
  rw [h, (f64Value_eq _).trans one_val.2]
  norm_num

/-- RneIsNearestTiesToEven: a tie. -/
theorem witness_tie : 0 < 2 ∧ |(rneDiv 5 2 : ℚ) - (5 : ℕ) / (2 : ℕ)| = 1 / 2 := by
  rw [show rneDiv 5 2 = 2 by decide]; norm_num

end Sys2Proof.Tests
end

section
/-! The number primitives of 00_scope.md R13, R14, R15 (O55, O56, O58): the rounding of the library is to nearest with
ties to even, on the integers and on the numbers of a format, and the operations on encodings inherit it. -/

namespace Sys2Proof.Machine

/-! ### Rounding to an integer -/

/-- A half-way rational goes to the even neighbour. -/
theorem rneQ_even_of_half {q : ℚ} (h : |(rneQ q : ℚ) - q| = 1 / 2) : rneQ q % 2 = 0 := by
  have hlo := Int.floor_le q
  have hhi := Int.lt_floor_add_one q
  unfold rneQ at h ⊢
  split_ifs at h ⊢ with below above
  · rw [abs_of_nonpos (by linarith)] at h; linarith
  · push_cast at h; rw [abs_of_nonneg (by linarith)] at h; linarith
  · omega

/-- Any other integer is at least 1/2 away. -/
theorem half_le_of_ne_rneQ {q : ℚ} {z : ℤ} (hz : z ≠ rneQ q) : 1 / 2 ≤ |(z : ℚ) - q| := by
  have hgap : (1 : ℚ) ≤ |(z : ℚ) - rneQ q| := by exact_mod_cast Int.one_le_abs (sub_ne_zero.mpr hz)
  have htri := abs_sub_le (z : ℚ) q (rneQ q)
  have herr := rneQ_error q
  rw [abs_sub_comm] at herr
  linarith

theorem rneQ_nearest (q : ℚ) (z : ℤ) : |(rneQ q : ℚ) - q| ≤ |(z : ℚ) - q| := by
  by_cases hz : z = rneQ q
  · rw [hz]
  · exact (rneQ_error q).trans (half_le_of_ne_rneQ hz)

theorem rneQ_even_of_tie {q : ℚ} {z : ℤ} (hz : z ≠ rneQ q) (h : |(z : ℚ) - q| = |(rneQ q : ℚ) - q|) :
    rneQ q % 2 = 0 :=
  rneQ_even_of_half (le_antisymm (rneQ_error q) (h ▸ half_le_of_ne_rneQ hz))

/-! ### Rounding to the numbers of a format -/

/-- A number of the format, were its exponents unbounded above: a signed significand of `fracBits + 1` bits at an
exponent that the format has. -/
def FloatFormat.IsNumber (f : FloatFormat) (v : ℚ) : Prop :=
  ∃ z j : ℤ, z.natAbs < 2 ^ (f.fracBits + 1) ∧ 1 - (f.bias : ℤ) - f.fracBits ≤ j ∧ v = z * (2 : ℚ) ^ j

theorem FloatFormat.IsNumber.neg {f : FloatFormat} {v : ℚ} (h : f.IsNumber v) : f.IsNumber (-v) := by
  obtain ⟨z, j, hz, hj, rfl⟩ := h
  exact ⟨-z, j, by rwa [Int.natAbs_neg], hj, by push_cast; ring⟩

/-- A finite encoding stands for a number of its format. -/
theorem isNumber_val {f : FloatFormat} {c : ℕ} (hc : f.fin c) : f.IsNumber (f.val c) := by
  have hfrac : c % 2 ^ f.fracBits < 2 ^ f.fracBits := Nat.mod_lt _ (by positivity)
  unfold FloatFormat.val
  rw [unpack_fin hc]
  generalize (c / 2 ^ (f.fracBits + f.expBits) % 2 == 1) = s
  generalize hm : (if c / 2 ^ f.fracBits % 2 ^ f.expBits = 0 then 0 else 2 ^ f.fracBits) + c % 2 ^ f.fracBits = m
  generalize hj : ((c / 2 ^ f.fracBits % 2 ^ f.expBits - 1 : ℕ) : ℤ) + 1 - f.bias - f.fracBits = j
  have hlt : m < 2 ^ (f.fracBits + 1) := by rw [← hm, pow_succ]; split <;> omega
  have hpos : f.IsNumber (m * (2 : ℚ) ^ j) := ⟨m, j, hlt, by omega, by push_cast; rfl⟩
  cases s with
  | false => simpa [FloatVal.toRat] using hpos
  | true => simpa [FloatVal.toRat] using hpos.neg

/-- A number of the format is a whole count of the quanta of a rounding, or lies strictly below the power of two that
begins the binade of the rounded number. -/
theorem isNumber_quanta_or_below {f : FloatFormat} {v q : ℚ} (hv : f.IsNumber v) (hq : 0 < q) :
    (∃ z : ℤ, v = z * (2 : ℚ) ^ quantumQ f q) ∨
    v < (2 ^ f.fracBits : ℤ) * (2 : ℚ) ^ quantumQ f q ∧ (2 ^ f.fracBits : ℤ) * (2 : ℚ) ^ quantumQ f q ≤ q := by
  obtain ⟨z, j, hz, hj, rfl⟩ := hv
  rcases le_or_gt (quantumQ f q) j with h | h
  · obtain ⟨i, hi⟩ := Int.eq_ofNat_of_zero_le (sub_nonneg.mpr h)
    refine .inl ⟨z * 2 ^ i, ?_⟩
    rw [show j = i + quantumQ f q by omega, zpow_add₀ two_ne_zero, zpow_natCast]
    push_cast
    ring
  · have hnormal : (f.fracBits : ℤ) + quantumQ f q = Int.log 2 q := by
      unfold quantumQ at h ⊢
      rcases max_choice (Int.log 2 q) (1 - (f.bias : ℤ)) with hm | hm <;> rw [hm] at h ⊢ <;> omega
    have hpow : ((2 ^ f.fracBits : ℤ) : ℚ) * (2 : ℚ) ^ quantumQ f q = (2 : ℚ) ^ Int.log 2 q := by
      rw [← hnormal, zpow_add₀ two_ne_zero, zpow_natCast]; push_cast; rfl
    have hzlt : (z : ℚ) < (2 : ℚ) ^ ((f.fracBits : ℤ) + 1) := by
      have : z < 2 ^ (f.fracBits + 1) := by zify at hz; exact (le_abs_self z).trans_lt hz
      exact_mod_cast this
    refine .inr ⟨?_, hpow ▸ (le_log hq).mpr le_rfl⟩
    calc (z : ℚ) * (2 : ℚ) ^ j < (2 : ℚ) ^ ((f.fracBits : ℤ) + 1) * (2 : ℚ) ^ j :=
          mul_lt_mul_of_pos_right hzlt (two_zpow_pos j)
      _ = (2 : ℚ) ^ ((f.fracBits : ℤ) + 1 + j) := (zpow_add₀ two_ne_zero _ _).symm
      _ ≤ (2 : ℚ) ^ Int.log 2 q := two_zpow_le (by omega)
      _ = _ := hpow.symm

/-- The distance to a count of quanta is the distance of the count, scaled. -/
theorem abs_quanta_sub (f : FloatFormat) (q : ℚ) (z : ℤ) :
    |z * (2 : ℚ) ^ quantumQ f q - q| = |z - q / (2 : ℚ) ^ quantumQ f q| * (2 : ℚ) ^ quantumQ f q := by
  have hp := two_zpow_pos (quantumQ f q)
  rw [← abs_of_pos hp, ← abs_mul, abs_of_pos hp, sub_mul, div_mul_cancel₀ _ hp.ne']

theorem roundQ_nearest_quanta (f : FloatFormat) (q : ℚ) (z : ℤ) :
    |roundQ f q - q| ≤ |z * (2 : ℚ) ^ quantumQ f q - q| := by
  unfold roundQ
  rw [abs_quanta_sub, abs_quanta_sub]
  exact mul_le_mul_of_nonneg_right (rneQ_nearest _ z) (two_zpow_pos _).le

/-- A number of the format below the binade is farther than the rounding. -/
theorem roundQ_nearer_of_below {f : FloatFormat} {v q : ℚ} (hv : v < (2 ^ f.fracBits : ℤ) * (2 : ℚ) ^ quantumQ f q)
    (hle : (2 ^ f.fracBits : ℤ) * (2 : ℚ) ^ quantumQ f q ≤ q) : |roundQ f q - q| < |v - q| := by
  refine (roundQ_nearest_quanta f q (2 ^ f.fracBits)).trans_lt ?_
  rw [abs_of_nonpos (by linarith), abs_of_nonpos (by linarith)]
  linarith

theorem roundQ_nearest {f : FloatFormat} {v q : ℚ} (hv : f.IsNumber v) (hq : 0 < q) :
    |roundQ f q - q| ≤ |v - q| := by
  rcases isNumber_quanta_or_below hv hq with ⟨z, rfl⟩ | ⟨hlt, hle⟩
  · exact roundQ_nearest_quanta f q z
  · exact (roundQ_nearer_of_below hlt hle).le

/-- The count of quanta is even when another number of the format is equally near. -/
theorem roundQ_even_of_tie {f : FloatFormat} {v q : ℚ} (hv : f.IsNumber v) (hq : 0 < q) (hne : v ≠ roundQ f q)
    (htie : |v - q| = |roundQ f q - q|) : rneQ (q / (2 : ℚ) ^ quantumQ f q) % 2 = 0 := by
  rcases isNumber_quanta_or_below hv hq with ⟨z, rfl⟩ | ⟨hlt, hle⟩
  · refine rneQ_even_of_tie (z := z) (fun hz => hne (by rw [hz]; rfl)) ?_
    unfold roundQ at htie
    rw [abs_quanta_sub, abs_quanta_sub] at htie
    exact mul_right_cancel₀ (two_zpow_pos _).ne' htie
  · exact absurd htie (roundQ_nearer_of_below hlt hle).ne'

theorem rnd_nearest {f : FloatFormat} {v : ℚ} (hv : f.IsNumber v) (q : ℚ) : |rnd f q - q| ≤ |v - q| := by
  rcases lt_trichotomy q 0 with h | rfl | h
  · have := roundQ_nearest hv.neg (neg_pos.mpr h)
    rwa [← rnd_pos f (neg_pos.mpr h), rnd_neg, neg_sub_neg, neg_sub_neg, abs_sub_comm, abs_sub_comm q v] at this
  · simp
  · rw [rnd_pos f h]; exact roundQ_nearest hv h

theorem rnd_even_of_tie {f : FloatFormat} {v q : ℚ} (hv : f.IsNumber v) (hne : v ≠ rnd f q)
    (htie : |v - q| = |rnd f q - q|) : rneQ (|q| / (2 : ℚ) ^ quantumQ f |q|) % 2 = 0 := by
  rcases lt_trichotomy q 0 with h | rfl | h
  · have hr : rnd f q = -roundQ f (-q) := by rw [← rnd_pos f (neg_pos.mpr h), rnd_neg, neg_neg]
    rw [abs_of_neg h]
    refine roundQ_even_of_tie hv.neg (neg_pos.mpr h) (fun hv' => hne (by rw [hr, ← hv', neg_neg])) ?_
    rw [neg_sub_neg, abs_sub_comm q v, htie, hr, ← abs_neg]
    congr 1
    ring
  · exact absurd (by simpa using htie) hne
  · rw [rnd_pos f h] at hne htie
    rw [abs_of_pos h]
    exact roundQ_even_of_tie hv h hne htie

/-! ### The last bit of an encoding -/

theorem pack_mod_two {f : FloatFormat} (hF : 0 < f.fracBits) (neg : Bool) (mag : ℕ) :
    f.pack neg mag % 2 = mag % 2 := by
  have := Nat.two_pow_mod_two_eq_zero.mpr (Nat.add_pos_left hF f.expBits)
  unfold FloatFormat.pack
  split <;> omega

/-- The last bit of a rounded magnitude is that of the count of quanta. -/
theorem roundMag_mod_two {f : FloatFormat} (hf : f.Good) (hF : 0 < f.fracBits) {n d : ℕ} (hn : 0 < n) (hd : 0 < d)
    (hlt : (n : ℚ) / d < (2 : ℚ) ^ (f.bias : ℤ)) :
    ((f.roundMag n d % 2 : ℕ) : ℤ) = rneQ ((n : ℚ) / d / (2 : ℚ) ^ quantumQ f ((n : ℚ) / d)) % 2 := by
  obtain ⟨-, -, hinf⟩ := roundMag_spec f hf false n d hn hd hlt
  rw [← scaled_quotient, ← rneDiv_eq_rneQ _ _ (scaleNum_pos _ hd), ← quantum_eq f n d hn hd]
  unfold FloatFormat.roundMag at hinf ⊢
  rw [if_neg hn.ne'] at hinf ⊢
  rw [min_eq_left (le_of_not_ge fun h => hinf.ne (min_eq_right h)), Nat.add_mod, Nat.mul_mod,
    Nat.two_pow_mod_two_eq_zero.mpr hF]
  simp

/-- Zero, of either sign, has last bit 0. -/
theorem mod_two_of_val_eq_zero {f : FloatFormat} (hF : 0 < f.fracBits) {b : ℕ} (hb : f.fin b) (h : f.val b = 0) :
    b % 2 = 0 := by
  have hmant := (not_iff_not.mpr (val_ne_zero (unpack_fin hb))).mp (not_not.mpr h)
  rw [not_not, Nat.add_eq_zero_iff] at hmant
  exact Nat.mod_eq_zero_of_dvd ((dvd_pow_self 2 hF.ne').trans (Nat.dvd_of_mod_eq_zero hmant.2))

/-! ### Operations rounded once -/

theorem ratNum_natAbs_div_den (q : ℚ) : (q.num.natAbs : ℚ) / q.den = |q| := by
  rw [Nat.cast_natAbs, Int.cast_abs, ← Nat.abs_cast q.den, ← abs_div, Rat.num_div_den]

/-- The one encoding of a rounded number other than 0 is that of its sign and its rounded magnitude. -/
theorem eq_pack_roundMag {f : FloatFormat} (hf : f.Good) {b : ℕ} {q : ℚ} (hb : f.fin b)
    (hbl : b < 2 ^ (f.fracBits + f.expBits + 1)) (hval : f.val b = rnd f q) (h0 : f.val b ≠ 0)
    (hlt : |q| < (2 : ℚ) ^ (f.bias : ℤ)) :
    b = f.pack (decide (q < 0)) (f.roundMag q.num.natAbs q.den) := by
  obtain ⟨hfin, hv, hl⟩ := roundMag_val hf (decide (q < 0)) q.num.natAbs q.den q.den_pos
    (by rwa [ratNum_natAbs_div_den])
  refine val_inj hb hfin hbl hl ?_ h0
  rw [hv, hval, ratNum_natAbs_div_den]
  congr 1
  rcases lt_or_ge q 0 with h | h
  · simp [h, abs_of_neg h]
  · simp [not_lt.mpr h, abs_of_nonneg h]

/-- An encoding of the rounding of a number in range is that number rounded once, in the words of the statements. -/
theorem roundedOnce_of_val {f : FloatFormat} (hf : f.Good) (hF : 0 < f.fracBits) {b : ℕ} {q : ℚ}
    (hlt : |q| < (2 : ℚ) ^ (f.bias : ℤ))
    (h : f.fin b ∧ f.val b = rnd f q ∧ b < 2 ^ (f.fracBits + f.expBits + 1)) : RoundedOnce f b q := by
  obtain ⟨hb, hval, hbl⟩ := h
  refine ⟨(isFinite_iff f b).mpr hb, fun c hc => ?_, fun c hc hne htie => ?_⟩
  · rw [distance_eq, distance_eq, exactValue_eq, exactValue_eq, hval]
    exact rnd_nearest (isNumber_val ((isFinite_iff f c).mp hc)) q
  · rw [exactValue_eq, exactValue_eq, hval] at hne
    rw [distance_eq, distance_eq, exactValue_eq, exactValue_eq, hval] at htie
    by_cases h0 : f.val b = 0
    · exact mod_two_of_val_eq_zero hF hb h0
    · have hq : q ≠ 0 := fun hq => h0 (by rw [hval, hq, rnd_zero])
      have heven := rnd_even_of_tie (isNumber_val ((isFinite_iff f c).mp hc)) hne htie
      have hlast := roundMag_mod_two hf hF (n := q.num.natAbs) (Int.natAbs_pos.mpr (Rat.num_ne_zero.mpr hq))
        q.den_pos (by rwa [ratNum_natAbs_div_den])
      rw [ratNum_natAbs_div_den, heven] at hlast
      rw [eq_pack_roundMag hf hb hbl hval h0 hlt, pack_mod_two hF]
      exact_mod_cast hlast

/-- Conversion: the value rounded once to the other format. -/
theorem convert_val {f g : FloatFormat} (hg : g.Good) {a : ℕ} (ha : f.fin a)
    (hlt : |f.val a| < (2 : ℚ) ^ (g.bias : ℤ)) :
    g.fin (f.convert g a) ∧ g.val (f.convert g a) = rnd g (f.val a) ∧
    f.convert g a < 2 ^ (g.fracBits + g.expBits + 1) := by
  obtain ⟨s, m, e, hu⟩ := fin_iff ha
  have hv : f.val a = (if s then -1 else 1) * (m * (2 : ℚ) ^ e) := by unfold FloatFormat.val; rw [hu]; rfl
  have hmag : (0 : ℚ) ≤ m * (2 : ℚ) ^ e := by positivity
  have hconv : f.convert g a = g.roundScaled s m e := by unfold FloatFormat.convert; rw [hu]
  rw [hconv, hv]
  refine roundScaled_val hg s m e ?_
  rw [hv] at hlt
  cases s <;> simpa [abs_of_nonneg hmag] using hlt

/-- A float whose encoding holds a rounding of a number below `2^127` is that number rounded once. -/
theorem roundedOnce_ofNat32 {n : ℕ} {q : ℚ} (hlt : |q| < 2 ^ 127)
    (h : |q| < (2 : ℚ) ^ (binary32.bias : ℤ) → binary32.fin n ∧ binary32.val n = rnd binary32 q ∧
      n < 2 ^ (binary32.fracBits + binary32.expBits + 1)) : RoundedOnce binary32 (BitVec.ofNat 32 n).toNat q := by
  have hbias : |q| < (2 : ℚ) ^ (binary32.bias : ℤ) := by rw [bias_binary32]; exact_mod_cast hlt
  rw [toNat_ofNat32 (h hbias).2.2]
  exact roundedOnce_of_val binary32_good (by decide) hbias (h hbias)

/-! ### The obligations -/

/-- Settles O55: every `rne` of the model is `rneQ` of the exact value. -/
theorem rneIsNearestTiesToEven : Obligations.RneIsNearestTiesToEven := by
  refine ⟨fun n d hd => ?_, fun x hx => ?_, fun x hx => ?_⟩
  · have hcast : (rneDiv n d : ℚ) = (rneQ ((n : ℚ) / d) : ℚ) := by
      rw [← rneDiv_eq_rneQ n d hd, Int.cast_natCast]
    rw [hcast]
    refine ⟨rneQ_error _, fun h => ?_⟩
    have heven := rneQ_even_of_half h
    rw [← rneDiv_eq_rneQ n d hd] at heven
    exact_mod_cast heven
  · rw [f32Value_eq, f32Rne_val ((isFinite_iff _ _).mp hx)]
    exact ⟨rneQ_error _, rneQ_even_of_half⟩
  · rw [f64Value_eq, f64Rne_val ((isFinite_iff _ _).mp hx)]
    exact ⟨rneQ_error _, rneQ_even_of_half⟩

/-- Settles O56: each operation encodes the rounding `rnd binary32` of its exact result. -/
theorem floatsRoundOnce : Obligations.FloatsRoundOnce := by
  refine ⟨fun a b ha hb => ?_, fun a ha hlt => ?_, fun v => ?_⟩
  · rw [isFinite_iff] at ha hb
    rw [f32Value_eq, f32Value_eq]
    exact ⟨fun hlt => roundedOnce_ofNat32 hlt (mul_val binary32_good ha hb),
      fun hlt => roundedOnce_ofNat32 hlt (add_val binary32_good ha hb)⟩
  · rw [isFinite_iff] at ha
    rw [f64Value_eq] at hlt ⊢
    exact roundedOnce_ofNat32 hlt (convert_val binary32_good ha)
  · obtain ⟨hfin, hval⟩ := f32OfU8_val v
    exact ⟨(isFinite_iff _ _).mpr hfin, by rw [f32Value_eq, hval]⟩

/-- Settles O58, by the three ranges of the integer. -/
theorem saturationToByte : Obligations.SaturationToByte := by
  intro i
  have hbyte : (satU8 i).toNat = min i.toNat 255 := by
    unfold satU8
    rw [BitVec.toNat_ofNat, Nat.mod_eq_of_lt (by omega)]
  rw [hbyte]
  split_ifs with hneg hbig <;> omega

end Sys2Proof.Machine
end

section
/-! The register window (10_state.md R22) through its registers, and its identity and capacity registers (10_state.md
R42, R43; O15): an access at `regOffset r` is an access to `r`, a write of a `RO` register stores nothing, and a byte
of `CAP_DIM` holds its parameter on every legal configuration. -/

namespace Sys2Proof.Machine

/-! ### An access at the offset of a register -/

/-- The window finds every register at its own offset, so no two share one. -/
@[simp] theorem regAt_regOffset (r : Reg) : regAt (regOffset r) = some r := by cases r <;> rfl

@[simp] theorem windowAccessOk_regOffset (r : Reg) : windowAccessOk .bits32 (regOffset r) = true := by cases r <;> rfl

@[simp] theorem readOffset_regOffset (c : Config) (s : State) (r : Reg) :
    readOffset c s (regOffset r) = readReg c s r := by
  rw [readOffset, regAt_regOffset]

@[simp] theorem writeOffset_regOffset (r : Reg) (v : Word) (s : State) :
    writeOffset (regOffset r) v s = writeReg r v s := by
  rw [writeOffset, regAt_regOffset]

theorem regOffset_injective : Function.Injective regOffset := fun r q h =>
  Option.some.inj (by rw [← regAt_regOffset r, h, regAt_regOffset])

/-- A write at the offset of any register but `CMD` is its `writeReg`. -/
theorem accessOn_write_regOffset (c : Config) {r : Reg} (hr : r ≠ .cmd) (v : Word) (s : State) :
    accessOn c (.windowWrite .bits32 (regOffset r) v) s = .next (writeReg r v s) := by
  have hoff : regOffset r ≠ regOffset .cmd := fun h => hr (regOffset_injective h)
  simp [accessOn, hoff]

/-- A `RO` register ignores its write (10_state.md R22). -/
theorem writeReg_of_readOnly {r : Reg} (hr : regRight r = .readOnly) (v : Word) (s : State) : writeReg r v s = s := by
  cases r <;> simp [regRight] at hr <;> rfl

theorem accessOn_write_of_readOnly (c : Config) {r : Reg} (hr : regRight r = .readOnly) (v : Word) (s : State) :
    accessOn c (.windowWrite .bits32 (regOffset r) v) s = .next s := by
  have hcmd : r ≠ .cmd := by rintro rfl; cases hr
  rw [accessOn_write_regOffset c hcmd, writeReg_of_readOnly hr]

/-! ### The identity and capacity registers -/

/-- The parameters of a legal configuration fit the registers that hold them. -/
theorem Config.fits_of_legal {c : Config} (hc : c.legal = true) :
    (c.dimBits < 256 ∧ c.maxCh < 256 ∧ c.addrBits < 256) ∧
      c.tabCap < 2 ^ 32 ∧ c.rowCap < 2 ^ 32 ∧ c.fpCap < 2 ^ 32 := by
  simp only [Config.legal, Bool.and_eq_true, decide_eq_true_eq] at hc
  omega

/-- The value of the `CAP_DIM` word, while each parameter fits its byte. -/
theorem toNat_capDimWord {c : Config} (hdim : c.dimBits < 256) (hch : c.maxCh < 256) (haddr : c.addrBits < 256) :
    (capDimWord c).toNat = c.addrBits * 65536 + c.maxCh * 256 + c.dimBits := by
  have hlow {n w : ℕ} (x : BitVec w) (hn : n < 256) : (x ++ BitVec.ofNat 8 n).toNat = x.toNat * 256 + n := by
    rw [BitVec.toNat_append, BitVec.toNat_ofNat, Nat.mod_eq_of_lt hn,
      ← Nat.shiftLeft_add_eq_or_of_lt (i := 8) hn, Nat.shiftLeft_eq]
  rw [capDimWord, hlow _ hdim, hlow _ hch, hlow _ haddr, BitVec.toNat_ofNat]
  omega

/-- Settles O15: the five offsets are those of `RO` registers that read the configuration's parameters. -/
theorem identityAndCapacityConstants : Obligations.IdentityAndCapacityConstants := by
  have hid (c : Config) (s : State) : readOffset c s 0x5C = c.idValue := readOffset_regOffset c s .id
  have hdim (c : Config) (s : State) : readOffset c s 0x60 = capDimWord c := readOffset_regOffset c s .capDim
  have htab (c : Config) (s : State) : readOffset c s 0x64 = BitVec.ofNat 32 c.tabCap :=
    readOffset_regOffset c s .capTab
  have hrow (c : Config) (s : State) : readOffset c s 0x68 = BitVec.ofNat 32 c.rowCap :=
    readOffset_regOffset c s .capRow
  have hfp (c : Config) (s : State) : readOffset c s 0x6C = BitVec.ofNat 32 c.fpCap :=
    readOffset_regOffset c s .capFp
  refine ⟨fun c s hc => ?_, fun s => ?_, fun s o v ho => ?_⟩
  · obtain ⟨⟨hdimBits, hmaxCh, haddrBits⟩, htabCap, hrowCap, hfpCap⟩ := Config.fits_of_legal hc
    rw [hid, hdim, htab, hrow, hfp, toNat_capDimWord hdimBits hmaxCh haddrBits, BitVec.toNat_ofNat,
      BitVec.toNat_ofNat, BitVec.toNat_ofNat, Nat.mod_eq_of_lt htabCap, Nat.mod_eq_of_lt hrowCap,
      Nat.mod_eq_of_lt hfpCap]
    refine ⟨rfl, ?_⟩
    omega
  · rw [hid, hdim, htab, hrow, hfp]
    decide
  · obtain ⟨r, hr, rfl⟩ : ∃ r, regRight r = .readOnly ∧ o = regOffset r := by
      simp only [List.mem_cons, List.not_mem_nil, or_false] at ho
      obtain rfl | rfl | rfl | rfl | rfl := ho
      exacts [⟨.id, rfl, rfl⟩, ⟨.capDim, rfl, rfl⟩, ⟨.capTab, rfl, rfl⟩, ⟨.capRow, rfl, rfl⟩, ⟨.capFp, rfl, rfl⟩]
    exact accessOn_write_of_readOnly Config.default hr v s

end Sys2Proof.Machine
end

section
/-! The refusals of 20_memory.md (O14, O27): a window access without meaning (R68) and a pixel command whose footprints
share a byte (R72). Each of the two, a bus access and a command, has its refusals characterised once. -/

namespace Sys2Proof.Machine

/-! ### The refusals of a command -/

/-- The companion of `exec_accepted`: the views of operands that pass the checks meet where the footprints do. -/
theorem exec_accepted_overlapping {i : Instr} {s : State} (hi : i ∈ pixelCommands) (ha : Accepted i s)
    (hover : ¬ footprintsApart s) : exec i s = .refused .overlappingFootprints := by
  have hviews : ¬ (operands Config.default s).srcView.disjoint (operands Config.default s).dstView = true :=
    fun hd => hover ((disjoint_legal ha.toOperandsLegal hi).mp hd)
  rw [exec_eq, firstError_none.mpr ha]
  show acceptedBody i (clearResults s) = _
  rw [acceptedBody_pixel hi, if_neg hviews]

/-- Everything a command can be refused for: the failing checks end in an error, never in a refusal. -/
theorem exec_refused_iff {i : Instr} {s : State} {r : Refusal} :
    exec i s = .refused r ↔
      r = .overlappingFootprints ∧ i ∈ pixelCommands ∧ Accepted i s ∧ ¬ footprintsApart s := by
  constructor
  · intro h
    cases he : firstError i s with
    | some e =>
      rw [exec_eq, he] at h
      cases h
    | none =>
      have ha := firstError_none.mp he
      by_cases hnext : i ∈ pixelCommands → footprintsApart s
      · rw [exec_accepted ha hnext] at h
        cases h
      · obtain ⟨hi, hover⟩ := Classical.not_imp.mp hnext
        rw [exec_accepted_overlapping hi ha hover] at h
        cases h
        exact ⟨rfl, hi, ha, hover⟩
  · rintro ⟨rfl, hi, ha, hover⟩
    exact exec_accepted_overlapping hi ha hover

/-- Settles O27, by what a command is refused for. -/
theorem overlapRefused : Obligations.OverlapRefused := fun _ _ hi ha hover =>
  exec_refused_iff.mpr ⟨rfl, hi, ha, hover⟩

/-! ### The refusals of a window access -/

theorem windowAccessOk_iff {w : AccessWidth} {o : ℕ} :
    windowAccessOk w o = true ↔ w = .bits32 ∧ o % 4 = 0 ∧ o < 4096 := by
  simp [windowAccessOk, and_assoc]

/-- A write of `CMD` is no window access without meaning, whatever the word: a legal one is refused at most for its
footprints, an illegal one ends in an error. -/
theorem writeCmd_ne_windowAccess (v : Word) (s : State) : writeCmd v s ≠ .refused .windowAccess := by
  cases hdec : decode v with
  | ok i =>
    simp only [writeCmd, hdec]
    intro h
    obtain ⟨hr, -⟩ := exec_refused_iff.mp h
    cases hr
  | error e => simp [writeCmd, hdec, execIllegal]

theorem access_windowRead_refused_iff (w : AccessWidth) (o : ℕ) (s : State) :
    access (.windowRead w o) s = .refused .windowAccess ↔ ¬ windowAccessOk w o = true := by
  unfold access accessOn
  by_cases hok : windowAccessOk w o = true
  · simp [hok]
  · simp [hok]

/-- The case that could go wrong is a legal write of `CMD`, which answers as the command does. -/
theorem access_windowWrite_refused_iff (w : AccessWidth) (o : ℕ) (v : Word) (s : State) :
    access (.windowWrite w o v) s = .refused .windowAccess ↔ ¬ windowAccessOk w o = true := by
  unfold access accessOn
  by_cases hok : windowAccessOk w o = true
  · rcases eq_or_ne o (regOffset .cmd) with rfl | hcmd
    · simp [hok, writeCmd_ne_windowAccess]
    · simp [hok, hcmd]
  · simp [hok]

/-- Settles O14: the window check is the only source of its refusal, in both directions. -/
theorem illegalWindowAccessRefused : Obligations.IllegalWindowAccessRefused := by
  intro s w o v
  rw [access_windowRead_refused_iff, access_windowWrite_refused_iff, windowAccessOk_iff]
  exact ⟨Iff.rfl, Iff.rfl⟩

end Sys2Proof.Machine
end

section
/-! The decoder of command words (30_encoding.md R83, R89; O2, O7): everything it can answer, and what an illegal word
does as a command. -/

namespace Sys2Proof

/-! ### The fields of a word (R80) and the opcode map (R81) -/

theorem fieldsOf_zero_eq_iff (w : Word) : (fieldsOf w).zero = 0#28 ↔ w.toNat / 16 = 0 := by
  have hw := w.isLt
  rw [← BitVec.toNat_inj, fieldsOf, BitVec.extractLsb'_toNat, Nat.shiftRight_eq_div_pow, BitVec.toNat_ofNat]
  omega

theorem toNat_fieldsOf_op (w : Word) : (fieldsOf w).op.toNat = w.toNat % 16 := by
  rw [fieldsOf, BitVec.extractLsb'_toNat, Nat.shiftRight_zero]

theorem toNat_encode (i : Instr) : (encode i).toNat = i.op.toNat := by cases i <;> rfl

theorem Instr.op_range (i : Instr) : 1 ≤ i.op.toNat ∧ i.op.toNat ≤ 8 := by cases i <;> decide

/-- The opcode map finds only the `OP` of the command it names. -/
theorem toNat_of_instrOfOp {op : BitVec 4} {i : Instr} (h : instrOfOp op = some i) : op.toNat = i.op.toNat := by
  unfold instrOfOp at h
  split at h <;> cases h <;> assumption

/-- The values of `OP` without a command (R83). -/
theorem reserved_of_instrOfOp {op : BitVec 4} (h : instrOfOp op = none) : op.toNat = 0 ∨ 9 ≤ op.toNat := by
  revert op
  decide

/-! ### What the decoder answers -/

theorem decode_encode (i : Instr) : decode (encode i) = .ok i := by cases i <;> rfl

/-- Everything the decoder can answer, each with the words that have the answer. -/
theorem decode_cases (w : Word) :
    (decode w = .error .zeroFieldSet ∧ w.toNat / 16 ≠ 0) ∨
    (∃ i, decode w = .ok i ∧ w.toNat = i.op.toNat) ∨
    (∃ op, decode w = .error (.reservedOp op) ∧ w.toNat = op.toNat ∧ (op.toNat = 0 ∨ 9 ≤ op.toNat)) := by
  by_cases hzero : (fieldsOf w).zero = 0#28
  · have hop : w.toNat = (fieldsOf w).op.toNat := by
      rw [fieldsOf_zero_eq_iff] at hzero
      rw [toNat_fieldsOf_op]
      omega
    cases hi : instrOfOp (fieldsOf w).op with
    | some i => exact .inr (.inl ⟨i, by simp [decode, hzero, hi], hop.trans (toNat_of_instrOfOp hi)⟩)
    | none => exact .inr (.inr ⟨_, by simp [decode, hzero, hi], hop, reserved_of_instrOfOp hi⟩)
  · exact .inl ⟨by simp [decode, hzero], fun h => hzero ((fieldsOf_zero_eq_iff w).mpr h)⟩

/-- Each command is the one word of the opcode map (R89). -/
theorem decode_eq_ok_iff {w : Word} {i : Instr} : decode w = .ok i ↔ w.toNat = i.op.toNat := by
  constructor
  · intro h
    obtain ⟨he, -⟩ | ⟨j, hj, hw⟩ | ⟨op, he, -⟩ := decode_cases w
    · cases he.symm.trans h
    · cases hj.symm.trans h
      exact hw
    · cases he.symm.trans h
  · intro hw
    have hword : w = encode i := BitVec.eq_of_toNat_eq (hw.trans (toNat_encode i).symm)
    rw [hword, decode_encode]

theorem decode_eq_zeroFieldSet_iff {w : Word} : decode w = .error .zeroFieldSet ↔ w.toNat / 16 ≠ 0 := by
  obtain ⟨he, hw⟩ | ⟨i, hi, hw⟩ | ⟨op, he, hw, -⟩ := decode_cases w
  · exact ⟨fun _ => hw, fun _ => he⟩
  · have hop := i.op.isLt
    simp only [hi, reduceCtorEq, false_iff]
    omega
  · have hop := op.isLt
    simp only [he, Except.error.injEq, reduceCtorEq, false_iff]
    omega

theorem decode_eq_reservedOp_iff {w : Word} {op : BitVec 4} :
    decode w = .error (.reservedOp op) ↔ w.toNat = op.toNat ∧ (op.toNat = 0 ∨ 9 ≤ op.toNat) := by
  have hlt := op.isLt
  obtain ⟨he, hw⟩ | ⟨i, hi, hw⟩ | ⟨op', he, hw, hres⟩ := decode_cases w
  · simp only [he, Except.error.injEq, reduceCtorEq, false_iff]
    omega
  · have hrange := i.op_range
    simp only [hi, reduceCtorEq, false_iff]
    omega
  · simp only [he, Except.error.injEq, IllegalWord.reservedOp.injEq, ← BitVec.toNat_inj]
    omega

/-- The words that are commands are those that R83 does not call illegal. -/
theorem exists_decode_ok_iff (w : Word) :
    (∃ i, decode w = .ok i) ↔ ¬ (w.toNat / 16 ≠ 0 ∨ w.toNat % 16 = 0 ∨ 9 ≤ w.toNat % 16) := by
  obtain ⟨he, hw⟩ | ⟨i, hi, hw⟩ | ⟨op, he, hw, hres⟩ := decode_cases w
  · simp [he, hw]
  · have hrange := i.op_range
    simp only [hi, Except.ok.injEq, exists_eq', true_iff]
    omega
  · have hlt := op.isLt
    simp only [he, reduceCtorEq, exists_false, false_iff]
    omega

/-- Settles O2, by everything the decoder can answer. -/
theorem decodeMatchesOneWordEach : Obligations.DecodeMatchesOneWordEach := fun _ =>
  ⟨decode_eq_ok_iff, decode_eq_ok_iff, decode_eq_ok_iff, decode_eq_ok_iff, decode_eq_ok_iff, decode_eq_ok_iff,
    decode_eq_ok_iff, decode_eq_ok_iff, decode_eq_zeroFieldSet_iff, fun _ => decode_eq_reservedOp_iff⟩

end Sys2Proof

namespace Sys2Proof.Machine

/-! ### What an illegal word does (R83) -/

/-- What every completion with an error leaves (60_exceptions.md R201, R205). -/
theorem endsInError_raiseError (e : ErrCode) (s : State) :
    endsInError (.next (raiseError e (clearResults s))) s e (statusOf true e .noPath) :=
  ⟨_, rfl, rfl, rfl, ⟨rfl, rfl, rfl, rfl, rfl, rfl, rfl⟩,
    ⟨rfl, rfl, rfl, rfl, rfl, rfl, rfl, rfl, rfl, rfl, rfl, rfl, rfl⟩,
    ⟨rfl, rfl, rfl, rfl, rfl, rfl, rfl⟩, rfl, rfl⟩

theorem writeCmd_of_illegal {w : Word} (h : ∀ i, decode w ≠ .ok i) (s : State) : writeCmd w s = execIllegal s := by
  cases hdec : decode w with
  | ok i => exact absurd hdec (h i)
  | error e => simp only [writeCmd, hdec]

theorem writeCmd_illegal_endsInError {w : Word} (h : ∀ i, decode w ≠ .ok i) (s : State) :
    endsInError (writeCmd w s) s .invalidArgument 0x00000012#32 := by
  rw [writeCmd_of_illegal h]
  exact endsInError_raiseError .invalidArgument s

/-- A step whose pending access writes `CMD` (10_state.md R25). -/
theorem step_write_cmd {s : State} {w : Word} {rest : List BusAccess}
    (h : s.script = .windowWrite .bits32 0 w :: rest) : step s = writeCmd w { s with script := rest } := by
  unfold step
  rw [h]
  rfl

/-- What a command leaves of the internal memories does not depend on the script it was taken from. -/
theorem MemoriesKept.of_script {s t : State} {rest : List BusAccess}
    (h : MemoriesKept { s with script := rest } t) : MemoriesKept s t :=
  ⟨h.xtab, h.ytab, h.ygrp, h.fpx, h.fpy, h.scratch, h.acc⟩

/-- Settles O7: the step is the write of `CMD`, which completes with the error. -/
theorem illegalWordFails : Obligations.IllegalWordFails := by
  refine ⟨exists_decode_ok_iff, fun s w rest hscript hillegal => ?_⟩
  have hnone : ∀ i, decode w ≠ .ok i := fun i hi => (exists_decode_ok_iff w).mp ⟨i, hi⟩ hillegal
  obtain ⟨t, ht, herr, hstatus, hclear, hregs, hmems, hmem, hstate⟩ :=
    writeCmd_illegal_endsInError hnone { s with script := rest }
  refine ⟨t, (step_write_cmd hscript).trans ht, hstatus, ?_, herr, ?_, hclear, hmem, hmems.of_script, hregs⟩
  · rw [hstate, raiseError_done]
  · rw [hstate, raiseError_path]

end Sys2Proof.Machine
end

section
/-! What a command answers is a function of its operands (40_command_common.md R101, R112; O35): two states that agree
on the registers a command reads and on the source footprint pass or fail the same checks, and the accepted command
leaves them the same results and the same image. -/

namespace Sys2Proof.Machine

/-! ### The registers two states share -/

theorem widthCommands_of_pixel {i : Instr} (hi : i ∈ pixelCommands) : i ∈ widthCommands := by
  revert hi; cases i <;> decide

theorem heightCommands_of_pixel {i : Instr} (hi : i ∈ pixelCommands) : i ∈ heightCommands := by
  revert hi; cases i <;> decide

section
variable {i : Instr} {s t : State}

theorem SameOperands.srcWidth (h : SameOperands i s t) (hi : i ∈ widthCommands) : s.srcWidth = t.srcWidth :=
  (h.widths hi).1

theorem SameOperands.dstWidth (h : SameOperands i s t) (hi : i ∈ widthCommands) : s.dstWidth = t.dstWidth :=
  (h.widths hi).2.1

theorem SameOperands.channels (h : SameOperands i s t) (hi : i ∈ widthCommands) : s.channels = t.channels :=
  (h.widths hi).2.2

theorem SameOperands.srcHeight (h : SameOperands i s t) (hi : i ∈ heightCommands) : s.srcHeight = t.srcHeight :=
  (h.heights hi).1

theorem SameOperands.dstHeight (h : SameOperands i s t) (hi : i ∈ heightCommands) : s.dstHeight = t.dstHeight :=
  (h.heights hi).2

/-- A pixel command reads all nine descriptor registers, so the operands are equal. -/
theorem SameOperands.operands_eq (h : SameOperands i s t) (hi : i ∈ pixelCommands) (c : Config) :
    operands c s = operands c t := by
  obtain ⟨hsw, hdw, hcn⟩ := h.widths (widthCommands_of_pixel hi)
  obtain ⟨hsh, hdh⟩ := h.heights (heightCommands_of_pixel hi)
  obtain ⟨hsb, hdb, hss, hds⟩ := h.views hi
  simp only [operands, hsw, hdw, hcn, hsh, hdh, hsb, hdb, hss, hds]

/-- The tables of the horizontal axis are built from the widths and `CHANNELS`. -/
theorem SameOperands.tablesX_eq (h : SameOperands i s t) (hi : i ∈ widthCommands) :
    tableX (operands Config.default s) = tableX (operands Config.default t) ∧
      fixedX (operands Config.default s) = fixedX (operands Config.default t) := by
  simp only [tableX, fixedX, operands_sw, operands_dw, operands_cn, h.srcWidth hi, h.dstWidth hi, h.channels hi,
    and_self]

/-- The tables of the vertical axis are built from the heights. -/
theorem SameOperands.tablesY_eq (h : SameOperands i s t) (hi : i ∈ heightCommands) :
    tableY (operands Config.default s) = tableY (operands Config.default t) ∧
      groupsY (operands Config.default s) = groupsY (operands Config.default t) ∧
      fixedY (operands Config.default s) = fixedY (operands Config.default t) := by
  simp only [groupsY, tableY, fixedY, operands_sh, operands_dh, h.srcHeight hi, h.dstHeight hi, and_self]

/-! ### The same outcome of the checks (60_exceptions.md R202) -/

/-- Only `RESIZE` selects, and it reads the four dimensions. -/
theorem SameOperands.commandPath_eq (h : SameOperands i s t) : commandPath i s = commandPath i t := by
  cases i with
  | resize =>
    simp only [commandPath, pathByDimensions, h.srcWidth (by decide), h.dstWidth (by decide), h.srcHeight (by decide),
      h.dstHeight (by decide)]
  | areaInt | areaGen | linear | wtabX | wtabY | fptabX | fptabY => rfl

theorem pixel_of_commandPath {p : PixelPath} (hp : p ≠ .noPath) (h : commandPath i s = p) : i ∈ pixelCommands := by
  by_contra hi
  exact hp (h ▸ commandPath_noPath.mpr hi)

theorem SameOperands.failsV1_iff (h : SameOperands i s t) : failsV1 i s ↔ failsV1 i t := by
  refine or_congr (and_congr_right fun hi => ?_) (or_congr (and_congr_right fun hi => ?_)
    (or_congr (and_congr_right fun hi => ?_) (and_congr_right fun hi => ?_)))
  · obtain ⟨hsb, hdb, -, -⟩ := h.views hi
    rw [hsb, hdb]
  · rw [h.srcWidth hi, h.dstWidth hi]
  · rw [h.srcHeight hi, h.dstHeight hi]
  · rw [h.channels hi]

theorem SameOperands.failsV2_iff (h : SameOperands i s t) : failsV2 i s ↔ failsV2 i t := by
  refine or_congr (and_congr_right fun hi => ?_) (and_congr_right fun hi => ?_)
  · rw [h.srcWidth hi, h.dstWidth hi]
  · rw [h.srcHeight hi, h.dstHeight hi]

theorem SameOperands.failsV3_iff (h : SameOperands i s t) : failsV3 i s ↔ failsV3 i t := by
  refine and_congr_right fun hi => ?_
  obtain ⟨hsw, hdw, hcn⟩ := h.widths (widthCommands_of_pixel hi)
  obtain ⟨-, -, hss, hds⟩ := h.views hi
  rw [hsw, hdw, hcn, hss, hds]

theorem SameOperands.failsV4_iff (h : SameOperands i s t) : failsV4 i s ↔ failsV4 i t := by
  refine and_congr_right fun hi => ?_
  obtain ⟨hsw, hdw, hcn⟩ := h.widths (widthCommands_of_pixel hi)
  obtain ⟨hsh, hdh⟩ := h.heights (heightCommands_of_pixel hi)
  obtain ⟨hsb, hdb, hss, hds⟩ := h.views hi
  rw [hsw, hdw, hcn, hsh, hdh, hsb, hdb, hss, hds]

theorem SameOperands.failsScales_iff (h : SameOperands i s t) : failsScales i s ↔ failsScales i t := by
  unfold failsScales dividesX dividesY
  refine or_congr (and_congr_right ?_) (or_congr (and_congr_right ?_)
    (or_congr (and_congr_right ?_) (and_congr_right ?_)))
  · rintro rfl
    rw [h.srcWidth (by decide), h.dstWidth (by decide), h.srcHeight (by decide), h.dstHeight (by decide)]
  · rintro rfl
    rw [h.srcWidth (by decide), h.dstWidth (by decide), h.srcHeight (by decide), h.dstHeight (by decide)]
  · rintro rfl
    rw [h.srcWidth (by decide), h.dstWidth (by decide)]
  · rintro rfl
    rw [h.srcHeight (by decide), h.dstHeight (by decide)]

/-- A command on a pixel path, or the one table command `j` of the horizontal axis, reads the widths. -/
theorem widthCommands_of_path_or {p : PixelPath} {j : Instr} (hp : p ≠ .noPath) (hj : j ∈ widthCommands)
    (h : commandPath i s = p ∨ i = j) : i ∈ widthCommands := by
  rcases h with hpath | rfl
  · exact widthCommands_of_pixel (pixel_of_commandPath hp hpath)
  · exact hj

/-- The same for the vertical axis. -/
theorem heightCommands_of_path_or {p : PixelPath} {j : Instr} (hp : p ≠ .noPath) (hj : j ∈ heightCommands)
    (h : commandPath i s = p ∨ i = j) : i ∈ heightCommands := by
  rcases h with hpath | rfl
  · exact heightCommands_of_pixel (pixel_of_commandPath hp hpath)
  · exact hj

theorem SameOperands.failsV7_iff (h : SameOperands i s t) : failsV7 i s ↔ failsV7 i t := by
  unfold failsV7
  rw [← h.commandPath_eq]
  refine or_congr (and_congr_right fun hp => ?_) (or_congr (and_congr_right fun hp => ?_)
    (or_congr (and_congr_right fun hp => ?_) (or_congr (and_congr_right fun hp => ?_) (and_congr_right fun hp => ?_))))
  · rw [h.srcWidth (widthCommands_of_path_or (by decide) (by decide) hp)]
  · rw [h.srcHeight (heightCommands_of_path_or (by decide) (by decide) hp)]
  · have hi := widthCommands_of_pixel (pixel_of_commandPath (by decide) hp)
    rw [h.dstWidth hi, h.channels hi]
  · rw [h.dstWidth (widthCommands_of_path_or (by decide) (by decide) hp)]
  · rw [h.dstHeight (heightCommands_of_path_or (by decide) (by decide) hp)]

/-- Every check reads registers of the command's operands only. -/
theorem SameOperands.firstError_eq (h : SameOperands i s t) : firstError i s = firstError i t := by
  simp only [firstError, h.failsV1_iff, h.failsV2_iff, h.failsV3_iff, h.failsV4_iff, h.failsScales_iff, h.failsV7_iff]

theorem SameOperands.accepted (h : SameOperands i s t) (ha : Accepted i s) : Accepted i t :=
  firstError_none.mp (h.firstError_eq ▸ firstError_none.mpr ha)

/-! ### The same footprints (20_memory.md R63) -/

theorem SameOperands.inSource_iff (h : SameOperands i s t) (hi : i ∈ pixelCommands) (a : ℕ) :
    inSource s a ↔ inSource t a := by
  obtain ⟨hsw, -, hcn⟩ := h.widths (widthCommands_of_pixel hi)
  obtain ⟨hsb, -, hss, -⟩ := h.views hi
  unfold inSource
  rw [hsw, hcn, h.srcHeight (heightCommands_of_pixel hi), hsb, hss]

theorem SameOperands.inDestination_iff (h : SameOperands i s t) (hi : i ∈ pixelCommands) (a : ℕ) :
    inDestination s a ↔ inDestination t a := by
  obtain ⟨-, hdw, hcn⟩ := h.widths (widthCommands_of_pixel hi)
  obtain ⟨-, hdb, -, hds⟩ := h.views hi
  unfold inDestination
  rw [hdw, hcn, h.dstHeight (heightCommands_of_pixel hi), hdb, hds]

theorem SameOperands.apart (h : SameOperands i s t) (hi : i ∈ pixelCommands) (hf : footprintsApart s) :
    footprintsApart t := fun a hsrc hdst =>
  hf a ((h.inSource_iff hi a).mpr hsrc) ((h.inDestination_iff hi a).mpr hdst)

/-- Every address the source view names is a byte of the source footprint. -/
theorem inSource_srcView {y k : ℕ} (hy : y < (operands Config.default s).srcView.height)
    (hk : k < (operands Config.default s).srcView.rowBytes) :
    inSource s ((operands Config.default s).srcView.addr y k) :=
  ⟨y, k, hy, hk, by simp [View.addr, Operands.srcView]⟩

theorem SameOperands.agreeOn (h : SameOperands i s t) (hi : i ∈ pixelCommands) :
    AgreeOn (operands Config.default s).srcView s.mem t.mem := fun _ _ hy hk =>
  h.samples hi _ (inSource_srcView hy hk)

/-- A byte of the destination footprint is a sample: a channel of a pixel of the destination (20_memory.md R62). -/
theorem inDestination.sample {a : ℕ} (h : inDestination s a) :
    ∃ dy dx ch, dy < (s32 s.dstHeight).toNat ∧ dx < (s32 s.dstWidth).toNat ∧ ch < (s32 s.channels).toNat ∧
      a = destinationAddr s dy dx ch := by
  obtain ⟨y, k, hy, hk, rfl⟩ := h
  have hcn : 0 < (s32 s.channels).toNat := Nat.pos_of_mul_pos_left (Nat.zero_lt_of_lt hk)
  refine ⟨y, k / (s32 s.channels).toNat, k % (s32 s.channels).toNat, hy, Nat.div_lt_of_lt_mul ?_,
    Nat.mod_lt _ hcn, ?_⟩
  · rwa [Nat.mul_comm]
  · rw [destinationAddr, Nat.add_assoc _ (_ / _ * _), Nat.div_add_mod']

/-! ### The same results

Each update a command makes to its results keeps two states alike, whatever their tables held before. -/

/-- A table written from entry 0 on reads back, below any count it reaches, as what was written. -/
theorem take_overlay_of_le {α : Type} {new : List α} (old : List α) {n : ℕ} (hn : n ≤ new.length) :
    (overlay new old).take n = new.take n :=
  List.take_append_of_le_length hn

/-- The valid entries of a table just written do not depend on the table's old content. -/
theorem take_count_overlay {α : Type} (new old old' : List α) :
    (overlay new old).take (BitVec.ofNat 32 new.length).toNat =
      (overlay new old').take (BitVec.ofNat 32 new.length).toNat := by
  have hn : (BitVec.ofNat 32 new.length).toNat ≤ new.length := by
    rw [BitVec.toNat_ofNat]
    exact Nat.mod_le _ _
  rw [take_overlay_of_le old hn, take_overlay_of_le old' hn]

/-- With every count at 0 only the status is left to compare; so too in `sameResults_complete`. -/
theorem sameResults_raiseError (e : ErrCode) (s t : State) :
    SameResults (raiseError e (clearResults s)) (raiseError e (clearResults t)) :=
  ⟨rfl, ⟨rfl, rfl⟩, ⟨rfl, rfl⟩, ⟨rfl, rfl⟩, ⟨rfl, rfl⟩, ⟨rfl, rfl⟩, ⟨rfl, rfl⟩⟩

theorem sameResults_complete (p : PixelPath) (s t : State) :
    SameResults (complete p (clearResults s)) (complete p (clearResults t)) :=
  ⟨rfl, ⟨rfl, rfl⟩, ⟨rfl, rfl⟩, ⟨rfl, rfl⟩, ⟨rfl, rfl⟩, ⟨rfl, rfl⟩, ⟨rfl, rfl⟩⟩

theorem SameResults.setXtab (h : SameResults s t) (l : List WeightEntry) :
    SameResults (setXtab l s) (setXtab l t) :=
  { h with xtab := ⟨rfl, take_count_overlay l _ _⟩ }

theorem SameResults.setYtab (h : SameResults s t) (l : List WeightEntry) (g : List RunEntry) :
    SameResults (setYtab l g s) (setYtab l g t) :=
  { h with ytab := ⟨rfl, take_count_overlay l _ _⟩, ygrp := ⟨rfl, take_count_overlay g _ _⟩ }

theorem SameResults.setFpx (h : SameResults s t) (l : List FixedEntry) : SameResults (setFpx l s) (setFpx l t) :=
  { h with fpx := ⟨rfl, take_count_overlay l _ _⟩ }

theorem SameResults.setFpy (h : SameResults s t) (l : List FixedEntry) : SameResults (setFpy l s) (setFpy l t) :=
  { h with fpy := ⟨rfl, take_count_overlay l _ _⟩ }

theorem SameResults.setScales (h : SameResults s t) (x y : Word) :
    SameResults { s with iscaleX := x, iscaleY := y } { t with iscaleX := x, iscaleY := y } :=
  { h with scales := ⟨rfl, rfl⟩ }

/-- The row buffers are no result: the host cannot read them (10_state.md R49). -/
theorem SameResults.setBuffers (h : SameResults s t) (b b' : RowBuffers) :
    SameResults (setBuffers b s) (setBuffers b' t) := { h with }

/-- Data memory is no result register. -/
theorem SameResults.setMemory (h : SameResults s t) (m m' : Memory) :
    SameResults { s with mem := m } { t with mem := m' } := { h with }

/-- A path leaves results that its operands determine: its tables and scales may be taken as written after it
completes. -/
theorem pathFinal_sameResults (o : Operands) (p : PixelPath) (s t : State) :
    SameResults (pathFinal o p (clearResults s)) (pathFinal o p (clearResults t)) := by
  have hdone := sameResults_complete p s t
  cases p with
  | noPath => exact hdone.setMemory _ _
  | int => exact (hdone.setScales _ _).setMemory _ _
  | gen => exact (((hdone.setXtab _).setYtab _ _).setBuffers _ _).setMemory _ _
  | lin => exact ((hdone.setFpx _).setFpy _).setMemory _ _

theorem SameOperands.finalState_pixel_sameResults (h : SameOperands i s t) (hi : i ∈ pixelCommands) :
    SameResults (finalState i (clearResults s)) (finalState i (clearResults t)) := by
  rw [finalState_accepted hi, finalState_accepted hi, h.operands_eq hi, h.commandPath_eq]
  exact pathFinal_sameResults _ _ _ _

/-- An accepted command leaves results that its operands determine. -/
theorem SameOperands.finalState_sameResults (h : SameOperands i s t) :
    SameResults (finalState i (clearResults s)) (finalState i (clearResults t)) := by
  have hdone := sameResults_complete .noPath s t
  cases i with
  | resize | areaInt | areaGen | linear => exact h.finalState_pixel_sameResults (by decide)
  | wtabX =>
    obtain ⟨htab, -⟩ := h.tablesX_eq (by decide)
    simp only [finalState, operands_clearResults, htab]
    exact hdone.setXtab _
  | wtabY =>
    obtain ⟨htab, hgrp, -⟩ := h.tablesY_eq (by decide)
    simp only [finalState, operands_clearResults, htab, hgrp]
    exact hdone.setYtab _ _
  | fptabX =>
    obtain ⟨-, hfix⟩ := h.tablesX_eq (by decide)
    simp only [finalState, operands_clearResults, hfix]
    exact hdone.setFpx _
  | fptabY =>
    obtain ⟨-, -, hfix⟩ := h.tablesY_eq (by decide)
    simp only [finalState, operands_clearResults, hfix]
    exact hdone.setFpy _

/-! ### The same image (20_memory.md R64) -/

/-- The bytes an accepted pixel command leaves in the destination footprint are those of its rows, which two memories
that agree on the source footprint share. -/
theorem SameOperands.read_destination_eq (h : SameOperands i s t) (ha : Accepted i s) (hi : i ∈ pixelCommands) {a : ℕ}
    (hdst : inDestination s a) :
    (finalState i (clearResults s)).mem.read a = (finalState i (clearResults t)).mem.read a := by
  obtain ⟨dy, dx, ch, hdy, hdx, hch, rfl⟩ := hdst.sample
  have hw := widthCommands_of_pixel hi
  have hh := heightCommands_of_pixel hi
  have hs := read_destination ha hi hdy hdx hch
  have ht := read_destination (h.accepted ha) hi (h.dstHeight hh ▸ hdy) (h.dstWidth hw ▸ hdx) (h.channels hw ▸ hch)
  rw [destinationAddr_eq] at hs ht ⊢
  rw [← h.operands_eq hi, ← h.commandPath_eq, ← pathRows_agree ha hi (h.agreeOn hi) hdy, ← h.channels hw, hs] at ht
  exact Option.some.inj ht

end

/-! ### The obligation -/

/-- Settles O35, by the two ways a command ends: an error that the registers decide, or the final state of its path. -/
theorem resultsDependOnOperandsOnly : Obligations.ResultsDependOnOperandsOnly := by
  intro i s1 s2 t1 h hexec
  rcases exec_next hexec with ⟨e, herr, rfl⟩ | ⟨ha, hapart, rfl⟩
  · refine ⟨raiseError e (clearResults s2), ?_, sameResults_raiseError e s1 s2, fun hpath => absurd rfl hpath⟩
    rw [exec_eq, ← h.firstError_eq, herr]
    rfl
  · refine ⟨_, exec_accepted (h.accepted ha) fun hi => h.apart hi (hapart hi), h.finalState_sameResults,
      fun hpath a hdst => h.read_destination_eq ha ?_ hdst⟩
    obtain ⟨-, -, hp⟩ := finalState_status i (clearResults s1)
    exact pixel_of_commandPath hpath hp.symm

end Sys2Proof.Machine
end

section
/-! The integer area path (42_area_integer.md R140 to R144; O42, O43): the box average is Mathlib's `round` of the exact
average, a block of bytes averages to a byte, and the scales of an accepted state are the exact quotients of its
lengths. -/

namespace Sys2Proof.Machine

/-! ### The box average (R142) -/

/-- R144 (a): the box average is the exact average rounded to nearest, halves up. -/
theorem boxAverage_eq_round (sum : ℕ) {area : ℕ} (harea : 0 < area) :
    (boxAverage sum area : ℤ) = round ((sum : ℚ) / area) := by
  have hdouble : boxAverage sum area = (2 * sum + area) / (2 * area) := by
    rw [boxAverage, ← Nat.div_div_eq_div_mul, Nat.mul_add_div two_pos]
  have hexact : ((2 * sum + area : ℕ) : ℚ) / (2 * area : ℕ) = sum / area + 1 / 2 := by
    push_cast
    field_simp
  rw [hdouble, round_eq, ← hexact, Rat.floor_natCast_div_natCast, Int.natCast_ediv]

/-- An average that lies half way is rounded up. -/
theorem boxAverage_of_half {sum area : ℕ} (harea : 0 < area)
    (hhalf : (sum : ℚ) / area - ⌊(sum : ℚ) / area⌋ = 1 / 2) :
    (boxAverage sum area : ℤ) = ⌊(sum : ℚ) / area⌋ + 1 := by
  rw [boxAverage_eq_round sum harea, round_eq, Int.floor_eq_iff]
  push_cast
  constructor <;> linarith

/-- R143: for four samples the division is a shift. -/
theorem boxAverage_four (sum : ℕ) : boxAverage sum 4 = (sum + 2) >>> 2 := by
  rw [boxAverage, Nat.shiftRight_eq_div_pow]

/-- Settles O43: the box average is `round`, whose distance and whose halves Mathlib knows. -/
theorem boxAverageRoundsHalvesUp : Obligations.BoxAverageRoundsHalvesUp := by
  refine ⟨fun sum area harea => ⟨?_, boxAverage_of_half harea⟩, boxAverage_four⟩
  rw [← Int.cast_natCast, boxAverage_eq_round sum harea, abs_sub_comm]
  exact abs_sub_round _

/-! ### The value of a sample (R142) -/

theorem boxSum_le (m : Memory) (src : View) (cn ix iy dy dx ch : ℕ) :
    boxSum m src cn ix iy dy dx ch ≤ 255 * (ix * iy) := by
  rw [boxSum_eq_sum]
  calc ∑ j ∈ Finset.range iy, ∑ i ∈ Finset.range ix,
        (m.read (src.addr (dy * iy + j) ((dx * ix + i) * cn + ch))).toNat
      ≤ ∑ _j ∈ Finset.range iy, ∑ _i ∈ Finset.range ix, 255 :=
        Finset.sum_le_sum fun _ _ => Finset.sum_le_sum fun _ _ => Nat.le_of_lt_succ (BitVec.isLt _)
    _ = 255 * (ix * iy) := by
        simp only [Finset.sum_const, Finset.card_range, smul_eq_mul]
        ring

theorem boxAverage_lt {sum area : ℕ} (harea : 0 < area) (hsum : sum ≤ 255 * area) : boxAverage sum area < 256 :=
  Nat.div_lt_of_lt_mul (by omega)

/-- A block of bytes averages to a byte, so the sample is the box average and loses no bit of it. -/
theorem toNat_areaIntSample (m : Memory) (src : View) (cn : ℕ) {ix iy : ℕ} (harea : 0 < ix * iy) (dy dx ch : ℕ) :
    (areaIntSample m src cn ix iy dy dx ch).toNat = boxAverage (boxSum m src cn ix iy dy dx ch) (ix * iy) := by
  rw [areaIntSample, BitVec.toNat_ofNat, Nat.mod_eq_of_lt (boxAverage_lt harea (boxSum_le ..))]

/-- The box sum over the source view of a state's operands, at the addresses of R62. -/
theorem boxSum_srcView (s : State) (ix iy dy dx ch : ℕ) :
    boxSum s.mem (operands Config.default s).srcView (s32 s.channels).toNat ix iy dy dx ch =
      ∑ j ∈ Finset.range iy, ∑ i ∈ Finset.range ix,
        (s.mem.read (sourceAddr s (dy * iy + j) (dx * ix + i) ch)).toNat := by
  simp only [boxSum_eq_sum, sourceAddr_eq, operands_cn]

/-! ### The scales of an accepted state (R141) -/

/-- `q` is the scale of one axis: the exact quotient of its lengths, a positive count that fits a register. -/
structure ExactScale (src dst : ℤ) (q : ℕ) : Prop where
  eq_div : q = src.toNat / dst.toNat
  mul_eq : q * dst.toNat = src.toNat
  pos : 0 < q
  lt : q < 2 ^ 32

theorem exactScale_intScale {src dst : ℤ} (hs : 1 ≤ src) (hs' : src ≤ 65535) (hd : 1 ≤ dst) (hd' : dst ≤ 65535)
    (hdvd : src % dst = 0) : ExactScale src dst (intScale (scaleOf src dst)) := by
  lift src to ℕ using by omega
  lift dst to ℕ using by omega
  have hdvdNat : dst ∣ src := Int.natCast_dvd_natCast.mp (Int.dvd_of_emod_eq_zero hdvd)
  have hle : src / dst ≤ src := Nat.div_le_self _ _
  rw [intScale_legal hs hs' hd hd' hdvd, ← Int.natCast_ediv, Int.toNat_natCast]
  exact ⟨rfl, Nat.div_mul_cancel hdvdNat, Nat.div_pos (Nat.le_of_dvd (by omega) hdvdNat) (by omega), by omega⟩

section
variable {i : Instr} {s : State}

/-- A command that takes the integer path has exact scales on both axes. -/
theorem Accepted.exactScales (ha : Accepted i s) (hi : i ∈ pixelCommands) (hp : commandPath i s = .int) :
    ExactScale (s32 s.srcWidth) (s32 s.dstWidth) (scaleIntX (operands Config.default s)) ∧
    ExactScale (s32 s.srcHeight) (s32 s.dstHeight) (scaleIntY (operands Config.default s)) := by
  obtain ⟨hsw, hsw', hdw, hdw', -, -⟩ := ha.toOperandsLegal.widths (widthCommands_of_pixel hi)
  obtain ⟨hsh, hsh', hdh, hdh'⟩ := ha.toOperandsLegal.heights (heightCommands_of_pixel hi)
  obtain ⟨hx, hy⟩ := ha.divides hp
  exact ⟨exactScale_intScale hsw hsw' hdw hdw' hx, exactScale_intScale hsh hsh' hdh hdh' hy⟩

/-! ### What the integer path leaves -/

/-- The `STATUS` word of an accepted command names its path (10_state.md R26). -/
theorem finalState_statusWord (i : Instr) (s0 : State) :
    (finalState i s0).statusWord = statusOf true .ok (commandPath i s0) := by
  obtain ⟨herr, hdone, hpath⟩ := finalState_status i s0
  rw [State.statusWord, herr, hdone, hpath]

theorem finalState_int_scales (hi : i ∈ pixelCommands) (hp : commandPath i s = .int) :
    (finalState i (clearResults s)).iscaleX = BitVec.ofNat 32 (scaleIntX (operands Config.default s)) ∧
    (finalState i (clearResults s)).iscaleY = BitVec.ofNat 32 (scaleIntY (operands Config.default s)) := by
  rw [finalState_accepted hi, hp]
  exact ⟨pathFinal_int_iscaleX _ _, pathFinal_int_iscaleY _ _⟩

/-- A destination sample of the integer path is the box average of its block (R142). -/
theorem toNat_read_int (ha : Accepted i s) (hi : i ∈ pixelCommands) (hp : commandPath i s = .int) {dy dx ch : ℕ}
    (hdy : dy < (s32 s.dstHeight).toNat) (hdx : dx < (s32 s.dstWidth).toNat) (hch : ch < (s32 s.channels).toNat) :
    ((finalState i (clearResults s)).mem.read (destinationAddr s dy dx ch)).toNat =
      boxAverage
        (∑ j ∈ Finset.range (scaleIntY (operands Config.default s)),
          ∑ k ∈ Finset.range (scaleIntX (operands Config.default s)),
            (s.mem.read (sourceAddr s (dy * scaleIntY (operands Config.default s) + j)
              (dx * scaleIntX (operands Config.default s) + k) ch)).toNat)
        (scaleIntX (operands Config.default s) * scaleIntY (operands Config.default s)) := by
  obtain ⟨hx, hy⟩ := ha.exactScales hi hp
  rw [read_int ha hi hp hdy hdx hch, toNat_areaIntSample _ _ _ (Nat.mul_pos hx.pos hy.pos), boxSum_srcView]

end

/-- Settles O42: the final state of the integer path, its scales the exact quotients, its samples the box averages. -/
theorem areaIntAveragesBlocks : Obligations.AreaIntAveragesBlocks := by
  intro s ha hapart ix iy
  have hi : Instr.areaInt ∈ pixelCommands := by decide
  obtain ⟨hx, hy⟩ := ha.exactScales hi rfl
  obtain ⟨hiscaleX, hiscaleY⟩ := finalState_int_scales (s := s) hi rfl
  have hix : scaleIntX (operands Config.default s) = ix := hx.eq_div
  have hiy : scaleIntY (operands Config.default s) = iy := hy.eq_div
  rw [hix] at hx hiscaleX
  rw [hiy] at hy hiscaleY
  refine ⟨_, exec_accepted ha fun _ => hapart, finalState_statusWord _ _, ?_, ?_, hx.mul_eq, hy.mul_eq,
    fun dy dx ch hdy hdx hch => ?_⟩
  · rw [hiscaleX, BitVec.toNat_ofNat, Nat.mod_eq_of_lt hx.lt]
  · rw [hiscaleY, BitVec.toNat_ofNat, Nat.mod_eq_of_lt hy.lt]
  · rw [toNat_read_int ha hi rfl hdy hdx hch, hix, hiy, boxAverage]

end Sys2Proof.Machine
end

section
/-! The general area path (43_area_general.md R150 to R157; O44, O46): the float of every destination sample, and its
value for a source of zeros. -/

namespace Sys2Proof.Machine

/-! ### The value of a sample (R152 to R156) -/

/-- A destination sample of the general path is its accumulated float as a byte (R156). -/
theorem read_gen {i : Instr} {s : State} (ha : Accepted i s) (hi : i ∈ pixelCommands) (hp : commandPath i s = .gen)
    {dy dx ch : ℕ} (hdy : dy < (s32 s.dstHeight).toNat) (hdx : dx < (s32 s.dstWidth).toNat)
    (hch : ch < (s32 s.channels).toNat) :
    (finalState i (clearResults s)).mem.read (destinationAddr s dy dx ch) = accByte (accSample s dy dx ch) := by
  have hrow := read_destination ha hi hdy hdx hch
  simp only [hp, pathRows, List.getElem?_map, genRow_getElem? s hdy hdx hch] at hrow
  exact (Option.some.inj hrow).symm

/-- Settles O44: the final state of the general path, its samples the accumulated floats. -/
theorem areaGenAccumulatesEachSample : Obligations.AreaGenAccumulatesEachSample := fun _ ha hapart =>
  ⟨_, exec_accepted ha fun _ => hapart, finalState_statusWord _ _, fun _ _ _ => read_gen ha (by decide) rfl⟩

/-! ### The weights are finite (41_weight_table.md R121 to R124) -/

section
variable {src dst dx cn : ℕ}

/-- The lengths of the two weight tables of an accepted command that builds them (40_command_common.md R106, R107). -/
theorem Accepted.buildLengths {i : Instr} {s : State} (ha : Accepted i s) (h : commandPath i s = .gen) :
    BuildLengths (s32 s.srcWidth).toNat (s32 s.dstWidth).toNat ∧
    BuildLengths (s32 s.srcHeight).toNat (s32 s.dstHeight).toNat := by
  obtain ⟨hdw, hw, hcapX⟩ := ha.weightsX (.inl h)
  obtain ⟨hdh, hh, hcapY⟩ := ha.weightsY (.inl h)
  exact ⟨⟨by omega, by omega, by omega⟩, ⟨by omega, by omega, by omega⟩⟩

theorem rnd64_half : rnd64 (1 / 2) = 1 / 2 := by
  have := rnd64_exact 1 (-1) (by norm_num) (by norm_num)
  norm_num at this ⊢
  exact this

/-- The width of a cell is not small: a cell starts almost 1 before the end of the source at the latest. -/
theorem BuildLengths.half_le_width (h : BuildLengths src dst) (hdx : dx < dst) :
    1 / 2 ≤ min (scaleQ src dst) (rnd64 (src - fsx1Q src dst dx)) := by
  have hscale := h.scale_ge_one
  have hstart := h.fsx1_le hdx
  refine le_min (by linarith) ?_
  rw [← rnd64_half]
  exact rnd64_mono (by linarith)

/-- A covered width over the width of its cell is finite as a float. -/
theorem weight_fin {x cw : F64} (hx : dFin x) (h0 : 0 ≤ dVal x) (hle : dVal x ≤ 2 ^ 19) (hcw : dFin cw)
    (hhalf : 1 / 2 ≤ dVal cw) : sFin (f32OfF64 (f64Div x cw)) := by
  have hquot : dVal x / dVal cw ≤ 2 ^ 20 := by
    rw [div_le_iff₀ (by linarith)]
    linarith
  have hquot0 : 0 ≤ dVal x / dVal cw := div_nonneg h0 (by linarith)
  obtain ⟨hfin, hval⟩ := f64Div_val hx hcw (by linarith) (by rw [abs_of_nonneg hquot0]; linarith)
  refine (f32OfF64_val hfin ?_).1
  rw [hval, abs_of_nonneg (rnd64_nonneg hquot0)]
  linarith [rnd64_le_pow 20 hquot (by norm_num)]

/-- An overlap that passes the threshold is positive. -/
theorem pos_of_passes {x : F64} (hx : dFin x) (hpass : f64Lt epsPart x = true) : 0 < dVal x := by
  rw [f64Lt_iff epsPart_val.1 hx] at hpass
  linarith [epsPart_val.2.1]

/-- The left partial weight is finite (R122): its overlap is shorter than the source. -/
theorem BuildLengths.left_alpha_fin (h : BuildLengths src dst) (hdx : dx < dst) {e : WeightEntry}
    (he : e ∈ leftEntry cn dx (interval src (scaleOf (src : ℤ) (dst : ℤ)) dx)) : sFin e.alpha := by
  obtain ⟨hfin, hval, -, -, hcw, hcwval, -, -⟩ := h.interval_val hdx
  obtain ⟨hsx0, hsx, hsx2⟩ := h.index_bounds hdx
  have hstart0 := h.fsx1_nonneg dx
  have hstart := h.fsx1_le hdx
  have hsrc := h.src_bounds.2
  have hlt := h.src_lt
  have hwidth := hcwval.symm ▸ h.half_le_width hdx
  generalize interval src (scaleOf (src : ℤ) (dst : ℤ)) dx = v at *
  have hfirst0 : (0 : ℚ) ≤ v.sx1 := by exact_mod_cast hsx0
  have hfirst : (v.sx1 : ℚ) ≤ src - 1 := by exact_mod_cast hsx.trans hsx2
  obtain ⟨hi, hival⟩ := f64OfInt_val (z := v.sx1) (by omega)
  obtain ⟨hlp, hlpval⟩ := f64Sub_val hi hfin (by rw [hival, hval, abs_le]; constructor <;> linarith)
  rw [hival, hval] at hlpval
  simp only [leftEntry] at he
  split at he
  · next hpass =>
    rw [List.mem_singleton.mp he]
    refine weight_fin hlp (pos_of_passes hlp hpass).le ?_ hcw hwidth
    rw [hlpval]
    exact rnd64_le_pow 19 (by linarith) (by norm_num)
  · cases he

/-- The right partial weight is finite (R124): its overlap is cut at 1. -/
theorem BuildLengths.right_alpha_fin (h : BuildLengths src dst) (hdx : dx < dst) {e : WeightEntry}
    (he : e ∈ rightEntry cn dx (interval src (scaleOf (src : ℤ) (dst : ℤ)) dx)) : sFin e.alpha := by
  obtain ⟨-, -, hfin, hval, hcw, hcwval, -, -⟩ := h.interval_val hdx
  obtain ⟨hsx0, hsx, hsx2⟩ := h.index_bounds hdx
  have hstart0 := h.fsx1_nonneg dx
  have hstart := h.fsx1_le hdx
  have hend := (abs_le.mp (h.fsx2_close hdx)).2
  have hend' := h.fsx2_ge hdx
  have hscale := h.scale_ge_one
  have hscale' := h.scale_le
  have hsrc := h.src_bounds.2
  have hlt := h.src_lt
  have hwidth := hcwval.symm ▸ h.half_le_width hdx
  generalize interval src (scaleOf (src : ℤ) (dst : ℤ)) dx = v at *
  have hlast0 : (0 : ℚ) ≤ v.sx2 := by exact_mod_cast hsx0.trans hsx
  have hlast : (v.sx2 : ℚ) ≤ src - 1 := by exact_mod_cast hsx2
  obtain ⟨hi, hival⟩ := f64OfInt_val (z := v.sx2) (by omega)
  obtain ⟨hrp, -⟩ := f64Sub_val hfin hi (by rw [hival, hval, abs_le]; constructor <;> linarith)
  simp only [rightEntry] at he
  split at he
  · next hpass =>
    rw [List.mem_singleton.mp he]
    obtain ⟨hcut, hcutval⟩ := f64Min_val hrp one_val.1
    obtain ⟨hmin, hminval⟩ := f64Min_val hcut hcw
    rw [hcutval, one_val.2] at hminval
    refine weight_fin hmin ?_ ?_ hcw hwidth <;> rw [hminval]
    · exact le_min (le_min (pos_of_passes hrp hpass).le zero_le_one) (by linarith)
    · exact ((min_le_left _ _).trans (min_le_right _ _)).trans (by norm_num)
  · cases he

/-- Every weight of a cell is finite. -/
theorem BuildLengths.alpha_fin (h : BuildLengths src dst) (hdx : dx < dst) {e : WeightEntry}
    (he : e ∈ cellEntries src cn (scaleOf (src : ℤ) (dst : ℤ)) dx) : sFin e.alpha := by
  simp only [cellEntries, List.mem_append] at he
  rcases he with (hleft | hfull) | hright
  · exact h.left_alpha_fin hdx hleft
  · obtain ⟨-, -, -, -, hcw, hcwval, -, -⟩ := h.interval_val hdx
    obtain ⟨j, -, rfl⟩ := List.mem_map.mp hfull
    exact weight_fin one_val.1 (by norm_num [one_val.2]) (by norm_num [one_val.2]) hcw
      (hcwval.symm ▸ h.half_le_width hdx)
  · exact h.right_alpha_fin hdx hright

/-- The scale of operands is the scale of their lengths, at which the builder's facts are stated. -/
theorem BuildLengths.scaleOf_eq {a b : ℤ} (h : BuildLengths a.toNat b.toNat) :
    scaleOf a b = scaleOf (a.toNat : ℤ) (b.toNat : ℤ) := by
  have hb := h.dst_pos
  have ha := h.dst_le
  rw [Int.toNat_of_nonneg (by omega : 0 ≤ a), Int.toNat_of_nonneg (by omega : 0 ≤ b)]

end

/-! ### A source of zeros (R157 (e)) -/

/-- The float is a zero, of either sign. -/
def IsZeroFloat (a : F32) : Prop := sFin a ∧ sVal a = 0

theorem isZeroFloat_zero : IsZeroFloat f32Zero := f32Zero_val

theorem IsZeroFloat.add {a b : F32} (ha : IsZeroFloat a) (hb : IsZeroFloat b) : IsZeroFloat (f32Add a b) := by
  obtain ⟨hfin, hval⟩ := f32Add_val ha.1 hb.1 (by norm_num [ha.2, hb.2])
  exact ⟨hfin, by rw [hval, ha.2, hb.2, add_zero, rnd32_zero]⟩

theorem IsZeroFloat.mul_left {a b : F32} (ha : IsZeroFloat a) (hb : sFin b) : IsZeroFloat (f32Mul a b) := by
  obtain ⟨hfin, hval⟩ := f32Mul_val ha.1 hb (by norm_num [ha.2])
  exact ⟨hfin, by rw [hval, ha.2, zero_mul, rnd32_zero]⟩

theorem IsZeroFloat.mul_right {a b : F32} (ha : sFin a) (hb : IsZeroFloat b) : IsZeroFloat (f32Mul a b) := by
  obtain ⟨hfin, hval⟩ := f32Mul_val ha hb.1 (by norm_num [hb.2])
  exact ⟨hfin, by rw [hval, hb.2, mul_zero, rnd32_zero]⟩

/-- Zero terms added to a zero, in any number. -/
theorem IsZeroFloat.foldl {l : List WeightEntry} {term : WeightEntry → F32} {a : F32} (ha : IsZeroFloat a)
    (hterm : ∀ e ∈ l, IsZeroFloat (term e)) : IsZeroFloat (l.foldl (fun x e => f32Add x (term e)) a) :=
  List.foldlRecOn l _ ha fun _ hx e he => hx.add (hterm e he)

theorem IsZeroFloat.accByte_eq {a : F32} (ha : IsZeroFloat a) : accByte a = 0#8 := by
  have hrne : rneQ 0 = 0 := by simpa using rneQ_intCast 0
  rw [accByte, f32Rne_val ha.1, ha.2, hrne]
  rfl

section
variable {i : Instr} {s : State} {dy dx ch : ℕ}

/-- The horizontal sum of a row of zeros. -/
theorem scratchSample_isZero (ha : Accepted i s) (hp : commandPath i s = .gen)
    (hzero : ∀ a, inSource s a → s.mem.read a = 0#8) {sy : ℕ} (hsy : sy < (s32 s.srcHeight).toNat)
    (hdx : dx < (s32 s.dstWidth).toNat) (hch : ch < (s32 s.channels).toNat) :
    IsZeroFloat (scratchSample s dx ch sy) := by
  obtain ⟨hX, -⟩ := ha.buildLengths hp
  rw [scratchSample, hX.scaleOf_eq]
  refine isZeroFloat_zero.foldl fun e he => ?_
  obtain ⟨-, sx, hsx, hsi⟩ := hX.cell_offsets hdx he
  have hbyte := hzero _ ⟨sy, sx * (s32 s.channels).toNat + ch, hsy, pixel_offset_lt hsx hch, rfl⟩
  rw [hsi, hbyte]
  exact IsZeroFloat.mul_left (f32OfU8_val 0#8) (hX.alpha_fin hdx he)

/-- The vertical sum of rows of zeros. -/
theorem accSample_isZero (ha : Accepted i s) (hp : commandPath i s = .gen)
    (hzero : ∀ a, inSource s a → s.mem.read a = 0#8) (hdy : dy < (s32 s.dstHeight).toNat)
    (hdx : dx < (s32 s.dstWidth).toNat) (hch : ch < (s32 s.channels).toNat) :
    IsZeroFloat (accSample s dy dx ch) := by
  obtain ⟨-, hY⟩ := ha.buildLengths hp
  have hterm : ∀ e ∈ cellEntries (s32 s.srcHeight).toNat 1 (scaleOf (s32 s.srcHeight) (s32 s.dstHeight)) dy,
      IsZeroFloat (f32Mul e.alpha (scratchSample s dx ch e.si)) := by
    intro e he
    rw [hY.scaleOf_eq] at he
    obtain ⟨-, sy, hsy, hsi⟩ := hY.cell_offsets hdy he
    refine IsZeroFloat.mul_right (hY.alpha_fin hdy he) (scratchSample_isZero ha hp hzero ?_ hdx hch)
    rwa [hsi, Nat.mul_one]
  unfold accSample
  split
  · exact isZeroFloat_zero
  · next e rest hcell =>
    rw [hcell] at hterm
    exact (hterm e List.mem_cons_self).foldl fun g hg => hterm g (List.mem_cons_of_mem e hg)

end

/-- Settles O46: weights are finite, so products and sums of zero samples stay zero. -/
theorem areaGenOfZeroIsZero : Obligations.AreaGenOfZeroIsZero := by
  intro s ha hapart hzero
  refine ⟨_, exec_accepted ha fun _ => hapart, fun a hdst => ?_⟩
  obtain ⟨dy, dx, ch, hdy, hdx, hch, rfl⟩ := hdst.sample
  rw [read_gen ha (by decide) rfl hdy hdx hch]
  exact (accSample_isZero ha rfl hzero hdy hdx hch).accByte_eq

end Sys2Proof.Machine
end

section
/-! The two area paths at an exact factor (42_area_integer.md R144 (f), 43_area_general.md R157 (c); O45): relative
errors count roundings, the weights of an exact factor `k` are one float, `1/k` rounded, and so the accumulated float of a
block is the block's average up to a thousandth of it. -/

namespace Sys2Proof.Machine

/-! ### Relative errors, counted in roundings to a float -/

/-- The relative error of one rounding to a float, for a number in the normal range (00_scope.md R13). -/
def roundoff : ℚ := 1 / 2 ^ 24

/-- `q` is `x` up to the relative error of `n` roundings. -/
def Near (n : ℕ) (x q : ℚ) : Prop := x * (1 - roundoff) ^ n ≤ q ∧ q ≤ x * (1 + roundoff) ^ n

section
variable {n m : ℕ} {x y q r : ℚ}

theorem roundoff_pos : 0 < roundoff := by norm_num [roundoff]

theorem one_sub_roundoff_nonneg : 0 ≤ 1 - roundoff := by norm_num [roundoff]

theorem Near.refl (x : ℚ) : Near 0 x x := by simp [Near]

theorem Near.mono (h : Near n x q) (hx : 0 ≤ x) (hnm : n ≤ m) : Near m x q := by
  have hpos := roundoff_pos
  exact ⟨(mul_le_mul_of_nonneg_left (pow_le_pow_of_le_one one_sub_roundoff_nonneg (by linarith) hnm) hx).trans h.1,
    h.2.trans (mul_le_mul_of_nonneg_left (pow_le_pow_right₀ (by linarith) hnm) hx)⟩

theorem Near.nonneg (h : Near n x q) (hx : 0 ≤ x) : 0 ≤ q :=
  (mul_nonneg hx (pow_nonneg one_sub_roundoff_nonneg n)).trans h.1

theorem Near.add (hq : Near n x q) (hr : Near n y r) : Near n (x + y) (q + r) := by
  unfold Near
  rw [add_mul, add_mul]
  exact ⟨add_le_add hq.1 hr.1, add_le_add hq.2 hr.2⟩

theorem Near.mul (hq : Near n x q) (hr : Near m y r) (hx : 0 ≤ x) (hy : 0 ≤ y) : Near (n + m) (x * y) (q * r) := by
  have hpos := roundoff_pos
  have hsub := one_sub_roundoff_nonneg
  unfold Near
  rw [pow_add, pow_add, mul_mul_mul_comm x y, mul_mul_mul_comm x y]
  exact ⟨mul_le_mul hq.1 hr.1 (by positivity) (hq.nonneg hx), mul_le_mul hq.2 hr.2 (hr.nonneg hy) (by positivity)⟩

/-- One more rounding. -/
theorem Near.round (h : Near n x q) (hx : 0 ≤ x) (hr : |r - q| ≤ |q| * roundoff) : Near (n + 1) x r := by
  have hpos := roundoff_pos
  have hq := h.nonneg hx
  rw [abs_of_nonneg hq, abs_le] at hr
  unfold Near
  rw [pow_succ, pow_succ, ← mul_assoc, ← mul_assoc]
  constructor
  · calc _ ≤ q * (1 - roundoff) := mul_le_mul_of_nonneg_right h.1 one_sub_roundoff_nonneg
      _ ≤ r := by linarith
  · calc r ≤ q * (1 + roundoff) := by linarith
      _ ≤ _ := mul_le_mul_of_nonneg_right h.2 (by linarith)

/-- Bernoulli's inequality for the errors of `n` roundings, downward and upward. -/
theorem roundoff_pow_bounds (n : ℕ) :
    1 - n * roundoff ≤ (1 - roundoff) ^ n ∧ (1 + roundoff) ^ n * (1 - n * roundoff) ≤ 1 := by
  have hpos := roundoff_pos
  have hsub := one_sub_roundoff_nonneg
  have hbern : 1 - n * roundoff ≤ (1 - roundoff) ^ n := by
    have := one_add_mul_le_pow (a := -roundoff) (by linarith) n
    rw [← sub_eq_add_neg] at this
    linarith
  refine ⟨hbern, ?_⟩
  calc (1 + roundoff) ^ n * (1 - n * roundoff) ≤ (1 + roundoff) ^ n * (1 - roundoff) ^ n :=
        mul_le_mul_of_nonneg_left hbern (by positivity)
    _ = (1 - roundoff ^ 2) ^ n := by rw [← mul_pow]; ring
    _ ≤ 1 := pow_le_one₀ (by nlinarith) (by nlinarith)

/-- At most `N` roundings leave a relative error of `N / (2^24 - N)`. -/
theorem Near.error {N : ℕ} (h : Near n x q) (hx : 0 ≤ x) (hn : n ≤ N) (hN : N < 2 ^ 24) :
    |q - x| ≤ x * (N / (2 ^ 24 - N)) := by
  have hpos := roundoff_pos
  have hNq : (N : ℚ) < 2 ^ 24 := by exact_mod_cast hN
  have hcount : (n : ℚ) * roundoff ≤ N / 2 ^ 24 := by
    have : (n : ℚ) ≤ N := by exact_mod_cast hn
    unfold roundoff
    linarith
  have hone : (N : ℚ) / 2 ^ 24 < 1 := (div_lt_one (by positivity)).mpr hNq
  have hinv : (1 + N / (2 ^ 24 - N) : ℚ) * (1 - N / 2 ^ 24) = 1 := by
    have : (2 ^ 24 - N : ℚ) ≠ 0 := by linarith
    field_simp
    ring
  have hsmall : (N : ℚ) / 2 ^ 24 ≤ N / (2 ^ 24 - N) :=
    div_le_div_of_nonneg_left (by positivity) (by linarith) (by linarith [Nat.cast_nonneg (α := ℚ) N])
  obtain ⟨hlow, hhigh⟩ := roundoff_pow_bounds n
  have hup : (1 + roundoff) ^ n ≤ 1 + N / (2 ^ 24 - N) := by
    refine le_of_mul_le_mul_right (hinv.symm ▸ ?_) (sub_pos.mpr hone)
    exact (mul_le_mul_of_nonneg_left (by linarith) (by positivity)).trans hhigh
  have hbelow := mul_le_mul_of_nonneg_left (by linarith : 1 - N / (2 ^ 24 - N) ≤ (1 - roundoff) ^ n) hx
  have habove := mul_le_mul_of_nonneg_left hup hx
  rw [abs_le]
  constructor <;> linarith [h.1, h.2]

end

/-! ### Floats near an exact value -/

/-- The float is the exact number `x` up to the relative error of `n` roundings; `x` is 0 or well above the least normal
float, so that products and sums of such floats stay in the normal range. -/
structure Approx (n : ℕ) (x : ℚ) (a : F32) : Prop where
  fin : sFin a
  normal : x = 0 ∨ 1 / 2 ^ 30 ≤ x
  near : Near n x (sVal a)

section
variable {n m : ℕ} {x y q : ℚ} {a b : F32}

theorem nonneg_of_normal (hx : x = 0 ∨ 1 / 2 ^ 30 ≤ x) : 0 ≤ x :=
  hx.elim (fun h => h.ge) fun h => le_trans (by positivity) h

/-- Up to `2^20` roundings stay within a factor of 2. -/
theorem Near.factor_two (h : Near n x q) (hx : 0 ≤ x) (hn : n ≤ 2 ^ 20) : x / 2 ≤ q ∧ q ≤ 2 * x := by
  obtain ⟨hlow, hhigh⟩ := abs_le.mp (h.error hx hn (by norm_num))
  norm_num at hlow hhigh
  constructor <;> linarith

/-- An operation that rounds an approximation once to a float. -/
theorem Approx.of_round (hx : x = 0 ∨ 1 / 2 ^ 30 ≤ x) (h : Near n x q) (hn : n ≤ 2 ^ 20) (hle : x ≤ 2 ^ 40)
    (hop : |q| ≤ 2 ^ 100 → sFin a ∧ sVal a = rnd32 q) : Approx (n + 1) x a := by
  have hx0 := nonneg_of_normal hx
  obtain ⟨hlow, hhigh⟩ := h.factor_two hx0 hn
  obtain ⟨hfin, hval⟩ := hop (by rw [abs_of_nonneg (h.nonneg hx0)]; linarith)
  refine ⟨hfin, hx, h.round hx0 ?_⟩
  rw [hval, roundoff, mul_one_div]
  refine rnd32_error ?_
  rw [abs_of_nonneg (h.nonneg hx0)]
  exact hx.imp (fun h0 => by linarith) fun h0 => by linarith

theorem Approx.mul (ha : Approx n x a) (hb : Approx m y b) (hxy : x * y = 0 ∨ 1 / 2 ^ 30 ≤ x * y)
    (hn : n + m ≤ 2 ^ 20) (hle : x * y ≤ 2 ^ 40) : Approx (n + m + 1) (x * y) (f32Mul a b) :=
  .of_round hxy (ha.near.mul hb.near (nonneg_of_normal ha.normal) (nonneg_of_normal hb.normal)) hn hle
    (f32Mul_val ha.fin hb.fin)

theorem Approx.add (ha : Approx n x a) (hb : Approx n y b) (hn : n ≤ 2 ^ 20) (hle : x + y ≤ 2 ^ 40) :
    Approx (n + 1) (x + y) (f32Add a b) := by
  have hx := nonneg_of_normal ha.normal
  have hy := nonneg_of_normal hb.normal
  refine .of_round ?_ (ha.near.add hb.near) hn hle (f32Add_val ha.fin hb.fin)
  rcases ha.normal with hx' | hx'
  · rw [hx', zero_add]; exact hb.normal
  · exact .inr (by linarith)

theorem Approx.mono (h : Approx n x a) (hnm : n ≤ m) : Approx m x a :=
  ⟨h.fin, h.normal, h.near.mono (nonneg_of_normal h.normal) hnm⟩

/-- A sum of `m` terms takes `m` roundings beside those of its terms. -/
theorem Approx.foldl_add {term : ℕ → F32} {exact : ℕ → ℚ} (ha : Approx n x a)
    (hterm : ∀ j < m, Approx n (exact j) (term j)) (hn : n + m ≤ 2 ^ 20)
    (hle : x + ∑ j ∈ Finset.range m, exact j ≤ 2 ^ 40) :
    Approx (n + m) (x + ∑ j ∈ Finset.range m, exact j)
      ((List.range m).foldl (fun c j => f32Add c (term j)) a) := by
  induction m with
  | zero => simpa using ha
  | succ k ih =>
    have hlast := hterm k (by omega)
    have hpos := nonneg_of_normal hlast.normal
    rw [Finset.sum_range_succ, ← add_assoc x] at hle ⊢
    rw [List.range_succ, List.foldl_append, List.foldl_cons, List.foldl_nil]
    exact (ih (fun j hj => hterm j (by omega)) (by omega) (by linarith)).add (hlast.mono (by omega)) (by omega) hle

end

/-! ### The weights of an exact factor (41_weight_table.md R121 to R124) -/

/-- The weight of every entry of a table with the exact factor `k`. -/
def factorWeight (k : ℕ) : F32 := f32OfF64 (f64Div oneF64 (f64OfInt k))

section
variable {k d dx cn : ℕ}

theorem rnd64_nat {n : ℕ} (h : n < 2 ^ 53) : rnd64 n = n := by
  rw [← Int.cast_natCast]
  exact rnd64_int (by omega)

theorem buildLengths_of_factor (hk : 1 ≤ k) (hd : 1 ≤ d) (hlt : k * d < 2 ^ 19) : BuildLengths (k * d) d :=
  ⟨hd, Nat.le_mul_of_pos_left d hk, hlt⟩

theorem scaleQ_of_factor (hk : 1 ≤ k) (hd : 1 ≤ d) (hlt : k * d < 2 ^ 19) : scaleQ (k * d) d = k := by
  have hle : d ≤ k * d := Nat.le_mul_of_pos_left d hk
  rw [scaleQ, scale_of_dvd (by omega) (by omega) (by omega) (by omega) ⟨(k : ℤ), by push_cast; ring⟩]
  push_cast
  rw [Int.mul_ediv_cancel _ (by omega), Int.cast_natCast]

/-- The block of a destination index lies within the source. -/
theorem block_le (hdx : dx < d) : dx * k + k ≤ k * d := by
  rw [← Nat.succ_mul, Nat.mul_comm]
  exact Nat.mul_le_mul_left k hdx

/-- The interval of a destination index at an exact factor: no bound is rounded, its width is the factor, and only at
the end of the source is the last index clamped. -/
theorem interval_of_factor (hk : 1 ≤ k) (hlt : k * d < 2 ^ 19) (hdx : dx < d) :
    let v := interval (k * d) (scaleOf ((k * d : ℕ) : ℤ) (d : ℤ)) dx
    dFin v.fsx1 ∧ dVal v.fsx1 = (dx * k : ℕ) ∧ dFin v.fsx2 ∧ dVal v.fsx2 = (dx * k + k : ℕ) ∧ v.cw = f64OfInt k ∧
      v.sx1 = (dx * k : ℕ) ∧ v.sx2 = (dx * k + if dx + 1 = d then k - 1 else k : ℕ) := by
  have hfit := block_le (k := k) hdx
  have hkq : (1 : ℚ) ≤ k := by exact_mod_cast hk
  have hstart : fsx1Q (k * d) d dx = (dx * k : ℕ) := by
    rw [fsx1Q, scaleQ_of_factor hk (by omega) hlt, ← Nat.cast_mul, rnd64_nat (by omega)]
  have hend : fsx2Q (k * d) d dx = (dx * k + k : ℕ) := by
    rw [fsx2Q, hstart, scaleQ_of_factor hk (by omega) hlt, ← Nat.cast_add, rnd64_nat (by omega)]
  have hwidth : min (scaleQ (k * d) d) (rnd64 ((k * d : ℕ) - fsx1Q (k * d) d dx)) = k := by
    rw [scaleQ_of_factor hk (by omega) hlt, hstart, ← Nat.cast_sub (by omega), rnd64_nat (by omega)]
    exact min_eq_left (by exact_mod_cast (by omega : k ≤ k * d - dx * k))
  obtain ⟨hfin1, hval1, hfin2, hval2, hcw, hcwval, hsx2, hsx1⟩ :=
    (buildLengths_of_factor hk (by omega) hlt).interval_val hdx
  obtain ⟨hkfin, hkval⟩ := f64OfInt_val (z := k) (by omega)
  rw [hend, Int.floor_natCast] at hsx2
  rw [hstart, Int.ceil_natCast] at hsx1
  refine ⟨hfin1, hval1.trans hstart, hfin2, hval2.trans hend, ?_, by omega, ?_⟩
  · refine f64_ext hcw hkfin (by rw [hcwval, hwidth, hkval, Int.cast_natCast]) ?_
    rw [hcwval, hwidth]
    positivity
  · split_ifs with hlast
    · have hend : dx * k + k = k * d := by rw [← hlast]; ring
      omega
    · have hnext := block_le (k := k) (by omega : dx + 1 < d)
      rw [Nat.add_one_mul] at hnext
      omega

/-- The cell of an exact factor starts on a sample, so it has no left partial entry. -/
theorem leftEntry_of_factor (hk : 1 ≤ k) (hlt : k * d < 2 ^ 19) (hdx : dx < d) :
    leftEntry cn dx (interval (k * d) (scaleOf ((k * d : ℕ) : ℤ) (d : ℤ)) dx) = [] := by
  obtain ⟨hfin1, hval1, -, -, -, hsx1, -⟩ := interval_of_factor hk hlt hdx
  have hfit := block_le (k := k) hdx
  obtain ⟨hi, hival⟩ := f64OfInt_val (z := (dx * k : ℕ)) (by omega)
  obtain ⟨hlp, hlpval⟩ := f64Sub_val hi hfin1 (by rw [hival, hval1]; simp)
  rw [hival, hval1, Int.cast_natCast, sub_self, rnd64_zero] at hlpval
  simp only [leftEntry, hsx1]
  rw [if_neg]
  rw [f64Lt_iff epsPart_val.1 hlp, hlpval]
  linarith [epsPart_val.2.1]

/-- Only the last cell of an exact factor has a right partial entry: the last sample, whole. -/
theorem rightEntry_of_factor (hk : 1 ≤ k) (hlt : k * d < 2 ^ 19) (hdx : dx < d) :
    rightEntry cn dx (interval (k * d) (scaleOf ((k * d : ℕ) : ℤ) (d : ℤ)) dx) =
      if dx + 1 = d then [⟨(dx * k + (k - 1)) * cn, dx * cn, factorWeight k⟩] else [] := by
  obtain ⟨-, -, hfin2, hval2, hcw, -, hsx⟩ := interval_of_factor hk hlt hdx
  have hfit := block_le (k := k) hdx
  generalize interval (k * d) (scaleOf ((k * d : ℕ) : ℤ) (d : ℤ)) dx = v at *
  obtain ⟨hi, hival⟩ := f64OfInt_val (z := v.sx2) (by rw [hsx]; split_ifs <;> omega)
  split_ifs at hsx ⊢ with hlast
  · have hrest : dVal v.fsx2 - dVal (f64OfInt v.sx2) = 1 := by
      rw [hval2, hival, hsx]
      push_cast [Nat.cast_sub hk]
      ring
    obtain ⟨hrp, hrpval⟩ := f64Sub_val hfin2 hi (by norm_num [hrest])
    rw [hrest, rnd64_one] at hrpval
    have hone : f64Sub v.fsx2 (f64OfInt v.sx2) = oneF64 :=
      f64_ext hrp one_val.1 (hrpval.trans one_val.2.symm) (by norm_num [hrpval])
    have hpass : f64Lt epsPart oneF64 = true := by
      rw [f64Lt_iff epsPart_val.1 one_val.1, one_val.2]
      linarith [epsPart_val.2.2]
    have hself : f64Min oneF64 oneF64 = oneF64 := ite_self _
    have hmin : f64Min oneF64 v.cw = oneF64 := by
      obtain ⟨hkfin, hkval⟩ := f64OfInt_val (z := k) (by omega)
      rw [hcw, f64Min, if_neg]
      rw [f64Lt_iff hkfin one_val.1, one_val.2, hkval, not_lt]
      exact_mod_cast hk
    simp only [rightEntry, hone, hpass, if_true, hself, hmin]
    rw [hsx, Int.toNat_natCast, hcw, factorWeight]
  · have hrest : dVal v.fsx2 - dVal (f64OfInt v.sx2) = 0 := by rw [hval2, hival, hsx, Int.cast_natCast, sub_self]
    obtain ⟨hrp, hrpval⟩ := f64Sub_val hfin2 hi (by norm_num [hrest])
    rw [hrest, rnd64_zero] at hrpval
    simp only [rightEntry]
    rw [if_neg]
    rw [f64Lt_iff epsPart_val.1 hrp, hrpval]
    linarith [epsPart_val.2.1]

/-- The full entries at an exact factor. -/
theorem fullEntries_of_factor (hk : 1 ≤ k) (hlt : k * d < 2 ^ 19) (hdx : dx < d) :
    fullEntries cn dx (interval (k * d) (scaleOf ((k * d : ℕ) : ℤ) (d : ℤ)) dx) =
      (List.range (if dx + 1 = d then k - 1 else k)).map fun j => ⟨(dx * k + j) * cn, dx * cn, factorWeight k⟩ := by
  obtain ⟨-, -, -, -, hcw, hsx1, hsx2⟩ := interval_of_factor hk hlt hdx
  unfold fullEntries
  rw [hsx1, hsx2, hcw, Nat.cast_add, add_sub_cancel_left, Int.toNat_natCast]
  rfl

/-- The entries of a destination index at an exact factor: the `k` samples of its block, each with the same weight. The
last sample of the source comes as a right partial entry, every other one as a full entry. -/
theorem cellEntries_of_factor (hk : 1 ≤ k) (hlt : k * d < 2 ^ 19) (hdx : dx < d) :
    cellEntries (k * d) cn (scaleOf ((k * d : ℕ) : ℤ) (d : ℤ)) dx =
      (List.range k).map fun j => ⟨(dx * k + j) * cn, dx * cn, factorWeight k⟩ := by
  unfold cellEntries
  simp only [leftEntry_of_factor hk hlt hdx, fullEntries_of_factor hk hlt hdx, rightEntry_of_factor hk hlt hdx,
    List.nil_append]
  split_ifs with hlast
  · obtain ⟨m, rfl⟩ := Nat.exists_eq_add_of_le' hk
    rw [List.range_succ, List.map_append]
    rfl
  · rw [List.append_nil]

end

/-! ### The accumulated float of a block (R154, R155) -/

section
variable {k : ℕ}

/-- A fraction whose denominator fits is 0 or well in the normal range. -/
theorem normal_fraction (num : ℕ) {den : ℕ} (hpos : 0 < den) (hden : den ≤ 2 ^ 30) :
    (num : ℚ) / den = 0 ∨ 1 / 2 ^ 30 ≤ (num : ℚ) / den := by
  have hden0 : (0 : ℚ) < den := by exact_mod_cast hpos
  have hden' : (den : ℚ) ≤ 2 ^ 30 := by exact_mod_cast hden
  rcases Nat.eq_zero_or_pos num with h | h
  · exact .inl (by simp [h])
  · exact .inr (div_le_div₀ (by positivity) (by exact_mod_cast h) hden0 hden')

theorem approx_byte (v : Byte) : Approx 0 v.toNat (f32OfU8 v) := by
  obtain ⟨hfin, hval⟩ := f32OfU8_val v
  refine ⟨hfin, by simpa using normal_fraction v.toNat one_pos (by norm_num), ?_⟩
  rw [hval]
  exact .refl _

theorem approx_zero (n : ℕ) : Approx n 0 f32Zero :=
  ⟨f32Zero_val.1, .inl rfl, by simp [Near, f32Zero_val.2]⟩

/-- The weight of an exact factor is `1/k`, rounded to a double and then to a float. -/
theorem approx_factorWeight (hk : 1 ≤ k) (hle : k ≤ 2 ^ 19) : Approx 2 (1 / k) (factorWeight k) := by
  have hkq : (1 : ℚ) ≤ k := by exact_mod_cast hk
  have hpos : 0 < 1 / (k : ℚ) := by positivity
  have hone : 1 / (k : ℚ) ≤ 1 := (div_le_one (by linarith)).mpr hkq
  have hnormal : 1 / (k : ℚ) = 0 ∨ 1 / 2 ^ 30 ≤ 1 / (k : ℚ) := by
    simpa using normal_fraction 1 hk (hle.trans (by norm_num))
  obtain ⟨hkfin, hkval⟩ := f64OfInt_val (z := k) (by omega)
  rw [Int.cast_natCast] at hkval
  obtain ⟨hfin, hval⟩ := f64Div_val one_val.1 hkfin (by rw [hkval]; linarith)
    (by rw [one_val.2, hkval, abs_of_pos hpos]; linarith)
  rw [one_val.2, hkval] at hval
  have hnear : Near 1 (1 / (k : ℚ)) (dVal (f64Div oneF64 (f64OfInt k))) := by
    refine (Near.refl _).round hpos.le ?_
    rw [hval]
    refine (rnd64_error (.inr ?_)).trans ?_ <;> rw [abs_of_pos hpos]
    · exact (hnormal.resolve_left hpos.ne').trans' (by norm_num)
    · unfold roundoff
      linarith
  exact .of_round hnormal hnear (by norm_num) (by linarith) (f32OfF64_val hfin)

/-- A sample times the weight of an exact factor. -/
theorem approx_sampleTerm (hk : 1 ≤ k) (hle : k ≤ 2 ^ 19) (v : Byte) :
    Approx 3 (v.toNat * (1 / k)) (f32Mul (f32OfU8 v) (factorWeight k)) := by
  have hkq : (1 : ℚ) ≤ k := by exact_mod_cast hk
  have hv : (v.toNat : ℚ) ≤ 2 ^ 8 := by exact_mod_cast v.isLt.le
  have hnormal := normal_fraction v.toNat hk (hle.trans (by norm_num))
  rw [← mul_one_div] at hnormal
  refine (approx_byte v).mul (approx_factorWeight hk hle) hnormal (by norm_num) ?_
  rw [mul_one_div]
  exact (div_le_self (Nat.cast_nonneg _) hkq).trans (by linarith)

/-- The entries of a cell of operands with an exact factor. -/
theorem cellEntries_of_exactScale {src dst : ℤ} (h : BuildLengths src.toNat dst.toNat) (hk : ExactScale src dst k)
    {dx : ℕ} (hdx : dx < dst.toNat) (cn : ℕ) :
    cellEntries src.toNat cn (scaleOf src dst) dx =
      (List.range k).map fun j => ⟨(dx * k + j) * cn, dx * cn, factorWeight k⟩ := by
  rw [h.scaleOf_eq, ← hk.mul_eq]
  exact cellEntries_of_factor hk.pos (hk.mul_eq ▸ h.src_lt) hdx

end

section
variable {s : State} {ix iy dy dx ch : ℕ}

/-- The sum of the samples of a block in one source row (42_area_integer.md R142). -/
def rowSum (s : State) (ix dx ch sy : ℕ) : ℕ :=
  ∑ i ∈ Finset.range ix, (s.mem.read (sourceAddr s sy (dx * ix + i) ch)).toNat

theorem rowSum_le (s : State) (ix dx ch sy : ℕ) : rowSum s ix dx ch sy ≤ 255 * ix := by
  unfold rowSum
  calc _ ≤ ∑ _i ∈ Finset.range ix, 255 := Finset.sum_le_sum fun _ _ => Nat.le_of_lt_succ (BitVec.isLt _)
    _ = 255 * ix := by rw [Finset.sum_const, Finset.card_range, smul_eq_mul, mul_comm]

/-- The horizontal sum of a block's row is the row's average: three roundings to each term, and one to each sum. -/
theorem approx_scratchSample (hX : BuildLengths (s32 s.srcWidth).toNat (s32 s.dstWidth).toNat)
    (hix : ExactScale (s32 s.srcWidth) (s32 s.dstWidth) ix) (hle : ix ≤ 8192) (hdx : dx < (s32 s.dstWidth).toNat)
    (sy : ℕ) : Approx (3 + ix) (rowSum s ix dx ch sy / ix) (scratchSample s dx ch sy) := by
  have hixq : (0 : ℚ) < ix := by exact_mod_cast hix.pos
  have hsum : (rowSum s ix dx ch sy : ℚ) / ix = 0 + ∑ i ∈ Finset.range ix,
      ((s.mem.read (sourceAddr s sy (dx * ix + i) ch)).toNat : ℚ) * (1 / ix) := by
    rw [zero_add, ← Finset.sum_mul, mul_one_div, rowSum, Nat.cast_sum]
  have hbound : (rowSum s ix dx ch sy : ℚ) / ix ≤ 255 := by
    rw [div_le_iff₀ hixq]
    exact_mod_cast rowSum_le s ix dx ch sy
  have hfold : scratchSample s dx ch sy = (List.range ix).foldl (fun c i => f32Add c
      (f32Mul (f32OfU8 (s.mem.read (sourceAddr s sy (dx * ix + i) ch))) (factorWeight ix))) f32Zero := by
    rw [scratchSample, cellEntries_of_exactScale hX hix hdx, List.foldl_map]
    simp only [sourceAddr, Nat.add_assoc]
  rw [hfold, hsum]
  exact (approx_zero 3).foldl_add (fun i _ => approx_sampleTerm hix.pos (by omega) _) (by omega)
    (by rw [← hsum]; linarith)

/-- The sum of the samples of a block of `ix` by `iy` (42_area_integer.md R142). -/
def blockSum (s : State) (ix iy dy dx ch : ℕ) : ℕ := ∑ j ∈ Finset.range iy, rowSum s ix dx ch (dy * iy + j)

theorem blockSum_le (s : State) (ix iy dy dx ch : ℕ) : blockSum s ix iy dy dx ch ≤ 255 * (ix * iy) :=
  (boxSum_srcView s ix iy dy dx ch).symm.trans_le (boxSum_le ..)

/-- The accumulator of a cell with an exact factor: the first row assigns, the others add (R155). -/
theorem accSample_of_exactScale (hY : BuildLengths (s32 s.srcHeight).toNat (s32 s.dstHeight).toNat)
    (hiy : ExactScale (s32 s.srcHeight) (s32 s.dstHeight) (iy + 1)) (hdy : dy < (s32 s.dstHeight).toNat) :
    accSample s dy dx ch = (List.range iy).foldl (fun c j =>
      f32Add c (f32Mul (factorWeight (iy + 1)) (scratchSample s dx ch (dy * (iy + 1) + (j + 1)))))
      (f32Mul (factorWeight (iy + 1)) (scratchSample s dx ch (dy * (iy + 1)))) := by
  rw [accSample, cellEntries_of_exactScale hY hiy hdy, List.range_succ_eq_map, List.map_cons]
  simp only [List.map_map, List.foldl_map, Function.comp_apply, Nat.succ_eq_add_one, Nat.add_zero, Nat.mul_one]

/-- A row contributes to the average of its block no more than the whole of it, which is at most 255. -/
theorem rowShare_le {j : ℕ} (hix : 0 < ix) (hj : j < iy) :
    (rowSum s ix dx ch (dy * iy + j) / (ix * iy : ℕ) : ℚ) ≤ blockSum s ix iy dy dx ch / (ix * iy : ℕ) ∧
    (blockSum s ix iy dy dx ch / (ix * iy : ℕ) : ℚ) ≤ 255 := by
  have hareaq : (0 : ℚ) < (ix * iy : ℕ) := by exact_mod_cast Nat.mul_pos hix (Nat.zero_lt_of_lt hj)
  constructor
  · refine div_le_div_of_nonneg_right ?_ hareaq.le
    exact_mod_cast Finset.single_le_sum (f := fun j => rowSum s ix dx ch (dy * iy + j)) (fun _ _ => Nat.zero_le _)
      (Finset.mem_range.mpr hj)
  · rw [div_le_iff₀ hareaq]
    exact_mod_cast blockSum_le s ix iy dy dx ch

section
variable (hX : BuildLengths (s32 s.srcWidth).toNat (s32 s.dstWidth).toNat)
  (hix : ExactScale (s32 s.srcWidth) (s32 s.dstWidth) ix) (hiy : ExactScale (s32 s.srcHeight) (s32 s.dstHeight) iy)
  (hxle : ix ≤ 8192) (hyle : iy ≤ 8192) (hdx : dx < (s32 s.dstWidth).toNat)
include hX hix hiy hxle hyle hdx

/-- What a row of a block adds to the accumulator: three roundings beside those of its horizontal sum. -/
theorem approx_rowTerm {j : ℕ} (hj : j < iy) :
    Approx (ix + 6) (rowSum s ix dx ch (dy * iy + j) / (ix * iy : ℕ))
      (f32Mul (factorWeight iy) (scratchSample s dx ch (dy * iy + j))) := by
  have hexact : (rowSum s ix dx ch (dy * iy + j) / (ix * iy : ℕ) : ℚ) =
      1 / iy * (rowSum s ix dx ch (dy * iy + j) / ix) := by
    rw [div_mul_div_comm, one_mul, Nat.cast_mul, mul_comm (ix : ℚ)]
  have hle := (rowShare_le (s := s) (dy := dy) (dx := dx) (ch := ch) hix.pos hj).1.trans (rowShare_le hix.pos hj).2
  have harea : ix * iy ≤ 8192 * 8192 := Nat.mul_le_mul hxle hyle
  have hnormal := normal_fraction (rowSum s ix dx ch (dy * iy + j)) (Nat.mul_pos hix.pos hiy.pos) (by omega)
  rw [hexact] at hle hnormal ⊢
  exact ((approx_factorWeight hiy.pos (by omega)).mul (approx_scratchSample hX hix hxle hdx _) hnormal (by omega)
    (by linarith)).mono (by omega)

/-- The vertical sum of the averages of a block's rows is the block's average. -/
theorem approx_accSample (hY : BuildLengths (s32 s.srcHeight).toNat (s32 s.dstHeight).toNat)
    (hdy : dy < (s32 s.dstHeight).toNat) :
    Approx (ix + iy + 5) (blockSum s ix iy dy dx ch / (ix * iy : ℕ)) (accSample s dy dx ch) := by
  have hterm := fun j => approx_rowTerm (dy := dy) (ch := ch) (j := j) hX hix hiy hxle hyle hdx
  have hle := (rowShare_le (s := s) (dy := dy) (dx := dx) (ch := ch) hix.pos hiy.pos).2
  obtain ⟨rows, rfl⟩ := Nat.exists_eq_add_of_le' (show 1 ≤ iy from hiy.pos)
  have hsum : (blockSum s ix (rows + 1) dy dx ch / (ix * (rows + 1) : ℕ) : ℚ) =
      rowSum s ix dx ch (dy * (rows + 1)) / (ix * (rows + 1) : ℕ) + ∑ j ∈ Finset.range rows,
        (rowSum s ix dx ch (dy * (rows + 1) + (j + 1)) / (ix * (rows + 1) : ℕ) : ℚ) := by
    rw [← Finset.sum_div, ← add_div, blockSum, Finset.sum_range_succ', add_comm]
    push_cast
    rfl
  rw [accSample_of_exactScale hY hiy hdy]
  rw [hsum] at hle ⊢
  exact ((hterm 0 (by omega)).foldl_add (fun j hj => hterm (j + 1) (by omega)) (by omega)
    (hle.trans (by norm_num))).mono (by omega)

end

/-! ### The two paths (R157 (c)) -/

theorem toNat_satU8 (i : ℤ) : (satU8 i).toNat = min i.toNat 255 := by
  rw [satU8, BitVec.toNat_ofNat, Nat.mod_eq_of_lt (by omega)]

/-- A float near an average and the box average round it to bytes at most 1 apart: the float is off by at most
`255/1000`, each rounding by at most `1/2`. -/
theorem accByte_near_boxAverage {n sum area : ℕ} {a : F32} (h : Approx n ((sum : ℚ) / area) a) (hn : n ≤ 16389)
    (harea : 0 < area) (hsum : sum ≤ 255 * area) :
    boxAverage sum area ≤ (accByte a).toNat + 1 ∧ (accByte a).toNat ≤ boxAverage sum area + 1 := by
  have hareaq : (0 : ℚ) < area := by exact_mod_cast harea
  have hle : (sum : ℚ) / area ≤ 255 := by
    rw [div_le_iff₀ hareaq]
    exact_mod_cast hsum
  have hbyte := boxAverage_lt harea hsum
  have hbox := abs_le.mp (abs_sub_round ((sum : ℚ) / area))
  rw [← boxAverage_eq_round sum harea, Int.cast_natCast] at hbox
  have hrne := abs_le.mp (rneQ_error (sVal a))
  have hnear := abs_le.mp (h.near.error (by positivity) hn (by norm_num))
  norm_num at hnear
  have hlow : ((boxAverage sum area : ℤ) : ℚ) < (rneQ (sVal a) + 2 : ℤ) := by push_cast; linarith
  have hhigh : ((rneQ (sVal a) : ℤ) : ℚ) < (boxAverage sum area + 2 : ℤ) := by push_cast; linarith
  rw [Int.cast_lt] at hlow hhigh
  rw [accByte, f32Rne_val h.fin, toNat_satU8]
  omega

end

/-- Settles O45: at an exact factor the accumulated float is the block's average up to a thousandth of it. -/
theorem areaPathsAgreeWithinOne : Obligations.AreaPathsAgreeWithinOne := by
  intro s haInt haGen hapart
  refine ⟨_, _, exec_accepted haInt fun _ => hapart, exec_accepted haGen fun _ => hapart, fun a hdst => ?_⟩
  obtain ⟨dy, dx, ch, hdy, hdx, hch, rfl⟩ := hdst.sample
  obtain ⟨hix, hiy⟩ := haInt.exactScales (by decide) rfl
  obtain ⟨hX, hY⟩ := haGen.buildLengths rfl
  obtain ⟨-, -, hcapX⟩ := haGen.weightsX (.inl rfl)
  obtain ⟨-, -, hcapY⟩ := haGen.weightsY (.inl rfl)
  have hxle := Nat.div_le_self (s32 s.srcWidth).toNat (s32 s.dstWidth).toNat
  have hyle := Nat.div_le_self (s32 s.srcHeight).toNat (s32 s.dstHeight).toNat
  rw [← hix.eq_div] at hxle
  rw [← hiy.eq_div] at hyle
  rw [toNat_read_int haInt (by decide) rfl hdy hdx hch, read_gen haGen (by decide) rfl hdy hdx hch]
  exact accByte_near_boxAverage (approx_accSample hX hix hiy (by omega) (by omega) hdx hY hdy) (by omega)
    (Nat.mul_pos hix.pos hiy.pos) (blockSum_le ..)

end Sys2Proof.Machine
end

section
/-! The linear path (44_linear.md R177 to R179; O50): weights that sum to `ONE` keep every stage of the blend in its
range, so that the saturation never acts, and the tables the command leaves hold the entries its samples use. -/

namespace Sys2Proof.Machine

/-! ### The two-stage blend (R179) -/

section
variable {x y : FixedEntry} {h v0 v1 : ℕ}

/-- A horizontal blend is at most `255 * ONE`. -/
theorem blendRow_le (a b : Byte) (hx : x.w0 + x.w1 = 2048) : blendRow a b x ≤ 522240 :=
  calc a.toNat * x.w0 + b.toNat * x.w1
      ≤ 255 * x.w0 + 255 * x.w1 := Nat.add_le_add (Nat.mul_le_mul_right _ (Nat.le_of_lt_succ a.isLt))
        (Nat.mul_le_mul_right _ (Nat.le_of_lt_succ b.isLt))
    _ = 522240 := by rw [← Nat.mul_add, hx]

/-- The two truncating shifts are divisions. -/
theorem foldWeight_eq (w h : ℕ) : foldWeight w h = w * (h / 16) / 65536 := by
  rw [foldWeight, Nat.shiftRight_eq_div_pow, Nat.shiftRight_eq_div_pow]

theorem foldWeight_mul_le (w : ℕ) (hh : h ≤ 522240) : foldWeight w h * 65536 ≤ w * 32640 :=
  calc foldWeight w h * 65536
      ≤ w * (h / 16) := by rw [foldWeight_eq]; exact Nat.div_mul_le_self _ _
    _ ≤ w * 32640 := Nat.mul_le_mul_left _ (by omega)

/-- The two rows of a blend add up to at most four times a byte. -/
theorem foldWeight_add_le {h0 h1 : ℕ} (hy : y.w0 + y.w1 = 2048) (hh0 : h0 ≤ 522240) (hh1 : h1 ≤ 522240) :
    foldWeight y.w0 h0 + foldWeight y.w1 h1 ≤ 1020 := by
  have hrow0 := foldWeight_mul_le y.w0 hh0
  have hrow1 := foldWeight_mul_le y.w1 hh1
  omega

/-- In that range the saturation changes nothing. -/
theorem toNat_blendOut (hv : v0 + v1 ≤ 1020) : (blendOut v0 v1).toNat = (v0 + v1 + 2) / 4 := by
  rw [blendOut, toNat_satU8, Int.toNat_natCast, Nat.shiftRight_eq_div_pow]
  omega

end

/-! ### The value of a sample (R178) -/

/-- A sample of a row of the source, at the offset an entry names (20_memory.md R62). -/
theorem srcView_addr (s : State) (row ofs ch : ℕ) :
    (operands Config.default s).srcView.addr row (ofs + ch) =
      s.srcBase.toNat + row * (s32 s.srcStride).toNat + ofs + ch := by
  simp [View.addr, Operands.srcView, Nat.add_assoc]

/-- With weights that sum to `ONE` a sample is its unsaturated blend. -/
theorem toNat_linearSample (m : Memory) (src : View) {fy fx : FixedEntry} (ch : ℕ) (hy : fy.w0 + fy.w1 = 2048)
    (hx : fx.w0 + fx.w1 = 2048) :
    (linearSample m src fy fx ch).toNat =
      (foldWeight fy.w0 (blendRow (m.read (src.addr fy.ofs0 (fx.ofs0 + ch)))
          (m.read (src.addr fy.ofs0 (fx.ofs1 + ch))) fx) +
        foldWeight fy.w1 (blendRow (m.read (src.addr fy.ofs1 (fx.ofs0 + ch)))
          (m.read (src.addr fy.ofs1 (fx.ofs1 + ch))) fx) + 2) / 4 :=
  toNat_blendOut (foldWeight_add_le hy (blendRow_le _ _ hx) (blendRow_le _ _ hx))

/-! ### The tables of the linear path (R177) -/

/-- A table just written holds the entry a destination index selects. -/
theorem overlay_fixedAt {t : List FixedEntry} {d : ℕ} (old : List FixedEntry) (hd : d < t.length) :
    (overlay t old)[d]? = some (fixedAt t d) := by
  rw [overlay_getElem?, if_pos hd, fixedAt, List.getD_eq_getElem?_getD, List.getElem?_eq_getElem hd, Option.getD_some]

section
variable {i : Instr} {s : State}

/-- The entries of both tables carry weights that sum to `ONE` (R176). -/
theorem Accepted.fixed_weights (ha : Accepted i s) (hi : i ∈ pixelCommands) {dy dx : ℕ}
    (hdy : dy < (s32 s.dstHeight).toNat) (hdx : dx < (s32 s.dstWidth).toNat) :
    (fixedAt (fixedY (operands Config.default s)) dy).w0 +
      (fixedAt (fixedY (operands Config.default s)) dy).w1 = 2048 ∧
    (fixedAt (fixedX (operands Config.default s)) dx).w0 +
      (fixedAt (fixedX (operands Config.default s)) dx).w1 = 2048 := by
  obtain ⟨hsw, hsw', hdw, hdw', -, -⟩ := ha.toOperandsLegal.widths (widthCommands_of_pixel hi)
  obtain ⟨hsh, hsh', hdh, hdh'⟩ := ha.toOperandsLegal.heights (heightCommands_of_pixel hi)
  have hmemY := fixedAt_mem (t := fixedY (operands Config.default s)) (d := dy) (by simpa using hdy)
  have hmemX := fixedAt_mem (t := fixedX (operands Config.default s)) (d := dx) (by simpa using hdx)
  exact ⟨(mem_buildFptab_legal hsh hsh' hdh hdh' hmemY).1, (mem_buildFptab_legal hsw hsw' hdw hdw' hmemX).1⟩

/-- The two tables after the linear path; the capacity check (R177) keeps each length in its count register. -/
theorem finalState_lin_tables (ha : Accepted i s) (hi : i ∈ pixelCommands) (hp : commandPath i s = .lin) :
    (finalState i (clearResults s)).fpx = overlay (fixedX (operands Config.default s)) s.fpx ∧
    (finalState i (clearResults s)).fpxCount.toNat = (fixedX (operands Config.default s)).length ∧
    (finalState i (clearResults s)).fpy = overlay (fixedY (operands Config.default s)) s.fpy ∧
    (finalState i (clearResults s)).fpyCount.toNat = (fixedY (operands Config.default s)).length := by
  obtain ⟨-, hdw, hdh⟩ := ha.fits
  have hfitX := hdw (.inl hp)
  have hfitY := hdh (.inl hp)
  rw [finalState_accepted hi, hp, pathFinal_lin_fpxCount, pathFinal_lin_fpyCount, BitVec.toNat_ofNat,
    BitVec.toNat_ofNat, fixedX_length, fixedY_length, operands_dw, operands_dh]
  exact ⟨pathFinal_lin_fpx _ _, Nat.mod_eq_of_lt (by omega), pathFinal_lin_fpy _ _, Nat.mod_eq_of_lt (by omega)⟩

/-- The valid entries of both tables are those of the builder (R170). -/
theorem finalState_lin_holds (ha : Accepted i s) (hi : i ∈ pixelCommands) (hp : commandPath i s = .lin) :
    holdsFpx s (finalState i (clearResults s)) ∧ holdsFpy s (finalState i (clearResults s)) := by
  obtain ⟨hfpx, hcountX, hfpy, hcountY⟩ := finalState_lin_tables ha hi hp
  rw [holdsFpx, holdsFpy, hfpx, hcountX, hfpy, hcountY, overlay_take, overlay_take]
  exact ⟨rfl, rfl⟩

end

/-- Settles O50: the final state of the linear path, its tables those of the builder, its samples the unsaturated blends
of the four samples that the two selected entries name. -/
theorem linearBlendsFourSamples : Obligations.LinearBlendsFourSamples := by
  intro s ha hapart
  have hi : Instr.linear ∈ pixelCommands := by decide
  obtain ⟨hfpx, hcountX, hfpy, hcountY⟩ := finalState_lin_tables ha hi rfl
  obtain ⟨hholdsX, hholdsY⟩ := finalState_lin_holds ha hi rfl
  refine ⟨_, exec_accepted ha fun _ => hapart, finalState_statusWord _ _, hcountX.trans (fixedX_length _), hholdsX,
    hcountY.trans (fixedY_length _), hholdsY, fun dy dx ch hdy hdx hch => ?_⟩
  obtain ⟨hy, hx⟩ := ha.fixed_weights hi hdy hdx
  refine ⟨fixedAt (fixedX (operands Config.default s)) dx, fixedAt (fixedY (operands Config.default s)) dy, ?_, ?_, ?_⟩
  · rw [hfpx]
    exact overlay_fixedAt _ ((fixedX_length _).symm ▸ hdx)
  · rw [hfpy]
    exact overlay_fixedAt _ ((fixedY_length _).symm ▸ hdy)
  · rw [read_lin ha hi rfl hdy hdx hch, toNat_linearSample _ _ _ hy hx]
    simp only [foldWeight_eq, blendRow, srcView_addr]

end Sys2Proof.Machine
end

section
/-! The dispatcher (45_dispatch.md R190, R191; O37): a pixel command is its checks and its path, so `RESIZE` has the
outcome of the command whose path it selects, and of every pixel command where the operands are illegal. -/

namespace Sys2Proof.Machine

/-! ### Pixel commands that check the same and take the same path -/

section
variable {i j : Instr} {s : State}

/-- The pixel commands make the same checks V1 to V4 (40_command_common.md R101). -/
theorem operandsFail_pixel_iff (hi : i ∈ pixelCommands) (hj : j ∈ pixelCommands) :
    (failsV1 i s ↔ failsV1 j s) ∧ (failsV2 i s ↔ failsV2 j s) ∧ (failsV3 i s ↔ failsV3 j s) ∧
      (failsV4 i s ↔ failsV4 j s) := by
  simp only [failsV1, failsV2, failsV3, failsV4, hi, hj, widthCommands_of_pixel hi, widthCommands_of_pixel hj,
    heightCommands_of_pixel hi, heightCommands_of_pixel hj, and_self]

theorem ne_tableCommand_of_pixel (hi : i ∈ pixelCommands) :
    i ≠ .wtabX ∧ i ≠ .wtabY ∧ i ≠ .fptabX ∧ i ≠ .fptabY := by
  revert hi; cases i <;> decide

/-- The capacities a pixel command needs are those of its path (40_command_common.md R107). -/
theorem failsV7_pixel_iff (hi : i ∈ pixelCommands) (hj : j ∈ pixelCommands)
    (hpath : commandPath i s = commandPath j s) : failsV7 i s ↔ failsV7 j s := by
  simp only [failsV7, hpath, ne_tableCommand_of_pixel hi, ne_tableCommand_of_pixel hj]

/-- Two pixel commands report the same first error; on illegal operands nothing more is asked of them. -/
theorem firstError_pixel_congr (hi : i ∈ pixelCommands) (hj : j ∈ pixelCommands)
    (h : OperandsLegal i s → (failsScales i s ↔ failsScales j s) ∧ commandPath i s = commandPath j s) :
    firstError i s = firstError j s := by
  obtain ⟨h1, h2, h3, h4⟩ := operandsFail_pixel_iff (s := s) hi hj
  unfold firstError
  refine ite_congr (propext h1) (fun _ => rfl) fun n1 => ite_congr (propext h2) (fun _ => rfl) fun n2 =>
    ite_congr (propext h3) (fun _ => rfl) fun n3 => ite_congr (propext h4) (fun _ => rfl) fun n4 => ?_
  obtain ⟨hscales, hpath⟩ := h ⟨mt h1.mp n1, mt h2.mp n2, mt h3.mp n3, mt h4.mp n4⟩
  exact if_congr hscales rfl (if_congr (failsV7_pixel_iff hi hj hpath) rfl rfl)

/-- Two pixel commands with the same checks and the same path have the same outcome. -/
theorem exec_pixel_congr (hi : i ∈ pixelCommands) (hj : j ∈ pixelCommands)
    (h : OperandsLegal i s → (failsScales i s ↔ failsScales j s) ∧ commandPath i s = commandPath j s) :
    exec i s = exec j s := by
  rw [exec_eq i, exec_eq j, ← firstError_pixel_congr hi hj h]
  cases herr : firstError i s with
  | some e => rfl
  | none =>
    obtain ⟨-, hpath⟩ := h (firstError_none.mp herr).toOperandsLegal
    simp only [outcomeOf, acceptedBody_pixel hi, acceptedBody_pixel hj, finalState_accepted hi,
      finalState_accepted hj, hpath]

/-! ### The selection (R191) -/

/-- The command of the path that the four dimensions select. -/
def selectedCommand (s : State) : Instr :=
  if s32 s.srcWidth < s32 s.dstWidth ∨ s32 s.srcHeight < s32 s.dstHeight then .linear
  else if s32 s.srcWidth % s32 s.dstWidth = 0 ∧ s32 s.srcHeight % s32 s.dstHeight = 0 then .areaInt
  else .areaGen

theorem selectedCommand_pixel (s : State) : selectedCommand s ∈ pixelCommands := by
  unfold selectedCommand
  split_ifs <;> decide

theorem commandPath_selectedCommand (s : State) : commandPath (selectedCommand s) s = commandPath .resize s := by
  simp only [commandPath, pathByDimensions, selectedCommand]
  split_ifs <;> rfl

/-- The selection keeps the precondition of the selected command, so it raises no error of its own (R190). -/
theorem selectedCommand_scales (s : State) : ¬ failsScales (selectedCommand s) s := by
  unfold selectedCommand
  split_ifs with henlarged hdivides
  · simp [failsScales]
  · simpa [failsScales, dividesX, dividesY, hdivides] using henlarged
  · simpa [failsScales] using henlarged

/-- `RESIZE` is the selected command, whatever the operands (R190). -/
theorem exec_resize_eq_selectedCommand (s : State) : exec .resize s = exec (selectedCommand s) s :=
  exec_pixel_congr (by decide) (selectedCommand_pixel s) fun _ =>
    ⟨iff_of_false (by simp [failsScales]) (selectedCommand_scales s), (commandPath_selectedCommand s).symm⟩

/-- On operands that are not legal every pixel command has the outcome of every other. -/
theorem exec_resize_of_illegal (hj : j ∈ pixelCommands) (h : failsV1 .resize s ∨ failsV2 .resize s) :
    exec .resize s = exec j s :=
  exec_pixel_congr (by decide) hj fun hlegal => absurd h (not_or.mpr ⟨hlegal.v1, hlegal.v2⟩)

/-! ### `STATUS.PATH` -/

theorem firstError_ne_ok (i : Instr) (s : State) : firstError i s ≠ some .ok := by
  unfold firstError
  split_ifs <;> decide

/-- A command that ends in success was accepted, and its `STATUS` names its path. -/
theorem statusWord_of_success {t : State} (h : exec i s = .next t) (hok : t.err = .ok) :
    t.statusWord = statusOf true .ok (commandPath i s) := by
  rcases exec_next h with ⟨e, herr, rfl⟩ | ⟨-, -, rfl⟩
  · rw [raiseError_err] at hok
    exact absurd (hok ▸ herr) (firstError_ne_ok i s)
  · exact finalState_statusWord i (clearResults s)

/-- Bits 9:8 of `STATUS` (10_state.md R26). -/
theorem statusOf_path (p : PixelPath) : (statusOf true .ok p).toNat / 256 % 4 = p.code := by
  cases p <;> rfl

end

/-- Settles O37: `RESIZE` makes the checks of the selected command and takes its path. -/
theorem resizeIsTheSelectedCommand : Obligations.ResizeIsTheSelectedCommand := by
  intro s
  refine ⟨fun hfail => ⟨exec_resize_of_illegal (by decide) hfail, exec_resize_of_illegal (by decide) hfail,
    exec_resize_of_illegal (by decide) hfail⟩, fun _ _ => ?_, fun t hexec hok => ?_⟩
  · rw [exec_resize_eq_selectedCommand, selectedCommand]
    split_ifs <;> rfl
  · rw [statusWord_of_success hexec hok, statusOf_path, commandPath, pathByDimensions]
    split_ifs <;> rfl

end Sys2Proof.Machine
end

section
/-! Equal dimensions (45_dispatch.md R193; O54): at scale 1 the block of a pixel is the pixel, its only weight is 1.0,
and its fixed-point entries give full weight to its sample, so each of the three paths copies. -/

namespace Sys2Proof.Machine

/-! ### The integer path: blocks of one sample (42_area_integer.md R144 (b)) -/

theorem exactScale_self {n : ℤ} (hn : 1 ≤ n) : ExactScale n n 1 :=
  ⟨(Nat.div_self (by omega)).symm, one_mul _, one_pos, by norm_num⟩

theorem boxAverage_one (sum : ℕ) : boxAverage sum 1 = sum := by simp [boxAverage]

/-! ### The general path: floats that are a byte (43_area_general.md R157 (d)) -/

/-- The weight of scale 1 is 1.0 (41_weight_table.md R129). -/
theorem factorWeight_one_val : sFin (factorWeight 1) ∧ sVal (factorWeight 1) = 1 := by
  obtain ⟨hone, hval⟩ := f64OfInt_val (z := 1) (by norm_num)
  obtain ⟨hfin, hquot⟩ := f64Div_val one_val.1 hone (by norm_num [hval]) (by norm_num [one_val.2, hval])
  rw [one_val.2, hval, Int.cast_one, div_one, rnd64_one] at hquot
  obtain ⟨hfin32, hval32⟩ := f32OfF64_val hfin (by norm_num [hquot])
  exact ⟨hfin32, by rw [factorWeight, Nat.cast_one, hval32, hquot, rnd32_one]⟩

/-- The float is the byte, exactly. -/
def IsByteFloat (v : Byte) (a : F32) : Prop := sFin a ∧ sVal a = v.toNat

section
variable {v : Byte} {a w : F32}

theorem isByteFloat_f32OfU8 (v : Byte) : IsByteFloat v (f32OfU8 v) := f32OfU8_val v

/-- An operation whose exact result is a byte does not round it. -/
theorem IsByteFloat.of_round {q : ℚ} (hq : q = v.toNat)
    (hop : |q| ≤ 2 ^ 100 → sFin a ∧ sVal a = rnd32 q) : IsByteFloat v a := by
  have hlt : (v.toNat : ℚ) < 2 ^ 8 := by exact_mod_cast v.isLt
  have hexact : rnd32 v.toNat = v.toNat := by
    rw [← Int.cast_natCast]
    exact rnd32_int (by omega)
  obtain ⟨hfin, hval⟩ := hop (by rw [hq, abs_of_nonneg (Nat.cast_nonneg _)]; linarith)
  exact ⟨hfin, by rw [hval, hq, hexact]⟩

theorem IsByteFloat.mul_unit_right (ha : IsByteFloat v a) (hw : sFin w) (hone : sVal w = 1) :
    IsByteFloat v (f32Mul a w) :=
  .of_round (by rw [hone, mul_one, ha.2]) (f32Mul_val ha.1 hw)

theorem IsByteFloat.mul_unit_left (ha : IsByteFloat v a) (hw : sFin w) (hone : sVal w = 1) :
    IsByteFloat v (f32Mul w a) :=
  .of_round (by rw [hone, one_mul, ha.2]) (f32Mul_val hw ha.1)

theorem IsByteFloat.add_zero_left (ha : IsByteFloat v a) : IsByteFloat v (f32Add f32Zero a) :=
  .of_round (by rw [f32Zero_val.2, zero_add, ha.2]) (f32Add_val f32Zero_val.1 ha.1)

theorem IsByteFloat.accByte_eq (ha : IsByteFloat v a) : accByte a = v := by
  refine BitVec.eq_of_toNat_eq ?_
  rw [accByte, f32Rne_val ha.1, ha.2, ← Int.cast_natCast, rneQ_intCast, toNat_satU8, Int.toNat_natCast]
  omega

end

/-- The horizontal sum of a pixel at scale 1 is its sample. -/
theorem scratchSample_of_exactScale_one {s : State} {dx : ℕ}
    (hX : BuildLengths (s32 s.srcWidth).toNat (s32 s.dstWidth).toNat)
    (hix : ExactScale (s32 s.srcWidth) (s32 s.dstWidth) 1) (hdx : dx < (s32 s.dstWidth).toNat) (ch sy : ℕ) :
    IsByteFloat (s.mem.read (sourceAddr s sy dx ch)) (scratchSample s dx ch sy) := by
  have hterm : scratchSample s dx ch sy =
      f32Add f32Zero (f32Mul (f32OfU8 (s.mem.read (sourceAddr s sy dx ch))) (factorWeight 1)) := by
    rw [scratchSample, cellEntries_of_exactScale hX hix hdx]
    simp [sourceAddr, Nat.add_assoc]
  obtain ⟨hfin, hone⟩ := factorWeight_one_val
  rw [hterm]
  exact ((isByteFloat_f32OfU8 _).mul_unit_right hfin hone).add_zero_left

/-- The accumulated float of a pixel at scale 1 is its sample. -/
theorem accSample_of_exactScale_one {s : State} {dy dx : ℕ}
    (hX : BuildLengths (s32 s.srcWidth).toNat (s32 s.dstWidth).toNat)
    (hY : BuildLengths (s32 s.srcHeight).toNat (s32 s.dstHeight).toNat)
    (hix : ExactScale (s32 s.srcWidth) (s32 s.dstWidth) 1) (hiy : ExactScale (s32 s.srcHeight) (s32 s.dstHeight) 1)
    (hdy : dy < (s32 s.dstHeight).toNat) (hdx : dx < (s32 s.dstWidth).toNat) (ch : ℕ) :
    IsByteFloat (s.mem.read (sourceAddr s dy dx ch)) (accSample s dy dx ch) := by
  obtain ⟨hfin, hone⟩ := factorWeight_one_val
  rw [accSample_of_exactScale (iy := 0) hY hiy hdy, List.range_zero, List.foldl_nil, Nat.zero_add, Nat.mul_one]
  exact (scratchSample_of_exactScale_one hX hix hdx ch dy).mul_unit_left hfin hone

/-! ### The linear path: entries of full weight (44_linear.md R173, R180 (a)) -/

/-- The entry gives the full weight `ONE` to the offset `ofs`, as its first or as its second. -/
inductive FixedEntry.Selects (e : FixedEntry) (ofs : ℕ) : Prop
  | first (hw0 : e.w0 = 2048) (hw1 : e.w1 = 0) (hofs : e.ofs0 = ofs)
  | second (hw0 : e.w0 = 0) (hw1 : e.w1 = 2048) (hofs : e.ofs1 = ofs)

section
variable {e x y : FixedEntry} {ofs row : ℕ}

theorem FixedEntry.Selects.weights (h : e.Selects ofs) : e.w0 + e.w1 = 2048 := by
  cases h <;> omega

/-- The horizontal blend of an entry of full weight is its sample, with 11 fraction bits. -/
theorem FixedEntry.Selects.blendRow_eq (h : e.Selects ofs) (sample : ℕ → Byte) :
    blendRow (sample e.ofs0) (sample e.ofs1) e = (sample ofs).toNat * 2048 := by
  cases h with
  | first hw0 hw1 hofs => simp [blendRow, hw0, hw1, hofs]
  | second hw0 hw1 hofs => simp [blendRow, hw0, hw1, hofs]

/-- The vertical fold of an entry of full weight is its row's, with 2 fraction bits. -/
theorem FixedEntry.Selects.foldWeight_add (h : e.Selects ofs) (blend : ℕ → ℕ) :
    foldWeight e.w0 (blend e.ofs0) + foldWeight e.w1 (blend e.ofs1) = blend ofs / 16 / 32 := by
  cases h with
  | first hw0 hw1 hofs => simp only [foldWeight_eq, hw0, hw1, hofs]; omega
  | second hw0 hw1 hofs => simp only [foldWeight_eq, hw0, hw1, hofs]; omega

/-- A sample selected with full weight on both axes is reproduced (R180 (a)). -/
theorem linearSample_of_selects (m : Memory) (src : View) (hy : y.Selects row) (hx : x.Selects ofs) (ch : ℕ) :
    linearSample m src y x ch = m.read (src.addr row (ofs + ch)) := by
  have hfold := hy.foldWeight_add fun r =>
    blendRow (m.read (src.addr r (x.ofs0 + ch))) (m.read (src.addr r (x.ofs1 + ch))) x
  have hblend := hx.blendRow_eq fun o => m.read (src.addr row (o + ch))
  refine BitVec.eq_of_toNat_eq ?_
  rw [toNat_linearSample _ _ _ hy.weights hx.weights, hfold, hblend]
  omega

end

section
variable {n d : ℕ}

/-- Equal lengths have the scale 1.0. -/
theorem scaleOf_self (hn : 1 ≤ n) (hlt : n < 2 ^ 19) : scaleOf (n : ℤ) (n : ℤ) = oneF64 := by
  obtain ⟨hfin, -⟩ := scaleOf_val (a := n) (b := n) (by omega) (by omega) (by omega) (by omega)
  have hval := scale_of_dvd (a := n) (b := n) (by omega) (by omega) (by omega) (by omega) dvd_rfl
  rw [Int.ediv_self (by omega), Int.cast_one] at hval
  exact f64_ext hfin one_val.1 (hval.trans one_val.2.symm) (by norm_num [hval])

theorem f64Div_one_one : f64Div oneF64 oneF64 = oneF64 := by decide +kernel

/-- An integer times 1.0. -/
theorem f64Mul_ofInt_one {z : ℤ} (hz : z.natAbs < 2 ^ 53) :
    dFin (f64Mul (f64OfInt z) oneF64) ∧ dVal (f64Mul (f64OfInt z) oneF64) = z := by
  obtain ⟨hfin, hval⟩ := f64OfInt_val hz
  have hbound : |(z : ℚ)| ≤ 2 ^ 100 := by
    exact_mod_cast (abs_le.mpr (by omega) : |z| ≤ 2 ^ 100)
  obtain ⟨hprod, hprodval⟩ := f64Mul_val hfin one_val.1 (by rwa [hval, one_val.2, mul_one])
  exact ⟨hprod, by rw [hprodval, hval, one_val.2, mul_one, rnd64_int hz]⟩

/-- At scale 1 the position of an index is the index, with no fraction (44_linear.md R171). -/
theorem fixedPosition_one (hd : d < 2 ^ 19) : fixedPosition oneF64 oneF64 d = ⟨d, 0#64⟩ := by
  obtain ⟨hfin, hval⟩ := f64Mul_ofInt_one (z := d) (by omega)
  have hfloor : f64Floor (f64Mul (f64OfInt d) oneF64) = d := by rw [f64Floor_val hfin, hval, Int.floor_intCast]
  obtain ⟨hnext, hnextval⟩ := f64OfInt_val (z := (d : ℤ) + 1) (by omega)
  obtain ⟨ht, htval⟩ := f64Mul_ofInt_one (z := (d : ℤ) + 1) (by omega)
  obtain ⟨hfx, hfxval⟩ := f64Sub_val hnext ht (by norm_num [hnextval, htval])
  rw [hnextval, htval, sub_self, rnd64_zero] at hfxval
  have hle : f64Le (f64Sub (f64OfInt ((d : ℤ) + 1)) (f64Mul (f64OfInt ((d : ℤ) + 1)) oneF64)) 0#64 = true := by
    rw [f64Le_iff hfx zero_val.1, hfxval, zero_val.2]
  simp only [fixedPosition, hfloor, hle, if_true]

theorem fixedWeight_zero : fixedWeight 0#64 = 0 := by decide +kernel

theorem fixedWeight_one : fixedWeight oneF64 = 2048 := by decide +kernel

/-- An entry of equal lengths selects the sample of its index (R173): as the second of the last pair at the end, as the
first of its pair elsewhere and on an axis of extent 1. -/
theorem fixedEntry_self_selects (hlt : n < 2 ^ 19) (hd : d < n) (step : ℕ) :
    (fixedEntry n step (scaleOf (n : ℤ) (n : ℤ)) (f64Div oneF64 (scaleOf (n : ℤ) (n : ℤ))) d).Selects (d * step) := by
  rw [scaleOf_self (by omega) hlt, f64Div_one_one]
  rcases eq_or_ne n 1 with rfl | hne
  · obtain rfl : d = 0 := by omega
    refine .first ?_ ?_ ?_ <;> simp [fixedEntry, fixedPos, fixedWeight_zero, fixedOne]
  · have hpos : fixedPos n oneF64 oneF64 d = if (n : ℤ) - 1 ≤ d then ⟨(n : ℤ) - 2, oneF64⟩ else ⟨d, 0#64⟩ := by
      simp only [fixedPos, if_neg hne, fixedPosition_one (hd.trans hlt), fixedClamp,
        if_neg (Int.natCast_nonneg d).not_gt]
    by_cases hlast : (n : ℤ) - 1 ≤ d
    · obtain ⟨m, rfl⟩ := Nat.exists_eq_add_of_le' (by omega : 2 ≤ n)
      obtain rfl : d = m + 1 := by omega
      rw [if_pos hlast] at hpos
      refine .second ?_ ?_ ?_ <;> simp [fixedEntry, hpos, fixedWeight_one, fixedOne]
    · rw [if_neg hlast] at hpos
      refine .first ?_ ?_ ?_ <;> simp [fixedEntry, hpos, fixedWeight_zero, fixedOne]

/-- The entry of an index in the table of an axis with equal lengths. -/
theorem fixedAt_self_selects {a : ℤ} (ha : 1 ≤ a) (hle : a ≤ 65535) (hd : d < a.toNat) (step : ℕ) :
    (fixedAt (buildFptab a.toNat a.toNat step (scaleOf a a)) d).Selects (d * step) := by
  lift a to ℕ using by omega
  rw [Int.toNat_natCast] at hd ⊢
  rw [fixedAt_buildFptab hd]
  exact fixedEntry_self_selects (by omega) hd step

end

/-! ### The three paths at equal dimensions (R193) -/

section
variable {i : Instr} {s : State} (ha : Accepted i s) (hi : i ∈ pixelCommands) (hw : s.srcWidth = s.dstWidth)
  (hh : s.srcHeight = s.dstHeight)

include hw hh in
/-- Equal dimensions select the integer path. -/
theorem pathByDimensions_of_equal : pathByDimensions s = .int := by
  simp [pathByDimensions, hw, hh]

include ha hi hw hh

/-- Both axes of equal dimensions have the exact scale 1. -/
theorem Accepted.exactScales_one :
    ExactScale (s32 s.srcWidth) (s32 s.dstWidth) 1 ∧ ExactScale (s32 s.srcHeight) (s32 s.dstHeight) 1 := by
  obtain ⟨-, -, hdw, -, -, -⟩ := ha.toOperandsLegal.widths (widthCommands_of_pixel hi)
  obtain ⟨-, -, hdh, -⟩ := ha.toOperandsLegal.heights (heightCommands_of_pixel hi)
  rw [hw, hh]
  exact ⟨exactScale_self hdw, exactScale_self hdh⟩

/-- The integer scales of equal dimensions. -/
theorem Accepted.scaleInt_one (hp : commandPath i s = .int) :
    scaleIntX (operands Config.default s) = 1 ∧ scaleIntY (operands Config.default s) = 1 := by
  obtain ⟨hx, hy⟩ := ha.exactScales hi hp
  obtain ⟨hx1, hy1⟩ := ha.exactScales_one hi hw hh
  exact ⟨hx.eq_div.trans hx1.eq_div.symm, hy.eq_div.trans hy1.eq_div.symm⟩

/-- The integer path copies: the average of one sample is the sample. -/
theorem Accepted.copiesSource_int (hp : commandPath i s = .int) :
    copiesSource s (finalState i (clearResults s)) := by
  intro y x ch hy hx hch
  rw [hh] at hy
  rw [hw] at hx
  obtain ⟨hix, hiy⟩ := ha.scaleInt_one hi hw hh hp
  refine BitVec.eq_of_toNat_eq ?_
  rw [toNat_read_int ha hi hp hy hx hch, hix, hiy]
  simp [boxAverage_one]

/-- The general path copies: the one term of a sample has the weight 1.0 on both axes. -/
theorem Accepted.copiesSource_gen (hp : commandPath i s = .gen) :
    copiesSource s (finalState i (clearResults s)) := by
  intro y x ch hy hx hch
  rw [hh] at hy
  rw [hw] at hx
  obtain ⟨hX, hY⟩ := ha.buildLengths hp
  obtain ⟨hix, hiy⟩ := ha.exactScales_one hi hw hh
  rw [read_gen ha hi hp hy hx hch]
  exact (accSample_of_exactScale_one hX hY hix hiy hy hx ch).accByte_eq

/-- The linear path copies: the entries of both axes select the sample. -/
theorem Accepted.copiesSource_lin (hp : commandPath i s = .lin) :
    copiesSource s (finalState i (clearResults s)) := by
  intro y x ch hy hx hch
  rw [hh] at hy
  rw [hw] at hx
  obtain ⟨-, -, hdw, hdw', -, -⟩ := ha.toOperandsLegal.widths (widthCommands_of_pixel hi)
  obtain ⟨-, -, hdh, hdh'⟩ := ha.toOperandsLegal.heights (heightCommands_of_pixel hi)
  have hselX : (fixedAt (fixedX (operands Config.default s)) x).Selects (x * (s32 s.channels).toNat) := by
    simp only [fixedX, operands_sw, operands_dw, operands_cn, hw]
    exact fixedAt_self_selects hdw hdw' hx _
  have hselY : (fixedAt (fixedY (operands Config.default s)) y).Selects y := by
    simp only [fixedY, operands_sh, operands_dh, hh]
    simpa only [Nat.mul_one] using fixedAt_self_selects hdh hdh' hy 1
  rw [read_lin ha hi hp hy hx hch, linearSample_of_selects _ _ hselY hselX, sourceAddr_eq, operands_cn]

end

/-- Settles O54: each command leaves the final state of its path, and each path copies at equal dimensions. -/
theorem equalDimensionsCopy : Obligations.EqualDimensionsCopy := by
  intro s hw hh hapart
  refine ⟨fun i hcase ha => ?_, fun ha => ?_, fun ha => ?_⟩
  · have hi : i ∈ pixelCommands := by rcases hcase with rfl | rfl <;> decide
    have hp : commandPath i s = .int := by
      rcases hcase with rfl | rfl
      · exact pathByDimensions_of_equal hw hh
      · rfl
    obtain ⟨hix, hiy⟩ := ha.scaleInt_one hi hw hh hp
    obtain ⟨hiscaleX, hiscaleY⟩ := finalState_int_scales (s := s) hi hp
    refine ⟨_, exec_accepted ha fun _ => hapart, ?_, ?_, ?_, ha.copiesSource_int hi hw hh hp⟩
    · rw [finalState_statusWord, commandPath_clearResults, hp]
      rfl
    · rw [hiscaleX, hix]
    · rw [hiscaleY, hiy]
  · exact ⟨_, exec_accepted ha fun _ => hapart, finalState_statusWord _ _, ha.copiesSource_gen (by decide) hw hh rfl⟩
  · exact ⟨_, exec_accepted ha fun _ => hapart, finalState_statusWord _ _, ha.copiesSource_lin (by decide) hw hh rfl⟩

end Sys2Proof.Machine
end

section
/-! Errors (60_exceptions.md R200 to R206; O23, O24, O26): a command whose checks fail ends in the first error of the
priority list, and that ending is the clearing of the results and the code. No check reads a result or data memory, so
neither the error nor what follows it depends on them. -/

namespace Sys2Proof.Machine

section
variable {i : Instr} {s t : State} {e : ErrCode}

/-! ### The first error (R202) -/

theorem firstError_of_legal (h : OperandsLegal i s) :
    firstError i s =
      if failsScales i s then some .invalidArgument else if failsV7 i s then some .allocationFailure else none := by
  rw [firstError, if_neg h.v1, if_neg h.v2, if_neg h.v3, if_neg h.v4]

/-- V6 never fails (40_command_common.md R110). -/
theorem firstError_ne_emptyBuffer (i : Instr) (s : State) : firstError i s ≠ some .emptyBuffer := by
  unfold firstError
  split_ifs <;> decide

/-- The checks read the descriptor registers, not data memory (R206). -/
theorem firstError_withMem (i : Instr) (s : State) (m : Memory) : firstError i { s with mem := m } = firstError i s :=
  rfl

/-- The checks do not read the results of the command before (R204). -/
theorem firstError_raiseError_clearResults (i : Instr) (e : ErrCode) (s : State) :
    firstError i (raiseError e (clearResults s)) = firstError i s := rfl

/-! ### A command that fails (R205) -/

theorem exec_of_firstError (h : firstError i s = some e) : exec i s = .next (raiseError e (clearResults s)) := by
  rw [exec_eq, h]
  rfl

theorem exec_endsInError (h : firstError i s = some e) : endsInError (exec i s) s e (statusOf true e .noPath) := by
  rw [exec_of_firstError h]
  exact endsInError_raiseError e s

/-- The inversion of a failed command: the error is its first one, and raising it is all that happened. -/
theorem exec_failed (h : exec i s = .next t) (hne : t.err ≠ .ok) :
    firstError i s = some t.err ∧ t = raiseError t.err (clearResults s) := by
  rcases exec_next h with ⟨e, herr, rfl⟩ | ⟨-, -, rfl⟩
  · exact ⟨herr, rfl⟩
  · obtain ⟨hok, -, -⟩ := finalState_status i (clearResults s)
    exact absurd hok hne

theorem exec_err_ne_emptyBuffer (h : exec i s = .next t) : t.err ≠ .emptyBuffer := by
  intro hempty
  obtain ⟨herr, -⟩ := exec_failed h (by rw [hempty]; decide)
  exact firstError_ne_emptyBuffer i s (hempty ▸ herr)

theorem exec_err_of_accepted (ha : Accepted i s) (h : exec i s = .next t) : t.err = .ok := by
  by_contra hne
  obtain ⟨herr, -⟩ := exec_failed h hne
  rw [firstError_none.mpr ha] at herr
  cases herr

/-! ### What an error leaves (R201) -/

/-- The word of `STATUS` after an error: `0x2 | code << 4`. -/
theorem statusOf_error_toNat (e : ErrCode) : (statusOf true e .noPath).toNat = 2 + 16 * e.code := by
  cases e <;> rfl

theorem tableWordAt_count_zero {α : Type} (words : α → List Word) (table : List α) (idx : Word) (n : ℕ) :
    tableWordAt words table 0 idx n = 0#32 := by
  rw [tableWordAt, if_neg (show ¬ idx < 0 from BitVec.not_lt_zero)]

/-- With the counts at 0 every table reads as empty, whatever its memory still holds (10_state.md R41). -/
theorem ResultsClear.readTab_eq_zero (h : ResultsClear s) (n : ℕ) : readTab s n = 0#32 := by
  unfold readTab
  split
  · rw [h.xtabCount, tableWordAt_count_zero]
  · rw [h.ytabCount, tableWordAt_count_zero]
  · rw [h.ygrpCount, tableWordAt_count_zero]
  · rw [h.fpxCount, tableWordAt_count_zero]
  · rw [h.fpyCount, tableWordAt_count_zero]
  · rfl

/-- The selector and the index are no results. -/
theorem ResultsClear.select (h : ResultsClear s) (sel idx : Word) :
    ResultsClear { s with tabSel := sel, tabIdx := idx } := { h with }

/-! ### The command after an error (R204)

An error leaves of the state before it, once the next command has cleared the results, all but `DONE`; and every
command sets `DONE` itself. -/

theorem clearResults_raiseError_clearResults (e : ErrCode) (s : State) :
    clearResults (raiseError e (clearResults s)) = { clearResults s with done := true } := rfl

theorem pathFinal_withDone (o : Operands) (p : PixelPath) (s0 : State) (d : Bool) :
    pathFinal o p { s0 with done := d } = pathFinal o p s0 := by
  cases p <;> rfl

theorem finalState_withDone (i : Instr) (s0 : State) (d : Bool) :
    finalState i { s0 with done := d } = finalState i s0 := by
  cases i with
  | resize | areaInt | areaGen | linear => exact pathFinal_withDone _ _ s0 d
  | wtabX | wtabY | fptabX | fptabY => rfl

theorem acceptedBody_withDone (i : Instr) (s0 : State) (d : Bool) :
    acceptedBody i { s0 with done := d } = acceptedBody i s0 := by
  unfold acceptedBody
  rw [finalState_withDone]
  rfl

theorem exec_raiseError_clearResults (j : Instr) (e : ErrCode) (s : State) :
    exec j (raiseError e (clearResults s)) = exec j s := by
  cases herr : firstError j s with
  | some e' =>
    rw [exec_of_firstError herr, exec_of_firstError ((firstError_raiseError_clearResults j e s).trans herr)]
    rfl
  | none =>
    rw [exec_eq, exec_eq j s, firstError_raiseError_clearResults, herr]
    exact acceptedBody_withDone j (clearResults s) true

end

/-! ### The obligations -/

/-- Settles O23: each hypothesis decides the first error, and a command ends in its first error. -/
theorem firstErrorReported : Obligations.FirstErrorReported := by
  refine ⟨fun w s hnone => writeCmd_illegal_endsInError hnone s, fun i s => ⟨fun h1 => ?_, fun n1 h2 => ?_,
    fun n1 n2 h3 => ?_, fun n1 n2 n3 h4 => ?_, fun hl hscales => ?_, fun _ => exec_err_ne_emptyBuffer,
    fun hl nscales h7 => ?_, fun ha _ => exec_err_of_accepted ha⟩⟩
  · exact exec_endsInError (by rw [firstError, if_pos h1])
  · exact exec_endsInError (by rw [firstError, if_neg n1, if_pos h2])
  · exact exec_endsInError (by rw [firstError, if_neg n1, if_neg n2, if_pos h3])
  · exact exec_endsInError (by rw [firstError, if_neg n1, if_neg n2, if_neg n3, if_pos h4])
  · exact exec_endsInError (by rw [firstError_of_legal hl, if_pos hscales])
  · exact exec_endsInError (by rw [firstError_of_legal hl, if_neg nscales, if_pos h7])

/-- Settles O24: a failed command raised its first error on the cleared state, and on other contents of data memory it
raises the same one. -/
theorem errorLeavesOnlyItsCode : Obligations.ErrorLeavesOnlyItsCode := by
  intro i s t hexec hne
  obtain ⟨herr, ht⟩ := exec_failed hexec hne
  obtain ⟨t', ht', -, hstatus, hclear, hregs, hmems, hmem, -⟩ := exec_endsInError herr
  obtain rfl : t = t' := Host.Outcome.next.inj (hexec.symm.trans ht')
  refine ⟨?_, ?_, ?_, hclear, hregs, hmems, hmem, fun sel idx n => (hclear.select sel idx).readTab_eq_zero n,
    fun m => ?_⟩
  · rw [hstatus, statusOf_error_toNat]
  · rw [ht, raiseError_done]
  · rw [ht, raiseError_path]
  · rw [exec_of_firstError ((firstError_withMem i s m).trans herr), ht]
    rfl

/-- Settles O26: a failed command leaves what raising its error leaves, which no command tells from the state before. -/
theorem errorsDoNotStick : Obligations.ErrorsDoNotStick := by
  intro i j s t hexec hne
  obtain ⟨-, ht⟩ := exec_failed hexec hne
  rw [ht]
  exact exec_raiseError_clearResults j t.err s

end Sys2Proof.Machine
end

section
/-! What a command leaves (40_command_common.md R111; O25, O28, O30, O31, O32): each internal memory is written from
element 0 on or kept, the counts say how far, and data memory changes in the destination footprint alone. -/

namespace Sys2Proof.Machine

/-! ### A table after a command -/

/-- A table memory and its count after a command: where the command builds the table its entries stand before the old
ones and the count is their number; elsewhere the table is kept and the count is 0. -/
structure TableAfter {α : Type} (built : Prop) (new old table : List α) (count : Word) : Prop where
  written : built → table = overlay new old ∧ count.toNat = new.length
  kept : ¬ built → table = old ∧ count = 0

section
variable {α : Type} {built : Prop} {new old table : List α} {count : Word}

theorem TableAfter.of_written (hb : built) (hlen : new.length < 4294967296) (htable : table = overlay new old)
    (hcount : count = BitVec.ofNat 32 new.length) : TableAfter built new old table count where
  written _ := ⟨htable, by rw [hcount, BitVec.toNat_ofNat]; exact Nat.mod_eq_of_lt hlen⟩
  kept hnb := absurd hb hnb

theorem TableAfter.of_kept (hnb : ¬ built) (htable : table = old) (hcount : count = 0) :
    TableAfter built new old table count where
  written hb := absurd hb hnb
  kept _ := ⟨htable, hcount⟩

theorem TableAfter.take_count (h : TableAfter built new old table count) (hb : built) :
    table.take count.toNat = new := by
  obtain ⟨htable, hcount⟩ := h.written hb
  rw [htable, hcount, overlay_take]

theorem TableAfter.getElem?_beyond (h : TableAfter built new old table count) {k : ℕ} (hk : count.toNat ≤ k) :
    table[k]? = old[k]? := by
  by_cases hb : built
  · obtain ⟨htable, hcount⟩ := h.written hb
    rw [htable, overlay_getElem?, if_neg (by omega)]
  · rw [(h.kept hb).1]

theorem TableAfter.count_le (h : TableAfter built new old table count) : count.toNat ≤ table.length := by
  by_cases hb : built
  · obtain ⟨htable, hcount⟩ := h.written hb
    rw [htable, hcount, overlay_length]
    exact Nat.le_max_left _ _
  · rw [(h.kept hb).2]
    exact Nat.zero_le _

theorem TableAfter.length_le (h : TableAfter built new old table count) {cap : ℕ} (hold : old.length ≤ cap)
    (hnew : built → new.length ≤ cap) : table.length ≤ cap := by
  by_cases hb : built
  · rw [(h.written hb).1, overlay_length]
    exact Nat.max_le.mpr ⟨hnew hb, hold⟩
  · rw [(h.kept hb).1]
    exact hold

theorem TableAfter.forall_mem (h : TableAfter built new old table count) {P : α → Prop} (hold : ∀ e ∈ old, P e)
    (hnew : built → ∀ e ∈ new, P e) : ∀ e ∈ table, P e := by
  intro e he
  by_cases hb : built
  · rw [(h.written hb).1] at he
    exact (mem_overlay he).elim (hnew hb e) (hold e)
  · rw [(h.kept hb).1] at he
    exact hold e he

end

/-! ### The internal memories after an accepted command -/

theorem genRow_length (o : Operands) (m : Memory) (dy : ℕ) :
    (genRow o m dy).scratch.length = o.dw.toNat * o.cn.toNat ∧
      (genRow o m dy).acc.length = o.dw.toNat * o.cn.toNat :=
  (areaGenRow_length m o _ _ _ dy).symm

/-- What an accepted command of path `p` leaves in the internal memories. -/
structure MemoriesAfter (i : Instr) (p : PixelPath) (s t : State) : Prop where
  xtab : TableAfter (p = .gen ∨ i = .wtabX) (tableX (operands Config.default s)) s.xtab t.xtab t.xtabCount
  ytab : TableAfter (p = .gen ∨ i = .wtabY) (tableY (operands Config.default s)) s.ytab t.ytab t.ytabCount
  ygrp : TableAfter (p = .gen ∨ i = .wtabY) (groupsY (operands Config.default s)) s.ygrp t.ygrp t.ygrpCount
  fpx : TableAfter (p = .lin ∨ i = .fptabX) (fixedX (operands Config.default s)) s.fpx t.fpx t.fpxCount
  fpy : TableAfter (p = .lin ∨ i = .fptabY) (fixedY (operands Config.default s)) s.fpy t.fpy t.fpyCount
  buffersKept : p ≠ .gen → t.scratch = s.scratch ∧ t.acc = s.acc
  buffersWritten : p = .gen →
    t.scratch = overlay (genRow (operands Config.default s) s.mem ((s32 s.dstHeight).toNat - 1)).scratch s.scratch ∧
    t.acc = overlay (genRow (operands Config.default s) s.mem ((s32 s.dstHeight).toNat - 1)).acc s.acc

section
variable {i : Instr} {s t : State}

/-- Every table of legal operands that has an entry for each destination index fits its 32-bit count. -/
theorem Accepted.tables_lt (ha : Accepted i s) :
    (commandPath i s = .gen ∨ i = .wtabX → (tableX (operands Config.default s)).length < 4294967296) ∧
    (commandPath i s = .gen ∨ i = .wtabY → (tableY (operands Config.default s)).length < 4294967296) ∧
    (i ∈ widthCommands → (fixedX (operands Config.default s)).length < 4294967296) ∧
    (i ∈ heightCommands → (fixedY (operands Config.default s)).length < 4294967296 ∧
      (groupsY (operands Config.default s)).length < 4294967296) := by
  refine ⟨fun h => ?_, fun h => ?_, fun hi => ?_, fun hi => ?_⟩
  · have := ha.tableX_length h
    omega
  · have := ha.tableY_length h
    omega
  · obtain ⟨-, -, -, hdw, -, -⟩ := ha.toOperandsLegal.widths hi
    rw [fixedX_length, operands_dw]
    omega
  · obtain ⟨-, -, -, hdh⟩ := ha.toOperandsLegal.heights hi
    rw [fixedY_length, groupsY_length, operands_dh]
    omega

theorem Accepted.pathFinal_memoriesAfter (ha : Accepted i s) (hi : i ∈ pixelCommands) {p : PixelPath}
    (hp : commandPath i s = p) :
    MemoriesAfter i p s (pathFinal (operands Config.default s) p (clearResults s)) := by
  obtain ⟨hX, hY, hfx, hfy⟩ := ha.tables_lt
  obtain ⟨hfy, hgrp⟩ := hfy (heightCommands_of_pixel hi)
  obtain ⟨hnx, hny, hnfx, hnfy⟩ := ne_tableCommand_of_pixel hi
  cases p with
  | noPath => exact absurd hi (commandPath_noPath.mp hp)
  | int =>
    exact {
      xtab := .of_kept (by simp [hnx]) (by simp) (by simp)
      ytab := .of_kept (by simp [hny]) (by simp) (by simp)
      ygrp := .of_kept (by simp [hny]) (by simp) (by simp)
      fpx := .of_kept (by simp [hnfx]) (by simp) (by simp)
      fpy := .of_kept (by simp [hnfy]) (by simp) (by simp)
      buffersKept := fun _ => ⟨by simp, by simp⟩
      buffersWritten := fun h => absurd h (by decide) }
  | gen =>
    exact {
      xtab := .of_written (.inl rfl) (hX (.inl hp)) (by simp) (by simp)
      ytab := .of_written (.inl rfl) (hY (.inl hp)) (by simp) (by simp)
      ygrp := .of_written (.inl rfl) hgrp (by simp) (by simp)
      fpx := .of_kept (by simp [hnfx]) (by simp) (by simp)
      fpy := .of_kept (by simp [hnfy]) (by simp) (by simp)
      buffersKept := fun h => absurd rfl h
      buffersWritten := fun _ => ⟨by simp, by simp⟩ }
  | lin =>
    exact {
      xtab := .of_kept (by simp [hnx]) (by simp) (by simp)
      ytab := .of_kept (by simp [hny]) (by simp) (by simp)
      ygrp := .of_kept (by simp [hny]) (by simp) (by simp)
      fpx := .of_written (.inl rfl) (hfx (widthCommands_of_pixel hi)) (by simp) (by simp)
      fpy := .of_written (.inl rfl) hfy (by simp) (by simp)
      buffersKept := fun _ => ⟨by simp, by simp⟩
      buffersWritten := fun h => absurd h (by decide) }

/-- A pixel command writes the memories of its path, a table-only command its own table. -/
theorem Accepted.memoriesAfter (ha : Accepted i s) :
    MemoriesAfter i (commandPath i s) s (finalState i (clearResults s)) := by
  obtain ⟨hX, hY, hfx, hfy⟩ := ha.tables_lt
  by_cases hi : i ∈ pixelCommands
  · rw [finalState_accepted hi]
    exact ha.pathFinal_memoriesAfter hi rfl
  · have hp : commandPath i s = .noPath := commandPath_noPath.mpr hi
    have kept {α : Type} {built : Prop} {new old table : List α} {count : Word} (hnb : ¬ built)
        (h : table = old ∧ count = 0) : TableAfter built new old table count := .of_kept hnb h.1 h.2
    rw [hp]
    cases i with
    | resize | areaInt | areaGen | linear => exact absurd (by decide) hi
    | wtabX =>
      exact {
        xtab := .of_written (.inr rfl) (hX (.inr rfl)) (by simp [finalState]) (by simp [finalState])
        ytab := kept (by decide) (by simp [finalState])
        ygrp := kept (by decide) (by simp [finalState])
        fpx := kept (by decide) (by simp [finalState])
        fpy := kept (by decide) (by simp [finalState])
        buffersKept := by simp [finalState]
        buffersWritten := fun h => absurd h (by decide) }
    | wtabY =>
      exact {
        xtab := kept (by decide) (by simp [finalState])
        ytab := .of_written (.inr rfl) (hY (.inr rfl)) (by simp [finalState, operands_clearResults])
          (by simp [finalState, operands_clearResults])
        ygrp := .of_written (.inr rfl) (hfy (by decide)).2 (by simp [finalState, operands_clearResults])
          (by simp [finalState])
        fpx := kept (by decide) (by simp [finalState])
        fpy := kept (by decide) (by simp [finalState])
        buffersKept := by simp [finalState]
        buffersWritten := fun h => absurd h (by decide) }
    | fptabX =>
      exact {
        xtab := kept (by decide) (by simp [finalState])
        ytab := kept (by decide) (by simp [finalState])
        ygrp := kept (by decide) (by simp [finalState])
        fpx := .of_written (.inr rfl) (hfx (by decide)) (by simp [finalState, operands_clearResults])
          (by simp [finalState])
        fpy := kept (by decide) (by simp [finalState])
        buffersKept := by simp [finalState]
        buffersWritten := fun h => absurd h (by decide) }
    | fptabY =>
      exact {
        xtab := kept (by decide) (by simp [finalState])
        ytab := kept (by decide) (by simp [finalState])
        ygrp := kept (by decide) (by simp [finalState])
        fpx := kept (by decide) (by simp [finalState])
        fpy := .of_written (.inr rfl) (hfy (by decide)).1 (by simp [finalState, operands_clearResults])
          (by simp [finalState])
        buffersKept := by simp [finalState]
        buffersWritten := fun h => absurd h (by decide) }

/-! ### The registers and data memory -/

theorem pathFinal_registersKept (o : Operands) (p : PixelPath) (s : State) :
    RegistersKept s (pathFinal o p (clearResults s)) := by
  constructor <;> simp

theorem finalState_registersKept (i : Instr) (s : State) : RegistersKept s (finalState i (clearResults s)) := by
  cases i with
  | resize | areaInt | areaGen | linear => exact pathFinal_registersKept _ _ s
  | wtabX | wtabY | fptabX | fptabY => exact ⟨rfl, rfl, rfl, rfl, rfl, rfl, rfl, rfl, rfl, rfl, rfl, rfl, rfl⟩

theorem raiseError_registersKept (e : ErrCode) (s : State) : RegistersKept s (raiseError e (clearResults s)) :=
  ⟨rfl, rfl, rfl, rfl, rfl, rfl, rfl, rfl, rfl, rfl, rfl, rfl, rfl⟩

theorem finalState_mem_of_not_pixel (hi : i ∉ pixelCommands) (s0 : State) : (finalState i s0).mem = s0.mem := by
  cases i with
  | resize | areaInt | areaGen | linear => exact absurd (by decide) hi
  | wtabX | wtabY | fptabX | fptabY => rfl

theorem finalState_mem_wf (h : s.mem.wf = true) : (finalState i (clearResults s)).mem.wf = true := by
  by_cases hi : i ∈ pixelCommands
  · rw [finalState_accepted hi, pathFinal_mem]
    exact Memory.wf_writeRows _ _ _ h
  · rw [finalState_mem_of_not_pixel hi]
    exact h

/-- The image is written where the destination footprint is: the rows have the width of the view. -/
theorem finalState_read_outside (hi : i ∈ pixelCommands) {a : ℕ} (hout : ¬ inDestination s a) :
    (finalState i (clearResults s)).mem.read a = s.mem.read a := by
  have hp : commandPath i s ≠ .noPath := fun h => absurd hi (commandPath_noPath.mp h)
  rw [finalState_accepted hi, pathFinal_mem, clearResults_mem]
  refine Memory.read_writeRows_outside _ _ _ _ _ fun y hy => ?_
  rw [pathRows_length _ hp]
  by_contra hin
  push Not at hin
  obtain ⟨hlo, hhi⟩ := hin
  have ha : a = (operands Config.default s).dstView.addr y 0 + (a - (operands Config.default s).dstView.addr y 0) :=
    (Nat.add_sub_cancel' hlo).symm
  rw [operands_dw, operands_cn] at hhi
  refine hout ⟨y, a - (operands Config.default s).dstView.addr y 0, hy, by omega, ha.trans ?_⟩
  simp [View.addr, Operands.dstView]

end

/-! ### The obligations -/

/-- Settles O25: V1 holds the sizes above 0, and no check raises the code. -/
theorem emptyBufferNeverReported : Obligations.EmptyBufferNeverReported := by
  refine ⟨fun i s hv1 => ?_, fun _ _ _ => exec_err_ne_emptyBuffer⟩
  unfold failsV1 at hv1
  push Not at hv1
  obtain ⟨-, hwidths, hheights, hchannels⟩ := hv1
  refine ⟨fun hi => ?_, fun hi => ?_⟩
  · obtain ⟨hsw, hdw⟩ := hwidths hi
    obtain ⟨hcn, -⟩ := hchannels hi
    exact ⟨Int.mul_pos hdw hcn, by omega, hdw⟩
  · obtain ⟨hsh, hdh⟩ := hheights hi
    exact ⟨by omega, hdh⟩

/-- Settles O28, by the first error, and else by the footprints. -/
theorem commandOutcomes : Obligations.CommandOutcomes := by
  intro i s
  cases herr : firstError i s with
  | some e => exact .inl ⟨_, exec_of_firstError herr, raiseError_done _ _⟩
  | none =>
    have ha := firstError_none.mp herr
    by_cases hnext : i ∈ pixelCommands → footprintsApart s
    · exact .inl ⟨_, exec_accepted ha hnext, (finalState_status i _).2.1⟩
    · obtain ⟨hi, hover⟩ := Classical.not_imp.mp hnext
      exact .inr ⟨hi, ha, hover, exec_accepted_overlapping hi ha hover⟩

/-- Settles O30, by the two ways a command ends. -/
theorem commandsKeepRegisters : Obligations.CommandsKeepRegisters := by
  intro i s t hexec
  rcases exec_next hexec with ⟨e, -, rfl⟩ | ⟨-, -, rfl⟩
  · exact raiseError_registersKept e s
  · exact finalState_registersKept i s

/-- Settles O31: an error writes nothing, a pixel command its rows, a table-only command no byte. -/
theorem commandsKeepMemoryOutsideDestination : Obligations.CommandsKeepMemoryOutsideDestination := by
  intro i s t hexec
  rcases exec_next hexec with ⟨e, -, rfl⟩ | ⟨-, -, rfl⟩
  · exact ⟨fun _ _ _ => rfl, fun _ => rfl⟩
  · exact ⟨fun hi a hout => finalState_read_outside hi hout, fun hi => finalState_mem_of_not_pixel hi _⟩

/-- Settles O32: an error keeps the internal memories, an accepted command writes them as `MemoriesAfter` says. -/
theorem commandsKeepOtherTableEntries : Obligations.CommandsKeepOtherTableEntries := by
  intro i s t hexec
  rcases exec_next hexec with ⟨e, -, rfl⟩ | ⟨ha, -, rfl⟩
  · exact ⟨fun _ _ => rfl, fun _ _ => rfl, fun _ _ => rfl, fun _ _ => rfl, fun _ _ => rfl, fun _ => ⟨rfl, rfl⟩,
      fun _ _ => ⟨rfl, rfl⟩⟩
  · have hmem := ha.memoriesAfter
    obtain ⟨-, -, hpath⟩ := finalState_status i (clearResults s)
    rw [commandPath_clearResults] at hpath
    rw [hpath]
    refine ⟨fun k => hmem.xtab.getElem?_beyond, fun k => hmem.ytab.getElem?_beyond,
      fun k => hmem.ygrp.getElem?_beyond, fun k => hmem.fpx.getElem?_beyond, fun k => hmem.fpy.getElem?_beyond,
      hmem.buffersKept, fun k hk => ?_⟩
    by_cases hgen : commandPath i s = .gen
    · obtain ⟨hts, hta⟩ := hmem.buffersWritten hgen
      obtain ⟨hscratch, hacc⟩ := genRow_length (operands Config.default s) s.mem ((s32 s.dstHeight).toNat - 1)
      rw [operands_dw, operands_cn] at hscratch hacc
      rw [hts, hta, overlay_getElem?, overlay_getElem?, if_neg (by omega), if_neg (by omega)]
      exact ⟨rfl, rfl⟩
    · obtain ⟨hts, hta⟩ := hmem.buffersKept hgen
      rw [hts, hta]
      exact ⟨rfl, rfl⟩

end Sys2Proof.Machine
end

section
/-! A repeated command (70_reset_and_hazards.md R223; O36): the second run has the operands of the first, since the
registers and the source footprint are kept, and it writes again what stands there already. -/

namespace Sys2Proof.Machine

/-- A state is its registers and the host's side, its results, its internal memories and data memory. -/
theorem State.eq_of_kept {s t : State} (hregs : RegistersKept s t) (hresults : ResultsKept s t)
    (htables : MemoriesKept s t) (hmem : t.mem = s.mem) : t = s := by
  cases s
  cases t
  cases hregs
  cases hresults
  cases htables
  simp_all

theorem overlay_overlay {α : Type} (new old : List α) : overlay new (overlay new old) = overlay new old := by
  unfold overlay
  rw [List.drop_left]

/-- A table built twice from the same operands. -/
theorem TableAfter.again {α : Type} {built : Prop} {new old table table' : List α} {count count' : Word}
    (h : TableAfter built new old table count) (h' : TableAfter built new table table' count') : table' = table := by
  by_cases hb : built
  · rw [(h'.written hb).1, (h.written hb).1, overlay_overlay]
  · exact (h'.kept hb).1

section
variable {i : Instr} {s t : State}

/-! ### The same operands -/

theorem RegistersKept.operands_eq (h : RegistersKept s t) (c : Config) : operands c t = operands c s := by
  unfold operands
  rw [h.srcBase, h.srcWidth, h.srcHeight, h.srcStride, h.dstBase, h.dstWidth, h.dstHeight, h.dstStride, h.channels]

/-- A command leaves its own operands as they were: no command writes a descriptor register, and a pixel command none
of its source. -/
theorem finalState_sameOperands (hapart : i ∈ pixelCommands → footprintsApart s) :
    SameOperands i s (finalState i (clearResults s)) := by
  have hregs := finalState_registersKept i s
  exact {
    widths := fun _ => ⟨hregs.srcWidth.symm, hregs.dstWidth.symm, hregs.channels.symm⟩
    heights := fun _ => ⟨hregs.srcHeight.symm, hregs.dstHeight.symm⟩
    views := fun _ => ⟨hregs.srcBase.symm, hregs.dstBase.symm, hregs.srcStride.symm, hregs.dstStride.symm⟩
    samples := fun hi a hsrc => (finalState_read_outside hi (hapart hi a hsrc)).symm }

/-- The row buffers, like the image, depend on the source footprint alone (43_area_general.md R153 to R155). -/
theorem genRow_agree (ha : Accepted i s) (hp : commandPath i s = .gen) {m n : Memory}
    (h : AgreeOn (operands Config.default s).srcView m n) (dy : ℕ) :
    genRow (operands Config.default s) m dy = genRow (operands Config.default s) n dy := by
  have hi : i ∈ pixelCommands := pixel_of_commandPath (by decide) hp
  obtain ⟨-, hsw, -, -, -, -⟩ := ha.toOperandsLegal.widths (widthCommands_of_pixel hi)
  obtain ⟨-, hsh, -, -⟩ := ha.toOperandsLegal.heights (heightCommands_of_pixel hi)
  obtain ⟨x1, x2, -⟩ := ha.weightsX (.inl hp)
  obtain ⟨y1, y2, -⟩ := ha.weightsY (.inl hp)
  refine rowBuffers_agree (w := (s32 s.srcWidth).toNat) h rfl (fun e he => ?_) fun e he => ?_
  · obtain ⟨-, sx, -, hsx, -, hsi⟩ := emitted_offsets_legal x1 x2 hsw he
    exact ⟨sx, hsx, hsi⟩
  · obtain ⟨-, sy, -, hsy, -, hsi⟩ := emitted_offsets_legal y1 y2 hsh (mem_runOf he)
    rw [hsi, Nat.mul_one]
    exact hsy

/-! ### The same final state -/

theorem SameOperands.finalState_results_again (h : SameOperands i s (finalState i (clearResults s))) :
    ResultsKept (finalState i (clearResults s)) (finalState i (clearResults (finalState i (clearResults s)))) := by
  have hsame := h.finalState_sameResults
  obtain ⟨herr, hdone, hpath⟩ := finalState_status i (clearResults s)
  obtain ⟨herr', hdone', hpath'⟩ := finalState_status i (clearResults (finalState i (clearResults s)))
  rw [commandPath_clearResults] at hpath hpath'
  exact {
    done := hdone'.trans hdone.symm
    err := herr'.trans herr.symm
    path := hpath'.trans (h.commandPath_eq.symm.trans hpath.symm)
    iscaleX := hsame.scales.1.symm
    iscaleY := hsame.scales.2.symm
    xtabCount := hsame.xtab.1.symm
    ytabCount := hsame.ytab.1.symm
    ygrpCount := hsame.ygrp.1.symm
    fpxCount := hsame.fpx.1.symm
    fpyCount := hsame.fpy.1.symm }

theorem Accepted.finalState_memories_again (ha : Accepted i s)
    (h : SameOperands i s (finalState i (clearResults s))) :
    MemoriesKept (finalState i (clearResults s)) (finalState i (clearResults (finalState i (clearResults s)))) := by
  have hregs := finalState_registersKept i s
  have first := ha.memoriesAfter
  have second := (h.accepted ha).memoriesAfter
  generalize finalState i (clearResults s) = t at h hregs first second ⊢
  obtain ⟨xtab, ytab, ygrp, fpx, fpy, buffersKept, buffersWritten⟩ := second
  simp only [hregs.operands_eq, ← h.commandPath_eq] at xtab ytab ygrp fpx fpy buffersKept buffersWritten
  have buffers : (finalState i (clearResults t)).scratch = t.scratch ∧ (finalState i (clearResults t)).acc = t.acc := by
    by_cases hp : commandPath i s = .gen
    · obtain ⟨hscratch, hacc⟩ := first.buffersWritten hp
      obtain ⟨hscratch', hacc'⟩ := buffersWritten hp
      rw [hregs.dstHeight, ← genRow_agree ha hp (h.agreeOn (pixel_of_commandPath (by decide) hp))] at hscratch' hacc'
      rw [hscratch', hscratch, overlay_overlay, hacc', hacc, overlay_overlay]
      exact ⟨rfl, rfl⟩
    · exact buffersKept hp
  exact {
    xtab := first.xtab.again xtab
    ytab := first.ytab.again ytab
    ygrp := first.ygrp.again ygrp
    fpx := first.fpx.again fpx
    fpy := first.fpy.again fpy
    scratch := buffers.1
    acc := buffers.2 }

/-- Inside the destination both runs write the same image, outside it neither writes. -/
theorem Accepted.finalState_mem_again (ha : Accepted i s) (hwf : s.mem.wf = true)
    (h : SameOperands i s (finalState i (clearResults s))) :
    (finalState i (clearResults (finalState i (clearResults s)))).mem = (finalState i (clearResults s)).mem := by
  by_cases hi : i ∈ pixelCommands
  · refine Memory.ext_of_wf (finalState_mem_wf (finalState_mem_wf hwf)) (finalState_mem_wf hwf) fun a => ?_
    by_cases hdst : inDestination s a
    · exact (h.read_destination_eq ha hi hdst).symm
    · exact finalState_read_outside hi fun hin => hdst ((h.inDestination_iff hi a).mpr hin)
  · rw [finalState_mem_of_not_pixel hi]
    rfl

end

/-- Settles O36: a failed command fails again in the same way; an accepted one is accepted again on the same operands,
and keeps all that it left. -/
theorem repeatedCommandChangesNothing : Obligations.RepeatedCommandChangesNothing := by
  intro i s t hwf hexec
  rcases exec_next hexec with ⟨e, -, rfl⟩ | ⟨ha, hapart, rfl⟩
  · rw [exec_raiseError_clearResults, hexec]
  · have hsame := finalState_sameOperands hapart
    rw [exec_accepted (hsame.accepted ha) fun hi => hsame.apart hi (hapart hi)]
    exact congrArg _ (State.eq_of_kept (finalState_registersKept i _) hsame.finalState_results_again
      (ha.finalState_memories_again hsame) (ha.finalState_mem_again hwf hsame))

end Sys2Proof.Machine
end

section
/-! What a step does (00_scope.md R19; O6, O8, O9, O19, O33, O34), said once, and the invariant of the machine as a
consequence: of an access only a command, a write of data memory and the reset touch what the invariant speaks of. -/

namespace Sys2Proof.Machine

/-! ### One step -/

theorem step_idle {s : State} (h : s.script = []) : step s = .next s := by
  unfold step
  rw [h]

theorem step_pending {s : State} {a : BusAccess} {rest : List BusAccess} (h : s.script = a :: rest) :
    step s = access a { s with script := rest } := by
  unfold step
  rw [h]

theorem addressOk_default (a : ℕ) : Config.default.addressOk a = true ↔ a < 4294967296 :=
  decide_eq_true_iff

section
variable {s t : State}

theorem access_memRead {a : ℕ} (ha : a < 4294967296) (s : State) :
    access (.memRead a) s = .next (record (.byte (s.mem.read a)) s) :=
  if_pos ((addressOk_default a).mpr ha)

theorem access_memWrite {a : ℕ} (ha : a < 4294967296) (v : Byte) (s : State) :
    access (.memWrite a v) s = .next { s with mem := s.mem.write a v } :=
  if_pos ((addressOk_default a).mpr ha)

theorem access_memory_outside {a : ℕ} (ha : 4294967296 ≤ a) (v : Byte) (s : State) :
    access (.memRead a) s = .fault .outsideDataMemory ∧ access (.memWrite a v) s = .fault .outsideDataMemory := by
  have hout : ¬ Config.default.addressOk a = true := fun h => absurd ((addressOk_default a).mp h) (by omega)
  exact ⟨if_neg hout, if_neg hout⟩

theorem access_windowRead {w : AccessWidth} {o : ℕ} (hok : windowAccessOk w o = true) (s : State) :
    access (.windowRead w o) s = .next (record (.register (readOffset Config.default s o)) s) :=
  if_pos hok

theorem access_windowWrite_cmd {w : AccessWidth} (hok : windowAccessOk w 0 = true) (v : Word) (s : State) :
    access (.windowWrite w 0 v) s = writeCmd v s :=
  (if_pos hok).trans (if_pos rfl)

theorem access_windowWrite {w : AccessWidth} {o : ℕ} (hok : windowAccessOk w o = true) (ho : o ≠ 0) (v : Word)
    (s : State) : access (.windowWrite w o v) s = .next (writeOffset o v s) :=
  (if_pos hok).trans (if_neg ho)

theorem writeOffset_cases (o : ℕ) (v : Word) (s : State) :
    writeOffset o v s = s ∨ ∃ r, writeOffset o v s = writeReg r v s := by
  unfold writeOffset
  cases regAt o with
  | none => exact .inl rfl
  | some r => exact .inr ⟨r, rfl⟩

theorem writeCmd_next {w : Word} (h : writeCmd w s = .next t) :
    t = raiseError .invalidArgument (clearResults s) ∨ ∃ i, exec i s = .next t := by
  unfold writeCmd at h
  cases hdec : decode w with
  | ok i => exact .inr ⟨i, by simpa only [hdec] using h⟩
  | error e =>
    simp only [hdec, execIllegal] at h
    exact .inl (Host.Outcome.next.inj h).symm

/-- The inversion of an access: everything that can have answered a next state. -/
inductive AccessDone (s t : State) : Prop
  | recorded (v : ReadValue) (h : t = record v s)
  | kept (h : t = s)
  | stored (r : Reg) (v : Word) (h : t = writeReg r v s)
  | illegal (h : t = raiseError .invalidArgument (clearResults s))
  | executed (i : Instr) (h : exec i s = .next t)
  | written (a : ℕ) (v : Byte) (ha : a < 4294967296) (h : t = { s with mem := s.mem.write a v })
  | reset (h : t = platformReset s)

theorem access_next {a : BusAccess} (h : access a s = .next t) : AccessDone s t := by
  cases a with
  | windowRead w o =>
    by_cases hok : windowAccessOk w o = true
    · exact .recorded _ (Host.Outcome.next.inj (h.symm.trans (access_windowRead hok s)))
    · rw [(access_windowRead_refused_iff w o s).mpr hok] at h
      cases h
  | windowWrite w o v =>
    by_cases hok : windowAccessOk w o = true
    · rcases eq_or_ne o 0 with rfl | ho
      · rw [access_windowWrite_cmd hok] at h
        rcases writeCmd_next h with hill | ⟨i, hexec⟩
        · exact .illegal hill
        · exact .executed i hexec
      · rw [access_windowWrite hok ho] at h
        have ht := (Host.Outcome.next.inj h).symm
        rcases writeOffset_cases o v s with hkept | ⟨r, hstored⟩
        · exact .kept (ht.trans hkept)
        · exact .stored r v (ht.trans hstored)
    · rw [(access_windowWrite_refused_iff w o v s).mpr hok] at h
      cases h
  | memRead addr =>
    rcases Nat.lt_or_ge addr 4294967296 with ha | ha
    · exact .recorded _ (Host.Outcome.next.inj (h.symm.trans (access_memRead ha s)))
    · rw [(access_memory_outside ha 0 s).1] at h
      cases h
  | memWrite addr v =>
    rcases Nat.lt_or_ge addr 4294967296 with ha | ha
    · exact .written addr v ha (Host.Outcome.next.inj (h.symm.trans (access_memWrite ha v s)))
    · rw [(access_memory_outside ha v s).2] at h
      cases h
  | reset => exact .reset (Host.Outcome.next.inj h).symm

end

/-! ### The invariant (10_state.md R26, R36 to R49; 20_memory.md R60) -/

section
variable {s t : State}

/-- The invariant speaks of the results, the internal memories and data memory alone. -/
theorem MachineInv.of_kept (h : MachineInv s) (hresults : ResultsKept s t) (htables : MemoriesKept s t)
    (hwf : t.mem.wf = true) (hspace : t.mem.inSpace Config.default = true) : MachineInv t := by
  obtain ⟨done, err, path, iscaleX, iscaleY, xtabCount, ytabCount, ygrpCount, fpxCount, fpyCount⟩ := hresults
  obtain ⟨xtab, ytab, ygrp, fpx, fpy, scratch, acc⟩ := htables
  have clear (hs : ResultsClear s) : ResultsClear t :=
    ⟨xtabCount.trans hs.xtabCount, ytabCount.trans hs.ytabCount, ygrpCount.trans hs.ygrpCount,
      fpxCount.trans hs.fpxCount, fpyCount.trans hs.fpyCount, iscaleX.trans hs.iscaleX, iscaleY.trans hs.iscaleY⟩
  exact {
    memory := hwf
    space := hspace
    noEmptyBuffer := err ▸ h.noEmptyBuffer
    errorClear := fun he => (h.errorClear (err ▸ he)).imp path.trans clear
    idleClear := fun hd => by
      obtain ⟨hok, hnone, hclear⟩ := h.idleClear (done ▸ hd)
      exact ⟨err.trans hok, path.trans hnone, clear hclear⟩
    scalesInt := fun hp => (h.scalesInt (path ▸ hp)).imp iscaleX.trans iscaleY.trans
    xtabCount := xtab ▸ xtabCount ▸ h.xtabCount
    ytabCount := ytab ▸ ytabCount ▸ h.ytabCount
    ygrpCount := ygrp ▸ ygrpCount ▸ h.ygrpCount
    fpxCount := fpx ▸ fpxCount ▸ h.fpxCount
    fpyCount := fpy ▸ fpyCount ▸ h.fpyCount
    xtabCap := xtab ▸ h.xtabCap
    ytabCap := ytab ▸ h.ytabCap
    ygrpCap := ygrp ▸ h.ygrpCap
    fpxCap := fpx ▸ h.fpxCap
    fpyCap := fpy ▸ h.fpyCap
    scratchCap := scratch ▸ h.scratchCap
    accCap := acc ▸ h.accCap
    xtabWords := xtab ▸ h.xtabWords
    ytabWords := ytab ▸ h.ytabWords
    ygrpWords := ygrp ▸ h.ygrpWords
    fpxWeights := fpx ▸ h.fpxWeights
    fpyWeights := fpy ▸ h.fpyWeights }

theorem writeReg_resultsKept (r : Reg) (v : Word) (s : State) : ResultsKept s (writeReg r v s) := by
  constructor <;> simp

theorem writeReg_memoriesKept (r : Reg) (v : Word) (s : State) : MemoriesKept s (writeReg r v s) := by
  constructor <;> simp

/-- Data memory, the script and the listing are no results and no internal memories. -/
theorem hostSide_kept (s : State) (m : Memory) (script : List BusAccess) (listing : List ReadValue) :
    ResultsKept s { s with mem := m, script := script, listing := listing } ∧
      MemoriesKept s { s with mem := m, script := script, listing := listing } :=
  ⟨⟨rfl, rfl, rfl, rfl, rfl, rfl, rfl, rfl, rfl, rfl⟩, ⟨rfl, rfl, rfl, rfl, rfl, rfl, rfl⟩⟩

/-- The invariant of a state whose results are clear is that of its memories; nothing about its `STATUS` is left to show
but that it is no `EmptyBuffer` and shows no path. -/
theorem MachineInv.of_clear (h : MachineInv s) (hclear : ResultsClear t) (hpath : t.path = .noPath)
    (herr : t.err ≠ .emptyBuffer) (hidle : t.done = false → t.err = .ok) (htables : MemoriesKept s t)
    (hmem : t.mem = s.mem) : MachineInv t := by
  obtain ⟨xtab, ytab, ygrp, fpx, fpy, scratch, acc⟩ := htables
  have count {c : Word} {n : ℕ} (hc : c = 0) : c.toNat ≤ n := by rw [hc]; exact Nat.zero_le n
  exact {
    memory := hmem ▸ h.memory
    space := hmem ▸ h.space
    noEmptyBuffer := herr
    errorClear := fun _ => ⟨hpath, hclear⟩
    idleClear := fun hd => ⟨hidle hd, hpath, hclear⟩
    scalesInt := fun _ => ⟨hclear.iscaleX, hclear.iscaleY⟩
    xtabCount := count hclear.xtabCount
    ytabCount := count hclear.ytabCount
    ygrpCount := count hclear.ygrpCount
    fpxCount := count hclear.fpxCount
    fpyCount := count hclear.fpyCount
    xtabCap := xtab ▸ h.xtabCap
    ytabCap := ytab ▸ h.ytabCap
    ygrpCap := ygrp ▸ h.ygrpCap
    fpxCap := fpx ▸ h.fpxCap
    fpyCap := fpy ▸ h.fpyCap
    scratchCap := scratch ▸ h.scratchCap
    accCap := acc ▸ h.accCap
    xtabWords := xtab ▸ h.xtabWords
    ytabWords := ytab ▸ h.ytabWords
    ygrpWords := ygrp ▸ h.ygrpWords
    fpxWeights := fpx ▸ h.fpxWeights
    fpyWeights := fpy ▸ h.fpyWeights }

theorem MachineInv.raiseError (h : MachineInv s) {e : ErrCode} (he : e ≠ .emptyBuffer) :
    MachineInv (raiseError e (clearResults s)) :=
  h.of_clear ⟨rfl, rfl, rfl, rfl, rfl, rfl, rfl⟩ rfl he (fun hd => absurd hd (by simp))
    ⟨rfl, rfl, rfl, rfl, rfl, rfl, rfl⟩ rfl

theorem MachineInv.platformReset (h : MachineInv s) : MachineInv (platformReset s) :=
  h.of_clear ⟨rfl, rfl, rfl, rfl, rfl, rfl, rfl⟩ rfl (by rw [platformReset_err]; decide) (fun _ => rfl)
    ⟨rfl, rfl, rfl, rfl, rfl, rfl, rfl⟩ rfl

end

/-! ### The invariant after an accepted command -/

section
variable {i : Instr} {s : State}

theorem finalState_inSpace (ha : Accepted i s) (h : s.mem.inSpace Config.default = true) :
    (finalState i (clearResults s)).mem.inSpace Config.default = true := by
  by_cases hi : i ∈ pixelCommands
  · have hp : commandPath i s ≠ .noPath := fun h => absurd hi (commandPath_noPath.mp h)
    rw [finalState_accepted hi, pathFinal_mem]
    refine Memory.inSpace_writeRows _ _ _ (fun y hy => ?_) h
    rw [pathRows_length _ hp]
    exact ha.toOperandsLegal.row_end hi hy
  · rw [finalState_mem_of_not_pixel hi]
    exact h

/-- The integer scales are set on the integer path alone. -/
theorem finalState_scales_of_not_int (hp : commandPath i s ≠ .int) :
    (finalState i (clearResults s)).iscaleX = 0 ∧ (finalState i (clearResults s)).iscaleY = 0 := by
  by_cases hi : i ∈ pixelCommands
  · rw [finalState_accepted hi]
    cases hpath : commandPath i s with
    | int => exact absurd hpath hp
    | noPath => exact absurd hi (commandPath_noPath.mp hpath)
    | gen | lin => simp
  · cases i with
    | resize | areaInt | areaGen | linear => exact absurd (by decide) hi
    | wtabX | wtabY | fptabX | fptabY => simp [finalState]

/-- The axis of a table that an accepted command builds. -/
theorem Accepted.tableX_words (ha : Accepted i s) (h : commandPath i s = .gen ∨ i = .wtabX) :
    ∀ e ∈ tableX (operands Config.default s), e.si < 4294967296 ∧ e.di < 4294967296 := by
  intro e he
  obtain ⟨-, hsw, -, -, hcn, hcn4⟩ := ha.toOperandsLegal.widths (widthCommands_of_path_or (by decide) (by decide) h)
  obtain ⟨hdw, hle, -⟩ := ha.weightsX h
  obtain ⟨dx, sx, hdx, hsx, hdi, hsi⟩ := emitted_offsets_legal hdw hle hsw he
  rw [operands_cn] at hdi hsi
  have hsi' : sx * (s32 s.channels).toNat ≤ 65535 * 4 := Nat.mul_le_mul (by omega) (by omega)
  have hdi' : dx * (s32 s.channels).toNat ≤ 65535 * 4 := Nat.mul_le_mul (by omega) (by omega)
  omega

theorem Accepted.tableY_words (ha : Accepted i s) (h : commandPath i s = .gen ∨ i = .wtabY) :
    ∀ e ∈ tableY (operands Config.default s), e.si < 4294967296 ∧ e.di < 4294967296 := by
  intro e he
  obtain ⟨-, hsh, -, -⟩ := ha.toOperandsLegal.heights (heightCommands_of_path_or (by decide) (by decide) h)
  obtain ⟨hdh, hle, -⟩ := ha.weightsY h
  obtain ⟨dy, sy, hdy, hsy, hdi, hsi⟩ := emitted_offsets_legal hdh hle hsh he
  omega

theorem Accepted.groupsY_words (ha : Accepted i s) (h : commandPath i s = .gen ∨ i = .wtabY) :
    ∀ g ∈ groupsY (operands Config.default s), g.start ≤ g.stop ∧ g.stop < 4294967296 := by
  intro g hg
  have hlen := ha.tableY_length h
  obtain ⟨hle, hstop⟩ := mem_groupScan hg
  omega

theorem Accepted.fixedX_weights (ha : Accepted i s) (h : commandPath i s = .lin ∨ i = .fptabX) :
    ∀ e ∈ fixedX (operands Config.default s), e.w0 + e.w1 = 2048 ∧ e.ofs0 < 4294967296 ∧ e.ofs1 < 4294967296 := by
  intro e he
  obtain ⟨h1, h2, h3, h4, -, hcn⟩ :=
    ha.toOperandsLegal.widths (widthCommands_of_path_or (by decide) (by decide) h)
  obtain ⟨hsum, x0, x1, hx0, hx1, hofs0, hofs1⟩ := mem_buildFptab_legal h1 h2 h3 h4 he
  rw [operands_cn] at hofs0 hofs1
  have hofs0' : x0 * (s32 s.channels).toNat ≤ 65535 * 4 := Nat.mul_le_mul (by omega) (by omega)
  have hofs1' : x1 * (s32 s.channels).toNat ≤ 65535 * 4 := Nat.mul_le_mul (by omega) (by omega)
  omega

theorem Accepted.fixedY_weights (ha : Accepted i s) (h : commandPath i s = .lin ∨ i = .fptabY) :
    ∀ e ∈ fixedY (operands Config.default s), e.w0 + e.w1 = 2048 ∧ e.ofs0 < 4294967296 ∧ e.ofs1 < 4294967296 := by
  intro e he
  obtain ⟨h1, h2, h3, h4⟩ := ha.toOperandsLegal.heights (heightCommands_of_path_or (by decide) (by decide) h)
  obtain ⟨hsum, y0, y1, hy0, hy1, hofs0, hofs1⟩ := mem_buildFptab_legal h1 h2 h3 h4 he
  omega

/-- The row buffers of the general path are as long as the row, elsewhere they are kept. -/
theorem Accepted.buffers_cap (ha : Accepted i s) (hscratch : s.scratch.length ≤ 32768) (hacc : s.acc.length ≤ 32768) :
    (finalState i (clearResults s)).scratch.length ≤ 32768 ∧ (finalState i (clearResults s)).acc.length ≤ 32768 := by
  by_cases hp : commandPath i s = .gen
  · obtain ⟨hfits, -, -⟩ := ha.fits
    obtain ⟨-, -, hdw, -, hcn, -⟩ :=
      ha.toOperandsLegal.widths (widthCommands_of_pixel (pixel_of_commandPath (by decide) hp))
    have hrow : (s32 s.dstWidth).toNat * (s32 s.channels).toNat ≤ 32768 := by
      rw [← Int.toNat_mul (by omega) (by omega)]
      exact Int.toNat_le.mpr (hfits hp)
    obtain ⟨hs, ht⟩ := ha.memoriesAfter.buffersWritten hp
    obtain ⟨hs', ht'⟩ := genRow_length (operands Config.default s) s.mem ((s32 s.dstHeight).toNat - 1)
    rw [hs, ht, overlay_length, overlay_length, hs', ht']
    exact ⟨Nat.max_le.mpr ⟨hrow, hscratch⟩, Nat.max_le.mpr ⟨hrow, hacc⟩⟩
  · obtain ⟨hs, ht⟩ := ha.memoriesAfter.buffersKept hp
    rw [hs, ht]
    exact ⟨hscratch, hacc⟩

theorem MachineInv.finalState (h : MachineInv s) (ha : Accepted i s) : MachineInv (finalState i (clearResults s)) := by
  obtain ⟨herr, hdone, hpath⟩ := finalState_status i (clearResults s)
  have hmem := ha.memoriesAfter
  obtain ⟨-, hfx, hfy⟩ := ha.fits
  obtain ⟨hscratch, hacc⟩ := ha.buffers_cap h.scratchCap h.accCap
  exact {
    memory := finalState_mem_wf h.memory
    space := finalState_inSpace ha h.space
    noEmptyBuffer := by rw [herr]; decide
    errorClear := fun he => absurd herr he
    idleClear := fun hd => absurd hd (by rw [hdone]; decide)
    scalesInt := fun hp => finalState_scales_of_not_int fun hint => hp (hpath.trans hint)
    xtabCount := hmem.xtab.count_le
    ytabCount := hmem.ytab.count_le
    ygrpCount := hmem.ygrp.count_le
    fpxCount := hmem.fpx.count_le
    fpyCount := hmem.fpy.count_le
    xtabCap := hmem.xtab.length_le h.xtabCap ha.tableX_length
    ytabCap := hmem.ytab.length_le h.ytabCap ha.tableY_length
    ygrpCap := hmem.ygrp.length_le h.ygrpCap fun hb => by
      obtain ⟨-, hle, hcap⟩ := ha.weightsY hb
      rw [groupsY_length, operands_dh]
      omega
    fpxCap := hmem.fpx.length_le h.fpxCap fun hb => by
      rw [fixedX_length]
      exact Int.toNat_le.mpr (hfx hb)
    fpyCap := hmem.fpy.length_le h.fpyCap fun hb => by
      rw [fixedY_length]
      exact Int.toNat_le.mpr (hfy hb)
    scratchCap := hscratch
    accCap := hacc
    xtabWords := hmem.xtab.forall_mem h.xtabWords ha.tableX_words
    ytabWords := hmem.ytab.forall_mem h.ytabWords ha.tableY_words
    ygrpWords := hmem.ygrp.forall_mem h.ygrpWords ha.groupsY_words
    fpxWeights := hmem.fpx.forall_mem h.fpxWeights ha.fixedX_weights
    fpyWeights := hmem.fpy.forall_mem h.fpyWeights ha.fixedY_weights }

end

/-! ### The invariant after an access -/

theorem MachineInv.exec {i : Instr} {s t : State} (h : MachineInv s) (hexec : exec i s = .next t) : MachineInv t := by
  rcases exec_next hexec with ⟨e, herr, rfl⟩ | ⟨ha, -, rfl⟩
  · exact h.raiseError fun he => firstError_ne_emptyBuffer i s (he ▸ herr)
  · exact h.finalState ha

theorem MachineInv.access {s t : State} (h : MachineInv s) (hdone : AccessDone s t) : MachineInv t := by
  cases hdone with
  | recorded v ht =>
    obtain ⟨hresults, htables⟩ := hostSide_kept s s.mem s.script (v :: s.listing)
    exact ht ▸ h.of_kept hresults htables h.memory h.space
  | kept ht => exact ht ▸ h
  | stored r v ht =>
    rw [ht]
    exact h.of_kept (writeReg_resultsKept r v s) (writeReg_memoriesKept r v s) (by rw [writeReg_mem]; exact h.memory)
      (by rw [writeReg_mem]; exact h.space)
  | illegal ht => exact ht ▸ h.raiseError (by decide)
  | executed i hexec => exact h.exec hexec
  | written a v ha ht =>
    obtain ⟨hresults, htables⟩ := hostSide_kept s (s.mem.write a v) s.script s.listing
    exact ht ▸ h.of_kept hresults htables (Memory.wf_write a v h.memory) (Memory.inSpace_write v ha h.space)
  | reset ht => exact ht ▸ h.platformReset

/-! ### The obligations -/

/-- Settles O33: nothing is written yet. -/
theorem resetIsInvariant : Obligations.ResetIsInvariant where
  memory := rfl
  space := rfl
  noEmptyBuffer := by decide
  errorClear h := absurd rfl h
  idleClear _ := ⟨rfl, rfl, ⟨rfl, rfl, rfl, rfl, rfl, rfl, rfl⟩⟩
  scalesInt _ := ⟨rfl, rfl⟩
  xtabCount := Nat.le_refl 0
  ytabCount := Nat.le_refl 0
  ygrpCount := Nat.le_refl 0
  fpxCount := Nat.le_refl 0
  fpyCount := Nat.le_refl 0
  xtabCap := Nat.zero_le _
  ytabCap := Nat.zero_le _
  ygrpCap := Nat.zero_le _
  fpxCap := Nat.zero_le _
  fpyCap := Nat.zero_le _
  scratchCap := Nat.zero_le _
  accCap := Nat.zero_le _
  xtabWords := List.forall_mem_nil _
  ytabWords := List.forall_mem_nil _
  ygrpWords := List.forall_mem_nil _
  fpxWeights := List.forall_mem_nil _
  fpyWeights := List.forall_mem_nil _

/-- Settles O34: an idle step changes nothing, any other is one access from the state with a shorter script. -/
theorem stepKeepsInvariant : Obligations.StepKeepsInvariant := by
  intro s t h hstep
  cases hscript : s.script with
  | nil =>
    rw [step_idle hscript] at hstep
    cases hstep
    exact h
  | cons a rest =>
    rw [step_pending hscript] at hstep
    obtain ⟨hresults, htables⟩ := hostSide_kept s s.mem rest s.listing
    exact (h.of_kept hresults htables h.memory h.space).access (access_next hstep)

/-- Settles O9. -/
theorem idleKeepsState : Obligations.IdleKeepsState := fun _ => step_idle

/-- Settles O6: the step is the write of `CMD`, whose word decodes. -/
theorem stepRunsDecodedCommand : Obligations.StepRunsDecodedCommand := by
  intro s w rest i hscript hdec _
  rw [step_write_cmd hscript, writeCmd, hdec]

/-- Settles O19. -/
theorem outsideDataMemoryFaults : Obligations.OutsideDataMemoryFaults := fun s _ v ha => access_memory_outside ha v s

/-- A write of `CMD` answers a next state unless its command is accepted with overlapping footprints. -/
theorem writeCmd_made {w : Word} {s : State}
    (h : ∀ i, decode w = .ok i → i ∈ pixelCommands → Accepted i s → footprintsApart s) :
    ∃ t, writeCmd w s = .next t := by
  cases hdec : decode w with
  | error e => exact ⟨_, by rw [writeCmd, hdec]; rfl⟩
  | ok i =>
    rw [writeCmd, hdec]
    rcases commandOutcomes i s with ⟨t, ht, -⟩ | ⟨hi, ha, hover, -⟩
    · exact ⟨t, ht⟩
    · exact absurd (h i hdec hi ha) hover

/-- Settles O8, by the kinds of access; only a write of `CMD` needs the footprints. -/
theorem meaningfulStepIsMade : Obligations.MeaningfulStepIsMade := by
  intro s h
  cases hscript : s.script with
  | nil => exact ⟨s, step_idle hscript⟩
  | cons a rest =>
    obtain ⟨hwf, hcmd⟩ := h a rest hscript
    rw [step_pending hscript]
    cases a with
    | windowRead w o => exact ⟨_, access_windowRead hwf _⟩
    | windowWrite w o v =>
      rcases eq_or_ne o 0 with rfl | ho
      · rw [access_windowWrite_cmd hwf]
        exact writeCmd_made fun i hdec hi ha =>
          hcmd w v i rfl hdec hi ⟨⟨ha.v1, ha.v2, ha.v3, ha.v4⟩, ha.scales, ha.v7⟩
      · exact ⟨_, access_windowWrite hwf ho v _⟩
    | memRead addr => exact ⟨_, access_memRead ((addressOk_default addr).mp hwf) _⟩
    | memWrite addr v => exact ⟨_, access_memWrite ((addressOk_default addr).mp hwf) v _⟩
    | reset => exact ⟨_, rfl⟩

end Sys2Proof.Machine
end

section
/-! The register window and the host's bytes (10_state.md R22 to R43, 20_memory.md R60; O4, O10 to O13, O16 to O18), the
reset (70_reset_and_hazards.md R220, R221; O20 to O22) and the encoded words (30_encoding.md R81, R92; O1, O3, O5). -/

namespace Sys2Proof.Machine

/-! ### Reads and writes of registers (10_state.md R22) -/

theorem access_read_regOffset (r : Reg) (s : State) :
    access (.windowRead .bits32 (regOffset r)) s = .next (record (.register (readReg Config.default s r)) s) := by
  rw [access_windowRead (windowAccessOk_regOffset r), readOffset_regOffset]

/-- A read-write register reads the word stored in it. -/
theorem readReg_writeReg_same {r : Reg} (hr : regRight r = .readWrite) (c : Config) (v : Word) (s : State) :
    readReg c (writeReg r v s) r = v := by
  cases r with
  | srcBase | srcWidth | srcHeight | srcStride | dstBase | dstWidth | dstHeight | dstStride | channels | tabSel
  | tabIdx => rfl
  | cmd | status | xtabCount | ytabCount | ygrpCount | fpxCount | fpyCount | iscaleX | iscaleY | tabD0 | tabD1 | tabD2
  | id | capDim | capTab | capRow | capFp => cases hr

/-- Any other register but a view of the selected table entry reads as before. -/
theorem readReg_writeReg_other {q r : Reg} (hq : q ≠ r) (h0 : q ≠ .tabD0) (h1 : q ≠ .tabD1) (h2 : q ≠ .tabD2)
    (c : Config) (v : Word) (s : State) : readReg c (writeReg r v s) q = readReg c s q := by
  cases q with
  | tabD0 => exact absurd rfl h0
  | tabD1 => exact absurd rfl h1
  | tabD2 => exact absurd rfl h2
  | srcBase | srcWidth | srcHeight | srcStride | dstBase | dstWidth | dstHeight | dstStride | channels | tabSel
  | tabIdx => simp [readReg, hq.symm]
  | cmd | status | xtabCount | ytabCount | ygrpCount | fpxCount | fpyCount | iscaleX | iscaleY
  | id | capDim | capTab | capRow | capFp => simp [readReg, State.statusWord]

/-- No register stands beyond the last one's offset. -/
theorem regAt_of_reserved {o : ℕ} (ho : 0x70 ≤ o) : regAt o = none := by
  refine List.find?_eq_none.mpr fun r _ => ?_
  have hlast : regOffset r ≤ 0x6C := by cases r <;> decide
  simp only [beq_iff_eq]
  omega

/-! ### The fields of `STATUS` (10_state.md R26) -/

theorem statusOf_toNat (d : Bool) (e : ErrCode) (p : PixelPath) :
    (statusOf d e p).toNat = (if d = true then 2 else 0) + 16 * e.code + 256 * p.code := by
  cases d <;> cases e <;> cases p <;> rfl

theorem ErrCode.code_lt (e : ErrCode) : e.code < 16 := by cases e <;> decide

theorem PixelPath.code_lt (p : PixelPath) : p.code < 4 := by cases p <;> decide

/-! ### The selected table entry (10_state.md R41, 30_encoding.md R85 to R87) -/

theorem toNat_append_eq_add {v w : ℕ} (x : BitVec v) (y : BitVec w) : (x ++ y).toNat = x.toNat * 2 ^ w + y.toNat := by
  rw [BitVec.toNat_append, ← Nat.shiftLeft_add_eq_or_of_lt y.isLt, Nat.shiftLeft_eq]

/-- Weights of 12 bits each keep to their fields. -/
theorem packWeights_toNat {w0 w1 : ℕ} (h0 : w0 < 4096) (h1 : w1 < 4096) :
    (packWeights w0 w1).toNat = w0 + 65536 * w1 := by
  unfold packWeights
  rw [toNat_append_eq_add, toNat_append_eq_add, toNat_append_eq_add]
  simp only [BitVec.toNat_ofNat]
  omega

section
variable {α : Type} {words : α → List Word} {table : List α} {count idx : Word}

theorem tableWordAt_below (hlen : count.toNat ≤ table.length) (hidx : idx.toNat < count.toNat) :
    ∃ e, table[idx.toNat]? = some e ∧ ∀ n, tableWordAt words table count idx n = (words e).getD n 0#32 := by
  have hget := List.getElem?_eq_getElem (l := table) (i := idx.toNat) (by omega)
  refine ⟨_, hget, fun n => ?_⟩
  rw [tableWordAt, if_pos (BitVec.lt_def.mpr hidx), hget]

theorem tableWordAt_beyond (hidx : count.toNat ≤ idx.toNat) (n : ℕ) : tableWordAt words table count idx n = 0#32 :=
  if_neg fun h => absurd (BitVec.lt_def.mp h) (by omega)

end

section
variable {s : State}

theorem readTab_xtab (h : s.tabSel = 0#32) (n : ℕ) :
    readTab s n = tableWordAt WeightEntry.words s.xtab s.xtabCount s.tabIdx n := by
  rw [readTab, h]
  rfl

theorem readTab_ytab (h : s.tabSel = 1#32) (n : ℕ) :
    readTab s n = tableWordAt WeightEntry.words s.ytab s.ytabCount s.tabIdx n := by
  rw [readTab, h]
  rfl

theorem readTab_ygrp (h : s.tabSel = 2#32) (n : ℕ) :
    readTab s n = tableWordAt RunEntry.words s.ygrp s.ygrpCount s.tabIdx n := by
  rw [readTab, h]
  rfl

theorem readTab_fpx (h : s.tabSel = 3#32) (n : ℕ) :
    readTab s n = tableWordAt FixedEntry.words s.fpx s.fpxCount s.tabIdx n := by
  rw [readTab, h]
  rfl

theorem readTab_fpy (h : s.tabSel = 4#32) (n : ℕ) :
    readTab s n = tableWordAt FixedEntry.words s.fpy s.fpyCount s.tabIdx n := by
  rw [readTab, h]
  rfl

theorem readTab_above (h : 5 ≤ s.tabSel.toNat) (n : ℕ) : readTab s n = 0#32 := by
  unfold readTab
  split
  · omega
  · omega
  · omega
  · omega
  · omega
  · rfl

end

/-- The words of an entry whose fields fit are its fields (30_encoding.md R85 to R87). -/
theorem WeightEntry.words_eq (e : WeightEntry) (hsi : e.si < 4294967296) (hdi : e.di < 4294967296) :
    (e.words.getD 0 0#32).toNat = e.si ∧ (e.words.getD 1 0#32).toNat = e.di ∧ e.words.getD 2 0#32 = e.alpha :=
  ⟨(BitVec.toNat_ofNat _ _).trans (Nat.mod_eq_of_lt hsi), (BitVec.toNat_ofNat _ _).trans (Nat.mod_eq_of_lt hdi), rfl⟩

theorem RunEntry.words_eq (g : RunEntry) (hle : g.start ≤ g.stop) (hstop : g.stop < 4294967296) :
    (g.words.getD 0 0#32).toNat = g.start ∧ (g.words.getD 1 0#32).toNat = g.stop ∧ g.words.getD 2 0#32 = 0#32 :=
  ⟨(BitVec.toNat_ofNat _ _).trans (Nat.mod_eq_of_lt (by omega)), (BitVec.toNat_ofNat _ _).trans (Nat.mod_eq_of_lt hstop),
    rfl⟩

theorem FixedEntry.words_eq (e : FixedEntry) (hsum : e.w0 + e.w1 = 2048) (h0 : e.ofs0 < 4294967296)
    (h1 : e.ofs1 < 4294967296) :
    (e.words.getD 0 0#32).toNat = e.ofs0 ∧ (e.words.getD 1 0#32).toNat = e.ofs1 ∧
      (e.words.getD 2 0#32).toNat = e.w0 + 65536 * e.w1 :=
  ⟨(BitVec.toNat_ofNat _ _).trans (Nat.mod_eq_of_lt h0), (BitVec.toNat_ofNat _ _).trans (Nat.mod_eq_of_lt h1),
    packWeights_toNat (by omega) (by omega)⟩

/-- Settles O4: a weight of at most 2048 has 12 bits. -/
theorem fixedWeightsWord : Obligations.FixedWeightsWord := fun _ _ h0 h1 =>
  packWeights_toNat (by omega) (by omega)

/-- Settles O17: below the count the entry is there by the invariant, and its fields fit their words. -/
theorem tableReadOut : Obligations.TableReadOut := by
  intro s h
  refine ⟨fun hsel hidx => ?_, fun hsel hidx => ?_, fun hsel hidx => ?_, fun hsel hidx => ?_, fun hsel hidx => ?_,
    fun hbeyond => ?_⟩
  · obtain ⟨e, he, hwords⟩ := tableWordAt_below (words := WeightEntry.words) h.xtabCount hidx
    obtain ⟨hsi, hdi⟩ := h.xtabWords e (List.mem_of_getElem? he)
    have hw (n : ℕ) := (readTab_xtab hsel n).trans (hwords n)
    exact ⟨e, he, by simpa only [readReg, hw] using e.words_eq hsi hdi⟩
  · obtain ⟨e, he, hwords⟩ := tableWordAt_below (words := WeightEntry.words) h.ytabCount hidx
    obtain ⟨hsi, hdi⟩ := h.ytabWords e (List.mem_of_getElem? he)
    have hw (n : ℕ) := (readTab_ytab hsel n).trans (hwords n)
    exact ⟨e, he, by simpa only [readReg, hw] using e.words_eq hsi hdi⟩
  · obtain ⟨g, hg, hwords⟩ := tableWordAt_below (words := RunEntry.words) h.ygrpCount hidx
    obtain ⟨hle, hstop⟩ := h.ygrpWords g (List.mem_of_getElem? hg)
    have hw (n : ℕ) := (readTab_ygrp hsel n).trans (hwords n)
    exact ⟨g, hg, by simpa only [readReg, hw] using g.words_eq hle hstop⟩
  · obtain ⟨e, he, hwords⟩ := tableWordAt_below (words := FixedEntry.words) h.fpxCount hidx
    obtain ⟨hsum, h0, h1⟩ := h.fpxWeights e (List.mem_of_getElem? he)
    have hw (n : ℕ) := (readTab_fpx hsel n).trans (hwords n)
    exact ⟨e, he, by simpa only [readReg, hw] using e.words_eq hsum h0 h1⟩
  · obtain ⟨e, he, hwords⟩ := tableWordAt_below (words := FixedEntry.words) h.fpyCount hidx
    obtain ⟨hsum, h0, h1⟩ := h.fpyWeights e (List.mem_of_getElem? he)
    have hw (n : ℕ) := (readTab_fpy hsel n).trans (hwords n)
    exact ⟨e, he, by simpa only [readReg, hw] using e.words_eq hsum h0 h1⟩
  · have hzero (n : ℕ) : readTab s n = 0#32 := by
      rcases hbeyond with ⟨hs, hi⟩ | ⟨hs, hi⟩ | ⟨hs, hi⟩ | ⟨hs, hi⟩ | ⟨hs, hi⟩ | hs
      · exact (readTab_xtab hs n).trans (tableWordAt_beyond hi n)
      · exact (readTab_ytab hs n).trans (tableWordAt_beyond hi n)
      · exact (readTab_ygrp hs n).trans (tableWordAt_beyond hi n)
      · exact (readTab_fpx hs n).trans (tableWordAt_beyond hi n)
      · exact (readTab_fpy hs n).trans (tableWordAt_beyond hi n)
      · exact readTab_above hs n
    exact ⟨hzero 0, hzero 1, hzero 2⟩

/-! ### The obligations on the window -/

/-- Settles O10: each offset of the table is the offset of its register. -/
theorem registerOffsets : Obligations.RegisterOffsets := by
  refine ⟨by decide, fun s => ?_, fun s v => ?_, fun s v o ho => ?_,
    fun r => ⟨regAt_regOffset r, windowAccessOk_regOffset r⟩, by decide, fun o => regAt_of_reserved⟩
  · have h := readOffset_regOffset Config.default s
    exact ⟨h .cmd, h .status, h .srcBase, h .srcWidth, h .srcHeight, h .srcStride, h .dstBase, h .dstWidth,
      h .dstHeight, h .dstStride, h .channels, h .xtabCount, h .ytabCount, h .ygrpCount, h .fpxCount, h .fpyCount,
      h .iscaleX, h .iscaleY, h .tabSel, h .tabIdx, h .tabD0, h .tabD1, h .tabD2, h .id,
      (h .capDim).trans (show capDimWord Config.default = _ by decide), h .capTab, h .capRow, h .capFp⟩
  · have h {r : Reg} (hr : r ≠ .cmd) := accessOn_write_regOffset Config.default hr v s
    exact ⟨h (r := .srcBase) (by decide), h (r := .srcWidth) (by decide), h (r := .srcHeight) (by decide),
      h (r := .srcStride) (by decide), h (r := .dstBase) (by decide), h (r := .dstWidth) (by decide),
      h (r := .dstHeight) (by decide), h (r := .dstStride) (by decide), h (r := .channels) (by decide),
      h (r := .tabSel) (by decide), h (r := .tabIdx) (by decide)⟩
  · obtain ⟨r, hr, rfl⟩ : ∃ r, regRight r = .readOnly ∧ o = regOffset r := by
      simp only [List.mem_cons, List.not_mem_nil, or_false] at ho
      obtain rfl | rfl | rfl | rfl | rfl | rfl | rfl | rfl | rfl | rfl | rfl | rfl | rfl | rfl | rfl | rfl := ho
      exacts [⟨.status, rfl, rfl⟩, ⟨.xtabCount, rfl, rfl⟩, ⟨.ytabCount, rfl, rfl⟩, ⟨.ygrpCount, rfl, rfl⟩,
        ⟨.fpxCount, rfl, rfl⟩, ⟨.fpyCount, rfl, rfl⟩, ⟨.iscaleX, rfl, rfl⟩, ⟨.iscaleY, rfl, rfl⟩, ⟨.tabD0, rfl, rfl⟩,
        ⟨.tabD1, rfl, rfl⟩, ⟨.tabD2, rfl, rfl⟩, ⟨.id, rfl, rfl⟩, ⟨.capDim, rfl, rfl⟩, ⟨.capTab, rfl, rfl⟩,
        ⟨.capRow, rfl, rfl⟩, ⟨.capFp, rfl, rfl⟩]
    exact accessOn_write_of_readOnly Config.default hr v s

/-- Settles O11: the access is `writeReg`, whose frame is that of the register written. -/
theorem registerWriteStores : Obligations.RegisterWriteStores := by
  intro s r v hr
  exact ⟨writeReg r v s, accessOn_write_regOffset Config.default hr v s, fun hrw => readReg_writeReg_same hrw _ v s,
    fun hro => writeReg_of_readOnly hro v s, fun q hq h0 h1 h2 => readReg_writeReg_other hq h0 h1 h2 _ v s,
    writeReg_resultsKept r v s, writeReg_memoriesKept r v s, writeReg_mem s r v, writeReg_script s r v,
    writeReg_listing s r v⟩

/-- Settles O12: the offsets are legal, and no register stands there. -/
theorem reservedOffsetsInert : Obligations.ReservedOffsetsInert := by
  intro s o v hlo hhi halign
  have hok : windowAccessOk .bits32 o = true := windowAccessOk_iff.mpr ⟨rfl, halign, by omega⟩
  have hnone := regAt_of_reserved hlo
  rw [access_windowRead hok, access_windowWrite hok (by omega), readOffset, writeOffset, hnone]
  exact ⟨rfl, rfl⟩

/-- Settles O13. -/
theorem registerReadsHaveNoEffect : Obligations.RegisterReadsHaveNoEffect := fun s r =>
  ⟨access_read_regOffset r s, rfl⟩

/-- Settles O16: the three fields stand side by side. -/
theorem statusLayout : Obligations.StatusLayout := by
  intro s
  have hword : (readReg Config.default s .status).toNat =
      (if s.done = true then 2 else 0) + 16 * s.err.code + 256 * s.path.code := statusOf_toNat s.done s.err s.path
  have herr := s.err.code_lt
  have hpath := s.path.code_lt
  simp only [hword]
  split_ifs
  · omega
  · omega

/-- Settles O18. -/
theorem hostByteWriteReadsBack : Obligations.HostByteWriteReadsBack := by
  intro s a v ha
  refine ⟨{ s with mem := s.mem.write a v }, access_memWrite ha v s, rfl, ?_, fun b hb =>
    Memory.read_write_other _ v hb.symm⟩
  rw [access_memRead ha, Memory.read_write_same]
  rfl

/-! ### Reset -/

/-- Settles O20, register by register. -/
theorem resetValues : Obligations.ResetValues := by
  refine ⟨fun r hid hdim htab hrow hfp => ?_, rfl, rfl, rfl⟩
  cases r with
  | id => exact absurd rfl hid
  | capDim => exact absurd rfl hdim
  | capTab => exact absurd rfl htab
  | capRow => exact absurd rfl hrow
  | capFp => exact absurd rfl hfp
  | cmd | status | srcBase | srcWidth | srcHeight | srcStride | dstBase | dstWidth | dstHeight | dstStride | channels
  | xtabCount | ytabCount | ygrpCount | fpxCount | fpyCount | iscaleX | iscaleY | tabSel | tabIdx | tabD0 | tabD1
  | tabD2 => rfl

theorem platformReset_resultsClear (s : State) : ResultsClear (platformReset s) := ⟨rfl, rfl, rfl, rfl, rfl, rfl, rfl⟩

/-- The tables keep their unspecified contents over a reset, but with the counts at 0 no register shows them. -/
theorem readReg_platformReset (c : Config) (s : State) (r : Reg) :
    readReg c (platformReset s) r = readReg c State.reset r := by
  cases r with
  | tabD0 | tabD1 | tabD2 => exact (platformReset_resultsClear s).readTab_eq_zero _
  | cmd | status | srcBase | srcWidth | srcHeight | srcStride | dstBase | dstWidth | dstHeight | dstStride | channels
  | xtabCount | ytabCount | ygrpCount | fpxCount | fpyCount | iscaleX | iscaleY | tabSel | tabIdx | id | capDim
  | capTab | capRow | capFp => rfl

/-- Settles O21. -/
theorem platformResetRestoresRegisters : Obligations.PlatformResetRestoresRegisters := fun s =>
  ⟨platformReset s, rfl, readReg_platformReset _ s, rfl, ⟨rfl, rfl, rfl, rfl, rfl, rfl, rfl⟩, rfl, rfl⟩

/-- Settles O22: the base registers are 0 after reset, so V1 fails. -/
theorem resizeAfterReset : Obligations.ResizeAfterReset := by
  have herr : firstError .resize State.reset = some .invalidArgument := if_pos (.inl ⟨by decide, .inl rfl⟩)
  obtain ⟨t, ht, -, hstatus, -, hregs, -, hmem, -⟩ := exec_endsInError herr
  exact ⟨t, ht, hstatus, hmem, hregs⟩

/-! ### Words and scripts -/

/-- Settles O1. -/
theorem decodeReadsEncodedCommand : Obligations.DecodeReadsEncodedCommand := fun i _ => decode_encode i

/-- Settles O3: each word is the command's own (30_encoding.md R81), or one the decoder's table leaves out. -/
theorem opcodeMapWords : Obligations.OpcodeMapWords :=
  ⟨decode_eq_ok_iff.mpr rfl, decode_eq_ok_iff.mpr rfl, decode_eq_ok_iff.mpr rfl, decode_eq_ok_iff.mpr rfl,
    decode_eq_ok_iff.mpr rfl, decode_eq_ok_iff.mpr rfl, decode_eq_ok_iff.mpr rfl, decode_eq_ok_iff.mpr rfl,
    decode_eq_reservedOp_iff.mpr (by decide), decode_eq_reservedOp_iff.mpr (by decide),
    decode_eq_zeroFieldSet_iff.mpr (by decide)⟩

/-- Settles O5: the two lines are one access each, at the offsets of `CHANNELS` and `CMD`. -/
theorem scriptExampleEncodes : Obligations.ScriptExampleEncodes := rfl

end Sys2Proof.Machine
end

section
/-! The binary64 operations (00_scope.md R12; O57) and the blend of four samples (44_linear.md R179, R180; O51 to O53). -/

namespace Sys2Proof.Machine

/-! ### Doubles -/

/-- A double whose encoding holds a rounding of a number below `2^1023` is that number rounded once. -/
theorem roundedOnce_ofNat64 {n : ℕ} {q : ℚ} (hlt : |q| < 2 ^ 1023)
    (h : |q| < (2 : ℚ) ^ (binary64.bias : ℤ) → binary64.fin n ∧ binary64.val n = rnd binary64 q ∧
      n < 2 ^ (binary64.fracBits + binary64.expBits + 1)) : RoundedOnce binary64 (BitVec.ofNat 64 n).toNat q := by
  have hbias : |q| < (2 : ℚ) ^ (binary64.bias : ℤ) := by
    rw [bias_binary64, zpow_natCast]
    exact hlt
  obtain ⟨-, -, hlast⟩ := h hbias
  rw [toNat_ofNat64 hlast]
  exact roundedOnce_of_val binary64_good (by decide) hbias (h hbias)

/-- Settles O57: each operation encodes the rounding `rnd binary64` of its exact result, and a comparison compares the
values. -/
theorem doublesRoundOnce : Obligations.DoublesRoundOnce := by
  refine ⟨fun a b ha hb => ?_, fun n hn => ?_⟩
  · rw [isFinite_iff] at ha hb
    rw [f64Value_eq, f64Value_eq]
    refine ⟨fun hlt => roundedOnce_ofNat64 hlt (mul_val binary64_good ha hb),
      fun hlt => roundedOnce_ofNat64 hlt (add_val binary64_good ha hb),
      fun hlt => roundedOnce_ofNat64 hlt (sub_val binary64_good ha hb (toNat_lt64 b)),
      fun h0 hlt => roundedOnce_ofNat64 hlt (div_val binary64_good ha hb h0), f64Lt_iff ha hb, f64Le_iff ha hb, ?_⟩
    simp only [f64Min, f64Lt_iff hb ha]
  · have hn' : n.natAbs < 2 ^ 53 := by
      rw [Int.abs_eq_natAbs] at hn
      exact_mod_cast hn
    obtain ⟨hfin, hval⟩ := f64OfInt_val hn'
    exact ⟨(isFinite_iff _ _).mpr hfin, by rw [f64Value_eq, hval]⟩

/-! ### The blend -/

section
variable {a b : Byte} {x y : FixedEntry}

/-- Two equal samples, or one with full weight, blend to the sample in 11 fraction bits. -/
theorem blendRow_self (hx : x.w0 + x.w1 = 2048) : blendRow a a x = a.toNat * 2048 := by
  rw [blendRow, ← Nat.mul_add, hx]

theorem blendRow_first (h0 : x.w0 = 2048) (h1 : x.w1 = 0) : blendRow a b x = a.toNat * 2048 := by
  rw [blendRow, h0, h1, Nat.mul_zero, Nat.add_zero]

theorem blendRow_second (h0 : x.w0 = 0) (h1 : x.w1 = 2048) : blendRow a b x = b.toNat * 2048 := by
  rw [blendRow, h0, h1, Nat.mul_zero, Nat.zero_add]

/-- The shifts of a row that is one sample keep two fraction bits of its share. -/
theorem foldWeight_sample (w : ℕ) (a : Byte) : foldWeight w (a.toNat * 2048) = w * a.toNat / 512 := by
  have h16 : a.toNat * 2048 / 16 = a.toNat * 128 := by omega
  rw [foldWeight_eq, h16, show w * (a.toNat * 128) = w * a.toNat * 128 by ring,
    Nat.mul_div_mul_right _ 512 (show 0 < 128 by decide)]

theorem blendOut_of_quarters {v0 v1 : ℕ} (h : (v0 + v1 + 2) / 4 = a.toNat) : blendOut v0 v1 = a := by
  have ha := a.isLt
  refine BitVec.eq_of_toNat_eq ?_
  rw [blendOut, toNat_satU8, Int.toNat_natCast, Nat.shiftRight_eq_div_pow]
  omega

theorem blendOut_first (h0 : y.w0 = 2048) (h1 : y.w1 = 0) (h : ℕ) :
    blendOut (foldWeight y.w0 (a.toNat * 2048)) (foldWeight y.w1 h) = a := by
  refine blendOut_of_quarters ?_
  rw [foldWeight_sample, foldWeight_eq, h0, h1]
  omega

theorem blendOut_second (h0 : y.w0 = 0) (h1 : y.w1 = 2048) (h : ℕ) :
    blendOut (foldWeight y.w0 h) (foldWeight y.w1 (a.toNat * 2048)) = a := by
  refine blendOut_of_quarters ?_
  rw [foldWeight_sample, foldWeight_eq, h0, h1]
  omega

end

/-- Settles O51, stage by stage. -/
theorem blendStaysInRange : Obligations.BlendStaysInRange := by
  intro a b c d x y hx hy
  have hsum := foldWeight_add_le hy (blendRow_le a b hx) (blendRow_le c d hx)
  exact ⟨blendRow_le a b hx, blendRow_le c d hx, hsum, toNat_blendOut hsum⟩

/-- Settles O52, corner by corner. -/
theorem fullWeightReproducesSample : Obligations.FullWeightReproducesSample := by
  intro a b c d x y
  refine ⟨fun x0 x1 y0 y1 => ?_, fun x0 x1 y0 y1 => ?_, fun x0 x1 y0 y1 => ?_, fun x0 x1 y0 y1 => ?_⟩
  · rw [blendRow_first x0 x1]
    exact blendOut_first y0 y1 _
  · rw [blendRow_second x0 x1]
    exact blendOut_first y0 y1 _
  · rw [blendRow_first (a := c) x0 x1]
    exact blendOut_second y0 y1 _
  · rw [blendRow_second (b := d) x0 x1]
    exact blendOut_second y0 y1 _

/-- Settles O53: the two rows' shares of `4*a` lose less than 1 in truncation, which the rounding shift restores. -/
theorem equalSamplesBlendToThemselves : Obligations.EqualSamplesBlendToThemselves := by
  intro a x y hx hy
  rw [blendRow_self hx, foldWeight_sample, foldWeight_sample]
  refine blendOut_of_quarters ?_
  have hsum : y.w0 * a.toNat + y.w1 * a.toNat = 2048 * a.toNat := by rw [← Nat.add_mul, hy]
  omega

end Sys2Proof.Machine
end

section
/-! The weight table in exact numbers (41_weight_table.md R121 to R127): the doubles of an interval stay within `2^-31` of
the exact bounds of the cell, every entry weighs a part that is its overlap with the cell up to `2^-28`, and the parts
of a cell add up to its width but for the suppressed overlaps. -/

namespace Sys2Proof.Machine

/-! ### Roundings -/

/-- The absolute error of the rounding of a number of at most 2, however small. -/
theorem rnd64_abs_error {q : ℚ} (hq : |q| ≤ 2) : |rnd64 q - q| ≤ 1 / 2 ^ 52 := by
  rcases le_or_gt (1 / 2 ^ 100) |q| with hbig | hsmall
  · exact (rnd64_error (.inr hbig)).trans (by linarith)
  · have htiny : rnd64 (1 / 2 ^ 100) = 1 / 2 ^ 100 := by
      have h := rnd64_exact 1 (-100) (by norm_num) (by norm_num)
      norm_num at h ⊢
      exact h
    obtain ⟨hlo, hhi⟩ := abs_lt.mp hsmall
    have hup := rnd64_mono hhi.le
    have hdown := rnd64_mono hlo.le
    rw [rnd64_neg, htiny] at hdown
    rw [htiny] at hup
    rw [abs_le]
    constructor <;> linarith

theorem epsPart_close : |dVal epsPart - 1 / 1000| ≤ 1 / 2 ^ 52 := by
  have h : binary64.unpack epsPart.toNat = .finite false 0x10624DD2F1A9FC (-62) := by decide +kernel
  unfold dVal FloatFormat.val
  rw [h]
  simp only [FloatVal.toRat]
  norm_num [abs_le]

/-! ### The entries of a cell as weighed parts (R122 to R124) -/

/-- The overlap of the left partial entry (R122). -/
def Interval.leftPart (v : Interval) : F64 := f64Sub (f64OfInt v.sx1) v.fsx1

/-- The overlap of the right partial entry (R124), before it is cut. -/
def Interval.rightPart (v : Interval) : F64 := f64Sub v.fsx2 (f64OfInt v.sx2)

def Interval.leftParts (v : Interval) : List (ℤ × F64) :=
  if f64Lt epsPart v.leftPart then [(v.sx1 - 1, v.leftPart)] else []

def Interval.fullParts (v : Interval) : List (ℤ × F64) :=
  (List.range (v.sx2 - v.sx1).toNat).map fun (j : ℕ) => (v.sx1 + j, oneF64)

def Interval.rightParts (v : Interval) : List (ℤ × F64) :=
  if f64Lt epsPart v.rightPart then [(v.sx2, f64Min (f64Min v.rightPart oneF64) v.cw)] else []

/-- The source samples of a cell, each with the double that is divided by the cell's width to give its weight. -/
def Interval.parts (v : Interval) : List (ℤ × F64) := v.leftParts ++ v.fullParts ++ v.rightParts

/-- The entry of a part. -/
def Interval.entry (v : Interval) (cn dx : ℕ) (p : ℤ × F64) : WeightEntry where
  si := p.1.toNat * cn
  di := dx * cn
  alpha := f32OfF64 (f64Div p.2 v.cw)

theorem cellEntries_eq_parts (src cn : ℕ) (scale : F64) (dx : ℕ) :
    cellEntries src cn scale dx = (interval src scale dx).parts.map ((interval src scale dx).entry cn dx) := by
  unfold cellEntries Interval.parts
  simp only [List.map_append]
  generalize interval src scale dx = v
  have hleft : leftEntry cn dx v = v.leftParts.map (v.entry cn dx) := by
    by_cases hpass : f64Lt epsPart v.leftPart = true
    · rw [Interval.leftParts, if_pos hpass]
      exact if_pos hpass
    · rw [Interval.leftParts, if_neg hpass]
      exact if_neg hpass
  have hfull : fullEntries cn dx v = v.fullParts.map (v.entry cn dx) := by
    rw [Interval.fullParts, List.map_map]
    rfl
  have hright : rightEntry cn dx v = v.rightParts.map (v.entry cn dx) := by
    by_cases hpass : f64Lt epsPart v.rightPart = true
    · rw [Interval.rightParts, if_pos hpass]
      exact if_pos hpass
    · rw [Interval.rightParts, if_neg hpass]
      exact if_neg hpass
  rw [hleft, hfull, hright]

/-! ### The interval of a cell (R121) -/

/-- What is known of the doubles and the whole indices of a cell. -/
structure IntervalNear (src dst dx : ℕ) (v : Interval) : Prop where
  start_fin : dFin v.fsx1
  end_fin : dFin v.fsx2
  width_fin : dFin v.cw
  start_close : |dVal v.fsx1 - (dx : ℚ) * src / dst| ≤ 1 / 2 ^ 31
  end_close : |dVal v.fsx2 - ((dx : ℚ) + 1) * src / dst| ≤ 1 / 2 ^ 31
  width_close : |dVal v.cw - (src : ℚ) / dst| ≤ 1 / 2 ^ 31
  start_nonneg : 0 ≤ dVal v.fsx1
  first_nonneg : 0 ≤ v.sx1
  first_le : v.sx1 ≤ v.sx2
  last_le : v.sx2 ≤ (src : ℤ) - 1
  start_lt : (v.sx1 : ℚ) < dVal v.fsx1 + 1
  start_le : dVal v.fsx1 ≤ v.sx1 + 1 / 2 ^ 31
  end_ge : (v.sx2 : ℚ) ≤ dVal v.fsx2
  end_lt : dVal v.fsx2 < v.sx2 + 1 + 1 / 2 ^ 31
  first_le_of : ∀ z : ℤ, dVal v.fsx1 < z → v.sx1 ≤ z
  le_last_of : ∀ z : ℤ, z ≤ (src : ℤ) - 1 → (z : ℚ) ≤ dVal v.fsx2 → z ≤ v.sx2
  half_le_width : 1 / 2 ≤ dVal v.cw
  one_le_width : v.sx1 < v.sx2 → 1 ≤ dVal v.cw
  left_le_width : rnd64 (v.sx1 - dVal v.fsx1) ≤ dVal v.cw
  src_lt : src < 2 ^ 19
  scale_bounds : (1 : ℚ) ≤ (src : ℚ) / dst ∧ (src : ℚ) / dst ≤ src

section
variable {src dst dx : ℕ}

theorem BuildLengths.exact_scale (h : BuildLengths src dst) :
    (1 : ℚ) ≤ (src : ℚ) / dst ∧ (src : ℚ) / dst ≤ src := by
  have hdst : (1 : ℚ) ≤ dst := by exact_mod_cast h.dst_pos
  have hle : (dst : ℚ) ≤ src := by exact_mod_cast h.dst_le
  exact ⟨(one_le_div (by linarith)).mpr hle, div_le_self (by linarith) hdst⟩

theorem BuildLengths.start_close (h : BuildLengths src dst) (hdx : dx < dst) :
    |fsx1Q src dst dx - (dx : ℚ) * src / dst| ≤ 3 / 2 ^ 34 := by
  have hround := abs_le.mp (h.fsx1_close hdx.le)
  have hprod := abs_le.mp (h.product_close hdx.le).1
  rw [← mul_div_assoc] at hprod
  rw [abs_le]
  constructor <;> linarith

theorem BuildLengths.scale_near (h : BuildLengths src dst) : |scaleQ src dst - (src : ℚ) / dst| ≤ 1 / 2 ^ 34 := by
  obtain ⟨-, hle⟩ := h.exact_scale
  obtain ⟨-, hsrc⟩ := h.src_bounds
  exact h.scale_close.trans (by linarith)

/-- The exact end of a cell is at most the source's, so its start leaves room for the width. -/
theorem BuildLengths.exact_end (h : BuildLengths src dst) (hdx : dx < dst) :
    ((dx : ℚ) + 1) * src / dst = (dx : ℚ) * src / dst + (src : ℚ) / dst ∧ ((dx : ℚ) + 1) * src / dst ≤ src := by
  have hdst : (0 : ℚ) < dst := by exact_mod_cast h.dst_pos
  have hx : (dx : ℚ) + 1 ≤ dst := by exact_mod_cast hdx
  refine ⟨by ring, ?_⟩
  rw [div_le_iff₀ hdst, mul_comm (src : ℚ)]
  exact mul_le_mul_of_nonneg_right hx (by positivity)

theorem BuildLengths.width_close (h : BuildLengths src dst) (hdx : dx < dst) :
    |min (scaleQ src dst) (rnd64 (src - fsx1Q src dst dx)) - (src : ℚ) / dst| ≤ 1 / 2 ^ 31 := by
  have hscale := abs_le.mp h.scale_near
  have hstart := abs_le.mp (h.start_close hdx)
  obtain ⟨hend, hle⟩ := h.exact_end hdx
  obtain ⟨hone, -⟩ := h.exact_scale
  obtain ⟨-, hsrc⟩ := h.src_bounds
  have hstart0 := h.fsx1_nonneg dx
  have hroom : (src : ℚ) / dst - 3 / 2 ^ 34 ≤ src - fsx1Q src dst dx := by linarith
  have hround := rnd64_error (q := src - fsx1Q src dst dx) (.inr (by rw [abs_of_nonneg (by linarith)]; linarith))
  rw [abs_of_nonneg (by linarith : 0 ≤ src - fsx1Q src dst dx), abs_le] at hround
  rw [abs_le]
  constructor
  · have : (src : ℚ) / dst - 1 / 2 ^ 31 ≤ min (scaleQ src dst) (rnd64 (src - fsx1Q src dst dx)) :=
      le_min (by linarith) (by linarith)
    linarith
  · have := min_le_left (scaleQ src dst) (rnd64 (src - fsx1Q src dst dx))
    linarith

theorem BuildLengths.intervalNear (h : BuildLengths src dst) (hdx : dx < dst) :
    IntervalNear src dst dx (interval src (scaleOf (src : ℤ) (dst : ℤ)) dx) := by
  obtain ⟨hfin1, hval1, hfin2, hval2, hcw, hcwval, hlast, hfirst⟩ := h.interval_val hdx
  obtain ⟨hfirst0, hfirstle, hlastle⟩ := h.index_bounds hdx
  have hstart := h.start_close hdx
  have hscale := abs_le.mp h.scale_near
  have hend := abs_le.mp (h.fsx2_close hdx)
  obtain ⟨hexact, hexactle⟩ := h.exact_end hdx
  have hwidth := h.width_close hdx
  have hhalf := h.half_le_width hdx
  have hone := h.scale_ge_one
  have hstart0 := h.fsx1_nonneg dx
  have hstartle := h.fsx1_le hdx
  generalize interval src (scaleOf (src : ℤ) (dst : ℤ)) dx = v at *
  rw [← hval1] at hfirst hend hwidth hhalf hstart0 hstartle hcwval hstart
  rw [← hval2] at hlast hend
  rw [← hcwval] at hwidth hhalf
  have hstart' := abs_le.mp hstart
  have hceil : v.sx1 ≤ ⌈dVal v.fsx1⌉ := by rw [hfirst]; exact min_le_left _ _
  have hfloor : v.sx2 ≤ ⌊dVal v.fsx2⌋ := by rw [hlast]; exact min_le_left _ _
  have hlastq : (v.sx2 : ℚ) ≤ src - 1 := by exact_mod_cast hlastle
  have hfirstq : (v.sx1 : ℚ) ≤ v.sx2 := by exact_mod_cast hfirstle
  have hlt : (v.sx1 : ℚ) < dVal v.fsx1 + 1 :=
    lt_of_le_of_lt (by exact_mod_cast hceil) (Int.ceil_lt_add_one (dVal v.fsx1))
  have hlastlt : dVal v.fsx2 < v.sx2 + 1 + 1 / 2 ^ 31 := by
    rcases min_choice ⌊dVal v.fsx2⌋ ((src : ℤ) - 1) with hmin | hmin
    · rw [hlast, hmin]
      linarith [Int.lt_floor_add_one (dVal v.fsx2)]
    · rw [hlast, hmin]
      push_cast
      linarith
  have hstartlast : dVal v.fsx1 ≤ v.sx2 + 1 / 2 ^ 31 := by
    rcases min_choice ⌊dVal v.fsx2⌋ ((src : ℤ) - 1) with hmin | hmin
    · rw [hlast, hmin]
      linarith [Int.lt_floor_add_one (dVal v.fsx2)]
    · rw [hlast, hmin]
      push_cast
      linarith
  have hcwge {q : ℚ} (hq1 : q ≤ 1) (hq : q ≤ src - dVal v.fsx1) : rnd64 q ≤ dVal v.cw := by
    rw [hcwval]
    exact le_min ((rnd64_mono hq1).trans (rnd64_one.le.trans hone)) (rnd64_mono hq)
  exact {
    start_fin := hfin1
    end_fin := hfin2
    width_fin := hcw
    start_close := hstart.trans (by norm_num)
    end_close := by rw [abs_le]; constructor <;> linarith
    width_close := hwidth
    start_nonneg := hstart0
    first_nonneg := hfirst0
    first_le := hfirstle
    last_le := hlastle
    start_lt := hlt
    start_le := by
      rcases min_choice ⌈dVal v.fsx1⌉ v.sx2 with hmin | hmin
      · rw [hfirst, hmin]
        linarith [Int.le_ceil (dVal v.fsx1)]
      · rw [hfirst, hmin]
        exact hstartlast
    end_ge := Int.le_floor.mp hfloor
    end_lt := hlastlt
    first_le_of := fun z hz => hceil.trans (Int.ceil_le.mpr hz.le)
    le_last_of := fun z hsrc hz => by
      rw [hlast]
      exact le_min (Int.le_floor.mpr hz) hsrc
    half_le_width := hhalf
    one_le_width := fun hfull => by
      have hfullq : (v.sx1 : ℚ) + 1 ≤ v.sx2 := by exact_mod_cast hfull
      rw [← rnd64_one]
      refine hcwge le_rfl ?_
      have hfirstA : dVal v.fsx1 ≤ v.sx1 := by
        rw [hfirst, min_eq_left (by rw [hfirst] at hfull; omega)]
        exact Int.le_ceil _
      linarith
    left_le_width := hcwge (by linarith) (by linarith)
    src_lt := h.src_lt
    scale_bounds := h.exact_scale }

end

/-! ### The overlap of a sample with a cell -/

/-- The exact length of the common part of source sample `x` and the cell of `dx`. -/
def overlapQ (src dst dx : ℕ) (x : ℚ) : ℚ :=
  max 0 (min (x + 1) (((dx : ℚ) + 1) * src / dst) - max x ((dx : ℚ) * src / dst))

/-- The same in the doubles of the cell's bounds. -/
def Interval.overlap (v : Interval) (x : ℚ) : ℚ := max 0 (min (x + 1) (dVal v.fsx2) - max x (dVal v.fsx1))

/-- Lengths are integers over the destination length, so an overlap that is not `1/1000` keeps a distance from it. -/
theorem overlapQ_gap {src dst dx : ℕ} (hdst : 1 ≤ dst) (hle : dst ≤ 65535) (x : ℤ) :
    (overlapQ src dst dx x < 1 / 1000 → overlapQ src dst dx x ≤ 1 / 1000 - 1 / 65535000) ∧
    (1 / 1000 < overlapQ src dst dx x → 1 / 1000 + 1 / 65535000 ≤ overlapQ src dst dx x) := by
  have hd : (0 : ℚ) < dst := by exact_mod_cast hdst
  have hd' : (dst : ℚ) ≤ 65535 := by exact_mod_cast hle
  obtain ⟨k, hk⟩ : ∃ k : ℤ, overlapQ src dst dx x * dst = k := by
    refine ⟨max 0 (min ((x + 1) * dst) ((dx + 1) * src) - max (x * dst) (dx * src)), ?_⟩
    rw [overlapQ, max_mul_of_nonneg _ _ hd.le, sub_mul, min_mul_of_nonneg _ _ hd.le, max_mul_of_nonneg _ _ hd.le,
      div_mul_cancel₀ _ hd.ne', div_mul_cancel₀ _ hd.ne', zero_mul]
    push_cast
    rfl
  constructor
  · intro hlt
    have hint : (1000 * k : ℚ) < dst := by rw [← hk]; nlinarith
    have hint' : 1000 * k + 1 ≤ (dst : ℤ) := by exact_mod_cast hint
    have hint'' : (1000 * k + 1 : ℚ) ≤ dst := by exact_mod_cast hint'
    rw [← hk] at hint''
    by_contra hgt
    push Not at hgt
    nlinarith
  · intro hlt
    have hint : (dst : ℚ) < 1000 * k := by rw [← hk]; nlinarith
    have hint' : (dst : ℤ) + 1 ≤ 1000 * k := by exact_mod_cast hint
    have hint'' : (dst : ℚ) + 1 ≤ 1000 * k := by exact_mod_cast hint'
    rw [← hk] at hint''
    by_contra hgt
    push Not at hgt
    nlinarith

section
variable {src dst dx : ℕ} {v : Interval}

theorem IntervalNear.overlap_close (h : IntervalNear src dst dx v) (x : ℚ) :
    |overlapQ src dst dx x - v.overlap x| ≤ 1 / 2 ^ 30 := by
  have hstart := abs_max_sub_max_le_max x ((dx : ℚ) * src / dst) x (dVal v.fsx1)
  have hend := abs_min_sub_min_le_max (x + 1) (((dx : ℚ) + 1) * src / dst) (x + 1) (dVal v.fsx2)
  rw [sub_self, abs_zero] at hstart hend
  have hs := h.start_close
  have he := h.end_close
  rw [abs_sub_comm] at hs he
  obtain ⟨hs0, hs1⟩ := abs_le.mp (hstart.trans (max_le (by norm_num) hs))
  obtain ⟨he0, he1⟩ := abs_le.mp (hend.trans (max_le (by norm_num) he))
  refine (abs_max_sub_max_le_max _ _ _ _).trans (max_le (by norm_num) ?_)
  rw [abs_le]
  constructor <;> linarith

/-! ### The parts and the overlaps (R122 to R124) -/

theorem IntervalNear.first_val (h : IntervalNear src dst dx v) :
    dFin (f64OfInt v.sx1) ∧ dVal (f64OfInt v.sx1) = v.sx1 := by
  have := h.src_lt
  have := h.first_nonneg
  have := h.first_le
  have := h.last_le
  exact f64OfInt_val (by omega)

theorem IntervalNear.last_val (h : IntervalNear src dst dx v) :
    dFin (f64OfInt v.sx2) ∧ dVal (f64OfInt v.sx2) = v.sx2 := by
  have := h.src_lt
  have := h.first_nonneg
  have := h.first_le
  have := h.last_le
  exact f64OfInt_val (by omega)

/-- The left overlap is below 1, and not below 0 but for rounding. -/
theorem IntervalNear.leftPart_val (h : IntervalNear src dst dx v) :
    dFin v.leftPart ∧ dVal v.leftPart = rnd64 (v.sx1 - dVal v.fsx1) ∧
      |dVal v.leftPart - (v.sx1 - dVal v.fsx1)| ≤ 1 / 2 ^ 52 := by
  obtain ⟨hfin, hval⟩ := h.first_val
  have hlt := h.start_lt
  have hle := h.start_le
  have hsmall : |(v.sx1 : ℚ) - dVal v.fsx1| ≤ 2 := by rw [abs_le]; constructor <;> linarith
  obtain ⟨hpart, hpartval⟩ := f64Sub_val hfin h.start_fin (by rw [hval]; exact hsmall.trans (by norm_num))
  rw [hval] at hpartval
  exact ⟨hpart, hpartval, by rw [Interval.leftPart, hpartval]; exact rnd64_abs_error hsmall⟩

/-- The right overlap is at most 1 but for rounding. -/
theorem IntervalNear.rightPart_val (h : IntervalNear src dst dx v) :
    dFin v.rightPart ∧ |dVal v.rightPart - (dVal v.fsx2 - v.sx2)| ≤ 1 / 2 ^ 52 := by
  obtain ⟨hfin, hval⟩ := h.last_val
  have hge := h.end_ge
  have hlt := h.end_lt
  have hsmall : |dVal v.fsx2 - (v.sx2 : ℚ)| ≤ 2 := by rw [abs_le]; constructor <;> linarith
  obtain ⟨hpart, hpartval⟩ := f64Sub_val h.end_fin hfin (by rw [hval]; exact hsmall.trans (by norm_num))
  rw [hval] at hpartval
  exact ⟨hpart, by rw [Interval.rightPart, hpartval]; exact rnd64_abs_error hsmall⟩

/-- The double that stands for the right overlap in the weight. -/
theorem IntervalNear.rightCut_val (h : IntervalNear src dst dx v) :
    dFin (f64Min (f64Min v.rightPart oneF64) v.cw) ∧
      dVal (f64Min (f64Min v.rightPart oneF64) v.cw) = min (min (dVal v.rightPart) 1) (dVal v.cw) := by
  obtain ⟨hcut, hcutval⟩ := f64Min_val h.rightPart_val.1 one_val.1
  obtain ⟨hmin, hminval⟩ := f64Min_val hcut h.width_fin
  rw [hcutval, one_val.2] at hminval
  exact ⟨hmin, hminval⟩

/-- The cut changes the right overlap by rounding only: it is at most 1, as every width is at least 1. -/
theorem IntervalNear.rightCut_close (h : IntervalNear src dst dx v) :
    |dVal (f64Min (f64Min v.rightPart oneF64) v.cw) - (dVal v.fsx2 - v.sx2)| ≤ 1 / 2 ^ 29 := by
  obtain ⟨-, hpart⟩ := h.rightPart_val
  obtain ⟨hpart0, hpart1⟩ := abs_le.mp hpart
  obtain ⟨hwidth0, -⟩ := abs_le.mp h.width_close
  obtain ⟨hone, -⟩ := h.scale_bounds
  have hlt := h.end_lt
  rw [h.rightCut_val.2, abs_le]
  constructor
  · have : dVal v.fsx2 - v.sx2 - 1 / 2 ^ 29 ≤ min (min (dVal v.rightPart) 1) (dVal v.cw) :=
      le_min (le_min (by linarith) (by linarith)) (by linarith)
    linarith
  · have := (min_le_left (min (dVal v.rightPart) 1) (dVal v.cw)).trans (min_le_left _ _)
    linarith

/-- A part: a sample of the source, and a double between the threshold and the width of the cell that is the sample's
overlap with the cell, up to rounding. -/
structure Interval.IsPart (src : ℕ) (v : Interval) (p : ℤ × F64) : Prop where
  nonneg : 0 ≤ p.1
  lt : p.1 < src
  fin : dFin p.2
  passes : 1 / 1000 - 1 / 2 ^ 52 ≤ dVal p.2
  le_width : dVal p.2 ≤ dVal v.cw
  close : |dVal p.2 - v.overlap p.1| ≤ 1 / 2 ^ 28

theorem passes_iff {x : F64} (hx : dFin x) : f64Lt epsPart x = true ↔ dVal epsPart < dVal x :=
  f64Lt_iff epsPart_val.1 hx

theorem IntervalNear.left_isPart (h : IntervalNear src dst dx v) (hpass : f64Lt epsPart v.leftPart = true) :
    v.IsPart src (v.sx1 - 1, v.leftPart) := by
  obtain ⟨hfin, hval, hclose⟩ := h.leftPart_val
  rw [passes_iff hfin] at hpass
  obtain ⟨heps, -⟩ := abs_le.mp epsPart_close
  obtain ⟨hclose0, hclose1⟩ := abs_le.mp hclose
  have hlt := h.start_lt
  have hstart0 := h.start_nonneg
  have hend : (v.sx1 : ℚ) ≤ dVal v.fsx2 := le_trans (by exact_mod_cast h.first_le) h.end_ge
  have hpos : (0 : ℚ) < v.sx1 := by linarith
  have hpos' : 0 < v.sx1 := by exact_mod_cast hpos
  have hoverlap : v.overlap (v.sx1 - 1 : ℤ) = v.sx1 - dVal v.fsx1 := by
    rw [Interval.overlap, Int.cast_sub, Int.cast_one, sub_add_cancel, min_eq_left hend,
      max_eq_right (by linarith : (v.sx1 : ℚ) - 1 ≤ dVal v.fsx1), max_eq_right (by linarith)]
  have := h.first_le
  have := h.last_le
  exact {
    nonneg := by show 0 ≤ v.sx1 - 1; omega
    lt := by show v.sx1 - 1 < src; omega
    fin := hfin
    passes := by linarith
    le_width := hval ▸ h.left_le_width
    close := by rw [hoverlap]; exact hclose.trans (by norm_num) }

theorem IntervalNear.full_isPart (h : IntervalNear src dst dx v) {j : ℕ} (hj : j < (v.sx2 - v.sx1).toNat) :
    v.IsPart src (v.sx1 + j, oneF64) := by
  have hstart := h.start_le
  have hj' : v.sx1 + j + 1 ≤ v.sx2 := by omega
  have hend : (v.sx1 : ℚ) + j + 1 ≤ dVal v.fsx2 := le_trans (by exact_mod_cast hj') h.end_ge
  have hj0 : (0 : ℚ) ≤ j := by positivity
  have hoverlap : |1 - v.overlap (v.sx1 + j : ℤ)| ≤ 1 / 2 ^ 31 := by
    push_cast
    rw [Interval.overlap, min_eq_left hend]
    have hmax0 := le_max_left ((v.sx1 : ℚ) + j) (dVal v.fsx1)
    have hmax1 : max ((v.sx1 : ℚ) + j) (dVal v.fsx1) ≤ v.sx1 + j + 1 / 2 ^ 31 := max_le (by linarith) (by linarith)
    rw [max_eq_right (by linarith), abs_le]
    constructor <;> linarith
  have := h.first_nonneg
  have := h.last_le
  exact {
    nonneg := by show 0 ≤ v.sx1 + j; omega
    lt := by show v.sx1 + j < src; omega
    fin := one_val.1
    passes := by rw [one_val.2]; norm_num
    le_width := by rw [one_val.2]; exact h.one_le_width (by omega)
    close := by rw [one_val.2]; exact hoverlap.trans (by norm_num) }

theorem IntervalNear.right_isPart (h : IntervalNear src dst dx v) (hpass : f64Lt epsPart v.rightPart = true) :
    v.IsPart src (v.sx2, f64Min (f64Min v.rightPart oneF64) v.cw) := by
  obtain ⟨hfin, hclose⟩ := h.rightPart_val
  rw [passes_iff hfin] at hpass
  obtain ⟨hcutfin, hcutval⟩ := h.rightCut_val
  obtain ⟨hcut0, hcut1⟩ := abs_le.mp h.rightCut_close
  obtain ⟨heps, heps'⟩ := abs_le.mp epsPart_close
  obtain ⟨hclose0, hclose1⟩ := abs_le.mp hclose
  have hhalf := h.half_le_width
  have hend := h.end_lt
  have hstart : dVal v.fsx1 ≤ v.sx2 + 1 / 2 ^ 31 :=
    h.start_le.trans (by linarith [(Int.cast_le (R := ℚ)).mpr h.first_le])
  have hoverlap : |v.overlap v.sx2 - (dVal v.fsx2 - v.sx2)| ≤ 1 / 2 ^ 30 := by
    have hmin0 := min_le_right ((v.sx2 : ℚ) + 1) (dVal v.fsx2)
    have hmin1 : dVal v.fsx2 - 1 / 2 ^ 31 ≤ min ((v.sx2 : ℚ) + 1) (dVal v.fsx2) := le_min (by linarith) (by linarith)
    have hmax0 := le_max_left (v.sx2 : ℚ) (dVal v.fsx1)
    have hmax1 : max (v.sx2 : ℚ) (dVal v.fsx1) ≤ v.sx2 + 1 / 2 ^ 31 := max_le (by linarith) hstart
    rw [Interval.overlap, max_eq_right (by linarith), abs_le]
    constructor <;> linarith
  obtain ⟨hov0, hov1⟩ := abs_le.mp hoverlap
  exact {
    nonneg := h.first_nonneg.trans h.first_le
    lt := by have := h.last_le; show v.sx2 < src; omega
    fin := hcutfin
    passes := by rw [hcutval]; exact le_min (le_min (by linarith) (by linarith)) (by linarith)
    le_width := by rw [hcutval]; exact min_le_right _ _
    close := by rw [abs_le]; constructor <;> linarith }

theorem IntervalNear.isPart (h : IntervalNear src dst dx v) {p : ℤ × F64} (hp : p ∈ v.parts) : v.IsPart src p := by
  simp only [Interval.parts, List.mem_append] at hp
  rcases hp with (hleft | hfull) | hright
  · rw [Interval.leftParts] at hleft
    split at hleft
    · next hpass => rw [List.mem_singleton.mp hleft]; exact h.left_isPart hpass
    · cases hleft
  · obtain ⟨j, hj, rfl⟩ := List.mem_map.mp hfull
    exact h.full_isPart (List.mem_range.mp hj)
  · rw [Interval.rightParts] at hright
    split at hright
    · next hpass => rw [List.mem_singleton.mp hright]; exact h.right_isPart hpass
    · cases hright

/-- Every sample that overlaps the cell by more than the threshold and rounding is the sample of a part. -/
theorem IntervalNear.exists_part (h : IntervalNear src dst dx v) {z : ℤ} (hz : z < src)
    (hoverlap : 1 / 1000 + 1 / 2 ^ 50 ≤ v.overlap z) : ∃ p ∈ v.parts, p.1 = z := by
  obtain ⟨-, heps⟩ := abs_le.mp epsPart_close
  have hlong : 1 / 1000 + 1 / 2 ^ 50 ≤ min ((z : ℚ) + 1) (dVal v.fsx2) - max (z : ℚ) (dVal v.fsx1) := by
    rcases le_max_iff.mp hoverlap with hneg | hlong
    · norm_num at hneg
    · exact hlong
  have hmin0 := min_le_left ((z : ℚ) + 1) (dVal v.fsx2)
  have hmin1 := min_le_right ((z : ℚ) + 1) (dVal v.fsx2)
  have hmax0 := le_max_left (z : ℚ) (dVal v.fsx1)
  have hmax1 := le_max_right (z : ℚ) (dVal v.fsx1)
  have hfirst : v.sx1 ≤ z + 1 := h.first_le_of (z + 1) (by push_cast; linarith)
  have hlast : z ≤ v.sx2 := h.le_last_of z (by omega) (by linarith)
  simp only [Interval.parts, List.mem_append]
  rcases Int.lt_or_le z v.sx1 with hleft | hge
  · have hz1 : v.sx1 - 1 = z := by omega
    obtain ⟨hfin, -, hclose⟩ := h.leftPart_val
    have hcast : (v.sx1 : ℚ) = z + 1 := by rw [← hz1]; push_cast; ring
    have hpass : f64Lt epsPart v.leftPart = true := by
      rw [passes_iff hfin]
      linarith [(abs_le.mp hclose).1]
    refine ⟨(v.sx1 - 1, v.leftPart), .inl (.inl ?_), hz1⟩
    rw [Interval.leftParts, if_pos hpass]
    exact List.mem_singleton_self _
  · rcases Int.lt_or_eq_of_le hlast with hfull | rfl
    · refine ⟨(v.sx1 + (z - v.sx1).toNat, oneF64), .inl (.inr ?_), by show v.sx1 + _ = z; omega⟩
      exact List.mem_map.mpr ⟨(z - v.sx1).toNat, List.mem_range.mpr (by omega), rfl⟩
    · obtain ⟨hfin, hclose⟩ := h.rightPart_val
      have hpass : f64Lt epsPart v.rightPart = true := by
        rw [passes_iff hfin]
        linarith [(abs_le.mp hclose).1]
      refine ⟨(v.sx2, f64Min (f64Min v.rightPart oneF64) v.cw), .inr ?_, rfl⟩
      rw [Interval.rightParts, if_pos hpass]
      exact List.mem_singleton_self _

/-! ### The order of the samples (R125) -/

/-- The samples of the parts are consecutive. -/
theorem IntervalNear.parts_consecutive (h : IntervalNear src dst dx v) :
    ∃ first : ℕ, v.parts.map Prod.fst = (List.range v.parts.length).map fun j : ℕ => (first + j : ℤ) := by
  obtain ⟨n, hn⟩ : ∃ n : ℕ, v.sx2 = v.sx1 + n := ⟨(v.sx2 - v.sx1).toNat, by have := h.first_le; omega⟩
  obtain ⟨k, hk⟩ : ∃ k : ℕ, v.sx1 = k := ⟨v.sx1.toNat, by have := h.first_nonneg; omega⟩
  have hfull : (v.fullParts ++ v.rightParts).map Prod.fst =
      (List.range (v.fullParts ++ v.rightParts).length).map fun j : ℕ => (k + j : ℤ) := by
    have hlen : (v.sx2 - v.sx1).toNat = n := by omega
    unfold Interval.fullParts Interval.rightParts
    rw [hlen]
    split_ifs
    · simp [List.range_succ, hk, hn, Function.comp_def]
    · simp [hk, Function.comp_def]
  rw [Interval.parts, List.append_assoc]
  by_cases hpass : f64Lt epsPart v.leftPart = true
  · have hpart := (h.left_isPart hpass).nonneg
    refine ⟨k - 1, ?_⟩
    rw [Interval.leftParts, if_pos hpass, List.singleton_append, List.map_cons, hfull, List.length_cons,
      List.range_succ_eq_map, List.map_cons, List.map_map]
    have hk1 : 1 ≤ k := by
      have : 0 ≤ v.sx1 - 1 := hpart
      omega
    congr 1
    · push_cast [hk1]
      omega
    · refine List.map_congr_left fun j _ => ?_
      simp only [Function.comp_apply]
      push_cast [hk1]
      ring
  · exact ⟨k, by rw [Interval.leftParts, if_neg hpass, List.nil_append, hfull]⟩

/-! ### The parts fill the cell (R127) -/

theorem IntervalNear.leftParts_sum (h : IntervalNear src dst dx v) :
    |(v.leftParts.map fun p => dVal p.2).sum - (v.sx1 - dVal v.fsx1)| ≤ 1001 / 1000000 := by
  obtain ⟨hfin, -, hclose⟩ := h.leftPart_val
  obtain ⟨-, heps⟩ := abs_le.mp epsPart_close
  obtain ⟨hclose0, hclose1⟩ := abs_le.mp hclose
  by_cases hpass : f64Lt epsPart v.leftPart = true
  · rw [Interval.leftParts, if_pos hpass, List.map_singleton, List.sum_singleton]
    exact hclose.trans (by norm_num)
  · rw [Interval.leftParts, if_neg hpass, List.map_nil, List.sum_nil]
    rw [passes_iff hfin] at hpass
    have := h.start_le
    rw [abs_le]
    constructor <;> linarith

theorem IntervalNear.rightParts_sum (h : IntervalNear src dst dx v) :
    |(v.rightParts.map fun p => dVal p.2).sum - (dVal v.fsx2 - v.sx2)| ≤ 1001 / 1000000 := by
  obtain ⟨hfin, hclose⟩ := h.rightPart_val
  obtain ⟨-, heps⟩ := abs_le.mp epsPart_close
  obtain ⟨hclose0, hclose1⟩ := abs_le.mp hclose
  by_cases hpass : f64Lt epsPart v.rightPart = true
  · rw [Interval.rightParts, if_pos hpass, List.map_singleton, List.sum_singleton]
    exact h.rightCut_close.trans (by norm_num)
  · rw [Interval.rightParts, if_neg hpass, List.map_nil, List.sum_nil]
    rw [passes_iff hfin] at hpass
    have := h.end_ge
    rw [abs_le]
    constructor <;> linarith

theorem IntervalNear.fullParts_sum (h : IntervalNear src dst dx v) :
    (v.fullParts.map fun p => dVal p.2).sum = v.sx2 - v.sx1 := by
  have hle := h.first_le
  rw [Interval.fullParts, List.map_map]
  simp only [Function.comp_def, one_val.2, List.map_const', List.sum_replicate, List.length_range, nsmul_eq_mul, mul_one]
  have hcast : (((v.sx2 - v.sx1).toNat : ℤ) : ℚ) = ((v.sx2 - v.sx1 : ℤ) : ℚ) := by rw [Int.toNat_of_nonneg (by omega)]
  rw [Int.cast_natCast] at hcast
  rw [hcast, Int.cast_sub]

/-- The parts of a cell add up to its width, but for two suppressed overlaps. -/
theorem IntervalNear.parts_sum (h : IntervalNear src dst dx v) :
    |(v.parts.map fun p => dVal p.2).sum - dVal v.cw| ≤ 2003 / 1000000 := by
  obtain ⟨hleft0, hleft1⟩ := abs_le.mp h.leftParts_sum
  obtain ⟨hright0, hright1⟩ := abs_le.mp h.rightParts_sum
  obtain ⟨hstart0, hstart1⟩ := abs_le.mp h.start_close
  obtain ⟨hend0, hend1⟩ := abs_le.mp h.end_close
  obtain ⟨hwidth0, hwidth1⟩ := abs_le.mp h.width_close
  have hexact : ((dx : ℚ) + 1) * src / dst = (dx : ℚ) * src / dst + (src : ℚ) / dst := by ring
  rw [Interval.parts, List.map_append, List.map_append, List.sum_append, List.sum_append, h.fullParts_sum, abs_le]
  constructor <;> linarith

theorem IntervalNear.parts_ne_nil (h : IntervalNear src dst dx v) : v.parts ≠ [] := by
  intro hnil
  have hsum := h.parts_sum
  have hhalf := h.half_le_width
  rw [hnil, List.map_nil, List.sum_nil, zero_sub, abs_neg, abs_of_nonneg (by linarith)] at hsum
  linarith

/-! ### The weights -/

/-- A weight is its part over the width of the cell, rounded twice. -/
theorem IntervalNear.weight_val (h : IntervalNear src dst dx v) {p : ℤ × F64} (hp : v.IsPart src p) :
    0 < sVal (f32OfF64 (f64Div p.2 v.cw)) ∧ sVal (f32OfF64 (f64Div p.2 v.cw)) ≤ 1 ∧
      |sVal (f32OfF64 (f64Div p.2 v.cw)) - dVal p.2 / dVal v.cw| ≤ dVal p.2 / dVal v.cw / 2 ^ 23 := by
  have hhalf := h.half_le_width
  have hpass := hp.passes
  have hle := hp.le_width
  obtain ⟨-, hwidth⟩ := abs_le.mp h.width_close
  obtain ⟨-, hscale⟩ := h.scale_bounds
  have hsrc : (src : ℚ) < 2 ^ 19 := by exact_mod_cast h.src_lt
  have hW : 0 < dVal v.cw := by linarith
  have hq1 : dVal p.2 / dVal v.cw ≤ 1 := (div_le_one hW).mpr hle
  have hq0 : 1 / 2 ^ 30 ≤ dVal p.2 / dVal v.cw := by
    rw [le_div_iff₀ hW]
    linarith
  generalize hq : dVal p.2 / dVal v.cw = q at hq0 hq1 ⊢
  have habs : |q| = q := abs_of_nonneg (by linarith)
  obtain ⟨hfin, hval⟩ := f64Div_val hp.fin h.width_fin hW.ne' (by rw [hq, habs]; linarith)
  rw [hq] at hval
  have herr64 := rnd64_error (q := q) (.inr (by rw [habs]; linarith))
  rw [habs] at herr64
  obtain ⟨hlo64, hhi64⟩ := abs_le.mp herr64
  have hle64 : rnd64 q ≤ 1 := rnd64_one ▸ rnd64_mono hq1
  have habs64 : |rnd64 q| = rnd64 q := abs_of_nonneg (by linarith)
  obtain ⟨-, hval32⟩ := f32OfF64_val hfin (by rw [hval, habs64]; linarith)
  rw [hval] at hval32
  have herr32 := rnd32_error (q := rnd64 q) (.inr (by rw [habs64]; linarith))
  rw [habs64] at herr32
  obtain ⟨hlo32, hhi32⟩ := abs_le.mp herr32
  rw [hval32]
  refine ⟨by linarith, rnd32_one ▸ rnd32_mono hle64, ?_⟩
  rw [abs_le]
  constructor <;> linarith

/-- Weights that follow their parts add up as these do. -/
theorem sum_close {α : Type} (l : List α) (f g : α → ℚ) {ε : ℚ} (h : ∀ p ∈ l, |f p - g p| ≤ g p * ε) :
    |(l.map f).sum - (l.map g).sum| ≤ (l.map g).sum * ε := by
  induction l with
  | nil => simp
  | cons p l ih =>
    obtain ⟨hp0, hp1⟩ := abs_le.mp (h p List.mem_cons_self)
    obtain ⟨hl0, hl1⟩ := abs_le.mp (ih fun q hq => h q (List.mem_cons_of_mem p hq))
    simp only [List.map_cons, List.sum_cons]
    rw [abs_le]
    constructor <;> linarith

theorem IntervalNear.weights_sum (h : IntervalNear src dst dx v) :
    |(v.parts.map fun p => sVal (f32OfF64 (f64Div p.2 v.cw))).sum - 1| ≤ 1 / 400 := by
  have hclose := sum_close v.parts (fun p => sVal (f32OfF64 (f64Div p.2 v.cw))) (fun p => dVal p.2 / dVal v.cw)
    (ε := 1 / 2 ^ 23) fun p hp => by
      obtain ⟨-, -, hweight⟩ := h.weight_val (h.isPart hp)
      rwa [mul_one_div]
  have hdiv : (v.parts.map fun p => dVal p.2 / dVal v.cw).sum = (v.parts.map fun p => dVal p.2).sum / dVal v.cw := by
    simp only [div_eq_mul_inv, List.sum_map_mul_right]
  obtain ⟨hwidth, -⟩ := abs_le.mp h.width_close
  obtain ⟨hone, -⟩ := h.scale_bounds
  have hW : 0 < dVal v.cw := by linarith
  obtain ⟨hsum0, hsum1⟩ := abs_le.mp h.parts_sum
  have hlo : 1 - 2004 / 1000000 ≤ (v.parts.map fun p => dVal p.2).sum / dVal v.cw := by
    rw [le_div_iff₀ hW]
    linarith
  have hhi : (v.parts.map fun p => dVal p.2).sum / dVal v.cw ≤ 1 + 2004 / 1000000 := by
    rw [div_le_iff₀ hW]
    linarith
  rw [hdiv] at hclose
  obtain ⟨hclose0, hclose1⟩ := abs_le.mp hclose
  rw [abs_le]
  constructor <;> linarith

end

end Sys2Proof.Machine
end

section
/-! The statements on the weight tables (41_weight_table.md R120 to R130; O38, O40, O41, O59), from the parts of a cell. -/

namespace Sys2Proof.Machine

section
variable {src dst cn dx : ℕ}

theorem buildLengths_of_le (hdst : 1 ≤ dst) (hle : dst ≤ src) (hsrc : src ≤ 65535) : BuildLengths src dst :=
  ⟨hdst, hle, by omega⟩

/-- The entries of a cell step through the source by the channel count (R125). -/
theorem BuildLengths.cell_si (h : BuildLengths src dst) (hdx : dx < dst) (cn : ℕ) :
    ∃ first : ℕ, (cellEntries src cn (scaleOf (src : ℤ) (dst : ℤ)) dx).map WeightEntry.si =
      (List.range (cellEntries src cn (scaleOf (src : ℤ) (dst : ℤ)) dx).length).map fun j => (first + j) * cn := by
  obtain ⟨first, hfirst⟩ := (h.intervalNear hdx).parts_consecutive
  refine ⟨first, ?_⟩
  rw [cellEntries_eq_parts]
  generalize interval src (scaleOf (src : ℤ) (dst : ℤ)) dx = v at *
  have hsi : WeightEntry.si ∘ v.entry cn dx = (fun z : ℤ => z.toNat * cn) ∘ Prod.fst := rfl
  rw [List.map_map, hsi, ← List.map_map, hfirst, List.map_map, List.length_map]
  refine List.map_congr_left fun j _ => ?_
  show (first + j : ℤ).toNat * cn = _
  congr 1

theorem BuildLengths.cell_ne_nil (h : BuildLengths src dst) (hdx : dx < dst) (cn : ℕ) :
    cellEntries src cn (scaleOf (src : ℤ) (dst : ℤ)) dx ≠ [] := by
  rw [cellEntries_eq_parts]
  exact fun hnil => (h.intervalNear hdx).parts_ne_nil (List.map_eq_nil_iff.mp hnil)

theorem BuildLengths.cell_step (h : BuildLengths src dst) (hdx : dx < dst) {k : ℕ} {e f : WeightEntry}
    (he : (cellEntries src cn (scaleOf (src : ℤ) (dst : ℤ)) dx)[k]? = some e)
    (hf : (cellEntries src cn (scaleOf (src : ℤ) (dst : ℤ)) dx)[k + 1]? = some f) : f.si = e.si + cn := by
  obtain ⟨first, hfirst⟩ := h.cell_si hdx cn
  generalize cellEntries src cn (scaleOf (src : ℤ) (dst : ℤ)) dx = cell at *
  have hsi {j : ℕ} {g : WeightEntry} (hg : cell[j]? = some g) : g.si = (first + j) * cn := by
    have hj : j < cell.length := (List.getElem?_eq_some_iff.mp hg).1
    have hget := congrArg (·[j]?) hfirst
    simp only [List.getElem?_map, hg, List.getElem?_range hj, Option.map_some] at hget
    exact Option.some.inj hget
  rw [hsi he, hsi hf]
  ring

theorem BuildLengths.cell_ascending (h : BuildLengths src dst) (hdx : dx < dst) (hcn : 1 ≤ cn) :
    ((cellEntries src cn (scaleOf (src : ℤ) (dst : ℤ)) dx).map WeightEntry.si).Pairwise (· < ·) := by
  obtain ⟨first, hfirst⟩ := h.cell_si hdx cn
  rw [hfirst, List.pairwise_map]
  exact List.pairwise_lt_range.imp fun hlt => Nat.mul_lt_mul_of_pos_right (by omega) hcn

/-- An entry of a cell is that of a part. -/
theorem BuildLengths.cell_part (h : BuildLengths src dst) (hdx : dx < dst) {e : WeightEntry}
    (he : e ∈ cellEntries src cn (scaleOf (src : ℤ) (dst : ℤ)) dx) :
    ∃ p, (interval src (scaleOf (src : ℤ) (dst : ℤ)) dx).IsPart src p ∧
      e = (interval src (scaleOf (src : ℤ) (dst : ℤ)) dx).entry cn dx p := by
  rw [cellEntries_eq_parts] at he
  obtain ⟨p, hp, rfl⟩ := List.mem_map.mp he
  exact ⟨p, (h.intervalNear hdx).isPart hp, rfl⟩

/-- A part's overlap is not below the threshold: the next value below it would be too far away. -/
theorem IntervalNear.overlap_ge {v : Interval} (h : IntervalNear src dst dx v) (hdst : 1 ≤ dst) (hle : dst ≤ 65535)
    {p : ℤ × F64} (hp : v.IsPart src p) :
    1 / 1000 ≤ overlapQ src dst dx p.1 ∧ |dVal p.2 - overlapQ src dst dx p.1| ≤ 1 / 2 ^ 27 := by
  obtain ⟨hov0, hov1⟩ := abs_le.mp (h.overlap_close p.1)
  obtain ⟨hclose0, hclose1⟩ := abs_le.mp hp.close
  have hpass := hp.passes
  refine ⟨?_, by rw [abs_le]; constructor <;> linarith⟩
  by_contra hlt
  have := (overlapQ_gap (src := src) (dx := dx) hdst hle p.1).1 (not_le.mp hlt)
  linarith

/-- A weight times the exact width of the cell is the exact overlap, up to rounding. -/
theorem IntervalNear.weight_overlap {v : Interval} (h : IntervalNear src dst dx v) {p : ℤ × F64}
    (hp : v.IsPart src p) (hclose : |dVal p.2 - overlapQ src dst dx p.1| ≤ 1 / 2 ^ 27) :
    |sVal (f32OfF64 (f64Div p.2 v.cw)) * ((src : ℚ) / dst) - overlapQ src dst dx p.1| ≤ 1 / 1000000 := by
  obtain ⟨hpos, hone, herr⟩ := h.weight_val hp
  obtain ⟨hclose0, hclose1⟩ := abs_le.mp hclose
  obtain ⟨hwidth0, hwidth1⟩ := abs_le.mp h.width_close
  have hhalf := h.half_le_width
  have hW : 0 < dVal v.cw := by linarith
  generalize sVal (f32OfF64 (f64Div p.2 v.cw)) = weight at *
  have hpart : dVal p.2 ≤ 1 + 1 / 2 ^ 26 := by
    have hov : overlapQ src dst dx p.1 ≤ 1 := by
      have := min_le_left ((p.1 : ℚ) + 1) (((dx : ℚ) + 1) * src / dst)
      have := le_max_left (p.1 : ℚ) ((dx : ℚ) * src / dst)
      exact max_le (by norm_num) (by linarith)
    linarith
  have hweight : |weight * dVal v.cw - dVal p.2| ≤ dVal p.2 / 2 ^ 23 := by
    have hscaled := mul_le_mul_of_nonneg_right herr hW.le
    rwa [← abs_of_pos hW, ← abs_mul, abs_of_pos hW, sub_mul, div_mul_cancel₀ _ hW.ne', div_right_comm,
      div_mul_cancel₀ _ hW.ne'] at hscaled
  obtain ⟨hweight0, hweight1⟩ := abs_le.mp hweight
  have hshift0 : weight * ((src : ℚ) / dst) ≤ weight * dVal v.cw + 1 / 2 ^ 31 := by nlinarith
  have hshift1 : weight * dVal v.cw ≤ weight * ((src : ℚ) / dst) + 1 / 2 ^ 31 := by nlinarith
  rw [abs_le]
  constructor <;> linarith

end

/-- A block of every destination index is the range of the source. -/
theorem flatMap_blocks {α : Type} (f : ℕ → ℕ → α) (k d : ℕ) (hk : 1 ≤ k) :
    ((List.range d).flatMap fun dx => (List.range k).map fun j => f dx (dx * k + j)) =
      (List.range (k * d)).map fun sx => f (sx / k) sx := by
  induction d with
  | zero => rfl
  | succ d ih =>
    rw [List.range_succ, List.flatMap_append, ih, List.flatMap_singleton, Nat.mul_succ, List.range_add, List.map_append,
      List.map_map, Nat.mul_comm d k]
    congr 1
    refine List.map_congr_left fun j hj => ?_
    have hdiv : (k * d + j) / k = d := by
      rw [Nat.mul_add_div hk, Nat.div_eq_of_lt (List.mem_range.mp hj), Nat.add_zero]
    rw [Function.comp_apply, hdiv]

/-- Settles O40: each cell is the block of its index. -/
theorem integerRatioWeightTable : Obligations.IntegerRatioWeightTable := by
  intro k d cn hk hd hle _ _
  have hcells : emittedEntries (k * d) d cn (scaleOf ((k * d : ℕ) : ℤ) (d : ℤ)) =
      (List.range d).flatMap fun dx => (List.range k).map fun j => ⟨(dx * k + j) * cn, dx * cn, factorWeight k⟩ :=
    List.flatMap_congr fun dx hdx => cellEntries_of_factor hk (by omega) (List.mem_range.mp hdx)
  rw [hcells]
  exact flatMap_blocks (fun dx sx => (⟨sx * cn, dx * cn, factorWeight k⟩ : WeightEntry)) k d hk

/-- Settles O41: the weights are those of the parts, which fill the cell but for two suppressed overlaps. -/
theorem weightsOfACellSumToOne : Obligations.WeightsOfACellSumToOne := by
  intro src dst cn dx hdst hle hsrc _ _ hdx
  have hlen := buildLengths_of_le hdst hle hsrc
  have hnear := hlen.intervalNear hdx
  have hweights : (fun e => f32Value e.alpha) ∘ (interval src (scaleOf (src : ℤ) (dst : ℤ)) dx).entry cn dx =
      fun p => sVal (f32OfF64 (f64Div p.2 (interval src (scaleOf (src : ℤ) (dst : ℤ)) dx).cw)) :=
    funext fun p => f32Value_eq _
  rw [cellEntries_eq_parts, List.map_map, hweights]
  refine ⟨fun x hx => ?_, hnear.weights_sum⟩
  obtain ⟨p, hp, rfl⟩ := List.mem_map.mp hx
  obtain ⟨hpos, hone, -⟩ := hnear.weight_val (hnear.isPart hp)
  exact ⟨hpos, hone⟩

/-- Settles O59: the table is the cells in order, and a cell's entries are its parts. -/
theorem weightEntriesFollowOverlaps : Obligations.WeightEntriesFollowOverlaps := by
  intro src dst cn hdst hle hsrc hcn _
  have hlen := buildLengths_of_le hdst hle hsrc
  refine ⟨rfl, fun dx hdx => ⟨hlen.cell_ascending hdx hcn, fun e he => ?_, fun sx hsx hover => ?_⟩⟩
  · obtain ⟨p, hp, rfl⟩ := hlen.cell_part hdx he
    obtain ⟨hge, hclose⟩ := (hlen.intervalNear hdx).overlap_ge hdst (hle.trans hsrc) hp
    have hlt := hp.lt
    have hcast : (p.1 : ℚ) = (p.1.toNat : ℚ) := by exact_mod_cast (Int.toNat_of_nonneg hp.nonneg).symm
    have hweight := (hlen.intervalNear hdx).weight_overlap hp hclose
    rw [← f32Value_eq, hcast] at hweight
    rw [hcast] at hge
    exact ⟨rfl, p.1.toNat, by omega, rfl, hge, hweight⟩
  · have hgap := (overlapQ_gap (src := src) (dx := dx) hdst (hle.trans hsrc) sx).2 hover
    have hclose := abs_le.mp ((hlen.intervalNear hdx).overlap_close sx)
    obtain ⟨p, hp, hpx⟩ := (hlen.intervalNear hdx).exists_part (z := sx) (by omega) (by push_cast at *; linarith)
    refine ⟨(interval src (scaleOf (src : ℤ) (dst : ℤ)) dx).entry cn dx p, ?_, ?_⟩
    · rw [cellEntries_eq_parts]
      exact List.mem_map_of_mem hp
    · show p.1.toNat * cn = sx * cn
      rw [hpx, Int.toNat_natCast]

end Sys2Proof.Machine
end

section
/-! What an accepted command leaves in its tables (40_command_common.md R111; O29, O38, O39, O47). -/

namespace Sys2Proof.Machine

/-! ### The rows of a vertical table (41_weight_table.md R128) -/

/-- Where the entries of destination row `dy` begin in the vertical table. -/
def rowBound (src : ℕ) (scale : F64) (dy : ℕ) : ℕ := ((List.range dy).flatMap (cellEntries src 1 scale)).length

section
variable {src dh dy : ℕ} {scale : F64}

@[simp] theorem rowBound_zero (src : ℕ) (scale : F64) : rowBound src scale 0 = 0 := rfl

theorem rowBound_succ (src : ℕ) (scale : F64) (dy : ℕ) :
    rowBound src scale (dy + 1) = rowBound src scale dy + (cellEntries src 1 scale dy).length := by
  simp only [rowBound, List.range_succ, List.flatMap_append, List.flatMap_singleton, List.length_append]

/-- The vertical table is the rows before `dy`, the row `dy`, and the rest. -/
theorem emittedEntries_split (src : ℕ) (scale : F64) (hdy : dy < dh) :
    ∃ rest, emittedEntries src dh 1 scale =
      (List.range dy).flatMap (cellEntries src 1 scale) ++ (cellEntries src 1 scale dy ++ rest) := by
  obtain ⟨more, rfl⟩ := Nat.exists_eq_add_of_lt hdy
  refine ⟨(List.range more).flatMap fun j : ℕ => cellEntries src 1 scale (dy + 1 + j), ?_⟩
  rw [emittedEntries, Nat.add_right_comm, List.range_add, List.flatMap_append, List.range_succ, List.flatMap_append,
    List.flatMap_singleton, List.flatMap_map, List.append_assoc]

/-- The run of row `dy` is where its entries stand. -/
theorem groupIndex_getElem? (src : ℕ) (scale : F64) (hdy : dy < dh) :
    (groupIndex (emittedEntries src dh 1 scale) dh)[dy]? = some ⟨rowBound src scale dy, rowBound src scale (dy + 1)⟩ := by
  have hdi : ∀ d, ∀ e ∈ cellEntries src 1 scale d, e.di = d := fun d e he => by
    rw [cellEntries_di _ _ _ _ he, Nat.mul_one]
  obtain ⟨g, hg⟩ : ∃ g, (groupIndex (emittedEntries src dh 1 scale) dh)[dy]? = some g :=
    ⟨_, List.getElem?_eq_getElem (by simpa using hdy)⟩
  have hscan := hg
  unfold groupIndex emittedEntries at hscan
  rw [List.range_eq_range'] at hscan
  obtain ⟨hstart, hstop⟩ := groupScan_blocks (cellEntries src 1 scale) hdi dh 0 0 dy hdy g hscan
  rw [Nat.zero_add, ← List.range_eq_range'] at hstart
  rw [Nat.zero_add, hstart] at hstop
  rw [hg, rowBound_succ]
  exact congrArg some (congrArg₂ RunEntry.mk hstart hstop)

end

section
variable {i : Instr} {s : State}

theorem Accepted.lengthsX (ha : Accepted i s) (h : commandPath i s = .gen ∨ i = .wtabX) :
    BuildLengths (s32 s.srcWidth).toNat (s32 s.dstWidth).toNat := by
  obtain ⟨hdw, hle, hcap⟩ := ha.weightsX h
  exact buildLengths_of_le (by omega) (by omega) (by omega)

theorem Accepted.lengthsY (ha : Accepted i s) (h : commandPath i s = .gen ∨ i = .wtabY) :
    BuildLengths (s32 s.srcHeight).toNat (s32 s.dstHeight).toNat := by
  obtain ⟨hdh, hle, hcap⟩ := ha.weightsY h
  exact buildLengths_of_le (by omega) (by omega) (by omega)

/-- A command that builds the vertical table leaves runs that tile it (R128, R151). -/
theorem Accepted.runsTile (ha : Accepted i s) (h : commandPath i s = .gen ∨ i = .wtabY) :
    runsTile s (finalState i (clearResults s)) := by
  have hlen := ha.lengthsY h
  obtain ⟨hytab, hcount⟩ := ha.memoriesAfter.ytab.written h
  obtain ⟨hygrp, -⟩ := ha.memoriesAfter.ygrp.written h
  refine ⟨rowBound (s32 s.srcHeight).toNat (scaleOf (s32 s.srcHeight) (s32 s.dstHeight)), rowBound_zero _ _,
    hcount.symm, fun dy hdy => ?_⟩
  have hrow := groupIndex_getElem? (s32 s.srcHeight).toNat (scaleOf (s32 s.srcHeight) (s32 s.dstHeight)) hdy
  obtain ⟨rest, hsplit⟩ := emittedEntries_split (s32 s.srcHeight).toNat
    (scaleOf (s32 s.srcHeight) (s32 s.dstHeight)) hdy
  have hne := hlen.cell_ne_nil hdy 1
  rw [← hlen.scaleOf_eq] at hne
  have htable : (finalState i (clearResults s)).ytab = (List.range dy).flatMap (cellEntries (s32 s.srcHeight).toNat 1
      (scaleOf (s32 s.srcHeight) (s32 s.dstHeight))) ++ (cellEntries (s32 s.srcHeight).toNat 1
      (scaleOf (s32 s.srcHeight) (s32 s.dstHeight)) dy ++ (rest ++ s.ytab.drop (tableY (operands Config.default s)).length)) := by
    rw [hytab, overlay, ← List.append_assoc, ← List.append_assoc, List.append_assoc _ _ rest]
    exact congrArg (· ++ _) hsplit
  rw [rowBound_succ] at hrow ⊢
  refine ⟨Nat.lt_add_of_pos_right (List.length_pos_iff.mpr hne), ?_, ?_, fun k e hk hk' he => ?_⟩
  · rw [hygrp, overlay_getElem?, if_pos (by simpa using hdy)]
    exact hrow
  · rw [htable, rowBound, List.drop_left, Nat.add_sub_cancel_left, List.take_left]
  · rw [rowBound] at hk hk'
    rw [htable, List.getElem?_append_right hk, List.getElem?_append_left (by omega)] at he
    rw [cellEntries_di _ _ _ _ (List.mem_of_getElem? he), Nat.mul_one]

/-! ### The fixed-point tables (44_linear.md R170 to R176) -/

/-- An entry of a fixed-point table of legal lengths: its weights sum to `ONE`; it names two neighbouring samples, or
the one sample there is. -/
theorem fixedEntry_names {a b : ℤ} (step : ℕ) (ha : 1 ≤ a) (ha' : a ≤ 65535) (hb : 1 ≤ b) (hb' : b ≤ 65535) {d : ℕ}
    (hd : d < b.toNat) :
    ∃ e x, e = fixedEntry a.toNat step (scaleOf a b) (f64Div oneF64 (scaleOf a b)) d ∧ e.w0 + e.w1 = 2048 ∧
      e.ofs0 = x * step ∧ (a.toNat = 1 → e = ⟨0, 0, 2048, 0⟩) ∧
      (a.toNat ≠ 1 → x + 2 ≤ a.toNat ∧ e.ofs1 = (x + 1) * step) := by
  obtain ⟨hsum, -⟩ := fixedEntry_legal step ha ha' hb hb' hd
  lift a to ℕ using by omega
  lift b to ℕ using by omega
  simp only [Int.toNat_natCast] at hd hsum ⊢
  obtain ⟨-, hpos, -, hlast⟩ := fixedPos_bounds (src := a) (dst := b) (by omega) (by omega) (by omega) (by omega) hd
  refine ⟨_, _, rfl, hsum, rfl, fun hone => ?_, fun hne => ?_⟩
  · simp [fixedEntry, fixedPos, hone, fixedWeight_zero, fixedOne]
  · have hbound := hlast hne
    refine ⟨by omega, ?_⟩
    simp only [fixedEntry, if_neg hne]
    rw [Int.toNat_add hpos (by omega)]
    rfl

/-- A table just written holds the entry of a destination index. -/
theorem TableAfter.fixedEntry {built : Prop} {src dst step d : ℕ} {scale : F64} {old table : List FixedEntry}
    {count : Word} (h : TableAfter built (buildFptab src dst step scale) old table count) (hb : built) (hd : d < dst) :
    table[d]? = some (fixedEntry src step scale (f64Div oneF64 scale) d) := by
  rw [(h.written hb).1, overlay_fixedAt old (by simpa using hd), fixedAt_buildFptab hd]

/-! ### Integer scales -/

/-- The integer scales of the integer path are the quotients of the lengths (42_area_integer.md R141). -/
theorem Accepted.int_scales (ha : Accepted i s) (hp : commandPath i s = .int) :
    (finalState i (clearResults s)).iscaleX.toNat = (s32 s.srcWidth / s32 s.dstWidth).toNat ∧
    (finalState i (clearResults s)).iscaleY.toNat = (s32 s.srcHeight / s32 s.dstHeight).toNat := by
  have hi := pixel_of_commandPath (by decide) hp
  obtain ⟨hx, hy⟩ := finalState_int_scales hi hp
  obtain ⟨hsw, hsw', hdw, hdw', -, -⟩ := ha.toOperandsLegal.widths (widthCommands_of_pixel hi)
  obtain ⟨hsh, hsh', hdh, hdh'⟩ := ha.toOperandsLegal.heights (heightCommands_of_pixel hi)
  obtain ⟨hdivX, hdivY⟩ := ha.divides hp
  obtain ⟨hexactX, hexactY⟩ := ha.exactScales hi hp
  rw [hx, hy, BitVec.toNat_ofNat, BitVec.toNat_ofNat, Nat.mod_eq_of_lt hexactX.lt, Nat.mod_eq_of_lt hexactY.lt]
  exact ⟨intScale_legal hsw hsw' hdw hdw' hdivX, intScale_legal hsh hsh' hdh hdh' hdivY⟩

end

/-! ### The obligations -/

/-- Settles O29: the final state of an accepted command, table by table. -/
theorem acceptedCommandCompletes : Obligations.AcceptedCommandCompletes := by
  intro i s ha hapart
  obtain ⟨herr, hdone, hpath⟩ := finalState_status i (clearResults s)
  rw [commandPath_clearResults] at hpath
  obtain ⟨hxtab, hytab, hygrp, hfpx, hfpy, -, -⟩ := ha.memoriesAfter
  refine ⟨_, exec_accepted ha hapart, herr, hdone, hpath, ?_⟩
  rw [hpath]
  exact ⟨ha.int_scales, finalState_scales_of_not_int, hxtab.take_count,
    fun hb => ⟨hytab.take_count hb, (hygrp.written hb).2.trans (groupsY_length _), ha.runsTile hb⟩,
    fun hb => ⟨(hfpx.written hb).2.trans (fixedX_length _), hfpx.take_count hb⟩,
    fun hb => ⟨(hfpy.written hb).2.trans (fixedY_length _), hfpy.take_count hb⟩,
    fun hb => (hxtab.kept hb).2, fun hb => ⟨(hytab.kept hb).2, (hygrp.kept hb).2⟩,
    fun hb => (hfpx.kept hb).2, fun hb => (hfpy.kept hb).2⟩

/-- A table command that passes its checks completes on no path and leaves data memory alone. -/
theorem Accepted.tableCommand {i : Instr} {s : State} (ha : Accepted i s) (hi : i ∉ pixelCommands) :
    exec i s = .next (finalState i (clearResults s)) ∧
    (finalState i (clearResults s)).statusWord = 0x00000002#32 ∧ (finalState i (clearResults s)).mem = s.mem := by
  refine ⟨exec_accepted ha fun h => absurd h hi, ?_, finalState_mem_of_not_pixel hi _⟩
  rw [finalState_statusWord, commandPath_noPath.mpr hi]
  rfl

/-- Settles O38: the cells of the destination pixels one after another. -/
theorem wtabXBuildsHorizontalTable : Obligations.WtabXBuildsHorizontalTable := by
  intro s ha sw dw cn cell
  have hlen : BuildLengths sw dw := ha.lengthsX (.inr rfl)
  obtain ⟨hexec, hstatus, hmem⟩ := ha.tableCommand (by decide)
  have hxtab := ha.memoriesAfter.xtab
  have hcount := (hxtab.written (.inr rfl)).2
  obtain ⟨hdw, hle, hcap⟩ := ha.weightsX (.inr rfl)
  have hcell : cell = cellEntries sw cn (scaleOf (sw : ℤ) (dw : ℤ)) := congrArg (cellEntries sw cn) hlen.scaleOf_eq
  refine ⟨_, hexec, hstatus, hmem, hxtab.take_count (.inr rfl), hcount,
    hcount.trans_le (emittedEntries_legal cn hdw hle (by omega : s32 s.srcWidth ≤ 65535)), fun dx hdx => ?_⟩
  rw [hcell]
  exact ⟨hlen.cell_ne_nil hdx cn, fun e he => hlen.cell_offsets hdx he, fun k e f he hf => hlen.cell_step hdx he hf⟩

/-- Settles O39: the rows of the vertical table and the runs over them. -/
theorem wtabYGroupsRows : Obligations.WtabYGroupsRows := by
  intro s ha dh
  obtain ⟨hexec, hstatus, hmem⟩ := ha.tableCommand (by decide)
  exact ⟨_, hexec, hstatus, hmem, (ha.memoriesAfter.ygrp.written (.inr rfl)).2.trans (groupsY_length _),
    ha.memoriesAfter.ytab.take_count (.inr rfl), ha.runsTile (.inr rfl)⟩

/-- Settles O47: each table command leaves the entry of each destination index of its axis. -/
theorem fptabCommandsBuildEntries : Obligations.FptabCommandsBuildEntries := by
  constructor
  · intro s ha sw cn
    obtain ⟨hexec, hstatus, hmem⟩ := ha.tableCommand (by decide)
    obtain ⟨hsw, hsw', hdw, hdw', -, -⟩ := ha.toOperandsLegal.widths (by decide)
    have htable := ha.memoriesAfter.fpx
    refine ⟨_, hexec, hstatus, hmem, (htable.written (.inr rfl)).2.trans (fixedX_length _),
      htable.take_count (.inr rfl), fun d hd => ?_⟩
    obtain ⟨e, x, rfl, hentry⟩ := fixedEntry_names cn hsw hsw' hdw hdw' hd
    exact ⟨_, x, htable.fixedEntry (.inr rfl) hd, hentry⟩
  · intro s ha sh
    obtain ⟨hexec, hstatus, hmem⟩ := ha.tableCommand (by decide)
    obtain ⟨hsh, hsh', hdh, hdh'⟩ := ha.toOperandsLegal.heights (by decide)
    have htable := ha.memoriesAfter.fpy
    refine ⟨_, hexec, hstatus, hmem, (htable.written (.inr rfl)).2.trans (fixedY_length _),
      htable.take_count (.inr rfl), fun d hd => ?_⟩
    obtain ⟨e, x, he, hsum, hfirst, hone, hpair⟩ := fixedEntry_names 1 hsh hsh' hdh hdh' hd
    rw [Nat.mul_one] at hfirst
    refine ⟨e, (htable.fixedEntry (.inr rfl) hd).trans (congrArg some he.symm), hsum, hone, fun hne => ?_⟩
    obtain ⟨hlast, hsecond⟩ := hpair hne
    rw [Nat.mul_one] at hsecond
    rw [hfirst]
    exact ⟨hlast, hsecond⟩

end Sys2Proof.Machine
end

section
/-! The fixed-point tables in exact numbers (44_linear.md R170 to R176; O48, O49): how far the doubles of `position` are
from the exact position and fraction. -/

namespace Sys2Proof.Machine

/-! ### The entry of a position -/

section
variable {src dst step d : ℕ} {scale inv : F64}

theorem buildFptab_getElem? (src step : ℕ) (scale : F64) (hd : d < dst) :
    (buildFptab src dst step scale)[d]? = some (fixedEntry src step scale (f64Div oneF64 scale) d) := by
  simp [buildFptab, hd]

/-- A position at or beyond the last sample is the last pair, full weight on its second (R172). -/
theorem fixedEntry_of_last (step : ℕ) (hsrc : 2 ≤ src) (hlast : (src : ℤ) - 1 ≤ (fixedPosition scale inv d).s) :
    fixedEntry src step scale inv d = ⟨(src - 2) * step, (src - 1) * step, 0, 2048⟩ := by
  have hclamp : fixedPos src scale inv d = ⟨(src : ℤ) - 2, oneF64⟩ := by
    simp only [fixedPos, if_neg (by omega : src ≠ 1), fixedClamp,
      if_neg (by omega : ¬ (fixedPosition scale inv d).s < 0), if_pos hlast]
  have hfirst : ((src : ℤ) - 2).toNat = src - 2 := by omega
  have hsecond : ((src : ℤ) - 2 + 1).toNat = src - 1 := by omega
  simp only [fixedEntry, hclamp, if_neg (by omega : src ≠ 1), fixedWeight_one, hfirst, hsecond]
  rfl

/-- A position before the last sample is kept (R172). -/
theorem fixedEntry_of_inside (step : ℕ) {x : ℕ} (hpos : (fixedPosition scale inv d).s = x) (hx : x + 1 < src) :
    fixedEntry src step scale inv d = ⟨x * step, (x + 1) * step,
      (2048 - fixedWeight (fixedPosition scale inv d).fx).toNat, (fixedWeight (fixedPosition scale inv d).fx).toNat⟩ := by
  have hclamp : fixedPos src scale inv d = fixedPosition scale inv d := by
    simp only [fixedPos, if_neg (by omega : src ≠ 1), fixedClamp,
      if_neg (by omega : ¬ (fixedPosition scale inv d).s < 0),
      if_neg (by omega : ¬ (src : ℤ) - 1 ≤ (fixedPosition scale inv d).s)]
  simp only [fixedEntry, hclamp, if_neg (by omega : src ≠ 1), hpos]
  rfl

/-- The fraction of `position(d)` at sample `s` before its integer part is taken off (R171). -/
def rawFraction (inv : F64) (d : ℕ) (s : ℤ) : F64 := f64Sub (f64OfInt ((d : ℤ) + 1)) (f64Mul (f64OfInt (s + 1)) inv)

/-- `position(d)` is the floor of the product and its raw fraction, 0 or less its integer part. -/
theorem fixedPosition_eq (scale inv : F64) (d : ℕ) {s : ℤ} (hs : f64Floor (f64Mul (f64OfInt d) scale) = s) :
    fixedPosition scale inv d =
      if f64Le (rawFraction inv d s) 0#64 then ⟨s, 0#64⟩
      else ⟨s, f64Sub (rawFraction inv d s) (f64OfInt (f64Floor (rawFraction inv d s)))⟩ := by
  subst hs
  rfl

theorem fixedPosition_s (scale inv : F64) (d : ℕ) :
    (fixedPosition scale inv d).s = f64Floor (f64Mul (f64OfInt d) scale) := by
  rw [fixedPosition_eq scale inv d rfl, apply_ite FixedPos.s, ite_self]

theorem fixedPosition_fx (scale inv : F64) (d : ℕ) {s : ℤ} (hs : f64Floor (f64Mul (f64OfInt d) scale) = s) :
    (fixedPosition scale inv d).fx =
      if f64Le (rawFraction inv d s) 0#64 then 0#64
      else f64Sub (rawFraction inv d s) (f64OfInt (f64Floor (rawFraction inv d s))) := by
  rw [fixedPosition_eq scale inv d hs, apply_ite FixedPos.fx]

end

/-! ### Rounding errors -/

theorem rnd64_near {q : ℚ} (hq : |q| ≤ 2 ^ 17) : |rnd64 q - q| ≤ 1 / 2 ^ 36 := by
  rcases le_or_gt (1 / 2 ^ 100) |q| with hbig | hsmall
  · exact (rnd64_error (.inr hbig)).trans (by linarith)
  · have hle : (1 : ℚ) / 2 ^ 100 ≤ 2 := by norm_num
    exact (rnd64_abs_error (hsmall.le.trans hle)).trans (by norm_num)

/-- The reciprocal of a double close to a number that is neither tiny nor huge. -/
theorem reciprocal_close {scale : F64} {ratio : ℚ} (hscale : dFin scale) (hlow : 1 / 2 ^ 19 < ratio)
    (hhigh : ratio ≤ 2 ^ 19) (herr : |dVal scale - ratio| ≤ ratio / 2 ^ 53) :
    |dVal (f64Div oneF64 scale) - 1 / ratio| ≤ 1 / ratio / 2 ^ 51 := by
  obtain ⟨herr0, herr1⟩ := abs_le.mp herr
  have hratio : 0 < ratio := lt_trans (by norm_num) hlow
  have hpos : 0 < dVal scale := by linarith
  have hquot : |1 / dVal scale - 1 / ratio| ≤ 1 / ratio / 2 ^ 52 := by
    have hdiff : 1 / dVal scale - 1 / ratio = (ratio - dVal scale) / dVal scale * (1 / ratio) := by
      field_simp
    have hrel : |(ratio - dVal scale) / dVal scale| ≤ 1 / 2 ^ 52 := by
      rw [abs_div, abs_of_pos hpos, abs_sub_comm, div_le_iff₀ hpos]
      linarith
    rw [hdiff, abs_mul, abs_of_pos (by positivity : 0 < 1 / ratio)]
    calc _ ≤ 1 / 2 ^ 52 * (1 / ratio) := mul_le_mul_of_nonneg_right hrel (by positivity)
      _ = 1 / ratio / 2 ^ 52 := by ring
  obtain ⟨hquot0, hquot1⟩ := abs_le.mp hquot
  have hinv0 : 1 / 2 ^ 19 ≤ 1 / ratio := one_div_le_one_div_of_le hratio hhigh
  have hinv1 : 1 / ratio ≤ 2 ^ 19 := by
    rw [div_le_iff₀ hratio]
    linarith
  have habs : |1 / dVal scale| = 1 / dVal scale := abs_of_pos (by positivity)
  obtain ⟨-, hval⟩ := f64Div_val one_val.1 hscale hpos.ne' (by rw [one_val.2, habs]; norm_num at hinv1 hquot1 ⊢; linarith)
  rw [one_val.2] at hval
  have hround := rnd64_error (q := 1 / dVal scale) (.inr (by rw [habs]; norm_num at hinv0 hquot0 ⊢; linarith))
  rw [habs] at hround
  obtain ⟨hround0, hround1⟩ := abs_le.mp hround
  rw [hval, abs_le]
  constructor <;> linarith

/-- The lengths of an axis (00_scope.md R7). -/
structure AxisLengths (src dst : ℕ) : Prop where
  src_pos : 1 ≤ src
  src_le : src ≤ 65535
  dst_pos : 1 ≤ dst
  dst_le : dst ≤ 65535

section
variable {src dst d : ℕ}

/-- The exact position of an index, with its floor and its remainder. -/
theorem exact_position (hdst : 1 ≤ dst) :
    (d : ℚ) * (src / dst) = (d * src / dst : ℕ) + (d * src % dst : ℕ) / (dst : ℚ) := by
  have hdstQ : (0 : ℚ) < dst := by exact_mod_cast hdst
  have hdivmod : (dst : ℚ) * (d * src / dst : ℕ) + (d * src % dst : ℕ) = d * src := by
    exact_mod_cast Nat.div_add_mod (d * src) dst
  field_simp
  linarith

theorem remainder_bounds (hdst : 1 ≤ dst) (hdst' : dst ≤ 65535) :
    0 ≤ ((d * src % dst : ℕ) : ℚ) / dst ∧ ((d * src % dst : ℕ) : ℚ) / dst ≤ 1 - 1 / 65535 := by
  have hdstQ : (0 : ℚ) < dst := by exact_mod_cast hdst
  have hdstQ' : (dst : ℚ) ≤ 65535 := by exact_mod_cast hdst'
  have hlt : ((d * src % dst : ℕ) : ℚ) + 1 ≤ dst := by exact_mod_cast Nat.mod_lt (d * src) hdst
  refine ⟨by positivity, ?_⟩
  rw [div_le_iff₀ hdstQ]
  linarith

theorem position_lt (hsrc : 1 ≤ src) (hd : d < dst) : d * src / dst < src :=
  Nat.div_lt_of_lt_mul (Nat.mul_lt_mul_of_pos_right hd hsrc)

/-- The product `d *d scale` is the exact position up to rounding (R171). -/
theorem AxisLengths.product_close (h : AxisLengths src dst) (hd : d < dst) :
    dFin (f64Mul (f64OfInt d) (scaleOf (src : ℤ) (dst : ℤ))) ∧
    dVal (f64Mul (f64OfInt d) (scaleOf (src : ℤ) (dst : ℤ))) = rnd64 (d * dVal (scaleOf (src : ℤ) (dst : ℤ))) ∧
    |dVal (f64Mul (f64OfInt d) (scaleOf (src : ℤ) (dst : ℤ))) - d * (src / dst)| ≤ 1 / 2 ^ 35 := by
  obtain ⟨hsrc, hsrc', hdst, hdst'⟩ := h
  have hsrcQ : (src : ℚ) ≤ 65535 := by exact_mod_cast hsrc'
  have hdstQ : (0 : ℚ) < dst := by exact_mod_cast hdst
  have hdQ : (d : ℚ) ≤ dst := by exact_mod_cast hd.le
  have hd0 : (0 : ℚ) ≤ d := Nat.cast_nonneg d
  obtain ⟨hscale, -⟩ := scaleOf_val (a := src) (b := dst) (by omega) (by omega) (by omega) (by omega)
  have herr := scale_error (a := src) (b := dst) (by omega) (by omega) (by omega) (by omega)
  obtain ⟨hdfin, hdval⟩ := f64OfInt_val (z := (d : ℤ)) (by omega)
  rw [Int.cast_natCast] at hdval
  simp only [Int.cast_natCast] at herr
  generalize scaleOf (src : ℤ) (dst : ℤ) = scale at *
  have hexact : (d : ℚ) * (src / dst) ≤ 65535 := by
    rw [← mul_div_assoc, div_le_iff₀ hdstQ]
    nlinarith
  have hexact0 : 0 ≤ (d : ℚ) * (src / dst) := by positivity
  have hprod : |(d : ℚ) * dVal scale - d * (src / dst)| ≤ 1 / 2 ^ 36 := by
    rw [← mul_sub, abs_mul, abs_of_nonneg hd0]
    calc (d : ℚ) * |dVal scale - src / dst| ≤ d * (src / dst / 2 ^ 53) := mul_le_mul_of_nonneg_left herr hd0
      _ = d * (src / dst) / 2 ^ 53 := by ring
      _ ≤ 1 / 2 ^ 36 := by linarith
  obtain ⟨hprod0, hprod1⟩ := abs_le.mp hprod
  have hsmall : |(d : ℚ) * dVal scale| ≤ 2 ^ 17 := by
    rw [abs_le]
    constructor <;> linarith
  obtain ⟨hfin, hval⟩ := f64Mul_val hdfin hscale (by rw [hdval]; exact hsmall.trans (by norm_num))
  rw [hdval] at hval
  obtain ⟨hround0, hround1⟩ := abs_le.mp (rnd64_near hsmall)
  refine ⟨hfin, hval, ?_⟩
  rw [hval, abs_le]
  constructor <;> linarith

/-- The floor of the product is not above that of the exact position, nor two below. -/
theorem AxisLengths.floor_product (h : AxisLengths src dst) (hd : d < dst) :
    f64Floor (f64Mul (f64OfInt d) (scaleOf (src : ℤ) (dst : ℤ))) = (d * src / dst : ℕ) ∨
    f64Floor (f64Mul (f64OfInt d) (scaleOf (src : ℤ) (dst : ℤ))) + 1 = (d * src / dst : ℕ) := by
  obtain ⟨hfin, -, hclose⟩ := h.product_close hd
  rw [exact_position h.dst_pos] at hclose
  obtain ⟨hclose0, hclose1⟩ := abs_le.mp hclose
  obtain ⟨hrem0, hrem1⟩ := remainder_bounds (d := d) (src := src) h.dst_pos h.dst_le
  rw [f64Floor_val hfin]
  generalize dVal (f64Mul (f64OfInt d) (scaleOf (src : ℤ) (dst : ℤ))) = v at *
  generalize d * src / dst = s at *
  have hlow : (s : ℤ) - 1 ≤ ⌊v⌋ := Int.le_floor.mpr (by push_cast; linarith)
  have hhigh : ⌊v⌋ < (s : ℤ) + 1 := Int.floor_lt.mpr (by push_cast; linarith)
  omega

/-- Where the doubles cannot miss the floor, it is that of the exact position. -/
theorem AxisLengths.floor_product_exact (h : AxisLengths src dst) (hd : d < dst)
    (hexact : d = 0 ∨ d * src % dst ≠ 0 ∨ dVal (scaleOf (src : ℤ) (dst : ℤ)) * dst = src) :
    f64Floor (f64Mul (f64OfInt d) (scaleOf (src : ℤ) (dst : ℤ))) = (d * src / dst : ℕ) := by
  obtain ⟨hfin, hval, hclose⟩ := h.product_close hd
  have hdstQ : (0 : ℚ) < dst := by exact_mod_cast h.dst_pos
  suffices hge : ((d * src / dst : ℕ) : ℚ) ≤ dVal (f64Mul (f64OfInt d) (scaleOf (src : ℤ) (dst : ℤ))) by
    have hfloor : ((d * src / dst : ℕ) : ℤ) ≤ f64Floor (f64Mul (f64OfInt d) (scaleOf (src : ℤ) (dst : ℤ))) := by
      rw [f64Floor_val hfin]
      exact Int.le_floor.mpr (by exact_mod_cast hge)
    rcases h.floor_product hd with heq | hless
    · exact heq
    · omega
  have hposition := exact_position (src := src) (d := d) h.dst_pos
  by_cases hrem : d * src % dst = 0
  · rw [hrem, Nat.cast_zero, zero_div, add_zero] at hposition
    have hproduct : (d : ℚ) * dVal (scaleOf (src : ℤ) (dst : ℤ)) = (d * src / dst : ℕ) := by
      rcases hexact with rfl | hne | hscale
      · simp
      · exact absurd hrem hne
      · rw [← hposition, ← hscale, mul_div_cancel_right₀ _ hdstQ.ne']
    have hlt := position_lt h.src_pos hd
    have hsrc := h.src_le
    rw [hval, hproduct, rnd64_nat (by omega)]
  · have hrem1 : 1 / 65535 ≤ ((d * src % dst : ℕ) : ℚ) / dst := by
      have hdst' : (dst : ℚ) ≤ 65535 := by exact_mod_cast h.dst_le
      have hone : (1 : ℚ) ≤ (d * src % dst : ℕ) := by exact_mod_cast Nat.one_le_iff_ne_zero.mpr hrem
      rw [div_le_div_iff₀ (by norm_num) hdstQ]
      linarith
    obtain ⟨hclose0, -⟩ := abs_le.mp hclose
    linarith

/-- The reciprocal of the scale, up to a relative error (R170). -/
theorem AxisLengths.inverse_close (h : AxisLengths src dst) :
    |dVal (f64Div oneF64 (scaleOf (src : ℤ) (dst : ℤ))) - dst / src| ≤ dst / src / 2 ^ 51 := by
  obtain ⟨hsrc, hsrc', hdst, hdst'⟩ := h
  have hsrcQ : (0 : ℚ) < src := by exact_mod_cast hsrc
  have hdstQ : (0 : ℚ) < dst := by exact_mod_cast hdst
  obtain ⟨hscale, -⟩ := scaleOf_val (a := src) (b := dst) (by omega) (by omega) (by omega) (by omega)
  obtain ⟨hratio0, hratio1⟩ := quotient_bounds (a := src) (b := dst) (by omega) (by omega) (by omega) (by omega)
  have herr := scale_error (a := src) (b := dst) (by omega) (by omega) (by omega) (by omega)
  simp only [Int.cast_natCast] at herr hratio0 hratio1
  generalize scaleOf (src : ℤ) (dst : ℤ) = scale at *
  rw [← one_div_div (src : ℚ) dst]
  generalize (src : ℚ) / dst = ratio at *
  exact reciprocal_close hscale hratio0 hratio1.le herr

/-- The raw fraction at sample `s` before the last is the exact one up to rounding (R171). -/
theorem AxisLengths.rawFraction_close (h : AxisLengths src dst) (hd : d < dst) {s : ℕ} (hs : s + 1 < src) :
    dFin (rawFraction (f64Div oneF64 (scaleOf (src : ℤ) (dst : ℤ))) d s) ∧
    |dVal (rawFraction (f64Div oneF64 (scaleOf (src : ℤ) (dst : ℤ))) d s) - (((d : ℚ) + 1) - ((s : ℚ) + 1) * dst / src)|
      ≤ 1 / 2 ^ 32 := by
  have hclose := h.inverse_close
  obtain ⟨hsrc, hsrc', hdst, hdst'⟩ := h
  obtain ⟨hinv, -, -⟩ := inverse_val hsrc (by omega) hdst (by omega)
  generalize f64Div oneF64 (scaleOf (src : ℤ) (dst : ℤ)) = inv at *
  have hsrcQ : (0 : ℚ) < src := by exact_mod_cast hsrc
  have hdstQ : (dst : ℚ) ≤ 65535 := by exact_mod_cast hdst'
  have hdQ : (d : ℚ) + 1 ≤ dst := by exact_mod_cast hd
  have hsQ : (s : ℚ) + 1 ≤ src := by exact_mod_cast hs.le
  have hs0 : (0 : ℚ) ≤ (s : ℚ) + 1 := by positivity
  have hd0 : (0 : ℚ) ≤ (d : ℚ) := Nat.cast_nonneg d
  have hpoint : ((s : ℚ) + 1) * (dst / src) ≤ 65535 := by
    rw [← mul_div_assoc, div_le_iff₀ hsrcQ]
    nlinarith
  have hpoint0 : 0 ≤ ((s : ℚ) + 1) * (dst / src) := by positivity
  have hprod : |((s : ℚ) + 1) * dVal inv - ((s : ℚ) + 1) * (dst / src)| ≤ 1 / 2 ^ 34 := by
    rw [← mul_sub, abs_mul, abs_of_nonneg hs0]
    calc ((s : ℚ) + 1) * |dVal inv - dst / src| ≤ ((s : ℚ) + 1) * (dst / src / 2 ^ 51) :=
          mul_le_mul_of_nonneg_left hclose hs0
      _ = ((s : ℚ) + 1) * (dst / src) / 2 ^ 51 := by ring
      _ ≤ 1 / 2 ^ 34 := by linarith
  obtain ⟨hprod0, hprod1⟩ := abs_le.mp hprod
  have hsmall : |((s : ℚ) + 1) * dVal inv| ≤ 2 ^ 17 := by
    rw [abs_le]
    constructor <;> linarith
  obtain ⟨hround0, hround1⟩ := abs_le.mp (rnd64_near hsmall)
  obtain ⟨hsfin, hsval⟩ := f64OfInt_val (z := (s : ℤ) + 1) (by omega)
  obtain ⟨hdfin, hdval⟩ := f64OfInt_val (z := (d : ℤ) + 1) (by omega)
  push_cast at hsval hdval
  obtain ⟨htfin, htval⟩ := f64Mul_val hsfin hinv (by rw [hsval]; exact hsmall.trans (by norm_num))
  rw [hsval] at htval
  have hdiff : |(d : ℚ) + 1 - rnd64 (((s : ℚ) + 1) * dVal inv)| ≤ 2 ^ 17 := by
    rw [abs_le]
    constructor <;> linarith
  obtain ⟨hfin, hval⟩ := f64Sub_val hdfin htfin (by rw [hdval, htval]; exact hdiff.trans (by norm_num))
  rw [hdval, htval] at hval
  obtain ⟨hlast0, hlast1⟩ := abs_le.mp (rnd64_near hdiff)
  refine ⟨hfin, ?_⟩
  rw [rawFraction, hval, mul_div_assoc, abs_le]
  constructor <;> linarith

/-- The exact fraction stays below 1 by the grid of the source. -/
theorem exact_fraction_le (hsrc : 1 ≤ src) (hsrc' : src ≤ 65535) (hdst : 1 ≤ dst) :
    ((d : ℚ) + 1) - (((d * src / dst : ℕ) : ℚ) + 1) * dst / src ≤ 1 - 1 / 65535 := by
  have hsrcQ : (0 : ℚ) < src := by exact_mod_cast hsrc
  have hsrcQ' : (src : ℚ) ≤ 65535 := by exact_mod_cast hsrc'
  have hnext : (d : ℚ) * src + 1 ≤ (((d * src / dst : ℕ) : ℚ) + 1) * dst := by
    exact_mod_cast Nat.lt_mul_of_div_lt (Nat.lt_succ_self (d * src / dst)) hdst
  have hgrid : (d : ℚ) + 1 / 65535 ≤ (((d * src / dst : ℕ) : ℚ) + 1) * dst / src := by
    rw [le_div_iff₀ hsrcQ]
    linarith
  linarith

end

/-! ### The fraction and its weight -/

/-- The fraction of R171 is 0 where the exact one is negative, and the exact one elsewhere, up to rounding: a fraction
below 1 has no integer part to take off. -/
theorem fraction_close {raw : F64} {exact : ℚ} (hfin : dFin raw) (hclose : |dVal raw - exact| ≤ 1 / 2 ^ 32)
    (hhigh : exact ≤ 1 - 1 / 65535) :
    |dVal (if f64Le raw 0#64 then 0#64 else f64Sub raw (f64OfInt (f64Floor raw))) - max 0 exact| ≤ 1 / 2 ^ 31 := by
  obtain ⟨hclose0, hclose1⟩ := abs_le.mp hclose
  by_cases hle : f64Le raw 0#64 = true
  · have hneg := (f64Le_iff hfin zero_val.1).mp hle
    rw [zero_val.2] at hneg
    rw [if_pos hle, zero_val.2, zero_sub, abs_neg, abs_of_nonneg (le_max_left _ _)]
    exact max_le (by norm_num) (by linarith)
  · have hpos : 0 < dVal raw := by
      rw [f64Le_iff hfin zero_val.1, zero_val.2] at hle
      exact not_le.mp hle
    have hfloor : f64Floor raw = 0 := by
      rw [f64Floor_val hfin, Int.floor_eq_zero_iff, Set.mem_Ico]
      exact ⟨hpos.le, by linarith⟩
    obtain ⟨hzero, hzeroval⟩ := f64OfInt_val (z := 0) (by norm_num)
    rw [Int.cast_zero] at hzeroval
    have hsmall : |dVal raw - 0| ≤ 2 := by
      rw [sub_zero, abs_of_pos hpos]
      linarith
    obtain ⟨-, hval⟩ := f64Sub_val hfin hzero (by rw [hzeroval]; exact hsmall.trans (by norm_num))
    rw [hzeroval] at hval
    obtain ⟨hround0, hround1⟩ := abs_le.mp (rnd64_abs_error hsmall)
    have hmax : max 0 exact ≤ dVal raw + 1 / 2 ^ 32 := max_le (by linarith) (by linarith)
    have hmax' := le_max_right 0 exact
    rw [if_neg hle, hfloor, hval, abs_le]
    constructor <;> linarith

/-- The weight of a fraction is 2048 times it, rounded to an integer (R176). -/
theorem fixedWeight_close {fx : F64} (h : UnitFraction fx) :
    |(fixedWeight fx : ℚ) - 2048 * dVal fx| ≤ 1 / 2 + 1 / 2 ^ 36 := by
  obtain ⟨hfin, hlow, hhigh⟩ := h
  have hsmall : |dVal fx * 2048| ≤ 2 ^ 17 := by
    rw [abs_le]
    constructor <;> linarith
  obtain ⟨hprod, hval⟩ := f64Mul_val hfin fixedOne_val.1 (by rw [fixedOne_val.2]; exact hsmall.trans (by norm_num))
  rw [fixedOne_val.2] at hval
  obtain ⟨hround0, hround1⟩ := abs_le.mp (rnd64_near hsmall)
  obtain ⟨hrne0, hrne1⟩ := abs_le.mp (rneQ_error (rnd64 (dVal fx * 2048)))
  rw [fixedWeight, f64Rne_val hprod, hval, abs_le]
  constructor <;> linarith

/-- The weight of a position that the doubles do not miss (R171, R176). -/
theorem AxisLengths.weight_close {src dst d : ℕ} (h : AxisLengths src dst) (hd : d < dst)
    (hfloor : f64Floor (f64Mul (f64OfInt d) (scaleOf (src : ℤ) (dst : ℤ))) = (d * src / dst : ℕ))
    (hinside : d * src / dst + 1 < src) :
    |((fixedWeight (fixedPosition (scaleOf (src : ℤ) (dst : ℤ)) (f64Div oneF64 (scaleOf (src : ℤ) (dst : ℤ))) d).fx).toNat : ℚ)
      - 2048 * max 0 (((d : ℚ) + 1) - (((d * src / dst : ℕ) : ℚ) + 1) * dst / src)| ≤ 1 / 2 + 1 / 1000 := by
  obtain ⟨hraw, hclose⟩ := h.rawFraction_close hd hinside
  have hhigh := exact_fraction_le (d := d) h.src_pos h.src_le h.dst_pos
  have hfx := fraction_close hraw hclose hhigh
  rw [← fixedPosition_fx _ _ _ hfloor] at hfx
  obtain ⟨hsrc, hsrc', hdst, hdst'⟩ := h
  obtain ⟨-, hunit⟩ := fixedPosition_bounds hsrc (by omega) hdst (by omega) hd
  generalize (fixedPosition _ _ d).fx = fx at *
  obtain ⟨hnonneg, -⟩ := fixedWeight_bounds hunit
  have hcast : ((fixedWeight fx).toNat : ℚ) = fixedWeight fx := by exact_mod_cast Int.toNat_of_nonneg hnonneg
  obtain ⟨hweight0, hweight1⟩ := abs_le.mp (fixedWeight_close hunit)
  obtain ⟨hfx0, hfx1⟩ := abs_le.mp hfx
  rw [hcast, abs_le]
  constructor <;> linarith

/-! ### The obligations -/

/-- Settles O48: at scale 1.0 the position of an index is the index. -/
theorem scaleOneFixedTable : Obligations.ScaleOneFixedTable := by
  intro n step d hn hle hd
  have hpos := fixedPosition_one (d := d) (by omega)
  rw [buildFptab_getElem? n step _ hd, scaleOf_self (by omega) (by omega), f64Div_one_one]
  by_cases hlast : d + 1 < n
  · rw [if_pos hlast, fixedEntry_of_inside step (congrArg FixedPos.s hpos) hlast, hpos, fixedWeight_zero]
    rfl
  · rw [if_neg hlast, fixedEntry_of_last step hn (by rw [hpos]; show (n : ℤ) - 1 ≤ d; omega)]

/-- Settles O49: the floor of the product is the exact one or one below, and the clamp then takes the last pair. -/
theorem fixedTablePositions : Obligations.FixedTablePositions := by
  intro src dst step d hsrc hsrc' hdst hdst' hd scale s
  have h : AxisLengths src dst := ⟨by omega, hsrc', hdst, hdst'⟩
  obtain ⟨hsum, -⟩ := fixedEntry_bounds step h.src_pos (by omega) hdst (by omega) hd
  obtain ⟨hnonneg, -⟩ := fixedPosition_bounds h.src_pos (by omega) hdst (by omega) hd
  obtain ⟨x, hx⟩ := Int.eq_ofNat_of_zero_le hnonneg
  have hfloor : f64Floor (f64Mul (f64OfInt d) scale) = x := by rw [← fixedPosition_s, hx]
  have hmiss : (x : ℤ) = s ∨ (x : ℤ) + 1 = s := hfloor ▸ h.floor_product hd
  have hhit : (d = 0 ∨ d * src % dst ≠ 0 ∨ f64Value scale * dst = src) → (x : ℤ) = s := fun hexact => by
    rw [f64Value_eq] at hexact
    exact hfloor ▸ h.floor_product_exact hd hexact
  have hweight : (x : ℤ) = s → s + 1 < src →
      |((fixedWeight (fixedPosition scale (f64Div oneF64 scale) d).fx).toNat : ℚ) -
        2048 * max 0 (((d : ℚ) + 1) - ((s : ℚ) + 1) * dst / src)| ≤ 1 / 2 + 1 / 1000 :=
    fun hxs => h.weight_close hd (hfloor.trans hxs)
  have hlt : s < src := position_lt h.src_pos hd
  have hget := buildFptab_getElem? src step scale hd
  clear_value s
  by_cases hlast : src ≤ x + 1
  · have hentry := fixedEntry_of_last step hsrc (by rw [hx]; omega)
    rw [hentry] at hget hsum
    refine ⟨_, src - 2, hget, rfl, ?_, hsum, .inr (by omega), fun _ => ⟨fun _ => rfl, fun hinside => by omega⟩⟩
    rw [show src - 2 + 1 = src - 1 by omega]
  · have hentry := fixedEntry_of_inside step hx (not_le.mp hlast)
    rw [hentry] at hget hsum
    refine ⟨_, x, hget, rfl, rfl, hsum, by omega, fun hexact => ⟨fun hbeyond => ?_, fun hinside => ⟨?_, ?_⟩⟩⟩
    · have hxs := hhit hexact
      omega
    · exact_mod_cast hhit hexact
    · exact hweight (hhit hexact) hinside

end Sys2Proof.Machine
end
